-- ==== Sys2Proof/Word.lean ====
section
/-! DEFINITION. The words of the Crintilas K9 and the sizes the whole model shares (spec/00 R2). -/

namespace Sys2Proof

/-- One byte of memory. -/
abbrev Byte := BitVec 8
/-- One vector register or tile element. -/
abbrev Word := BitVec 32
/-- One scalar register, instruction word or record word. -/
abbrev DWord := BitVec 64
/-- A set of lanes of one weft, bit L for lane L (R46). -/
abbrev Lanes := BitVec 64

/-- A weft's place on the device: logical core, shuttle 0 to 3, thread-table slot 0 to 15.
Slot 16 of shuttle 0 stands for the core's supervisor weft, which lies outside the counted slots (R33). -/
structure WRef where
  core : Nat
  shuttle : Nat
  slot : Nat
  deriving DecidableEq, Repr, Inhabited

end Sys2Proof
end

