-- ==== Sys2Proof/Syntax.lean ====
section
/-! DEFINITION. The instructions of Ulell revision 2 and the device's own steps: one constructor of `Instr` per row of
the opcode table. Operands and modifiers are typed; a raw encoding never reaches the machine (spec/05). -/

namespace Sys2Proof

/-- An operand code of R95. `imm n` is the inline integer n − 32, `fimm n` the inline float of code 864 + n,
`lit` the literal of the next word (R98). -/
inductive Operand where
  | vec (n : Fin 640)
  | scal (n : Fin 128)
  | imm (n : Fin 96)
  | fimm (n : Fin 16)
  | p (n : Fin 8)
  | q (n : Fin 8)
  | lit
  deriving DecidableEq, Repr, Inhabited

/-- The guard of R101. -/
structure Guard where
  uni : Bool
  neg : Bool
  num : Fin 8
  deriving DecidableEq, Repr, Inhabited

/-- What every full instruction word carries: whether it ends its pick (E, R103), its guard, and the 58-bit value of
its literal word when an operand names code 1023 (R98). -/
structure Hdr where
  last : Bool
  guard : Guard
  lit : Option (BitVec 58)
  deriving DecidableEq, Repr, Inhabited

/-- Integer types of class 1 (R114). -/
inductive IntTy where
  | s32 | z32 | s64 | z64
  deriving DecidableEq, Repr, Inhabited

/-- Rounding modes (R135). -/
inductive Rnd where
  | rn | rz | rd | ru
  deriving DecidableEq, Repr, Inhabited

/-- Compares of ISETP (R114). -/
inductive ICmp where
  | eq | ne | lt | le | gt | ge
  deriving DecidableEq, Repr, Inhabited

/-- Compares of FSETP (R115). -/
inductive FCmp where
  | eq | ne | lt | le | gt | ge | num | nan
  deriving DecidableEq, Repr, Inhabited

structure IntMod where
  ty : IntTy
  sat : Bool
  deriving DecidableEq, Repr, Inhabited

structure ShMod where
  ty : IntTy
  clamp : Bool
  deriving DecidableEq, Repr, Inhabited

/-- Float modifiers of class 2 (R115). -/
structure FltMod where
  rnd : Rnd
  sat : Bool
  neg : Bool
  abs : Bool
  deriving DecidableEq, Repr, Inhabited

/-- Packed integer modifiers (R116): `uns` is .z16x2. -/
structure PMod where
  uns : Bool
  sat : Bool
  deriving DecidableEq, Repr, Inhabited

/-- Half-precision pair modifiers (R116). -/
structure HMod where
  f16 : Bool
  rnd : Rnd
  sat : Bool
  deriving DecidableEq, Repr, Inhabited

/-- CVT types (R116); `b8 n` is binary8 of precision n + 1. -/
inductive CvtTy where
  | s32 | z32 | s64 | z64 | s16 | z16 | s8 | z8 | f32 | f16 | bf16 | e2m1 | e8m0
  | b8 (n : Fin 7)
  deriving DecidableEq, Repr, Inhabited

structure CvtMod where
  dty : CvtTy
  sty : CvtTy
  rnd : Rnd
  sat : Bool
  uns : Bool
  ext : Bool
  deriving DecidableEq, Repr, Inhabited

inductive ShflMode where
  | idx | up | down | xor
  deriving DecidableEq, Repr, Inhabited

inductive VoteMode where
  | all | any | ballot | eq
  deriving DecidableEq, Repr, Inhabited

inductive RedOp where
  | add | min | max | and | or | xor
  deriving DecidableEq, Repr, Inhabited

inductive RedTy where
  | s32 | z32 | f32
  deriving DecidableEq, Repr, Inhabited

/-- Access sizes of R118. -/
inductive Size where
  | b8 | b16 | b32 | b64 | b128 | s8 | s16
  deriving DecidableEq, Repr, Inhabited

/-- Scopes of R174. -/
inductive Scope where
  | weft | bolt | pair | dev | sys
  deriving DecidableEq, Repr, Inhabited

/-- Orders of loads and stores: `sync` is .acq on loads and .rel on stores (R118). -/
inductive MOrd where
  | plain | sync | vol
  deriving DecidableEq, Repr, Inhabited

/-- Orders of atomics and fences (R119). -/
inductive AOrd where
  | relaxed | acq | rel | ar
  deriving DecidableEq, Repr, Inhabited

/-- The offset of an address: a raw immediate or an index register (R118). -/
inductive Off where
  | imm (n : BitVec 10)
  | idx (o : Operand)
  deriving DecidableEq, Repr, Inhabited

structure MemMod where
  size : Size
  ord : MOrd
  scope : Scope
  remote : Bool
  ef : Bool
  fb : Bool
  deriving DecidableEq, Repr, Inhabited

/-- Atomic operations (R119). -/
inductive AtomOp where
  | add | minS | minZ | maxS | maxZ | and | or | xor | exch | cas | incwrap | faddF32 | fminF32 | fmaxF32 | faddBf
  deriving DecidableEq, Repr, Inhabited

structure AtomMod where
  op : AtomOp
  w64 : Bool
  ord : AOrd
  scope : Scope
  remote : Bool
  ef : Bool
  fb : Bool
  deriving DecidableEq, Repr, Inhabited

structure FenceMod where
  ord : AOrd
  scope : Scope
  fb : Bool
  deriving DecidableEq, Repr, Inhabited

inductive CctlOp where
  | wb | inv | wbinv
  deriving DecidableEq, Repr, Inhabited

inductive MmaFmt where
  | c16b | c16h | c8 | c4
  deriving DecidableEq, Repr, Inhabited

/-- MMA modifiers (R120); `chunks` is N − 1. -/
structure MmaMod where
  fmt : MmaFmt
  chunks : Fin 16
  ra : Bool
  deriving DecidableEq, Repr, Inhabited

inductive BarMode where
  | sync | arrive | wait
  deriving DecidableEq, Repr, Inhabited

/-- Counter modifiers (R120); `sync` is .rel of ECADD and .acq of ECWAIT and ECRD. -/
structure EcMod where
  sync : Bool
  scope : Scope
  remote : Bool
  fb : Bool
  deriving DecidableEq, Repr, Inhabited

/-- Second scalar source of a pair word, field ST (R106). -/
inductive PST where
  | reg (n : Fin 128)
  | imm (n : Fin 96)
  deriving DecidableEq, Repr, Inhabited

/-- Second vector source of a pair word, field VS (R106); `imm n` is n − 32. -/
inductive PVS where
  | vec (n : Fin 128)
  | scal (n : Fin 64)
  | imm (n : Fin 64)
  deriving DecidableEq, Repr, Inhabited

inductive SBin where
  | add | sub | and | or | xor | shl | shr
  deriving DecidableEq, Repr, Inhabited

/-- The scalar slot (R107). -/
inductive SSlot where
  | bin (op : SBin) (d s : Fin 128) (t : PST)
  | mov (d : Fin 128) (t : PST)
  | lea (k : Fin 8) (d s : Fin 128) (t : PST)
  | setp (uns : Bool) (c : ICmp) (d : Fin 7) (s : Fin 128) (t : PST)
  | sel (k : Fin 7) (d s : Fin 128) (t : PST)
  deriving DecidableEq, Repr, Inhabited

/-- The operation of the vector slot (R108); `z` is type .z32. -/
inductive VOp where
  | iadd (z sat : Bool)
  | isub (z sat : Bool)
  | and (z : Bool)
  | or (z : Bool)
  | xor (z : Bool)
  | shl (z clamp : Bool)
  | shr (z clamp : Bool)
  | mov
  | fadd (m : FltMod)
  | fmul (m : FltMod)
  | fmin (neg abs : Bool)
  | fmax (neg abs : Bool)
  | vadd2 (m : PMod)
  | vmin2 (m : PMod)
  | vmax2 (m : PMod)
  | hadd2 (m : HMod)
  | hmul2 (m : HMod)
  deriving DecidableEq, Repr, Inhabited

structure VSlot where
  op : VOp
  vd : Fin 128
  vs : PVS
  deriving DecidableEq, Repr, Inhabited

/-- The three forms of TLBINV and its scope in the control command (R293). -/
inductive InvScope where
  | page | asid | all
  deriving DecidableEq, Repr, Inhabited

/-- A register of the device's host interface that a host write reaches as such (R4): a place of a counter slot in shared memory region 0
(R307), the mask of an MSI-X vector of the function or of all of its vectors (R309), and, on PF0, the binding of a VF
as a TDI (R313). -/
inductive HostReg where
  | slot (id offset : Nat)
  | msixVector (vector : Nat)
  | msixFunction
  | tdiBind (vf : Nat)
  deriving DecidableEq, Repr, Inhabited

/-- A host or peer memory transaction. -/
inductive BusOp where
  | read (len : Nat)
  | write (data : List (BitVec 8))
  | atomic (op : AtomOp) (w64 : Bool) (operand cmp : BitVec 64)
  deriving DecidableEq, Repr, Inhabited

/-- The errors a patrol or demand read of an HBM line meets: the symbol positions in error (R338). -/
structure HbmRead where
  stack : Nat
  pch : Nat
  row : Nat
  line : Nat
  errors : List Nat
  deriving DecidableEq, Repr, Inhabited

/-- Every row of the opcode table: the instruction words first, in the table's order, then the device's own steps.
The arguments of a step name the agent it concerns and carry what arrives from outside the device. -/
inductive Instr where
  -- instruction words
  | pairWord (last : Bool) (g : Guard) (s : Option SSlot) (v : Option VSlot)
  | nop (h : Hdr)
  | bra (h : Hdr) (off : BitVec 30)
  | brx (h : Hdr) (a : Operand)
  | call (h : Hdr) (off : BitVec 30)
  | callx (h : Hdr) (a : Operand)
  | ret (h : Hdr)
  | exit (h : Hdr)
  | yield (h : Hdr)
  | waitl (h : Hdr) (d a : Operand)
  | bar (h : Hdr) (m : BarMode) (a b : Operand)
  | trap (h : Hdr) (a : Operand)
  | syscall (h : Hdr) (a : Operand)
  | brk (h : Hdr) (a : Operand)
  | launch (h : Hdr) (d a b : Operand)
  | iadd (h : Hdr) (m : IntMod) (d a b : Operand)
  | isub (h : Hdr) (m : IntMod) (d a b : Operand)
  | imul (h : Hdr) (m : IntMod) (d a b : Operand)
  | imulh (h : Hdr) (ty : IntTy) (d a b : Operand)
  | imad (h : Hdr) (m : IntMod) (d a b c : Operand)
  | imin (h : Hdr) (ty : IntTy) (d a b : Operand)
  | imax (h : Hdr) (ty : IntTy) (d a b : Operand)
  | iabs (h : Hdr) (m : IntMod) (d a : Operand)
  | and (h : Hdr) (ty : IntTy) (d a b : Operand)
  | or (h : Hdr) (ty : IntTy) (d a b : Operand)
  | xor (h : Hdr) (ty : IntTy) (d a b : Operand)
  | not (h : Hdr) (ty : IntTy) (d a : Operand)
  | shl (h : Hdr) (m : ShMod) (d a b : Operand)
  | shr (h : Hdr) (m : ShMod) (d a b : Operand)
  | sar (h : Hdr) (m : ShMod) (d a b : Operand)
  | bfx (h : Hdr) (ty : IntTy) (d a b c : Operand)
  | bfi (h : Hdr) (ty : IntTy) (d a b c : Operand)
  | popc (h : Hdr) (ty : IntTy) (d a : Operand)
  | clz (h : Hdr) (ty : IntTy) (d a : Operand)
  | brev (h : Hdr) (ty : IntTy) (d a : Operand)
  | isetp (h : Hdr) (ty : IntTy) (c : ICmp) (d a b : Operand)
  | sel (h : Hdr) (ty : IntTy) (d a b c : Operand)
  | mov (h : Hdr) (ty : IntTy) (d a : Operand)
  | lea (h : Hdr) (m : IntMod) (k : Fin 8) (d a b : Operand)
  | swizb (h : Hdr) (z : Bool) (d a b c : Operand)
  | plop (h : Hdr) (table : BitVec 8) (d a b : Operand)
  | p2v (h : Hdr) (d : Operand)
  | v2p (h : Hdr) (a b : Operand)
  | fadd (h : Hdr) (m : FltMod) (d a b : Operand)
  | fsub (h : Hdr) (m : FltMod) (d a b : Operand)
  | fmul (h : Hdr) (m : FltMod) (d a b : Operand)
  | ffma (h : Hdr) (m : FltMod) (d a b c : Operand)
  | fmin (h : Hdr) (neg abs : Bool) (d a b : Operand)
  | fmax (h : Hdr) (neg abs : Bool) (d a b : Operand)
  | fsetp (h : Hdr) (c : FCmp) (d a b : Operand)
  | frcp (h : Hdr) (rnd : Rnd) (sat neg : Bool) (d a : Operand)
  | frsq (h : Hdr) (rnd : Rnd) (sat neg : Bool) (d a : Operand)
  | fex2 (h : Hdr) (rnd : Rnd) (sat neg : Bool) (d a : Operand)
  | flg2 (h : Hdr) (rnd : Rnd) (sat neg : Bool) (d a : Operand)
  | fsin (h : Hdr) (rnd : Rnd) (sat neg : Bool) (d a : Operand)
  | fcos (h : Hdr) (rnd : Rnd) (sat neg : Bool) (d a : Operand)
  | frnd (h : Hdr) (rnd : Rnd) (sat neg : Bool) (d a : Operand)
  | fclass (h : Hdr) (d a : Operand)
  | fscale (h : Hdr) (rnd : Rnd) (sat neg : Bool) (d a b : Operand)
  | vadd2 (h : Hdr) (m : PMod) (d a b : Operand)
  | vsub2 (h : Hdr) (m : PMod) (d a b : Operand)
  | vmin2 (h : Hdr) (m : PMod) (d a b : Operand)
  | vmax2 (h : Hdr) (m : PMod) (d a b : Operand)
  | vacs2 (h : Hdr) (m : PMod) (dec : Fin 4) (d a b c : Operand)
  | hadd2 (h : Hdr) (m : HMod) (d a b : Operand)
  | hmul2 (h : Hdr) (m : HMod) (d a b : Operand)
  | hfma2 (h : Hdr) (m : HMod) (d a b c : Operand)
  | cvt (h : Hdr) (m : CvtMod) (d a : Operand)
  | shfl (h : Hdr) (m : ShflMode) (d a b c : Operand)
  | vote (h : Hdr) (m : VoteMode) (d a : Operand)
  | redux (h : Hdr) (op : RedOp) (ty : RedTy) (d a : Operand)
  | mates (h : Hdr) (w64 : Bool) (mask : Option Operand) (d a : Operand)
  | rdfl (h : Hdr) (d a : Operand)
  | movs (h : Hdr) (num : BitVec 10) (d : Operand) (slot : Option Operand)
  | sets (h : Hdr) (num : BitVec 10) (a : Operand)
  | ld (h : Hdr) (m : MemMod) (d a : Operand) (off : Off)
  | st (h : Hdr) (m : MemMod) (d a : Operand) (off : Off)
  | lds (h : Hdr) (m : MemMod) (d a : Operand) (off : Off)
  | sts (h : Hdr) (m : MemMod) (d a : Operand) (off : Off)
  | ldc (h : Hdr) (size : Size) (fb : Bool) (d a : Operand) (off : Off)
  | atom (h : Hdr) (m : AtomMod) (d a b : Operand)
  | atoms (h : Hdr) (m : AtomMod) (d a b : Operand)
  | red (h : Hdr) (m : AtomMod) (a b : Operand)
  | fence (h : Hdr) (m : FenceMod)
  | pref (h : Hdr) (ef : Bool) (a : Operand) (off : Off)
  | cctl (h : Hdr) (op : CctlOp) (fb : Bool) (a : Operand) (off : Off)
  | gather (h : Hdr) (size : Size) (d a b c : Operand)
  | scatter (h : Hdr) (size : Size) (d a b c : Operand)
  | slop (h : Hdr) (a : Operand)
  | mma (h : Hdr) (m : MmaMod) (tile : Fin 128) (a b : Operand) (c : Option Operand)
  | accz (h : Hdr) (tile : Fin 128)
  | accld (h : Hdr) (tile : Fin 128) (b : Operand)
  | accst (h : Hdr) (tile : Fin 128) (b : Operand)
  | accmvToRegs (h : Hdr) (d : Operand) (tile : Fin 128)
  | accmvToTile (h : Hdr) (tile : Fin 128) (a : Operand)
  | accq (h : Hdr) (d : Operand) (tile : Fin 128)
  | tcopy (h : Hdr) (d a : Operand)
  | tcstat (h : Hdr) (d a : Operand)
  | tcabort (h : Hdr) (a : Operand)
  | ecadd (h : Hdr) (m : EcMod) (a b : Operand)
  | ecwait (h : Hdr) (m : EcMod) (a b : Operand)
  | ecrd (h : Hdr) (m : EcMod) (d a : Operand)
  | ectrig (h : Hdr) (fb : Bool) (a b : Operand)
  | coll (h : Hdr) (d a : Operand)
  | cabort (h : Hdr) (a : Operand)
  | viewq (h : Hdr) (d a : Operand)
  | viewack (h : Hdr) (a : Operand)
  | vjoin (h : Hdr) (a : Operand)
  | tret (h : Hdr)
  | lxrd (h : Hdr) (d a : Operand) (reg : BitVec 10)
  | lxwr (h : Hdr) (a b : Operand) (reg : BitVec 10)
  | park (h : Hdr) (a : Operand)
  | resume (h : Hdr) (a : Operand)
  | tlbinvPage (h : Hdr) (a b : Operand)
  | tlbinvAsid (h : Hdr) (a b : Operand)
  | tlbinvAll (h : Hdr) (a b : Operand)
  | tlbsync (h : Hdr)
  | signal (h : Hdr) (a b : Operand)
  | tmark (h : Hdr) (a : Operand)
  -- issue, completion and delivery steps
  | pickIssue (sh : Nat)
  | pickFetch (w : WRef)
  | tableWalkComplete (w : WRef) (va : BitVec 57) (cached : Bool)
  | energyGateRotation (core : Nat)
  | waitlTimeout (w : WRef)
  | loadComplete (op : Nat) (lanes : Lanes)
  | storePerformed (op : Nat) (lanes : Lanes)
  | atomicPerformed (op : Nat) (lane : Nat)
  | fenceComplete (op : Nat)
  | mmaComplete (op : Nat)
  | accumulatorTransferComplete (op : Nat)
  | matrixSelfTest (sh : Nat) (failing : List Nat)
  | userTrapDelivery (w : WRef)
  | replayOverflowDrain (core : Nat)
  | supervisorWeftStart (core : Nat)
  | signalDelivery (w : WRef)
  | weftFinish (w : WRef)
  -- launch and scheduling steps
  | launchChain (fn queue : Nat) (record : List DWord) (writable : Nat)
  | launchAcceptance (queue : Nat)
  | launchWaitRelease (queue : Nat)
  | boltPlacement
  | swapOutComplete (bolt : Nat)
  | dispatchHoldTimeout (serial : Nat)
  | kernelTagSweepPass
  | powerEvaluation (measw : BitVec 16)
  | thermalEvaluation (die : List Int) (stackRows : List Int)
  | scrubPassEnd
  | bankTake (bolt : Nat)
  | twinIntervalSettle (bolt : Nat)
  | scanStart (pair : Nat)
  | scanComplete (pair : Nat) (pass : Bool)
  -- engine steps
  | descriptorReadComplete (core handle : Nat)
  | tcopyCommandStart (core : Nat)
  | tcopyGranule (core handle : Nat)
  | tcopyCommandEnd (core handle : Nat)
  | gatherElement (id : Nat)
  | scatterElement (id : Nat)
  | slopLine (core unit : Nat)
  | tlbinvComplete (id : Nat)
  | capturePageCopy (ctx : Nat) (page : Nat)
  -- fabric steps
  | keepaliveSend (ethernet : Bool) (member : Nat)
  | suspicionTimeout (slot member : Nat)
  | retransmitTimeout (msg : Nat)
  | suspicionReceive (slot : Nat) (members : List Nat)
  | viewProposalReceive (slot src : Nat) (tag : BitVec 32) (members : List Nat)
  | viewAckReceive (slot src : Nat) (tag : BitVec 32) (seq : Option Nat)
  | viewCommitReceive (slot : Nat) (tag : BitVec 32) (members : List Nat) (top : Option Nat)
  | viewProposalTimeout (slot : Nat)
  | viewLostReceive (slot : Nat)
  | joinRequestReceive (slot member : Nat)
  | joinRetry (slot : Nat)
  | collPartialReceive (slot seq src : Nat) (tag : BitVec 32) (data : List Byte)
  | collReadyReceive (slot seq src : Nat) (tag : BitVec 32)
  | collAbortReceive (slot seq : Nat)
  | collStageReadComplete (core handle : Nat)
  -- host interface steps
  | eventPost
  | syscallForward (core : Nat) (ref : WRef) (parkNo : Nat)
  | counterAddWrite (fn id : Nat) (value : DWord)
  | triggerControlWrite (fn id : Nat) (value : DWord)
  | registerWrite (fn : Nat) (reg : HostReg) (size : Nat) (value : DWord)
  | observationClear (ofCore : Bool) (id : Nat)
  | driverFeatureNegotiation (fn : Nat) (version1 packed platform : Bool)
  | regwrL2Carve (fn : Nat) (tag value : DWord)
  | l2CarveApplied
  | regwrRaceWindow (fn : Nat) (tag value : DWord)
  | raceWindowApplied
  | regwrPowerSetpoint (fn : Nat) (tag value : DWord)
  | regwrSventry (fn : Nat) (tag value : DWord)
  | regwrSvbase (fn : Nat) (tag value : DWord)
  | regwrCtxtab (fn : Nat) (tag value : DWord)
  | regrd (fn : Nat) (tag id : DWord)
  | qconf (fn : Nat) (tag : DWord) (queue ctx level dev gate : Nat)
  | ctrassign (fn : Nat) (tag : DWord) (first blocks ctx target : Nat)
  | ctrset (fn : Nat) (tag : DWord) (id : Nat) (value : DWord)
  | ctrlKill (fn : Nat) (tag : DWord) (ctx : Nat)
  | ctrlSignal (fn : Nat) (tag : DWord) (ctx num : Nat)
  | ctrlTlbinv (fn : Nat) (tag : DWord) (scope : InvScope) (va : DWord) (asid : Nat)
  | migrate (fn : Nat) (tag : DWord) (addr : DWord)
  | migrationStart
  | migrationRound (id : Nat)
  | keyload (fn : Nat) (tag : DWord) (ctx slot : Nat) (key : BitVec 256)
  | sysreply (fn : Nat) (tag token : DWord) (results : List Word)
  | fwstage (fn : Nat) (tag addr : DWord) (len : Nat)
  | fwswitch (fn : Nat) (tag : DWord)
  | fwCallDeadline (core : Nat) (ref : WRef) (parkNo : Nat)
  | fwswitchComplete (ok : Bool)
  -- supervisor command block and debug
  | killCommand (core : Nat)
  | shuttleStop (core : Nat)
  | shuttleRun (core : Nat)
  | shuttleDump (core : Nat)
  | token (fn : Nat) (tag : DWord) (ctx : Nat) (value : BitVec 128)
  | unlock (fn : Nat) (tag : DWord) (ctx : Nat) (value : BitVec 128)
  | lock (fn : Nat) (tag : DWord) (ctx : Nat)
  | trace (fn : Nat) (tag : DWord) (ctx : Nat) (ring : DWord) (logn : Nat) (start stop : DWord)
  | debugStop (fn : Nat) (tag : DWord) (ctx core shuttle : Nat)
  | debugRun (fn : Nat) (tag : DWord) (ctx core shuttle : Nat)
  | debugDump (fn : Nat) (tag : DWord) (ctx core shuttle : Nat) (buf : DWord) (len : Nat)
  | obsrd (fn : Nat) (tag : DWord) (ctx core shuttle : Nat)
  | capture (fn : Nat) (tag : DWord) (ctx : Nat) (area : DWord) (len : Nat)
  | fwDebugUnlock (signed bound : Bool)
  -- security
  | spdmGetVersion
  | spdmGetCapabilities
  | spdmNegotiateAlgorithms (offered : List Nat)
  | spdmGetDigests
  | spdmGetCertificate (offset len : Nat)
  | spdmChallenge (nonce : BitVec 256)
  | spdmGetMeasurements (index : Nat) (nonce : BitVec 256)
  | spdmKeyExchange (share : List Byte)
  | spdmFinish (verify : BitVec 256)
  | spdmEndSession
  | tdispStop (vf : Nat)
  | ideIntegrityFailure (vf : Nat)
  | tdispLockInterface (vf : Nat)
  | tdispStartInterface (vf : Nat)
  -- resets, coherence and reliability
  | coldReset
  | flrPf0
  | flrVf (vf : Nat)
  | cxlMemAccess (addr : Nat) (op : BusOp)
  | cxlCacheSnoop (addr : Nat) (data : List Byte) (invalidate : Bool)
  | ualinkPeerAccess (src : Nat) (addr : Nat) (op : BusOp)
  | patrolScrubRead (r : HbmRead)
  | lineEviction (level2 : Bool) (core line : Nat)
  | supervisorRegisterApplied
  deriving DecidableEq, Repr, Inhabited

end Sys2Proof
end

