-- ==== Sys2Proof/Machine/Uses.lean ====
section
/-! DEFINITION. Which operands an instruction word names and what each field allows: the operand kinds of R95, R99, R100 and
R120, the register groups and alignments, the modifier combinations that are reserved, and the encoding checks of R124
that depend on the word alone. -/

namespace Sys2Proof

/-- What a field accepts. -/
inductive Role where
  /-- a vector or scalar register -/
  | reg
  /-- a vector register -/
  | vec
  /-- a scalar register of a per-thread or uniform word -/
  | scal
  /-- a scalar register of a weft instruction, where a vector register is a per-thread operand (R366) -/
  | wscal
  /-- a value: anything but a predicate -/
  | val
  /-- a uniform value: no vector register -/
  | uni
  /-- a uniform value of a weft instruction (R366) -/
  | wuni
  /-- the value of SETS (R461) -/
  | sets
  /-- a 64-bit address: a scalar or an even vector pair -/
  | addr
  /-- a predicate source -/
  | pred
  /-- a predicate destination p0 to p6 or q0 to q6 -/
  | dpred
  /-- a predicate destination p0 to p6 -/
  | dp
  /-- a predicate destination q0 to q6 -/
  | dq
  deriving DecidableEq, Repr

/-- One operand of a word: its role, the registers it covers, their alignment, and whether it is read and written. -/
structure Use where
  role : Role
  o : Operand
  n : Nat
  al : Nat
  rd : Bool
  wr : Bool
  deriving DecidableEq, Repr

def IntTy.wide : IntTy → Bool
  | .s64 | .z64 => true
  | _ => false

def IntTy.signed : IntTy → Bool
  | .s32 | .s64 => true
  | _ => false

/-- Width n of a class 1 type (R367). -/
def IntTy.bits (t : IntTy) : Nat := if t.wide then 64 else 32

def CvtTy.wide : CvtTy → Bool
  | .s64 | .z64 => true
  | _ => false

def CvtTy.isB8 : CvtTy → Bool
  | .b8 _ => true
  | _ => false

/-- Bytes of an access size (R118, R417). -/
def Size.bytes : Size → Nat
  | .b8 | .s8 => 1
  | .b16 | .s16 => 2
  | .b32 => 4
  | .b64 => 8
  | .b128 => 16

/-- Registers that an access size names. -/
def Size.regs : Size → Nat
  | .b64 => 2
  | .b128 => 4
  | _ => 1

/-- Elements per chunk (R147). -/
def MmaFmt.k : MmaFmt → Nat
  | .c16b | .c16h => 32
  | .c8 => 64
  | .c4 => 128

def MmaFmt.scaled : MmaFmt → Bool
  | .c8 | .c4 => true
  | _ => false

/-- Bits of a special register and whether each thread reads its own (R77): `none` for a number not in the table. -/
def specialInfo (n : Nat) : Option (Nat × Bool) :=
  if n = 0 then some (11, true) else if n = 1 then some (6, true) else if n = 2 then some (7, true)
  else if n = 3 then some (7, false) else if n = 4 ∨ n = 5 ∨ n = 6 then some (24, false)
  else if n = 7 then some (12, false) else if n = 8 then some (5, true) else if n = 9 then some (10, false)
  else if n = 10 then some (2, false) else if n = 11 then some (16, false) else if n = 12 then some (64, false)
  else if n = 13 then some (33, false) else if n = 14 then some (18, false) else if n = 15 then some (5, false)
  else if n = 16 then some (16, false) else if n = 17 then some (12, false)
  else if 18 ≤ n ∧ n ≤ 25 then some (64, false) else if n = 26 then some (1, false)
  else if n = 32 ∨ n = 33 then some (32, false) else if n = 34 then some (64, false)
  else if n = 35 ∨ n = 40 ∨ n = 41 then some (57, false) else if n = 48 ∨ n = 49 then some (16, false)
  else if n = 56 then some (7, false) else none

/-- Numbers that SETS may name (R77). -/
def specialRw (n : Nat) : Bool := n == 11 || n == 15 || n == 56

/-- Whether a special register takes a pair of vector registers (R78). -/
def specialWide (n : Nat) : Bool := match specialInfo n with | some (b, _) => decide (32 < b) | none => false

def useR (o : Operand) (n : Nat := 1) : Use := ⟨.reg, o, n, n, false, true⟩
def useV (o : Operand) (n : Nat := 1) : Use := ⟨.val, o, n, n, true, false⟩
def useP (o : Operand) : Use := ⟨.pred, o, 1, 1, true, false⟩
def useOff : Off → List Use
  | .imm _ => []
  | .idx o => [useV o]

/-- Registers of an operand of class 1 type `t`. -/
def IntTy.regs (t : IntTy) : Nat := if t.wide then 2 else 1

def int2 (t : IntTy) (d a : Operand) : List Use := [useR d t.regs, useV a t.regs]
def int3 (t : IntTy) (d a b : Operand) : List Use := [useR d t.regs, useV a t.regs, useV b t.regs]
def int4 (t : IntTy) (d a b c : Operand) : List Use := int3 t d a b ++ [useV c t.regs]
def flt2 (d a : Operand) : List Use := [useR d, useV a]
def flt3 (d a b : Operand) : List Use := [useR d, useV a, useV b]
def flt4 (d a b c : Operand) : List Use := [useR d, useV a, useV b, useV c]
def useW (o : Operand) : Use := ⟨.wuni, o, 1, 1, true, false⟩
def useS (o : Operand) : Use := ⟨.wscal, o, 1, 1, true, false⟩
def useDS (o : Operand) : Use := ⟨.wscal, o, 1, 1, false, true⟩

def AtomOp.isCas : AtomOp → Bool
  | .cas => true
  | _ => false

def AtomOp.isFloat : AtomOp → Bool
  | .faddF32 | .fminF32 | .fmaxF32 | .faddBf => true
  | _ => false

def atomUses (m : AtomMod) (d : Operand) (addr : Use) (b : Operand) : List Use :=
  let n := if m.w64 then 2 else 1
  [⟨.reg, d, n, n, m.op.isCas, true⟩, addr, useV b n]

/-- The operands of a word in a weft of native width `w`, `g` = w/16 or 1 in compatibility mode (R152, R370). -/
def Instr.uses (w g : Nat) : Instr → List Use
  | .brx _ a | .callx _ a | .syscall _ a => [useV a]
  | .waitl _ d a => [⟨.dp, d, 1, 1, false, true⟩, useV a]
  | .bar _ _ a b => [⟨.uni, a, 1, 1, true, false⟩, ⟨.uni, b, 1, 1, true, false⟩]
  | .trap _ a | .brk _ a => [⟨.uni, a, 1, 1, true, false⟩]
  | .launch _ d a b =>
    [⟨.scal, d, 1, 1, false, true⟩, ⟨.scal, a, 1, 1, true, false⟩, ⟨.wuni, b, 1, 1, true, false⟩]
  | .iadd _ m d a b | .isub _ m d a b | .imul _ m d a b => int3 m.ty d a b
  | .imulh _ t d a b | .imin _ t d a b | .imax _ t d a b | .and _ t d a b | .or _ t d a b | .xor _ t d a b => int3 t d a b
  | .imad _ m d a b c => int4 m.ty d a b c
  | .iabs _ m d a => int2 m.ty d a
  | .not _ t d a | .popc _ t d a | .clz _ t d a | .brev _ t d a | .mov _ t d a => int2 t d a
  | .shl _ m d a b | .shr _ m d a b | .sar _ m d a b => int3 m.ty d a b
  | .bfx _ t d a b c | .bfi _ t d a b c => int4 t d a b c
  | .isetp _ t _ d a b => [⟨.dpred, d, 1, 1, false, true⟩, useV a t.regs, useV b t.regs]
  | .sel _ t d a b c => int3 t d a b ++ [useP c]
  | .lea _ m _ d a b => int3 m.ty d a b
  | .swizb _ _ d a b c => flt4 d a b c
  | .plop _ _ d a b => [⟨.dpred, d, 1, 1, true, true⟩, useP a, useP b]
  | .p2v _ d => [⟨.vec, d, 1, 1, false, true⟩]
  | .v2p _ a b => [useV a, useV b]
  | .fadd _ _ d a b | .fsub _ _ d a b | .fmul _ _ d a b | .fmin _ _ _ d a b | .fmax _ _ _ d a b
  | .fscale _ _ _ _ d a b => flt3 d a b
  | .ffma _ _ d a b c => flt4 d a b c
  | .fsetp _ _ d a b => [⟨.dpred, d, 1, 1, false, true⟩, useV a, useV b]
  | .frcp _ _ _ _ d a | .frsq _ _ _ _ d a | .fex2 _ _ _ _ d a | .flg2 _ _ _ _ d a | .fsin _ _ _ _ d a
  | .fcos _ _ _ _ d a | .frnd _ _ _ _ d a | .fclass _ d a => flt2 d a
  | .vadd2 _ _ d a b | .vsub2 _ _ d a b | .vmin2 _ _ d a b | .vmax2 _ _ d a b | .hadd2 _ _ d a b
  | .hmul2 _ _ d a b => flt3 d a b
  | .vacs2 _ _ _ d a b c | .hfma2 _ _ d a b c => flt4 d a b c
  | .cvt _ m d a => [useR d (if m.dty.wide then 2 else 1), useV a (if m.sty.wide then 2 else 1)]
  | .shfl _ _ d a b c => [⟨.vec, d, 1, 1, false, true⟩, useV a, useV b, ⟨.uni, c, 1, 1, true, false⟩]
  | .vote _ .ballot d a => let n := if w = 64 then 2 else 1; [⟨.vec, d, n, n, false, true⟩, useP a]
  | .vote _ _ d a => [⟨.dp, d, 1, 1, false, true⟩, useP a]
  | .redux _ _ _ d a | .rdfl _ d a => [⟨.vec, d, 1, 1, false, true⟩, useV a]
  | .mates _ w64 mask d a =>
    [⟨.vec, d, 1, 1, false, true⟩, useV a (if w64 then 2 else 1)] ++
      (match mask with | some b => [⟨.uni, b, 1, 1, true, false⟩] | none => [])
  | .movs _ num d slot =>
    [useR d (if specialWide num.toNat then 2 else 1)] ++
      (match slot with | some a => [⟨.uni, a, 1, 1, true, false⟩] | none => [])
  | .sets _ _ a => [⟨.sets, a, 1, 1, true, false⟩]
  | .ld _ m d a off => [useR d m.size.regs, ⟨.addr, a, 2, 2, true, false⟩] ++ useOff off
  | .st _ m d a off => [⟨.reg, d, m.size.regs, m.size.regs, true, false⟩, ⟨.addr, a, 2, 2, true, false⟩] ++ useOff off
  | .lds _ m d a off => [useR d m.size.regs, useV a] ++ useOff off
  | .sts _ m d a off => [⟨.reg, d, m.size.regs, m.size.regs, true, false⟩, useV a] ++ useOff off
  | .ldc _ size _ d a off => [useR d size.regs, useV a] ++ useOff off
  | .atom _ m d a b => atomUses m d ⟨.addr, a, 2, 2, true, false⟩ b
  | .atoms _ m d a b => atomUses m d (useV a) b
  | .red _ m a b => [⟨.addr, a, 2, 2, true, false⟩, useV b (if m.w64 then 2 else 1)]
  | .pref _ _ a off | .cctl _ _ _ a off => [⟨.addr, a, 2, 2, true, false⟩] ++ useOff off
  | .gather _ _ d a b c | .scatter _ _ d a b c => [useS d, useS a, useS b, useS c]
  | .slop _ a => [useS a]
  | .mma _ m _ a b c =>
    let n := m.chunks.val + 1
    [⟨.vec, a, n * 16 / g, 8, true, false⟩, useW b] ++
      (match c with
       | some c => [⟨.vec, c, (n * max 1 (m.fmt.k / (32 * g)) + 3) / 4, 1, true, false⟩]
       | none => [])
  | .accld _ _ b | .accst _ _ b => [useW b]
  | .accmvToRegs _ d _ => [⟨.vec, d, 16 / g, 4, false, true⟩]
  | .accmvToTile _ _ a => [⟨.vec, a, 16 / g, 4, true, false⟩]
  | .accq _ d _ => [⟨.dq, d, 1, 1, false, true⟩]
  | .tcopy _ d a | .coll _ d a => [useDS d, useS a]
  | .tcstat _ d a | .viewq _ d a => [useDS d, useW a]
  | .tcabort _ a | .cabort _ a | .viewack _ a | .vjoin _ a | .tmark _ a => [useW a]
  | .ecadd _ _ a b | .ecwait _ _ a b => [useW a, useW b]
  | .ecrd _ _ d a => [useDS d, useW a]
  | .ectrig _ _ a b => [useW a, useS b]
  | .lxrd _ d a _ => [useR d, useV a]
  | .lxwr _ a b _ => [useV a, useV b]
  | .park _ a | .resume _ a => [useS a]
  | .tlbinvPage _ a b | .tlbinvAsid _ a b | .tlbinvAll _ a b | .signal _ a b => [useS a, useS b]
  | _ => []

/-- The tile fields of a word (R99). -/
def Instr.tilesOf : Instr → List Nat
  | .mma _ _ t _ _ _ | .accz _ t | .accld _ t _ | .accst _ t _ | .accmvToRegs _ _ t | .accmvToTile _ t _
  | .accq _ _ t => [t.val]
  | _ => []

/-- The header of a full instruction word; `none` for a pair word and for the device's own steps. -/
def Instr.hdr? : Instr → Option Hdr
  | .nop h | .bra h _ | .brx h _ | .call h _ | .callx h _ | .ret h | .exit h | .yield h | .waitl h _ _ | .bar h _ _ _
  | .trap h _ | .syscall h _ | .brk h _ | .launch h _ _ _ | .iadd h _ _ _ _ | .isub h _ _ _ _ | .imul h _ _ _ _
  | .imulh h _ _ _ _ | .imad h _ _ _ _ _ | .imin h _ _ _ _ | .imax h _ _ _ _ | .iabs h _ _ _ | .and h _ _ _ _
  | .or h _ _ _ _ | .xor h _ _ _ _ | .not h _ _ _ | .shl h _ _ _ _ | .shr h _ _ _ _ | .sar h _ _ _ _
  | .bfx h _ _ _ _ _ | .bfi h _ _ _ _ _ | .popc h _ _ _ | .clz h _ _ _ | .brev h _ _ _ | .isetp h _ _ _ _ _
  | .sel h _ _ _ _ _ | .mov h _ _ _ | .lea h _ _ _ _ _ | .swizb h _ _ _ _ _ | .plop h _ _ _ _ | .p2v h _ | .v2p h _ _
  | .fadd h _ _ _ _ | .fsub h _ _ _ _ | .fmul h _ _ _ _ | .ffma h _ _ _ _ _ | .fmin h _ _ _ _ _ | .fmax h _ _ _ _ _
  | .fsetp h _ _ _ _ | .frcp h _ _ _ _ _ | .frsq h _ _ _ _ _ | .fex2 h _ _ _ _ _ | .flg2 h _ _ _ _ _
  | .fsin h _ _ _ _ _ | .fcos h _ _ _ _ _ | .frnd h _ _ _ _ _ | .fclass h _ _ | .fscale h _ _ _ _ _ _
  | .vadd2 h _ _ _ _ | .vsub2 h _ _ _ _ | .vmin2 h _ _ _ _ | .vmax2 h _ _ _ _ | .vacs2 h _ _ _ _ _ _
  | .hadd2 h _ _ _ _ | .hmul2 h _ _ _ _ | .hfma2 h _ _ _ _ _ | .cvt h _ _ _ | .shfl h _ _ _ _ _ | .vote h _ _ _
  | .redux h _ _ _ _ | .mates h _ _ _ _ | .rdfl h _ _ | .movs h _ _ _ | .sets h _ _ | .ld h _ _ _ _ | .st h _ _ _ _
  | .lds h _ _ _ _ | .sts h _ _ _ _ | .ldc h _ _ _ _ _ | .atom h _ _ _ _ | .atoms h _ _ _ _ | .red h _ _ _
  | .fence h _ | .pref h _ _ _ | .cctl h _ _ _ _ | .gather h _ _ _ _ _ | .scatter h _ _ _ _ _ | .slop h _
  | .mma h _ _ _ _ _ | .accz h _ | .accld h _ _ | .accst h _ _ | .accmvToRegs h _ _ | .accmvToTile h _ _ | .accq h _ _
  | .tcopy h _ _ | .tcstat h _ _ | .tcabort h _ | .ecadd h _ _ _ | .ecwait h _ _ _ | .ecrd h _ _ _ | .ectrig h _ _ _
  | .coll h _ _ | .cabort h _ | .viewq h _ _ | .viewack h _ | .vjoin h _ | .tret h | .lxrd h _ _ _ | .lxwr h _ _ _
  | .park h _ | .resume h _ | .tlbinvPage h _ _ | .tlbinvAsid h _ _ | .tlbinvAll h _ _ | .tlbsync h | .signal h _ _
  | .tmark h _ => some h
  | _ => none

/-- Whether a constructor is an instruction word rather than one of the device's own steps. -/
def Instr.isWord : Instr → Bool
  | .pairWord _ _ _ _ => true
  | i => i.hdr?.isSome

/-- The guard of a word. -/
def Instr.guard? : Instr → Option Guard
  | .pairWord _ g _ _ => some g
  | i => i.hdr?.map (·.guard)

/-- Whether a word ends its pick by its E bit (R103). -/
def Instr.last : Instr → Bool
  | .pairWord l _ _ _ => l
  | i => (i.hdr?.map (·.last)).getD false

/-- Words of a pick that an instruction takes: itself and its literal (R98). -/
def Instr.length (i : Instr) : Nat := match i.hdr? with | some h => if h.lit.isSome then 2 else 1 | none => 1

/-- Instructions that execute once for the weft under a uniform guard, whatever their destination (R366, R408, R425, R446,
R448, R453, R461 to R463, R466). -/
def Instr.weftOnly : Instr → Bool
  | .accz _ _ | .accld _ _ _ | .accst _ _ _ | .accmvToRegs _ _ _ | .accmvToTile _ _ _ | .accq _ _ _ | .cabort _ _
  | .coll _ _ _ | .ecadd _ _ _ _ | .ecrd _ _ _ _ | .ectrig _ _ _ _ | .ecwait _ _ _ _ | .gather _ _ _ _ _ _
  | .scatter _ _ _ _ _ _ | .slop _ _ | .mma _ _ _ _ _ _ | .tcopy _ _ _ | .tcstat _ _ _ | .tcabort _ _ | .viewq _ _ _
  | .viewack _ _ | .vjoin _ _ | .sets _ _ _ | .tmark _ _ | .tret _ | .park _ _ | .resume _ _ | .tlbinvPage _ _ _
  | .tlbinvAsid _ _ _ | .tlbinvAll _ _ _ | .tlbsync _ | .signal _ _ _ => true
  | _ => false

/-- The instructions that end a pick (R104). -/
def Instr.endsPick : Instr → Bool
  | .bra _ _ | .brx _ _ | .call _ _ | .callx _ _ | .ret _ | .exit _ | .yield _ | .waitl _ _ _ | .bar _ _ _ _
  | .ecwait _ _ _ _ | .syscall _ _ => true
  | _ => false

/-- The privileged instructions (R123), LXRD and LXWR apart. -/
def Instr.privileged : Instr → Bool
  | .vjoin _ _ | .tret _ | .park _ _ | .resume _ _ | .tlbinvPage _ _ _ | .tlbinvAsid _ _ _ | .tlbinvAll _ _ _
  | .tlbsync _ | .signal _ _ _ => true
  | _ => false

def Instr.isLx : Instr → Bool
  | .lxrd _ _ _ _ | .lxwr _ _ _ _ => true
  | _ => false

/-- The instructions that a user handler may not execute (R266). -/
def Instr.barredInHandler : Instr → Bool
  | .bar _ _ _ _ | .waitl _ _ _ | .ecwait _ _ _ _ | .syscall _ _ | .launch _ _ _ _ => true
  | _ => false

/-- Race-checked memory instructions, the first of which is the memory head of its pick (R126). -/
def Instr.raceChecked : Instr → Bool
  | .ld _ _ _ _ _ | .st _ _ _ _ _ | .lds _ _ _ _ _ | .sts _ _ _ _ _ | .atom _ _ _ _ _ | .atoms _ _ _ _ _
  | .red _ _ _ _ => true
  | _ => false

def Operand.isVec : Operand → Bool
  | .vec _ => true
  | _ => false

def Operand.isPred : Operand → Bool
  | .p _ | .q _ => true
  | _ => false

/-- A per-thread operand: a vector register or a p predicate (R100). -/
def Operand.perThread : Operand → Bool
  | .vec _ | .p _ => true
  | _ => false

/-- A destination that makes a word uniform: a scalar register or a q predicate (R100). -/
def Operand.makesUniform : Operand → Bool
  | .scal _ | .q _ => true
  | _ => false

/-- The subcode that R124 gives an operand in a field of its role, 0 for none. -/
def Role.err : Role → Operand → Nat
  | .reg, .vec _ | .reg, .scal _ | .vec, .vec _ | .scal, .scal _ | .wscal, .scal _ => 0
  | .wscal, .vec _ => 0xB
  | .val, .p _ | .val, .q _ => 2
  | .val, _ => 0
  | .uni, .scal _ | .uni, .imm _ | .uni, .fimm _ | .uni, .lit => 0
  | .wuni, .scal _ | .wuni, .imm _ | .wuni, .fimm _ | .wuni, .lit => 0
  | .wuni, .vec _ => 0xB
  | .sets, .scal _ | .sets, .imm _ | .sets, .fimm _ | .sets, .lit => 0
  | .sets, _ => 0xB
  | .addr, .vec _ | .addr, .scal _ => 0
  | .pred, .p _ | .pred, .q _ => 0
  | .dpred, .p n | .dpred, .q n => if n.val = 7 then 9 else 0
  | .dp, .p n => if n.val = 7 then 9 else 0
  | .dq, .q n => if n.val = 7 then 9 else 0
  | _, _ => 2

/-- Whether the word is uniform: executed once for the weft (R100, R366). -/
def Instr.uniform (i : Instr) : Bool :=
  i.weftOnly ||
    match i with
    | .st _ _ d _ _ | .sts _ _ d _ _ => d.makesUniform
    | i => match i.uses 32 2 with | u :: _ => u.wr && u.o.makesUniform | [] => false

/-- Reserved combinations of modifiers (R118, R119, R377, R392, R394, R402, R419, R429, R439, R442, R444, R461): subcode 1. -/
def Instr.modErr : Instr → Bool
  | .cvt _ m _ _ => (m.dty.isB8 && m.sty.isB8) || ((m.uns || m.ext) && !(m.dty.isB8 || m.sty.isB8))
  | .redux _ op ty _ _ => ty == .f32 && (op == .and || op == .or || op == .xor)
  | .ld _ m _ _ _ => m.remote && !(m.ord == .sync && (m.scope == .dev || m.scope == .sys))
  | .st _ m _ _ _ | .sts _ m _ _ _ => m.remote || m.size == .s8 || m.size == .s16
  | .lds _ m _ _ _ => m.remote
  | .atom _ m _ _ _ =>
    (m.w64 && m.op.isFloat) ||
      (m.remote && !((m.ord == .acq || m.ord == .ar) && (m.scope == .dev || m.scope == .sys)))
  | .atoms _ m _ _ _ => (m.w64 && m.op.isFloat) || m.remote
  | .red _ m _ _ => (m.w64 && m.op.isFloat) || m.remote || m.op.isCas || m.ord == .acq || m.ord == .ar
  | .fence _ m => m.ord == .relaxed
  | .gather _ size _ _ _ _ | .scatter _ size _ _ _ _ => size == .s8 || size == .s16
  | .ecadd _ m _ _ | .ecwait _ m _ _ => m.remote
  | .ecrd _ m _ _ => m.remote && !(m.sync && (m.scope == .dev || m.scope == .sys))
  | .movs _ num _ _ => (specialInfo num.toNat).isNone
  | .sets _ num _ => !specialRw num.toNat
  | _ => false

/-- Field combinations that a typed word could hold and the encoding has no room for, or writes in one way only: subcode 3. -/
def Instr.fieldErr : Instr → Bool
  | .lds _ m _ _ _ | .sts _ m _ _ _ => m.ef
  | .ecwait _ m _ _ => m.fb
  | .movs _ num _ slot => slot.isSome != (num == 13 || num == 14)
  | .pairWord _ _ (some (.setp true c _ _ _)) _ => c == .eq || c == .ne
  | _ => false

/-- Operand errors that are particular to an instruction, of subcode 2 (R97, R400, R418, R441). -/
def Instr.kindErr : Instr → Bool
  | .ld _ m d _ _ | .lds _ m d _ _ | .st _ m d _ _ | .sts _ m d _ _ => m.size == .b128 && d.makesUniform
  | .ldc _ size _ d _ _ => size == .b128 && d.makesUniform
  | .cvt _ m _ a =>
    (m.sty.isB8 || m.sty == .e2m1 || m.sty == .e8m0) &&
      (match a with | .imm _ | .fimm _ | .lit => true | _ => false)
  | .mma _ m _ _ _ c => m.fmt.scaled != c.isSome
  | _ => false

/-- Uniform errors that are particular to an instruction, of subcode 0xB (R78, R435). -/
def Instr.uniErr : Instr → Bool
  | .movs _ num d _ => d.makesUniform && (match specialInfo num.toNat with | some (_, t) => t | none => false)
  | .vacs2 _ _ dec d _ _ _ => d.makesUniform && dec.val != 3
  | _ => false

/-- The guard !p7 or !q7 (R101). -/
def Guard.illegal (g : Guard) : Bool := g.neg && g.num.val == 7

/-- Whether some operand names the literal (R98). -/
def Instr.namesLit (i : Instr) : Bool := (i.uses 32 2).any fun u => u.o == .lit

/-- Pair-word conditions of R107 to R109: the subcodes that apply. -/
def pairErrs (g : Guard) (s : Option SSlot) (v : Option VSlot) : List Nat :=
  (if s.isSome && !g.uni then [8] else []) ++
  (match v with
   | some ⟨_, vd, .vec n⟩ => if vd.val % 4 = n.val % 4 then [8] else []
   | _ => [])

/-- Every subcode of R124 that a decoded word meets on its own, allocation apart, in a weft of width `w`. -/
def Instr.encErrs (w g : Nat) (i : Instr) : List Nat :=
  let us := i.uses w g
  (if i.modErr then [1] else []) ++
  (if i.kindErr then [2] else []) ++
  (if i.fieldErr then [3] else []) ++
  (us.filterMap fun u => let e := u.role.err u.o; if e = 0 then none else some e) ++
  (us.filterMap fun u => match u.o with | .vec n => if n.val % u.al = 0 then none else some 7 | _ => none) ++
  (match i.guard? with | some g => if g.illegal then [9] else [] | none => []) ++
  (match i with | .pairWord _ g s v => pairErrs g s v | _ => []) ++
  (if i.uniErr then [0xB] else []) ++
  (if i.uniform &&
      (us.any (fun u => u.rd && u.o.perThread && u.role != .vec) ||
        (match i.guard? with | some g => !g.uni | none => false)) then [0xB] else [])

end Sys2Proof
end

