-- ==== Sys2Proof/WellFormed.lean ====
section
/-! DEFINITION. Well-formed instruction words: those the encoding of spec/05 has a word for and that pass every check of
R124 that does not depend on the weft. The device's own steps are well formed as they stand. -/

namespace Sys2Proof

/-- Well-formedness: no check of R124 refuses the word, and it carries a literal exactly when an operand names one. -/
def WellFormed (i : Instr) : Bool :=
  (i.encErrs 32 2).isEmpty &&
    (match i.hdr? with
     | some h => h.lit.isSome == i.namesLit
     | none => true)

end Sys2Proof
end

