-- ==== Sys2Proof/Decode.lean ====
section
/-! DEFINITION. From 64-bit words to instructions and back (spec/05). Decoding is total: a word that is no instruction is
refused with the subcode of R124. The encoder writes the same layouts from the instruction. -/

namespace Sys2Proof

/-! ### Fields -/

/-- Bits [lo + n − 1 : lo] of a word, unsigned. -/
def fld (w : DWord) (lo n : Nat) : Nat := w.toNat / 2 ^ lo % 2 ^ n

/-- The fields of a full instruction word (R93). -/
structure Fields where
  last : Bool
  op : Nat
  g : Nat
  d : Nat
  a : Nat
  b : Nat
  c : Nat
  m : Nat
  deriving DecidableEq, Repr

def Fields.of (w : DWord) : Fields :=
  { last := fld w 63 1 == 1, op := fld w 52 9, g := fld w 47 5, d := fld w 37 10, a := fld w 27 10, b := fld w 17 10,
    c := fld w 7 10, m := fld w 0 7 }

/-- Assembles a full instruction word (R93). -/
def Fields.word (f : Fields) : DWord :=
  BitVec.ofNat 64 ((if f.last then 2 ^ 63 else 0) + f.op * 2 ^ 52 + f.g * 2 ^ 47 + f.d * 2 ^ 37 + f.a * 2 ^ 27 +
    f.b * 2 ^ 17 + f.c * 2 ^ 7 + f.m)

/-- An operand code (R95); `none` for a reserved one. -/
def operandOf (n : Nat) : Option Operand :=
  if h : n < 640 then some (.vec ⟨n, h⟩)
  else if h : n - 640 < 128 then some (.scal ⟨n - 640, h⟩)
  else if h : n - 768 < 96 then some (.imm ⟨n - 768, h⟩)
  else if h : n - 864 < 16 then some (.fimm ⟨n - 864, h⟩)
  else if n < 896 then none
  else if h : n - 896 < 8 then some (.p ⟨n - 896, h⟩)
  else if h : n - 904 < 8 then some (.q ⟨n - 904, h⟩)
  else if n = 1023 then some .lit else none

def Operand.code : Operand → Nat
  | .vec n => n.val
  | .scal n => 640 + n.val
  | .imm n => 768 + n.val
  | .fimm n => 864 + n.val
  | .p n => 896 + n.val
  | .q n => 904 + n.val
  | .lit => 1023

/-- A tile field (R99). -/
def tileOf (n : Nat) : Option (Fin 128) := if h : n < 128 then some ⟨n, h⟩ else none

def guardOf (n : Nat) : Guard :=
  { uni := n / 16 % 2 == 1, neg := n / 8 % 2 == 1, num := ⟨n % 8, Nat.mod_lt _ (by decide)⟩ }

def Guard.code (g : Guard) : Nat := (if g.uni then 16 else 0) + (if g.neg then 8 else 0) + g.num.val

/-! ### Modifier fields -/

def intTyOf (n : Nat) : IntTy := if n = 0 then .s32 else if n = 1 then .z32 else if n = 2 then .s64 else .z64
def IntTy.code : IntTy → Nat | .s32 => 0 | .z32 => 1 | .s64 => 2 | .z64 => 3
def rndOf (n : Nat) : Rnd := if n = 0 then .rn else if n = 1 then .rz else if n = 2 then .rd else .ru
def Rnd.code : Rnd → Nat | .rn => 0 | .rz => 1 | .rd => 2 | .ru => 3
def icmpOf (n : Nat) : Option ICmp :=
  if n = 0 then some .eq else if n = 1 then some .ne else if n = 2 then some .lt else if n = 3 then some .le
  else if n = 4 then some .gt else if n = 5 then some .ge else none
def ICmp.code : ICmp → Nat | .eq => 0 | .ne => 1 | .lt => 2 | .le => 3 | .gt => 4 | .ge => 5
def fcmpOf (n : Nat) : FCmp :=
  if n = 0 then .eq else if n = 1 then .ne else if n = 2 then .lt else if n = 3 then .le else if n = 4 then .gt
  else if n = 5 then .ge else if n = 6 then .num else .nan
def FCmp.code : FCmp → Nat
  | .eq => 0 | .ne => 1 | .lt => 2 | .le => 3 | .gt => 4 | .ge => 5 | .num => 6 | .nan => 7
def cvtTyOf (n : Nat) : Option CvtTy :=
  if n = 0 then some .s32 else if n = 1 then some .z32 else if n = 2 then some .s64 else if n = 3 then some .z64
  else if n = 4 then some .s16 else if n = 5 then some .z16 else if n = 6 then some .s8 else if n = 7 then some .z8
  else if n = 8 then some .f32 else if n = 9 then some .f16 else if n = 10 then some .bf16
  else if n = 11 then some .e2m1 else if n = 12 then some .e8m0 else if n < 16 then none
  else if h : n - 16 < 7 then some (.b8 ⟨n - 16, h⟩) else none
def CvtTy.code : CvtTy → Nat
  | .s32 => 0 | .z32 => 1 | .s64 => 2 | .z64 => 3 | .s16 => 4 | .z16 => 5 | .s8 => 6 | .z8 => 7 | .f32 => 8 | .f16 => 9
  | .bf16 => 10 | .e2m1 => 11 | .e8m0 => 12 | .b8 n => 16 + n.val
def shflOf (n : Nat) : ShflMode := if n = 0 then .idx else if n = 1 then .up else if n = 2 then .down else .xor
def ShflMode.code : ShflMode → Nat | .idx => 0 | .up => 1 | .down => 2 | .xor => 3
def voteOf (n : Nat) : VoteMode := if n = 0 then .all else if n = 1 then .any else if n = 2 then .ballot else .eq
def VoteMode.code : VoteMode → Nat | .all => 0 | .any => 1 | .ballot => 2 | .eq => 3
def redOpOf (n : Nat) : Option RedOp :=
  if n = 0 then some .add else if n = 1 then some .min else if n = 2 then some .max else if n = 3 then some .and
  else if n = 4 then some .or else if n = 5 then some .xor else none
def RedOp.code : RedOp → Nat | .add => 0 | .min => 1 | .max => 2 | .and => 3 | .or => 4 | .xor => 5
def redTyOf (n : Nat) : Option RedTy :=
  if n = 0 then some .s32 else if n = 1 then some .z32 else if n = 2 then some .f32 else none
def RedTy.code : RedTy → Nat | .s32 => 0 | .z32 => 1 | .f32 => 2
def sizeOf? (n : Nat) : Option Size :=
  if n = 0 then some .b8 else if n = 1 then some .b16 else if n = 2 then some .b32 else if n = 3 then some .b64
  else if n = 4 then some .b128 else if n = 5 then some .s8 else if n = 6 then some .s16 else none
def Size.code : Size → Nat | .b8 => 0 | .b16 => 1 | .b32 => 2 | .b64 => 3 | .b128 => 4 | .s8 => 5 | .s16 => 6
def scopeOf (n : Nat) : Option Scope :=
  if n = 0 then some .weft else if n = 1 then some .bolt else if n = 2 then some .pair else if n = 3 then some .dev
  else if n = 4 then some .sys else none
def Scope.code : Scope → Nat | .weft => 0 | .bolt => 1 | .pair => 2 | .dev => 3 | .sys => 4
def mordOf (n : Nat) : Option MOrd :=
  if n = 0 then some .plain else if n = 1 then some .sync else if n = 2 then some .vol else none
def MOrd.code : MOrd → Nat | .plain => 0 | .sync => 1 | .vol => 2
def aordOf (n : Nat) : AOrd := if n = 0 then .relaxed else if n = 1 then .acq else if n = 2 then .rel else .ar
def AOrd.code : AOrd → Nat | .relaxed => 0 | .acq => 1 | .rel => 2 | .ar => 3
def atomOpOf (n : Nat) : Option AtomOp :=
  if n = 0 then some .add else if n = 1 then some .minS else if n = 2 then some .minZ else if n = 3 then some .maxS
  else if n = 4 then some .maxZ else if n = 5 then some .and else if n = 6 then some .or else if n = 7 then some .xor
  else if n = 8 then some .exch else if n = 9 then some .cas else if n = 10 then some .incwrap
  else if n = 11 then some .faddF32 else if n = 12 then some .fminF32 else if n = 13 then some .fmaxF32
  else if n = 14 then some .faddBf else none
def AtomOp.code : AtomOp → Nat
  | .add => 0 | .minS => 1 | .minZ => 2 | .maxS => 3 | .maxZ => 4 | .and => 5 | .or => 6 | .xor => 7 | .exch => 8
  | .cas => 9 | .incwrap => 10 | .faddF32 => 11 | .fminF32 => 12 | .fmaxF32 => 13 | .faddBf => 14
def cctlOf (n : Nat) : Option CctlOp :=
  if n = 0 then some .wb else if n = 1 then some .inv else if n = 2 then some .wbinv else none
def CctlOp.code : CctlOp → Nat | .wb => 0 | .inv => 1 | .wbinv => 2
def mmaFmtOf (n : Nat) : MmaFmt := if n = 0 then .c16b else if n = 1 then .c16h else if n = 2 then .c8 else .c4
def MmaFmt.code : MmaFmt → Nat | .c16b => 0 | .c16h => 1 | .c8 => 2 | .c4 => 3
def barOf (n : Nat) : Option BarMode :=
  if n = 0 then some .sync else if n = 1 then some .arrive else if n = 2 then some .wait else none
def BarMode.code : BarMode → Nat | .sync => 0 | .arrive => 1 | .wait => 2

def bit (n k : Nat) : Bool := n / 2 ^ k % 2 == 1
def ofBit (b : Bool) (k : Nat) : Nat := if b then 2 ^ k else 0
def fin8 (n : Nat) : Fin 8 := ⟨n % 8, Nat.mod_lt _ (by decide)⟩
def fin4 (n : Nat) : Fin 4 := ⟨n % 4, Nat.mod_lt _ (by decide)⟩
def fin16 (n : Nat) : Fin 16 := ⟨n % 16, Nat.mod_lt _ (by decide)⟩
def fin128 (n : Nat) : Fin 128 := ⟨n % 128, Nat.mod_lt _ (by decide)⟩

/-- What reading one word gives: an instruction, with whether every unused field is zero, or a subcode. -/
inductive Read where
  | bad (sub : Nat)
  | ok (i : Instr) (zero : Bool)
  deriving DecidableEq, Repr

/-- A reserved modifier or opcode: subcode 1. -/
def withMod {α : Type} (x : Option α) (f : α → Read) : Read := match x with | some v => f v | none => .bad 1
/-- A reserved operand code: subcode 2. -/
def withOp {α : Type} (x : Option α) (f : α → Read) : Read := match x with | some v => f v | none => .bad 2

def op1 (a : Nat) (f : Operand → Read) : Read := withOp (operandOf a) f
def op2 (a b : Nat) (f : Operand → Operand → Read) : Read := op1 a fun x => op1 b fun y => f x y
def op3 (a b c : Nat) (f : Operand → Operand → Operand → Read) : Read := op1 a fun x => op2 b c fun y z => f x y z
def op4 (a b c d : Nat) (f : Operand → Operand → Operand → Operand → Read) : Read :=
  op1 a fun x => op3 b c d fun y z w => f x y z w

/-- Offset of an address (R118). -/
def offOf (m b : Nat) (f : Off → Read) : Read :=
  if bit m 6 then op1 b fun o => f (.idx o) else f (.imm (BitVec.ofNat 10 b))

def memModOf (c m : Nat) : Option MemMod :=
  match sizeOf? (m / 8 % 8), mordOf (m / 2 % 4), scopeOf (c / 128 % 8) with
  | some s, some o, some sc =>
    some { size := s, ord := o, scope := sc, remote := bit c 6, ef := bit c 5, fb := bit m 0 }
  | _, _, _ => none

def MemMod.c (m : MemMod) : Nat := m.scope.code * 128 + ofBit m.remote 6 + ofBit m.ef 5
def MemMod.m (m : MemMod) (off : Off) : Nat :=
  (match off with | .idx _ => 64 | .imm _ => 0) + m.size.code * 8 + m.ord.code * 2 + ofBit m.fb 0
def Off.code : Off → Nat
  | .imm n => n.toNat
  | .idx o => o.code

def atomModOf (c m : Nat) : Option AtomMod :=
  match atomOpOf (m / 8 % 16), scopeOf (c / 128 % 8) with
  | some o, some sc =>
    some { op := o, w64 := bit m 2, ord := aordOf (m % 4), scope := sc, remote := bit c 6, ef := bit c 5, fb := bit c 4 }
  | _, _ => none

def AtomMod.c (m : AtomMod) : Nat := m.scope.code * 128 + ofBit m.remote 6 + ofBit m.ef 5 + ofBit m.fb 4
def AtomMod.m (m : AtomMod) : Nat := m.op.code * 8 + ofBit m.w64 2 + m.ord.code

/-- Order field of a counter instruction: `code` is the value that means .rel or .acq (R120). -/
def ecModOf (code c m : Nat) : Option EcMod :=
  match scopeOf (c / 128 % 8) with
  | some sc =>
    if m / 2 % 4 = 0 then some { sync := false, scope := sc, remote := bit c 6, fb := bit m 0 }
    else if m / 2 % 4 = code then some { sync := true, scope := sc, remote := bit c 6, fb := bit m 0 } else none
  | none => none

def EcMod.c (m : EcMod) : Nat := m.scope.code * 128 + ofBit m.remote 6
def EcMod.m (m : EcMod) (code : Nat) : Nat := (if m.sync then code * 2 else 0) + ofBit m.fb 0

def intModOf (m : Nat) : IntMod := { ty := intTyOf (m / 32 % 4), sat := bit m 4 }
def IntMod.code (m : IntMod) : Nat := m.ty.code * 32 + ofBit m.sat 4
/-- A class 1 type without .sat: MOD[4:1] set raises subcode 1 (R367, R413). -/
def plainTyOf (m : Nat) : Option IntTy := if m / 2 % 16 = 0 then some (intTyOf (m / 32 % 4)) else none
/-- A class 1 type that forbids .sat alone (R413): MOD[4] set raises subcode 1. -/
def noSatTyOf (m : Nat) : Option IntTy := if bit m 4 then none else some (intTyOf (m / 32 % 4))
/-- A shift's mode (R430). -/
def shModOf (m : Nat) : Option ShMod :=
  if bit m 4 then none
  else if m / 2 % 8 = 0 then some { ty := intTyOf (m / 32 % 4), clamp := false }
  else if m / 2 % 8 = 1 then some { ty := intTyOf (m / 32 % 4), clamp := true } else none
def ShMod.code (m : ShMod) : Nat := m.ty.code * 32 + ofBit m.clamp 1
/-- Float modifiers (R115): MOD[6:5] other than 00 is reserved. -/
def fltModOf (m : Nat) : Option FltMod :=
  if m / 32 % 4 = 0 then some { rnd := rndOf (m / 8 % 4), sat := bit m 2, neg := bit m 1, abs := bit m 0 } else none
def FltMod.code (m : FltMod) : Nat := m.rnd.code * 8 + ofBit m.sat 2 + ofBit m.neg 1 + ofBit m.abs 0
def flt1 (m : FltMod) : Nat := { m with abs := false }.code
def pModOf (m : Nat) : PMod := { uns := bit m 6, sat := bit m 5 }
def PMod.code (m : PMod) : Nat := ofBit m.uns 6 + ofBit m.sat 5
def hModOf (m : Nat) : HMod := { f16 := bit m 6, rnd := rndOf (m / 8 % 4), sat := bit m 2 }
def HMod.code (m : HMod) : Nat := ofBit m.f16 6 + m.rnd.code * 8 + ofBit m.sat 2
def cvtModOf (c m : Nat) : Option CvtMod :=
  match cvtTyOf (c / 32 % 32), cvtTyOf (c % 32) with
  | some dt, some st =>
    some { dty := dt, sty := st, rnd := rndOf (m / 8 % 4), sat := bit m 2, uns := bit m 1, ext := bit m 0 }
  | _, _ => none

/-! ### Reading a full instruction word -/

/-- One-source float instruction (R397). -/
def readF1 (f : Fields) (k : Rnd → Bool → Bool → Operand → Operand → Instr) : Read :=
  withMod (fltModOf f.m) fun m => op2 f.d f.a fun d a =>
    .ok (k m.rnd m.sat m.neg d a) (f.b == 0 && f.c == 0 && !m.abs)

/-- Classes 0 and 1. -/
def readLow (h : Hdr) (f : Fields) : Read :=
  let z := f.d == 0 && f.a == 0 && f.b == 0 && f.c == 0 && f.m == 0
  let offset := BitVec.ofNat 30 (f.d * 2 ^ 20 + f.a * 2 ^ 10 + f.b)
  let bit3 (k : IntMod → Operand → Operand → Operand → Instr) : Read :=
    op3 f.d f.a f.b fun d a b => .ok (k (intModOf f.m) d a b) (f.c == 0 && f.m % 16 == 0)
  let plain3 (k : IntTy → Operand → Operand → Operand → Instr) : Read :=
    withMod (plainTyOf f.m) fun t => op3 f.d f.a f.b fun d a b => .ok (k t d a b) (f.c == 0 && f.m % 2 == 0)
  let plain2 (k : IntTy → Operand → Operand → Instr) : Read :=
    withMod (plainTyOf f.m) fun t => op2 f.d f.a fun d a => .ok (k t d a) (f.b == 0 && f.c == 0 && f.m % 2 == 0)
  let noSat3 (k : IntTy → Operand → Operand → Operand → Instr) : Read :=
    withMod (noSatTyOf f.m) fun t => op3 f.d f.a f.b fun d a b => .ok (k t d a b) (f.c == 0 && f.m % 16 == 0)
  let shift (k : ShMod → Operand → Operand → Operand → Instr) : Read :=
    withMod (shModOf f.m) fun m => op3 f.d f.a f.b fun d a b => .ok (k m d a b) (f.c == 0 && f.m % 2 == 0)
  if f.op = 0x000 then .ok (.nop h) z
  else if f.op = 0x001 then .ok (.bra h offset) (f.c == 0 && f.m == 0)
  else if f.op = 0x002 then op1 f.a fun a => .ok (.brx h a) (f.d == 0 && f.b == 0 && f.c == 0 && f.m == 0)
  else if f.op = 0x003 then .ok (.call h offset) (f.c == 0 && f.m == 0)
  else if f.op = 0x004 then op1 f.a fun a => .ok (.callx h a) (f.d == 0 && f.b == 0 && f.c == 0 && f.m == 0)
  else if f.op = 0x005 then .ok (.ret h) z
  else if f.op = 0x006 then .ok (.exit h) z
  else if f.op = 0x007 then .ok (.yield h) z
  else if f.op = 0x008 then op2 f.d f.a fun d a => .ok (.waitl h d a) (f.b == 0 && f.c == 0 && f.m == 0)
  else if f.op = 0x009 then
    withMod (barOf (f.m % 4)) fun m => op2 f.a f.b fun a b => .ok (.bar h m a b) (f.d == 0 && f.c == 0 && f.m / 4 == 0)
  else if f.op = 0x00A then op1 f.a fun a => .ok (.trap h a) (f.d == 0 && f.b == 0 && f.c == 0 && f.m == 0)
  else if f.op = 0x00B then op1 f.a fun a => .ok (.syscall h a) (f.d == 0 && f.b == 0 && f.c == 0 && f.m == 0)
  else if f.op = 0x00C then op1 f.a fun a => .ok (.brk h a) (f.d == 0 && f.b == 0 && f.c == 0 && f.m == 0)
  else if f.op = 0x00D then op3 f.d f.a f.b fun d a b => .ok (.launch h d a b) (f.c == 0 && f.m == 0)
  else if f.op = 0x040 then bit3 (.iadd h)
  else if f.op = 0x041 then bit3 (.isub h)
  else if f.op = 0x042 then bit3 (.imul h)
  else if f.op = 0x043 then noSat3 (.imulh h)
  else if f.op = 0x044 then
    op4 f.d f.a f.b f.c fun d a b c => .ok (.imad h (intModOf f.m) d a b c) (f.m % 16 == 0)
  else if f.op = 0x045 then noSat3 (.imin h)
  else if f.op = 0x046 then noSat3 (.imax h)
  else if f.op = 0x047 then
    op2 f.d f.a fun d a => .ok (.iabs h (intModOf f.m) d a) (f.b == 0 && f.c == 0 && f.m % 16 == 0)
  else if f.op = 0x048 then plain3 (.and h)
  else if f.op = 0x049 then plain3 (.or h)
  else if f.op = 0x04A then plain3 (.xor h)
  else if f.op = 0x04B then plain2 (.not h)
  else if f.op = 0x04C then shift (.shl h)
  else if f.op = 0x04D then shift (.shr h)
  else if f.op = 0x04E then shift (.sar h)
  else if f.op = 0x04F then
    withMod (plainTyOf f.m) fun t => op4 f.d f.a f.b f.c fun d a b c => .ok (.bfx h t d a b c) (f.m % 2 == 0)
  else if f.op = 0x050 then
    withMod (plainTyOf f.m) fun t => op4 f.d f.a f.b f.c fun d a b c => .ok (.bfi h t d a b c) (f.m % 2 == 0)
  else if f.op = 0x051 then plain2 (.popc h)
  else if f.op = 0x052 then plain2 (.clz h)
  else if f.op = 0x053 then plain2 (.brev h)
  else if f.op = 0x054 then
    withMod (if bit f.m 4 then none else icmpOf (f.m / 2 % 8)) fun k => op3 f.d f.a f.b fun d a b =>
      .ok (.isetp h (intTyOf (f.m / 32 % 4)) k d a b) (f.c == 0 && f.m % 2 == 0)
  else if f.op = 0x055 then
    op4 f.d f.a f.b f.c fun d a b c => .ok (.sel h (intTyOf (f.m / 32 % 4)) d a b c) (f.m % 32 == 0)
  else if f.op = 0x056 then
    withMod (noSatTyOf f.m) fun t => op2 f.d f.a fun d a => .ok (.mov h t d a) (f.b == 0 && f.c == 0 && f.m % 16 == 0)
  else if f.op = 0x057 then
    op3 f.d f.a f.b fun d a b => .ok (.lea h (intModOf f.m) (fin8 (f.m / 2)) d a b) (f.c == 0 && f.m % 2 == 0)
  else if f.op = 0x058 then
    withMod (if bit f.m 6 then none else some (bit f.m 5)) fun zz => op4 f.d f.a f.b f.c fun d a b c =>
      .ok (.swizb h zz d a b c) (f.m % 32 == 0)
  else if f.op = 0x059 then
    op3 f.d f.a f.b fun d a b => .ok (.plop h (BitVec.ofNat 8 f.c) d a b) (f.c / 256 == 0 && f.m == 0)
  else if f.op = 0x05A then op1 f.d fun d => .ok (.p2v h d) (f.a == 0 && f.b == 0 && f.c == 0 && f.m == 0)
  else if f.op = 0x05B then op2 f.a f.b fun a b => .ok (.v2p h a b) (f.d == 0 && f.c == 0 && f.m == 0)
  else .bad 1

/-- Classes 2, 3 and 4. -/
def readMid (h : Hdr) (f : Fields) : Read :=
  let flt3 (k : FltMod → Operand → Operand → Operand → Instr) : Read :=
    withMod (fltModOf f.m) fun m => op3 f.d f.a f.b fun d a b => .ok (k m d a b) (f.c == 0)
  let mm (k : Bool → Bool → Operand → Operand → Operand → Instr) : Read :=
    withMod (if f.m / 4 == 0 then some () else none) fun _ => op3 f.d f.a f.b fun d a b =>
      .ok (k (bit f.m 1) (bit f.m 0) d a b) (f.c == 0)
  let pk (k : PMod → Operand → Operand → Operand → Instr) : Read :=
    op3 f.d f.a f.b fun d a b => .ok (k (pModOf f.m) d a b) (f.c == 0 && f.m % 32 == 0)
  let hz := f.m % 4 == 0 && !bit f.m 5
  if f.op = 0x080 then flt3 (.fadd h)
  else if f.op = 0x081 then flt3 (.fsub h)
  else if f.op = 0x082 then flt3 (.fmul h)
  else if f.op = 0x083 then
    withMod (fltModOf f.m) fun m => op4 f.d f.a f.b f.c fun d a b c => .ok (.ffma h m d a b c) true
  else if f.op = 0x084 then mm (.fmin h)
  else if f.op = 0x085 then mm (.fmax h)
  else if f.op = 0x086 then
    withMod (if f.m / 32 == 0 then some (fcmpOf (f.m % 8)) else none) fun k => op3 f.d f.a f.b fun d a b =>
      .ok (.fsetp h k d a b) (f.c == 0 && f.m / 8 % 4 == 0)
  else if f.op = 0x087 then readF1 f (.frcp h)
  else if f.op = 0x088 then readF1 f (.frsq h)
  else if f.op = 0x089 then readF1 f (.fex2 h)
  else if f.op = 0x08A then readF1 f (.flg2 h)
  else if f.op = 0x08B then readF1 f (.fsin h)
  else if f.op = 0x08C then readF1 f (.fcos h)
  else if f.op = 0x08D then readF1 f (.frnd h)
  else if f.op = 0x08E then
    withMod (if f.m / 32 == 0 then some () else none) fun _ => op2 f.d f.a fun d a =>
      .ok (.fclass h d a) (f.b == 0 && f.c == 0 && f.m % 32 == 0)
  else if f.op = 0x08F then
    withMod (fltModOf f.m) fun m => op3 f.d f.a f.b fun d a b =>
      .ok (.fscale h m.rnd m.sat m.neg d a b) (f.c == 0 && !m.abs)
  else if f.op = 0x0C0 then pk (.vadd2 h)
  else if f.op = 0x0C1 then pk (.vsub2 h)
  else if f.op = 0x0C2 then pk (.vmin2 h)
  else if f.op = 0x0C3 then pk (.vmax2 h)
  else if f.op = 0x0C4 then
    op4 f.d f.a f.b f.c fun d a b c => .ok (.vacs2 h (pModOf f.m) (fin4 f.m) d a b c) (f.m / 4 % 8 == 0)
  else if f.op = 0x0C5 then op3 f.d f.a f.b fun d a b => .ok (.hadd2 h (hModOf f.m) d a b) (f.c == 0 && hz)
  else if f.op = 0x0C6 then op3 f.d f.a f.b fun d a b => .ok (.hmul2 h (hModOf f.m) d a b) (f.c == 0 && hz)
  else if f.op = 0x0C7 then op4 f.d f.a f.b f.c fun d a b c => .ok (.hfma2 h (hModOf f.m) d a b c) hz
  else if f.op = 0x0C8 then
    withMod (cvtModOf f.c f.m) fun m => op2 f.d f.a fun d a => .ok (.cvt h m d a) (f.b == 0 && f.m / 32 == 0)
  else if f.op = 0x100 then
    op4 f.d f.a f.b f.c fun d a b c => .ok (.shfl h (shflOf (f.m % 4)) d a b c) (f.m / 4 == 0)
  else if f.op = 0x101 then
    op2 f.d f.a fun d a => .ok (.vote h (voteOf (f.m % 4)) d a) (f.b == 0 && f.c == 0 && f.m / 4 == 0)
  else if f.op = 0x102 then
    withMod (redOpOf (f.m % 8)) fun o => withMod (redTyOf (f.m / 8 % 4)) fun t => op2 f.d f.a fun d a =>
      .ok (.redux h o t d a) (f.b == 0 && f.c == 0 && f.m / 32 == 0)
  else if f.op = 0x103 then
    if bit f.m 0 then
      op3 f.d f.a f.b fun d a b => .ok (.mates h (bit f.m 1) (some b) d a) (f.c == 0 && f.m / 4 == 0)
    else op2 f.d f.a fun d a => .ok (.mates h (bit f.m 1) none d a) (f.b == 0 && f.c == 0 && f.m / 4 == 0)
  else if f.op = 0x104 then op2 f.d f.a fun d a => .ok (.rdfl h d a) (f.b == 0 && f.c == 0 && f.m == 0)
  else if f.op = 0x105 then
    if f.b == 13 || f.b == 14 then
      op2 f.d f.a fun d a => .ok (.movs h (BitVec.ofNat 10 f.b) d (some a)) (f.c == 0 && f.m == 0)
    else op1 f.d fun d => .ok (.movs h (BitVec.ofNat 10 f.b) d none) (f.a == 0 && f.c == 0 && f.m == 0)
  else if f.op = 0x106 then
    op1 f.a fun a => .ok (.sets h (BitVec.ofNat 10 f.d) a) (f.b == 0 && f.c == 0 && f.m == 0)
  else .bad 1

/-- Class 5. -/
def readMem (h : Hdr) (f : Fields) : Read :=
  let mem (k : MemMod → Operand → Operand → Off → Instr) : Read :=
    withMod (memModOf f.c f.m) fun m => op2 f.d f.a fun d a => offOf f.m f.b fun o => .ok (k m d a o) (f.c % 32 == 0)
  if f.op = 0x140 then mem (.ld h)
  else if f.op = 0x141 then mem (.st h)
  else if f.op = 0x142 then mem (.lds h)
  else if f.op = 0x143 then mem (.sts h)
  else if f.op = 0x144 then
    withMod (if f.m / 2 % 4 = 0 then sizeOf? (f.m / 8 % 8) else none) fun s => op2 f.d f.a fun d a =>
      offOf f.m f.b fun o => .ok (.ldc h s (bit f.m 0) d a o) (f.c == 0)
  else if f.op = 0x145 then
    withMod (atomModOf f.c f.m) fun m => op3 f.d f.a f.b fun d a b => .ok (.atom h m d a b) (f.c % 16 == 0)
  else if f.op = 0x146 then
    withMod (atomModOf f.c f.m) fun m => op3 f.d f.a f.b fun d a b => .ok (.atoms h m d a b) (f.c % 16 == 0)
  else if f.op = 0x147 then
    withMod (atomModOf f.c f.m) fun m => op2 f.a f.b fun a b => .ok (.red h m a b) (f.d == 0 && f.c % 16 == 0)
  else if f.op = 0x148 then
    withMod (if bit f.c 6 then none else scopeOf (f.c / 128 % 8)) fun s =>
      .ok (.fence h { ord := aordOf (f.m / 2 % 4), scope := s, fb := bit f.m 0 })
        (f.d == 0 && f.a == 0 && f.b == 0 && f.c % 64 == 0 && f.m / 8 == 0)
  else if f.op = 0x149 then
    op1 f.a fun a => offOf f.m f.b fun o =>
      .ok (.pref h (bit f.c 5) a o) (f.d == 0 && f.c / 64 == 0 && f.c % 32 == 0 && f.m % 64 == 0)
  else if f.op = 0x14A then
    withMod (cctlOf (f.m / 8 % 8)) fun k => op1 f.a fun a => offOf f.m f.b fun o =>
      .ok (.cctl h k (bit f.m 0) a o) (f.d == 0 && f.c == 0 && f.m / 2 % 4 == 0)
  else if f.op = 0x14B then
    withMod (sizeOf? (f.m / 8 % 8)) fun s => op4 f.d f.a f.b f.c fun d a b c =>
      .ok (.gather h s d a b c) (f.m / 64 == 0 && f.m % 8 == 0)
  else if f.op = 0x14C then
    withMod (sizeOf? (f.m / 8 % 8)) fun s => op4 f.d f.a f.b f.c fun d a b c =>
      .ok (.scatter h s d a b c) (f.m / 64 == 0 && f.m % 8 == 0)
  else if f.op = 0x14D then op1 f.a fun a => .ok (.slop h a) (f.d == 0 && f.b == 0 && f.c == 0 && f.m == 0)
  else .bad 1

/-- Classes 6 and 7. -/
def readHigh (h : Hdr) (f : Fields) : Read :=
  let z := f.d == 0 && f.a == 0 && f.b == 0 && f.c == 0 && f.m == 0
  let a1 (k : Operand → Instr) : Read :=
    op1 f.a fun a => .ok (k a) (f.d == 0 && f.b == 0 && f.c == 0 && f.m == 0)
  let da (k : Operand → Operand → Instr) : Read :=
    op2 f.d f.a fun d a => .ok (k d a) (f.b == 0 && f.c == 0 && f.m == 0)
  if f.op = 0x180 then
    let m : MmaMod := { fmt := mmaFmtOf (f.m / 32 % 4), chunks := fin16 (f.m / 2), ra := bit f.m 0 }
    withOp (tileOf f.d) fun t =>
      if m.fmt.scaled then op3 f.a f.b f.c fun a b c => .ok (.mma h m t a b (some c)) true
      else op2 f.a f.b fun a b => .ok (.mma h m t a b none) (f.c == 0)
  else if f.op = 0x181 then
    withOp (tileOf f.d) fun t => .ok (.accz h t) (f.a == 0 && f.b == 0 && f.c == 0 && f.m == 0)
  else if f.op = 0x182 then
    withOp (tileOf f.d) fun t => op1 f.b fun b => .ok (.accld h t b) (f.a == 0 && f.c == 0 && f.m == 0)
  else if f.op = 0x183 then
    withOp (tileOf f.a) fun t => op1 f.b fun b => .ok (.accst h t b) (f.d == 0 && f.c == 0 && f.m == 0)
  else if f.op = 0x184 then
    if bit f.m 0 then
      withOp (tileOf f.d) fun t => op1 f.a fun a => .ok (.accmvToTile h t a) (f.b == 0 && f.c == 0 && f.m / 2 == 0)
    else withOp (tileOf f.a) fun t => op1 f.d fun d =>
      .ok (.accmvToRegs h d t) (f.b == 0 && f.c == 0 && f.m / 2 == 0)
  else if f.op = 0x185 then
    withOp (tileOf f.a) fun t => op1 f.d fun d => .ok (.accq h d t) (f.b == 0 && f.c == 0 && f.m == 0)
  else if f.op = 0x188 then da (.tcopy h)
  else if f.op = 0x189 then da (.tcstat h)
  else if f.op = 0x18A then a1 (.tcabort h)
  else if f.op = 0x18C then
    withMod (ecModOf 2 f.c f.m) fun m => op2 f.a f.b fun a b =>
      .ok (.ecadd h m a b) (f.d == 0 && f.c % 64 == 0 && f.m / 8 == 0)
  else if f.op = 0x18D then
    withMod (ecModOf 1 f.c f.m) fun m => op2 f.a f.b fun a b =>
      .ok (.ecwait h m a b) (f.d == 0 && f.c % 64 == 0 && f.m / 8 == 0)
  else if f.op = 0x18E then
    withMod (ecModOf 1 f.c f.m) fun m => op2 f.d f.a fun d a =>
      .ok (.ecrd h m d a) (f.b == 0 && f.c % 64 == 0 && f.m / 8 == 0)
  else if f.op = 0x18F then
    op2 f.a f.b fun a b => .ok (.ectrig h (bit f.m 0) a b) (f.d == 0 && f.c == 0 && f.m / 2 == 0)
  else if f.op = 0x190 then da (.coll h)
  else if f.op = 0x191 then a1 (.cabort h)
  else if f.op = 0x192 then da (.viewq h)
  else if f.op = 0x193 then a1 (.viewack h)
  else if f.op = 0x194 then a1 (.vjoin h)
  else if f.op = 0x1C0 then .ok (.tret h) z
  else if f.op = 0x1C1 then
    op2 f.d f.a fun d a => .ok (.lxrd h d a (BitVec.ofNat 10 f.c)) (f.b == 0 && f.m == 0)
  else if f.op = 0x1C2 then
    op2 f.a f.b fun a b => .ok (.lxwr h a b (BitVec.ofNat 10 f.c)) (f.d == 0 && f.m == 0)
  else if f.op = 0x1C3 then a1 (.park h)
  else if f.op = 0x1C4 then a1 (.resume h)
  else if f.op = 0x1C5 then
    let zz := f.d == 0 && f.c == 0 && f.m / 4 == 0
    if f.m % 4 = 0 then op2 f.a f.b fun a b => .ok (.tlbinvPage h a b) zz
    else if f.m % 4 = 1 then op2 f.a f.b fun a b => .ok (.tlbinvAsid h a b) zz
    else if f.m % 4 = 2 then op2 f.a f.b fun a b => .ok (.tlbinvAll h a b) zz else .bad 1
  else if f.op = 0x1C6 then .ok (.tlbsync h) z
  else if f.op = 0x1C7 then
    op2 f.a f.b fun a b => .ok (.signal h a b) (f.d == 0 && f.c == 0 && f.m == 0)
  else if f.op = 0x1C8 then a1 (.tmark h)
  else .bad 1

/-- Reads a full instruction word (R93, R122), `last` and `lit` from its place in the pick. -/
def readFull (last : Bool) (lit : Option (BitVec 58)) (f : Fields) : Read :=
  let h : Hdr := { last := last, guard := guardOf f.g, lit := lit }
  if f.op < 0x080 then readLow h f
  else if f.op < 0x140 then readMid h f
  else if f.op < 0x180 then readMem h f
  else readHigh h f

/-! ### Pair words -/

def pstOf (n : Nat) : Option PST :=
  if h : n < 128 then some (.reg ⟨n, h⟩) else if h : n - 128 < 96 then some (.imm ⟨n - 128, h⟩) else none
def PST.code : PST → Nat | .reg n => n.val | .imm n => 128 + n.val
def pvsOf (n : Nat) : PVS :=
  if h : n < 128 then .vec ⟨n, h⟩ else if h : n - 128 < 64 then .scal ⟨n - 128, h⟩
  else .imm ⟨n % 64, Nat.mod_lt _ (by decide)⟩
def PVS.code : PVS → Nat | .vec n => n.val | .scal n => 128 + n.val | .imm n => 192 + n.val
def sbinOf (n : Nat) : SBin :=
  if n = 0 then .add else if n = 1 then .sub else if n = 2 then .and else if n = 3 then .or else if n = 4 then .xor
  else if n = 5 then .shl else .shr
def SBin.code : SBin → Nat | .add => 0 | .sub => 1 | .and => 2 | .or => 3 | .xor => 4 | .shl => 5 | .shr => 6
def fin7 (n : Nat) : Fin 7 := ⟨n % 7, Nat.mod_lt _ (by decide)⟩

/-- What a slot reads as. -/
inductive SlotRead (α : Type) where
  | bad (sub : Nat)
  | ok (s : Option α) (zero : Bool)

/-- The scalar slot (R107). -/
def readSSlot (sop sd ss st : Nat) : SlotRead SSlot :=
  if sop = 63 then .ok none (sd == 0 && ss == 0 && st == 0)
  else if 33 ≤ sop then .bad 1
  else match pstOf st with
    | none => .bad 2
    | some t =>
      if sop < 7 then .ok (some (.bin (sbinOf sop) (fin128 sd) (fin128 ss) t)) true
      else if sop = 7 then .ok (some (.mov (fin128 sd) t)) (ss == 0)
      else if sop < 16 then .ok (some (.lea (fin8 sop) (fin128 sd) (fin128 ss) t)) true
      else if sop < 22 then
        if 7 ≤ sd then .bad 2
        else .ok (some (.setp false ((icmpOf (sop - 16)).getD .eq) (fin7 sd) (fin128 ss) t)) true
      else if sop < 26 then
        if 7 ≤ sd then .bad 2
        else .ok (some (.setp true ((icmpOf (sop - 20)).getD .eq) (fin7 sd) (fin128 ss) t)) true
      else .ok (some (.sel (fin7 (sop - 26)) (fin128 sd) (fin128 ss) t)) true

/-- SOP, SD, SS and ST of a scalar slot. Equality and inequality are one operation for both signednesses (R107). -/
def SSlot.codes : SSlot → Nat × Nat × Nat × Nat
  | .bin o d s t => (o.code, d.val, s.val, t.code)
  | .mov d t => (7, d.val, 0, t.code)
  | .lea k d s t => (8 + k.val, d.val, s.val, t.code)
  | .setp u c d s t => ((if u && 2 ≤ c.code then 20 + c.code else 16 + c.code), d.val, s.val, t.code)
  | .sel k d s t => (26 + k.val, d.val, s.val, t.code)

/-- The vector operation and its modifiers (R108), with whether every unused modifier bit is zero. -/
def vopOf (vop m : Nat) : SlotRead VOp :=
  let z := bit m 5
  let bits (k : Bool → VOp) : SlotRead VOp :=
    if bit m 6 then .bad 1 else if m / 2 % 16 ≠ 0 then .bad 1 else .ok (some (k z)) (m % 2 == 0)
  let shift (k : Bool → Bool → VOp) : SlotRead VOp :=
    if bit m 6 || bit m 4 || 1 < m / 2 % 8 then .bad 1 else .ok (some (k z (bit m 1))) (m % 2 == 0)
  let flt (k : FltMod → VOp) : SlotRead VOp := match fltModOf m with | some x => .ok (some (k x)) true | none => .bad 1
  let mm (k : Bool → Bool → VOp) : SlotRead VOp :=
    if m / 4 = 0 then .ok (some (k (bit m 1) (bit m 0))) true else .bad 1
  if vop = 0 then (if bit m 6 then .bad 1 else .ok (some (.iadd z (bit m 4))) (m % 16 == 0))
  else if vop = 1 then (if bit m 6 then .bad 1 else .ok (some (.isub z (bit m 4))) (m % 16 == 0))
  else if vop = 2 then bits .and
  else if vop = 3 then bits .or
  else if vop = 4 then bits .xor
  else if vop = 5 then shift .shl
  else if vop = 6 then shift .shr
  else if vop = 7 then .ok (some .mov) (m == 0)
  else if vop = 8 then flt .fadd
  else if vop = 9 then flt .fmul
  else if vop = 10 then mm .fmin
  else if vop = 11 then mm .fmax
  else if vop = 12 then .ok (some (.vadd2 (pModOf m))) (m % 32 == 0)
  else if vop = 13 then .ok (some (.vmin2 (pModOf m))) (m % 32 == 0)
  else if vop = 14 then .ok (some (.vmax2 (pModOf m))) (m % 32 == 0)
  else if vop = 15 then .ok (some (.hadd2 (hModOf m))) (m % 4 == 0 && !bit m 5)
  else if vop = 16 then .ok (some (.hmul2 (hModOf m))) (m % 4 == 0 && !bit m 5)
  else .bad 1

def VOp.codes : VOp → Nat × Nat
  | .iadd z s => (0, ofBit z 5 + ofBit s 4)
  | .isub z s => (1, ofBit z 5 + ofBit s 4)
  | .and z => (2, ofBit z 5)
  | .or z => (3, ofBit z 5)
  | .xor z => (4, ofBit z 5)
  | .shl z c => (5, ofBit z 5 + ofBit c 1)
  | .shr z c => (6, ofBit z 5 + ofBit c 1)
  | .mov => (7, 0)
  | .fadd m => (8, m.code)
  | .fmul m => (9, m.code)
  | .fmin n a => (10, ofBit n 1 + ofBit a 0)
  | .fmax n a => (11, ofBit n 1 + ofBit a 0)
  | .vadd2 m => (12, m.code)
  | .vmin2 m => (13, m.code)
  | .vmax2 m => (14, m.code)
  | .hadd2 m => (15, m.code)
  | .hmul2 m => (16, m.code)

/-- Reads a pair word (R106). -/
def readPair (last : Bool) (w : DWord) : Read :=
  let vd := fld w 15 7
  let vs := fld w 7 8
  let vm := fld w 0 7
  let v : SlotRead VSlot :=
    if fld w 22 6 = 63 then .ok none (vd == 0 && vs == 0 && vm == 0)
    else match vopOf (fld w 22 6) vm with
      | .bad e => .bad e
      | .ok (some o) z => .ok (some { op := o, vd := fin128 vd, vs := pvsOf vs }) z
      | .ok none z => .ok none z
  match readSSlot (fld w 50 6) (fld w 43 7) (fld w 36 7) (fld w 28 8), v with
  | .bad 1, _ | _, .bad 1 => .bad 1
  | .bad e, _ | _, .bad e => .bad e
  | .ok s z, .ok v z' => .ok (.pairWord last (guardOf (fld w 56 5)) s v) (z && z')

/-- The word of a pair (R106). -/
def pairBits (last : Bool) (g : Guard) (s : Option SSlot) (v : Option VSlot) : DWord :=
  let (sop, sd, ss, st) := match s with | some x => x.codes | none => (63, 0, 0, 0)
  let (vop, vd, vs, vm) : Nat × Nat × Nat × Nat :=
    match v with | some x => (x.op.codes.1, x.vd.val, x.vs.code, x.op.codes.2) | none => (63, 0, 0, 0)
  BitVec.ofNat 64 ((if last then 2 ^ 63 else 0) + 2 ^ 61 + g.code * 2 ^ 56 + sop * 2 ^ 50 + sd * 2 ^ 43 + ss * 2 ^ 36 +
    st * 2 ^ 28 + vop * 2 ^ 22 + vd * 2 ^ 15 + vs * 2 ^ 7 + vm)

/-! ### Words in their pick -/

/-- The kind of a word (R92). -/
def wordKind (w : DWord) : Nat := fld w 61 2

/-- A literal word (R98). -/
def isLit (w : DWord) : Bool := wordKind w == 3

/-- The subcode of a literal word that belongs to no instruction: a reserved bit comes before its place (R98, R124). -/
def strayLit (w : DWord) : Nat := if fld w 58 3 = 0 then 4 else 3

/-- The subcode of a pick header inside a pick: a reserved FA or FB, a reserved bit or E, its place (R102, R124). -/
def strayHeader (w : DWord) : Nat :=
  let raw (n : Nat) : Bool := decide (12 ≤ n) && decide (n ≤ 14)
  if raw (fld w 45 4) || raw (fld w 41 4) then 1 else if fld w 63 1 = 1 || fld w 0 36 ≠ 0 then 3 else 5

/-- Reads the word `w` followed by `next` in its pick. The literal of the next word belongs to it when it names code 1023. -/
def readWord (w : DWord) (next : Option DWord) : Read :=
  let e := fld w 63 1 == 1
  if wordKind w = 1 then readPair e w
  else if wordKind w = 0 then
    match readFull e none (Fields.of w) with
    | .ok i z =>
      if i.namesLit then
        match next with
        | some n => if isLit n then readFull (fld n 63 1 == 1) (some (BitVec.ofNat 58 (fld n 0 58))) (Fields.of w)
                    else .ok i z
        | none => .ok i z
      else .ok i z
    | .bad s => .bad s
  else if wordKind w = 3 then .bad (strayLit w)
  else .bad (strayHeader w)

/-- The lowest of a list of subcodes. -/
def lowest : List Nat → Option Nat
  | [] => none
  | e :: es => match lowest es with | some m => some (min e m) | none => some e

/-- The word with the first `k` of the fields DST, SRCA, SRCB and SRCC cleared. -/
def clearOps (w : DWord) (k : Nat) : DWord := w &&& ~~~BitVec.ofNat 64 ((2 ^ (10 * k) - 1) * 2 ^ (47 - 10 * k))

/-- A word with a reserved operand code read with as few operands cleared as it takes: what it shows beside that code (R124). -/
def readCleared (w : DWord) (next : Option DWord) : Option Instr :=
  [1, 2, 3, 4].findSome? fun k => match readWord (clearOps w k) next with
    | .ok i _ => some i
    | .bad _ => none

/-- The lowest subcode of a word that reading refuses with `e`: a reserved operand code gives way to a reserved form of the word, by `errs`. -/
def refusedSub (w : DWord) (next : Option DWord) (e : Nat) (errs : Instr → List Nat) : Nat :=
  if e = 2 && wordKind w == 0 then
    match readCleared w next with
    | some i => if (errs i).contains 1 then 1 else 2
    | none => 2
  else e

/-- Decodes one instruction from its word and the word after it, refusing by the lowest subcode of R124 that the words show
on their own; the place in the pick and the weft's allocation are tested where the word issues. -/
def decodeWord (w : DWord) (next : Option DWord) : Except Nat Instr :=
  match readWord w next with
  | .bad s => .error (refusedSub w next s fun i => i.encErrs 32 2)
  | .ok i z =>
    let errs := i.encErrs 32 2 ++ (if z then [] else [3]) ++
      (if i.namesLit && (i.hdr?.bind (·.lit)).isNone then [4] else []) ++
      -- E stands on the last word of a pick alone, which a word with its literal after it is not (R103)
      (if (i.hdr?.bind (·.lit)).isSome && fld w 63 1 == 1 then [5] else [])
    match lowest errs with
    | some e => .error e
    | none => .ok i

/-! ### Encoding -/

def ops4 (d a b c : Operand) (op m : Nat) : Nat × Nat × Nat × Nat × Nat × Nat := (op, d.code, a.code, b.code, c.code, m)
def ops3 (d a b : Operand) (op m : Nat) : Nat × Nat × Nat × Nat × Nat × Nat := (op, d.code, a.code, b.code, 0, m)
def ops2 (d a : Operand) (op m : Nat) : Nat × Nat × Nat × Nat × Nat × Nat := (op, d.code, a.code, 0, 0, m)
def opsA (a : Operand) (op : Nat) : Nat × Nat × Nat × Nat × Nat × Nat := (op, 0, a.code, 0, 0, 0)
def opsAB (a b : Operand) (op m : Nat) : Nat × Nat × Nat × Nat × Nat × Nat := (op, 0, a.code, b.code, 0, m)
def opsB (off : BitVec 30) (op : Nat) : Nat × Nat × Nat × Nat × Nat × Nat :=
  (op, off.toNat / 2 ^ 20, off.toNat / 2 ^ 10 % 1024, off.toNat % 1024, 0, 0)
def flt1Code (rnd : Rnd) (sat neg : Bool) : Nat := rnd.code * 8 + ofBit sat 2 + ofBit neg 1

/-- OPCODE, DST, SRCA, SRCB, SRCC and MOD of a full instruction (R113 to R122); `none` for the other constructors. -/
def Instr.fields : Instr → Option (Nat × Nat × Nat × Nat × Nat × Nat)
  | .nop _ => some (0x000, 0, 0, 0, 0, 0)
  | .bra _ o => some (opsB o 0x001)
  | .brx _ a => some (opsA a 0x002)
  | .call _ o => some (opsB o 0x003)
  | .callx _ a => some (opsA a 0x004)
  | .ret _ => some (0x005, 0, 0, 0, 0, 0)
  | .exit _ => some (0x006, 0, 0, 0, 0, 0)
  | .yield _ => some (0x007, 0, 0, 0, 0, 0)
  | .waitl _ d a => some (ops2 d a 0x008 0)
  | .bar _ m a b => some (opsAB a b 0x009 m.code)
  | .trap _ a => some (opsA a 0x00A)
  | .syscall _ a => some (opsA a 0x00B)
  | .brk _ a => some (opsA a 0x00C)
  | .launch _ d a b => some (ops3 d a b 0x00D 0)
  | .iadd _ m d a b => some (ops3 d a b 0x040 m.code)
  | .isub _ m d a b => some (ops3 d a b 0x041 m.code)
  | .imul _ m d a b => some (ops3 d a b 0x042 m.code)
  | .imulh _ t d a b => some (ops3 d a b 0x043 (t.code * 32))
  | .imad _ m d a b c => some (ops4 d a b c 0x044 m.code)
  | .imin _ t d a b => some (ops3 d a b 0x045 (t.code * 32))
  | .imax _ t d a b => some (ops3 d a b 0x046 (t.code * 32))
  | .iabs _ m d a => some (ops2 d a 0x047 m.code)
  | .and _ t d a b => some (ops3 d a b 0x048 (t.code * 32))
  | .or _ t d a b => some (ops3 d a b 0x049 (t.code * 32))
  | .xor _ t d a b => some (ops3 d a b 0x04A (t.code * 32))
  | .not _ t d a => some (ops2 d a 0x04B (t.code * 32))
  | .shl _ m d a b => some (ops3 d a b 0x04C m.code)
  | .shr _ m d a b => some (ops3 d a b 0x04D m.code)
  | .sar _ m d a b => some (ops3 d a b 0x04E m.code)
  | .bfx _ t d a b c => some (ops4 d a b c 0x04F (t.code * 32))
  | .bfi _ t d a b c => some (ops4 d a b c 0x050 (t.code * 32))
  | .popc _ t d a => some (ops2 d a 0x051 (t.code * 32))
  | .clz _ t d a => some (ops2 d a 0x052 (t.code * 32))
  | .brev _ t d a => some (ops2 d a 0x053 (t.code * 32))
  | .isetp _ t k d a b => some (ops3 d a b 0x054 (t.code * 32 + k.code * 2))
  | .sel _ t d a b c => some (ops4 d a b c 0x055 (t.code * 32))
  | .mov _ t d a => some (ops2 d a 0x056 (t.code * 32))
  | .lea _ m k d a b => some (ops3 d a b 0x057 (m.code + k.val * 2))
  | .swizb _ z d a b c => some (ops4 d a b c 0x058 (ofBit z 5))
  | .plop _ t d a b => some (0x059, d.code, a.code, b.code, t.toNat, 0)
  | .p2v _ d => some (0x05A, d.code, 0, 0, 0, 0)
  | .v2p _ a b => some (opsAB a b 0x05B 0)
  | .fadd _ m d a b => some (ops3 d a b 0x080 m.code)
  | .fsub _ m d a b => some (ops3 d a b 0x081 m.code)
  | .fmul _ m d a b => some (ops3 d a b 0x082 m.code)
  | .ffma _ m d a b c => some (ops4 d a b c 0x083 m.code)
  | .fmin _ n s d a b => some (ops3 d a b 0x084 (ofBit n 1 + ofBit s 0))
  | .fmax _ n s d a b => some (ops3 d a b 0x085 (ofBit n 1 + ofBit s 0))
  | .fsetp _ k d a b => some (ops3 d a b 0x086 k.code)
  | .frcp _ r s n d a => some (ops2 d a 0x087 (flt1Code r s n))
  | .frsq _ r s n d a => some (ops2 d a 0x088 (flt1Code r s n))
  | .fex2 _ r s n d a => some (ops2 d a 0x089 (flt1Code r s n))
  | .flg2 _ r s n d a => some (ops2 d a 0x08A (flt1Code r s n))
  | .fsin _ r s n d a => some (ops2 d a 0x08B (flt1Code r s n))
  | .fcos _ r s n d a => some (ops2 d a 0x08C (flt1Code r s n))
  | .frnd _ r s n d a => some (ops2 d a 0x08D (flt1Code r s n))
  | .fclass _ d a => some (ops2 d a 0x08E 0)
  | .fscale _ r s n d a b => some (ops3 d a b 0x08F (flt1Code r s n))
  | .vadd2 _ m d a b => some (ops3 d a b 0x0C0 m.code)
  | .vsub2 _ m d a b => some (ops3 d a b 0x0C1 m.code)
  | .vmin2 _ m d a b => some (ops3 d a b 0x0C2 m.code)
  | .vmax2 _ m d a b => some (ops3 d a b 0x0C3 m.code)
  | .vacs2 _ m k d a b c => some (ops4 d a b c 0x0C4 (m.code + k.val))
  | .hadd2 _ m d a b => some (ops3 d a b 0x0C5 m.code)
  | .hmul2 _ m d a b => some (ops3 d a b 0x0C6 m.code)
  | .hfma2 _ m d a b c => some (ops4 d a b c 0x0C7 m.code)
  | .cvt _ m d a =>
    some (0x0C8, d.code, a.code, 0, m.dty.code * 32 + m.sty.code,
      m.rnd.code * 8 + ofBit m.sat 2 + ofBit m.uns 1 + ofBit m.ext 0)
  | .shfl _ m d a b c => some (ops4 d a b c 0x100 m.code)
  | .vote _ m d a => some (ops2 d a 0x101 m.code)
  | .redux _ o t d a => some (ops2 d a 0x102 (t.code * 8 + o.code))
  | .mates _ w k d a =>
    some (match k with
      | some b => ops3 d a b 0x103 (ofBit w 1 + 1)
      | none => ops2 d a 0x103 (ofBit w 1))
  | .rdfl _ d a => some (ops2 d a 0x104 0)
  | .movs _ n d s => some (0x105, d.code, (match s with | some a => a.code | none => 0), n.toNat, 0, 0)
  | .sets _ n a => some (0x106, n.toNat, a.code, 0, 0, 0)
  | .ld _ m d a o => some (0x140, d.code, a.code, o.code, m.c, m.m o)
  | .st _ m d a o => some (0x141, d.code, a.code, o.code, m.c, m.m o)
  | .lds _ m d a o => some (0x142, d.code, a.code, o.code, m.c, m.m o)
  | .sts _ m d a o => some (0x143, d.code, a.code, o.code, m.c, m.m o)
  | .ldc _ s f d a o =>
    some (0x144, d.code, a.code, o.code, 0, (match o with | .idx _ => 64 | .imm _ => 0) + s.code * 8 + ofBit f 0)
  | .atom _ m d a b => some (0x145, d.code, a.code, b.code, m.c, m.m)
  | .atoms _ m d a b => some (0x146, d.code, a.code, b.code, m.c, m.m)
  | .red _ m a b => some (0x147, 0, a.code, b.code, m.c, m.m)
  | .fence _ m => some (0x148, 0, 0, 0, m.scope.code * 128, m.ord.code * 2 + ofBit m.fb 0)
  | .pref _ e a o => some (0x149, 0, a.code, o.code, ofBit e 5, match o with | .idx _ => 64 | .imm _ => 0)
  | .cctl _ k f a o =>
    some (0x14A, 0, a.code, o.code, 0, (match o with | .idx _ => 64 | .imm _ => 0) + k.code * 8 + ofBit f 0)
  | .gather _ s d a b c => some (ops4 d a b c 0x14B (s.code * 8))
  | .scatter _ s d a b c => some (ops4 d a b c 0x14C (s.code * 8))
  | .slop _ a => some (opsA a 0x14D)
  | .mma _ m t a b c =>
    some (0x180, t.val, a.code, b.code, (match c with | some x => x.code | none => 0),
      m.fmt.code * 32 + m.chunks.val * 2 + ofBit m.ra 0)
  | .accz _ t => some (0x181, t.val, 0, 0, 0, 0)
  | .accld _ t b => some (0x182, t.val, 0, b.code, 0, 0)
  | .accst _ t b => some (0x183, 0, t.val, b.code, 0, 0)
  | .accmvToRegs _ d t => some (0x184, d.code, t.val, 0, 0, 0)
  | .accmvToTile _ t a => some (0x184, t.val, a.code, 0, 0, 1)
  | .accq _ d t => some (0x185, d.code, t.val, 0, 0, 0)
  | .tcopy _ d a => some (ops2 d a 0x188 0)
  | .tcstat _ d a => some (ops2 d a 0x189 0)
  | .tcabort _ a => some (opsA a 0x18A)
  | .ecadd _ m a b => some (0x18C, 0, a.code, b.code, m.c, m.m 2)
  | .ecwait _ m a b => some (0x18D, 0, a.code, b.code, m.c, m.m 1)
  | .ecrd _ m d a => some (0x18E, d.code, a.code, 0, m.c, m.m 1)
  | .ectrig _ f a b => some (0x18F, 0, a.code, b.code, 0, ofBit f 0)
  | .coll _ d a => some (ops2 d a 0x190 0)
  | .cabort _ a => some (opsA a 0x191)
  | .viewq _ d a => some (ops2 d a 0x192 0)
  | .viewack _ a => some (opsA a 0x193)
  | .vjoin _ a => some (opsA a 0x194)
  | .tret _ => some (0x1C0, 0, 0, 0, 0, 0)
  | .lxrd _ d a r => some (0x1C1, d.code, a.code, 0, r.toNat, 0)
  | .lxwr _ a b r => some (0x1C2, 0, a.code, b.code, r.toNat, 0)
  | .park _ a => some (opsA a 0x1C3)
  | .resume _ a => some (opsA a 0x1C4)
  | .tlbinvPage _ a b => some (opsAB a b 0x1C5 0)
  | .tlbinvAsid _ a b => some (opsAB a b 0x1C5 1)
  | .tlbinvAll _ a b => some (opsAB a b 0x1C5 2)
  | .tlbsync _ => some (0x1C6, 0, 0, 0, 0, 0)
  | .signal _ a b => some (opsAB a b 0x1C7 0)
  | .tmark _ a => some (opsA a 0x1C8)
  | _ => none

/-- The words of an instruction: its word, then its literal word when it carries one (R93, R98, R106); nothing for the
device's own steps. -/
def encode (i : Instr) : List DWord :=
  match i with
  | .pairWord l g s v => [pairBits l g s v]
  | i =>
    match i.hdr?, i.fields with
    | some h, some (op, d, a, b, c, m) =>
      let f : Fields := { last := h.last && h.lit.isNone, op := op, g := h.guard.code, d := d, a := a, b := b, c := c, m := m }
      match h.lit with
      | some v => [f.word, BitVec.ofNat 64 ((if h.last then 2 ^ 63 else 0) + 3 * 2 ^ 61 + v.toNat)]
      | none => [f.word]
    | _, _ => []

/-- Decodes a list of words of which the instruction takes the first, and its literal the second. -/
def decodeWords : List DWord → Option Instr
  | [] => none
  | w :: ws => match decodeWord w ws.head? with | .ok i => some i | .error _ => none

/-- The instruction the decoder reads from the bits `w`, bit 0 the least significant of the first word; the bits above
`nbits` are zero. -/
def decodeTableWord (nbits w : Nat) : Option Instr :=
  let v := w % 2 ^ nbits
  decodeWords [BitVec.ofNat 64 v, BitVec.ofNat 64 (v / 2 ^ 64)]

/-! ### Pick headers -/

/-- WAIT, FA, FB and LEN of a pick header (R102). -/
structure PickHdr where
  wait : BitVec 12
  fa : Nat
  fb : Nat
  len : Nat
  deriving DecidableEq, Repr

/-- Reads a pick header; the subcode of R124 where it is none or is malformed (R102, R125). -/
def pickHdrOf (w : DWord) : Except Nat PickHdr :=
  if wordKind w ≠ 2 then .error 5
  else
    let fa := fld w 45 4
    let fb := fld w 41 4
    let errs := (if (12 ≤ fa ∧ fa ≤ 14) ∨ (12 ≤ fb ∧ fb ≤ 14) then [1] else []) ++
      (if fld w 63 1 = 1 ∨ fld w 0 36 ≠ 0 then [3] else []) ++ (if 24 ≤ fld w 36 5 then [5] else [])
    match lowest errs with
    | some e => .error e
    | none => .ok { wait := BitVec.ofNat 12 (fld w 49 12), fa := fa, fb := fb, len := fld w 36 5 }

/-- The word of a pick header (R102). -/
def PickHdr.word (h : PickHdr) : DWord :=
  BitVec.ofNat 64 (2 * 2 ^ 61 + h.wait.toNat * 2 ^ 49 + h.fa * 2 ^ 45 + h.fb * 2 ^ 41 + h.len * 2 ^ 36)

end Sys2Proof
end

