-- ==== Sys2Proof/Config.lean ====
section
/-! DEFINITION. What the specification leaves to an implementation or leaves open, as constants without a body: no proof
can see their values (notes/assumptions/2.md). -/

namespace Sys2Proof.Config

/-- The words of the built-in supervisor kernel of a firmware image (R272 names it, no rule gives its text). -/
opaque hareelWord : Nat → Nat → BitVec 64
/-- The member of a broken contiguous group through which an address translates (R289), by the count of free values. -/
opaque groupMember : Nat → Fin 16
/-- Words an L1 fill brings in addition to the one asked for, as a mask of the line's eight words (R163). -/
opaque fillMask : Nat → BitVec 8
/-- Whether an access of a hint range missed the L2 (R300); what the L2 holds is not part of the state. -/
opaque freeBit : Nat → Bool
/-- Bytes of SPDM answers that no rule gives: signatures, key shares, capabilities (R315). -/
opaque spdmByte : Nat → BitVec 8
/-- The device's certificate chain (R315). -/
opaque certificate : List (BitVec 8)
/-- The verification value that a FINISH of the session in establishment must carry (R315). -/
opaque finishValue : Nat → BitVec 256
/-- The firmware image that the device was made with, and the words that a supervisor kernel at an address takes: no rule gives its extent
(R315). -/
opaque firstImage : List (BitVec 8)
opaque kernelLen : Nat → Nat
/-- The logical core map as measurement 4 hashes it, by the pairs removed and the pairs bound to a spare (R315; no rule gives its form). -/
opaque coreMapBytes : List Nat → List (Nat × Nat) → List (BitVec 8)
/-- Whether the signature of a staged firmware image holds against the fused key (R316). -/
opaque imageSigned : List (BitVec 8) → Bool
/-- The security version an image carries (R316; its place in the image is not given). -/
opaque imageVersion : List (BitVec 8) → Nat
/-- The four hash functions of the Bloom filter over row identities (R341). -/
opaque bloomHash : Fin 4 → Nat → Fin 65536
/-- The bank of a row identity, for its two spare rows (R342). -/
opaque rowBank : Nat → Nat
/-- A value that no rule states, by the count of free values: the length of a freeze within its bound (R298), the arguments of an event
whose table gives none (R306), the service of a forwarded page fault (R305). -/
opaque freeValue : Nat → BitVec 128
/-- An order of additions that the specification leaves open (R157, R330): the rank of each addend. -/
opaque sumOrder : Nat → Nat → Nat
/-- Whether a UALink station of the pod is reachable (R288). -/
opaque stationUp : Nat → Bool

/-- The cause that the event of a context kill reports where it is not an uncorrectable error (R306), by what killed it. -/
opaque killCause : Nat → Nat
/-- Bytes of the saved state of a bolt of a kernel with header words 0 and 1 (R281). -/
opaque saveBytes : BitVec 64 → BitVec 64 → Nat
end Sys2Proof.Config
end

