-- ==== Sys2Proof/Machine/Numbers.lean ====
section
/-! DEFINITION. Number formats and arithmetic of spec/06: integers, exact values, the one rounding function `round_to`
(R136), the formats it rounds to, and the exact operations of the float instructions. -/

namespace Sys2Proof.Machine

/-! ### Integers (R130, R131) -/

/-- sx(v, n): the low `n` bits of `v` as a signed value. -/
def sxN (v n : Nat) : Int := (BitVec.ofNat n v).toInt

/-- trunc(x, n) of an exact integer. -/
def truncI (x : Int) (n : Nat) : Nat := (x % (2 ^ n : Nat)).toNat

/-- Bounds of an integer type of `n` bits (R130). -/
def intLo (signed : Bool) (n : Nat) : Int := if signed then -(2 ^ (n - 1) : Nat) else 0
def intHi (signed : Bool) (n : Nat) : Int := if signed then (2 ^ (n - 1) : Nat) - 1 else (2 ^ n : Nat) - 1

/-- sat_int(x, type) (R131). -/
def satInt (signed : Bool) (n : Nat) (x : Int) : Int :=
  if x < intLo signed n then intLo signed n else if intHi signed n < x then intHi signed n else x

/-- An integer result as it is written: saturated when asked, then `n` bits (R131). -/
def intResult (signed sat : Bool) (n : Nat) (x : Int) : Nat :=
  truncI (if sat then satInt signed n x else x) n

/-- Bits of a 32-bit float with the sign flipped. -/
def flip32 (a : Nat) : Nat := a ^^^ 0x80000000

/-! ### Exact values -/

/-- An exact value: NaN, an infinity, or ±m·2^e. With `st` the magnitude lies strictly between m·2^e and (m+1)·2^e. -/
inductive Num where
  | nan
  | inf (neg : Bool)
  | fin (neg : Bool) (m : Nat) (e : Int) (st : Bool)
  deriving DecidableEq, Repr, Inhabited

/-- The bits of $fpst (R77). -/
abbrev Exc := BitVec 5
def excInvalid : Exc := 16
def excDivZero : Exc := 8
def excOverflow : Exc := 4
def excUnderflow : Exc := 2
def excInexact : Exc := 1

/-- ⌊m / 2^s⌋, and whether bits were dropped; large shifts are answered without forming 2^s. -/
def shr (m s : Nat) : Nat := if s > m.log2 then 0 else m >>> s

/-- Rounds the magnitude (m, e, st) to a multiple of 2^q by mode: the multiple, and whether that was inexact. A tie goes
to the neighbour for which `odd` is false (R135). The sticky mark `st` stands only on values with more bits than are kept. -/
def roundTo2 (odd : Nat → Bool) (mode : Rnd) (neg : Bool) (m : Nat) (e q : Int) (st : Bool) : Nat × Bool :=
  if q ≤ e then (m <<< (e - q).toNat, st) else
    let s := (q - e).toNat
    let n := shr m s
    let low := m - (if s > m.log2 then 0 else n <<< s)
    let inx := st || low != 0
    -- twice the dropped part against one unit
    let big := s > m.log2 + 1
    let twoLow := 2 * low
    let above := !big && (decide (twoLow > 1 <<< s) || (twoLow == 1 <<< s && st))
    let tie := !big && twoLow == 1 <<< s && !st
    let up := match mode with
      | .rn => above || (tie && odd n)
      | .rz => false
      | .rd => neg && inx
      | .ru => !neg && inx
    (if up then n + 1 else n, inx)

/-- Position of the leading bit of a magnitude. -/
def topBit (m : Nat) (e : Int) : Int := (m.log2 : Int) + e

/-- Whether m·2^e exceeds b·2^f. -/
def magGt (m : Nat) (e : Int) (b : Nat) (f : Int) : Bool :=
  if m = 0 then false else if b = 0 then true
  else if topBit m e ≠ topBit b f then decide (topBit b f < topBit m e)
  else let g := min e f; decide (b <<< (f - g).toNat < m <<< (e - g).toNat)

/-! ### Formats (R133, R141 to R146) -/

/-- A rounding target: precision, smallest normal exponent, trailing bits, bias, code of the largest finite magnitude, sign
bit position, and the codes of +∞ and NaN where the format has them. -/
structure Fmt where
  p : Nat
  bias : Nat
  top : Nat
  sign : Option Nat
  inf : Option Nat
  nan : Nat
  /-- 0 IEEE, 1 binary8, 2 E2M1 -/
  kind : Nat
  deriving DecidableEq, Repr

def Fmt.emin (f : Fmt) : Int := 1 - f.bias

def fmtF32 : Fmt := { p := 24, bias := 127, top := 0x7F7FFFFF, sign := some 31, inf := some 0x7F800000, nan := 0x7FC00000, kind := 0 }
def fmtF16 : Fmt := { p := 11, bias := 15, top := 0x7BFF, sign := some 15, inf := some 0x7C00, nan := 0x7E00, kind := 0 }
def fmtBf16 : Fmt := { p := 8, bias := 127, top := 0x7F7F, sign := some 15, inf := some 0x7F80, nan := 0x7FC0, kind := 0 }
def fmtE2m1 : Fmt := { p := 2, bias := 1, top := 7, sign := some 3, inf := none, nan := 0, kind := 2 }

/-- The binary8 format of precision `p`, 1 to 7 (R141 to R143). -/
def fmtB8 (p : Nat) (uns ext : Bool) : Fmt :=
  if uns then
    { p := p, bias := 2 ^ (8 - p), top := if ext then 0xFD else 0xFE, sign := none, inf := if ext then some 0xFE else none,
      nan := 0xFF, kind := 1 }
  else
    { p := p, bias := 2 ^ (7 - p), top := if ext then 0x7E else 0x7F, sign := some 7, inf := if ext then some 0x7F else none,
      nan := 0x80, kind := 1 }

/-- Magnitude of a code without its sign bit. -/
def Fmt.mag (f : Fmt) (c : Nat) : Nat × Int :=
  let t := f.p - 1
  let e := c / 2 ^ t
  let m := c % 2 ^ t
  if e = 0 then (m, f.emin - t) else (2 ^ t + m, (e : Int) - f.bias - t)

/-- The exact value of a code. -/
def Fmt.dec (f : Fmt) (c : Nat) : Num :=
  let neg := match f.sign with | some s => c / 2 ^ s % 2 == 1 | none => false
  let a := match f.sign with | some s => c % 2 ^ s | none => c
  let fin (_ : Unit) : Num := let (m, e) := f.mag a; .fin neg m e false
  match f.kind with
  | 0 => if f.top < a then (if some a = f.inf then .inf neg else .nan) else fin ()
  | 1 => if c = f.nan then .nan else if some a = f.inf then .inf neg else fin ()
  | _ => fin ()

/-- The code of n·2^q, for q at or above the spacing of the format (R136). -/
def Fmt.enc (f : Fmt) (n : Nat) (q : Int) : Nat :=
  if n = 0 then 0 else
    let t := f.p - 1
    let e := topBit n q
    if e < f.emin then n <<< (q - (f.emin - t)).toNat
    else
      let m := if q ≤ e - t then n >>> (e - t - q).toNat else n <<< (q - (e - t)).toNat
      ((e + f.bias).toNat) <<< t ||| (m % 2 ^ t)

def Fmt.signBits (f : Fmt) (neg : Bool) : Nat := match f.sign with | some s => if neg then 2 ^ s else 0 | none => 0

/-- Whether a finite value, rounded to the precision of the format with an unbounded exponent range, lies below its smallest normal
(R139). No rule states the tie of that rounding: the model takes ties to an even integer multiple of the spacing, which for a precision of
1 can differ from the rule on encodings of R135 (DESIGN CHOICE, notes/assumptions/67.md). -/
def Fmt.tiny (f : Fmt) (mode : Rnd) (neg : Bool) (m : Nat) (e : Int) (st : Bool) : Bool :=
  let t : Int := f.p - 1
  let top := topBit m e
  (m != 0 || st) && decide (top < f.emin) &&
    (let (n, _) := roundTo2 (fun k => k % 2 == 1) mode neg m e (top - t) st
     magGt 1 f.emin n (top - t))

def Num.tiny (f : Fmt) (mode : Rnd) : Num → Bool
  | .fin neg m e st => f.tiny mode neg m e st
  | _ => false

/-- The exceptions of a value written in place of the rounded one without invalid: inexact, and underflow where the exact value is tiny
(R139). -/
def replaced (tiny : Bool) : Exc := excInexact ||| (if tiny then excUnderflow else 0)

/-- round_to(fmt, x, mode, sat): the code and the exceptions (R136, R139, R144, R145). -/
def roundTo (f : Fmt) (x : Num) (mode : Rnd) (sat : Bool) : Nat × Exc :=
  let uneg (neg : Bool) : Bool := neg && f.sign.isNone
  match x with
  | .nan => if f.kind = 2 then (0, excInvalid) else (f.nan, 0)
  | .inf neg =>
    if uneg neg then (if sat then (0, excInexact) else (f.nan, excInvalid))
    else if f.kind = 2 then (f.top ||| f.signBits neg, excOverflow ||| excInexact)
    else if sat then (f.top ||| f.signBits neg, excInexact)
    else match f.inf with
      | some c => (c ||| f.signBits neg, 0)
      | none => (f.nan, excInvalid)
  | .fin neg m e st =>
    if m = 0 && !st then (if f.kind = 1 then 0 else f.signBits neg, 0) else
      let t : Int := f.p - 1
      let top := topBit m e
      let q := max top f.emin - t
      let odd (n : Nat) : Bool := f.enc n q % 2 == 1
      let (n, inx) := roundTo2 odd mode neg m e q st
      let tiny : Bool := f.tiny mode neg m e st
      let (bm, be) := f.mag f.top
      let overF : Exc := if magGt n q bm be then excOverflow else 0
      let fl : Exc := (if inx then excInexact else 0) ||| (if inx && tiny then excUnderflow else 0)
      if n = 0 then (if f.kind = 1 then 0 else f.signBits neg, fl)
      else if uneg neg then (if sat then (0, fl ||| overF ||| replaced tiny) else (f.nan, fl ||| overF ||| excInvalid))
      else
        if overF ≠ 0 then
          let fl := excOverflow ||| excInexact
          if f.kind = 2 || sat then (f.top ||| f.signBits neg, fl)
          else
            let away := match mode with | .rn => true | .rz => false | .rd => neg | .ru => !neg
            if !away then (f.top ||| f.signBits neg, fl)
            else match f.inf with
              | some c => (c ||| f.signBits neg, fl)
              | none => (f.nan, excOverflow ||| excInvalid ||| (if inx then excInexact else 0))
        else (f.enc n q ||| f.signBits neg, fl)

/-- round_to into E8M0 (R146). Where a value rounds above 2^127, or is +∞, and .sat is clear, the NaN 0xFF is written with the exceptions
that R146 lists for that row and without the invalid that R139 names for a non-NaN value converted to an E8M0 NaN (DESIGN CHOICE,
notes/assumptions/67.md). -/
def roundE8m0 (x : Num) (mode : Rnd) (sat : Bool) : Nat × Exc :=
  match x with
  | .nan => (0xFF, 0)
  | .inf true => (if sat then 0 else 0xFF, excInvalid)
  | .inf false => (if sat then 0xFE else 0xFF, excInexact)
  | .fin neg m e st =>
    if neg || (m = 0 && !st) then (if sat then 0 else 0xFF, excInvalid)
    else
      let top := topBit m e
      if top < -127 then (0, excUnderflow ||| excInexact)
      else
        let (n, inx) := roundTo2 (fun n => (top + n - 1 + 127).toNat % 2 == 1) mode false m e top st
        let k := top + n - 1
        let fl : Exc := if inx then excInexact else 0
        if k > 127 then (if sat then 0xFE else 0xFF, fl ||| excOverflow ||| excInexact)
        else ((k + 127).toNat, fl)

/-- round_to for an integer target from a float value: clamped, never wrapped (R137, R391). -/
def roundInt (signed : Bool) (n : Nat) (x : Num) (mode : Rnd) : Int × Exc :=
  match x with
  | .nan => (0, excInvalid)
  | .inf neg => (if neg then intLo signed n else intHi signed n, excInvalid)
  | .fin neg m e st =>
    if m ≠ 0 && decide (topBit m e > 200) then (if neg then intLo signed n else intHi signed n, excInvalid)
    else
      let (k, inx) := roundTo2 (fun k => k % 2 == 1) mode neg m e 0 st
      let v : Int := if neg then -(k : Int) else k
      let fl : Exc := if inx then excInexact else 0
      let c := satInt signed n v
      (c, if c = v then fl else fl ||| excInvalid)

/-- rne32 of an exact value (R135). -/
def rne32 (x : Num) : Nat := (roundTo fmtF32 x .rn false).1

/-- clamp01 on a code of an IEEE format, with the inexact it raises (R138). -/
def clamp01 (f : Fmt) (c : Nat) : Nat × Exc :=
  let one := f.bias <<< (f.p - 1)
  match f.dec c with
  | .nan => (0, 0)
  | .inf neg => (if neg then 0 else one, excInexact)
  | .fin neg m _ _ =>
    if neg then (0, if m = 0 then 0 else excInexact) else if one < c then (one, excInexact) else (c, 0)

/-! ### Exact operations -/

def Num.neg : Num → Num
  | .nan => .nan
  | .inf n => .inf !n
  | .fin n m e s => .fin (!n) m e s

def Num.isZero : Num → Bool
  | .fin _ m _ s => m == 0 && !s
  | _ => false

/-- An exact integer as a value. -/
def Num.ofInt (x : Int) : Num := .fin (decide (x < 0)) x.natAbs 0 false

/-- The signed integer m·2^(e − g) of a finite value, for g at or below its exponent. -/
def Num.atExp (x : Num) (g : Int) : Int :=
  match x with
  | .fin n m e _ => let v : Int := (m <<< (e - g).toNat : Nat); if n then -v else v
  | _ => 0

def Num.exp : Num → Int
  | .fin _ m e _ => if m = 0 then 4096 else e
  | _ => 4096

/-- The exact sum of two exact operands, and invalid; a zero takes its sign by R399 under mode `rd`. -/
def addNum (rd : Bool) (a b : Num) : Num × Exc :=
  match a, b with
  | .nan, _ | _, .nan => (.nan, 0)
  | .inf s, .inf t => if s = t then (.inf s, 0) else (.nan, excInvalid)
  | .inf s, _ => (.inf s, 0)
  | _, .inf t => (.inf t, 0)
  | .fin s m e u, .fin t n f v =>
    if m = 0 && n = 0 then (.fin (if s = t then s else rd) 0 0 false, 0)
    else
      let x : Num := .fin s m e u
      let y : Num := .fin t n f v
      let g := min x.exp y.exp
      let z := (if m = 0 then 0 else x.atExp g) + (if n = 0 then 0 else y.atExp g)
      if z = 0 then (.fin rd 0 0 false, 0) else (.fin (decide (z < 0)) z.natAbs g false, 0)

/-- The exact product, and invalid (R399). -/
def mulNum (a b : Num) : Num × Exc :=
  match a, b with
  | .nan, _ | _, .nan => (.nan, 0)
  | .inf s, .inf t => (.inf (s != t), 0)
  | .inf s, .fin t n _ _ => if n = 0 then (.nan, excInvalid) else (.inf (s != t), 0)
  | .fin s m _ _, .inf t => if m = 0 then (.nan, excInvalid) else (.inf (s != t), 0)
  | .fin s m e _, .fin t n f _ => (.fin (s != t) (m * n) (e + f) false, 0)

/-- a × b + c (R403). -/
def fmaNum (rd : Bool) (a b c : Num) : Num × Exc :=
  match c with
  | .nan => (.nan, 0)
  | _ =>
    let (p, x) := mulNum a b
    let (r, y) := addNum rd p c
    (r, x ||| y)

/-- Sum of finite values, exact (R155, R439). -/
def sumFin (xs : List Num) : Num :=
  let g := xs.foldl (fun g x => min g x.exp) 4096
  let z := xs.foldl (fun (s : Int) x => match x with | .fin _ m _ _ => if m = 0 then s else s + x.atExp g | _ => s) 0
  if z = 0 then .fin false 0 0 false else .fin (decide (z < 0)) z.natAbs g false

/-- -1, 0 or 1 as a is below, equal to or above b; `none` when either is NaN. -/
def cmpNum (a b : Num) : Option Int :=
  match a, b with
  | .nan, _ | _, .nan => none
  | .inf s, .inf t => some (if s = t then 0 else if s then -1 else 1)
  | .inf s, _ => some (if s then -1 else 1)
  | _, .inf t => some (if t then 1 else -1)
  | x, y =>
    let g := min x.exp y.exp
    let u := if x.isZero then 0 else x.atExp g
    let v := if y.isZero then 0 else y.atExp g
    some (if u < v then -1 else if v < u then 1 else 0)

/-- FMIN and FMAX on codes of an IEEE format: −0 below +0, one NaN gives the other operand (R404). -/
def minMax (f : Fmt) (max : Bool) (a b : Nat) : Nat :=
  let below (x y : Nat) : Bool :=
    match cmpNum (f.dec x) (f.dec y) with
    | some 0 => (f.dec x).isZero && decide (f.signBits true ≤ x) && decide (y < f.signBits true)
    | some c => decide (c < 0)
    | none => false
  match f.dec a, f.dec b with
  | .nan, .nan => f.nan
  | .nan, _ => b
  | _, .nan => a
  | _, _ => if max then (if below a b then b else a) else (if below b a then b else a)

/-- 1/a, with divide-by-zero (R401). -/
def rcpNum (a : Num) : Num × Exc :=
  match a with
  | .nan => (.nan, 0)
  | .inf s => (.fin s 0 0 false, 0)
  | .fin s m e _ =>
    if m = 0 then (.inf s, excDivZero)
    else let k := m.log2 + 96; (.fin s (2 ^ k / m) (-(k : Int) - e) (2 ^ k % m != 0), 0)

/-- Integer square root by bits, from bit `k` down. -/
def sqrtBits (v : Nat) : Nat → Nat → Nat
  | 0, r => r
  | k + 1, r => let c := r + 2 ^ k; sqrtBits v k (if c * c ≤ v then c else r)

/-- 1/√a (R401). -/
def rsqNum (a : Num) : Num × Exc :=
  match a with
  | .nan => (.nan, 0)
  | .inf s => if s then (.nan, excInvalid) else (.fin false 0 0 false, 0)
  | .fin s m e _ =>
    if m = 0 then (.inf s, excDivZero)
    else if s then (.nan, excInvalid)
    else
      let m' := if e % 2 = 0 then m else 2 * m
      let h := (if e % 2 = 0 then e else e - 1) / 2
      let v := 2 ^ 320 / m'
      let r := sqrtBits v 162 0
      (.fin false r (-160 - h) (r * r * m' != 2 ^ 320), 0)

/-! ### Transcendental functions (R401), by fixed point far below the rounding position (notes/assumptions/7.md) -/

/-- ln 2 · 2^384. -/
def ln2Fix : Nat := 0xb17217f7d1cf79abc9e3b39803f2f6af40f343267298b62d8a0d175b8baafa2be7b876206debac98559552fb4afa1b10
/-- (π/2) · 2^768. -/
def halfPiFix : Nat := 0x1921fb54442d18469898cc51701b839a252049c1114cf98e804177d4c76273644a29410f31c6809bbdf2a33679a748636605614dbe4be286e9fc26adadaa3848bc90b6aecc4bcfd8de89885d34c6fdad617feb96de80d6fdbdc70d7f6b5133f4b

/-- Σ term·x/k over `fuel` steps, in fixed point with `f` fraction bits: the exponential series. -/
def expSeries (f x : Nat) : Nat → Nat → Nat → Nat → Nat
  | 0, _, _, s => s
  | n + 1, k, t, s => let t' := (t * x) >>> f / (k + 1); expSeries f x n (k + 1) t' (s + t')

/-- Σ ± x^(2i+k0)/(2i+k0)!, alternating: the sine (k0 = 1) and cosine (k0 = 0) series. -/
def trigSeries (f x2 : Nat) : Nat → Nat → Nat → Bool → Int → Int
  | 0, _, _, _, s => s
  | n + 1, k, t, neg, s =>
    let t' := (t * x2) >>> f / ((k + 1) * (k + 2))
    trigSeries f x2 n (k + 2) t' (!neg) (if neg then s - t' else s + t')

/-- Σ z^(2i+1)/(2i+1): the series of the inverse hyperbolic tangent. -/
def atanhSeries (f z2 : Nat) : Nat → Nat → Nat → Nat → Nat
  | 0, _, _, s => s
  | n + 1, k, t, s => atanhSeries f z2 n (k + 2) ((t * z2) >>> f) (s + t / k)

/-- 2^a. -/
def ex2Num (a : Num) : Num × Exc :=
  match a with
  | .nan => (.nan, 0)
  | .inf s => if s then (.fin false 0 0 false, 0) else (.inf false, 0)
  | .fin s m e _ =>
    if m = 0 then (.fin false 1 0 false, 0)
    else if topBit m e > 12 then (if s then .fin false 1 (-1000) true else .fin false 1 1000 true, 0)
    else
      -- a·2^384 exactly, floored to integer and fraction
      let v : Int := let w : Int := (m <<< (e + 384).toNat : Nat); if s then -w else w
      let n := v >>> 384
      let fr := (v - n <<< 384).toNat
      if fr = 0 then (.fin false 1 n false, 0)
      else
        let x := (fr * ln2Fix) >>> 384
        (.fin false (expSeries 384 x 100 0 (2 ^ 384) (2 ^ 384)) (n - 384) true, 0)

/-- log2 a. -/
def lg2Num (a : Num) : Num × Exc :=
  match a with
  | .nan => (.nan, 0)
  | .inf s => if s then (.nan, excInvalid) else (.inf false, 0)
  | .fin s m e _ =>
    if m = 0 then (.inf true, excDivZero)
    else if s then (.nan, excInvalid)
    else
      let k := topBit m e
      if m = 2 ^ m.log2 then (.ofInt k, 0)
      else
        let w := m <<< (384 - m.log2)                       -- mantissa in [1, 2), 384 fraction bits
        let z := ((w - 2 ^ 384) <<< 384) / (w + 2 ^ 384)
        let l := 2 * atanhSeries 384 ((z * z) >>> 384) 130 1 z 0
        let g := (l <<< 384) / ln2Fix
        let v : Int := (k <<< 384) + g
        if v < 0 then (.fin true (v.natAbs - 1) (-384) true, 0) else (.fin false v.toNat (-384) true, 0)

/-- Sine or cosine of a value in radians. -/
def trigNum (cosine : Bool) (a : Num) : Num × Exc :=
  match a with
  | .nan => (.nan, 0)
  | .inf _ => (.nan, excInvalid)
  | .fin s m e _ =>
    if m = 0 then (if cosine then .fin false 1 0 false else .fin s 0 0 false, 0)
    else
      let v := m <<< (e + 768).toNat
      let k := v / halfPiFix
      let r := v % halfPiFix
      let q := if cosine then (k + 1) % 4 else k % 4
      let x2 := (r * r) >>> 768
      let useCos := q % 2 == 1
      let w := if useCos then trigSeries 768 x2 130 0 (2 ^ 768) true (2 ^ 768 : Nat) else trigSeries 768 x2 130 1 r true r
      let neg := decide (2 ≤ q) != (s && !cosine)
      (.fin neg (w.toNat - 1) (-768) true, 0)

/-! ### One float instruction on 32-bit patterns (R397 to R406) -/

def negIf (c : Bool) (a : Nat) : Nat := if c then flip32 a else a
def absIf (c : Bool) (a : Nat) : Nat := if c then a % 0x80000000 else a

/-- round_to and, under .sat, clamp01 (R398). -/
def finish (f : Fmt) (mode : Rnd) (sat : Bool) (x : Num × Exc) : Nat × Exc :=
  let (c, y) := roundTo f x.1 mode false
  if sat then
    let (d, z) := clamp01 f c
    (d, x.2 ||| y ||| z ||| (if z = 0 then 0 else replaced (x.1.tiny f mode)))
  else (c, x.2 ||| y)

def isRd (m : Rnd) : Bool := m == .rd

def fadd (m : FltMod) (a b : Nat) : Nat × Exc :=
  finish fmtF32 m.rnd m.sat (addNum (isRd m.rnd) (fmtF32.dec (negIf m.neg a)) (fmtF32.dec (absIf m.abs b)))
def fsub (m : FltMod) (a b : Nat) : Nat × Exc :=
  finish fmtF32 m.rnd m.sat (addNum (isRd m.rnd) (fmtF32.dec (negIf m.neg a)) (fmtF32.dec (flip32 (absIf m.abs b))))
def fmul (m : FltMod) (a b : Nat) : Nat × Exc :=
  finish fmtF32 m.rnd m.sat (mulNum (fmtF32.dec (negIf m.neg a)) (fmtF32.dec (absIf m.abs b)))
def ffma (m : FltMod) (a b c : Nat) : Nat × Exc :=
  finish fmtF32 m.rnd m.sat
    (fmaNum (isRd m.rnd) (fmtF32.dec (negIf m.neg a)) (fmtF32.dec (absIf m.abs b)) (fmtF32.dec c))
def fminmax (max neg abs : Bool) (a b : Nat) : Nat := minMax fmtF32 max (negIf neg a) (absIf abs b)

/-- The one-source functions of R401. -/
def funary (f : Num → Num × Exc) (rnd : Rnd) (sat neg : Bool) (a : Nat) : Nat × Exc :=
  finish fmtF32 rnd sat (f (fmtF32.dec (negIf neg a)))

/-- FRND (R405). -/
def frnd (rnd : Rnd) (sat neg : Bool) (a : Nat) : Nat × Exc :=
  let a := negIf neg a
  let r : Nat × Exc := match fmtF32.dec a with
    | .nan => (fmtF32.nan, 0)
    | .inf _ => (a, 0)
    | .fin s m e _ =>
      if m = 0 || decide (0 ≤ e) then (a, 0)
      else
        let (k, inx) := roundTo2 (fun k => k % 2 == 1) rnd s m e 0 false
        (fmtF32.enc k 0 ||| fmtF32.signBits s, if inx then excInexact else 0)
  if sat then let (d, z) := clamp01 fmtF32 r.1; (d, r.2 ||| z) else r

/-- FSCALE: a × 2^k rounded once (R406). -/
def fscale (rnd : Rnd) (sat neg : Bool) (a : Nat) (k : Int) : Nat × Exc :=
  finish fmtF32 rnd sat (match fmtF32.dec (negIf neg a) with
    | .fin s m e t => (if m = 0 then .fin s m e t else .fin s m (e + k) t, 0)
    | x => (x, 0))

/-- FCLASS (R400). -/
def fclass (a : Nat) : Nat :=
  match fmtF32.dec a with
  | .nan => 2 ^ 8
  | .inf s => if s then 2 ^ 0 else 2 ^ 7
  | .fin s m _ _ =>
    if m = 0 then (if s then 2 ^ 3 else 2 ^ 4)
    else if a % 0x80000000 < 0x00800000 then (if s then 2 ^ 2 else 2 ^ 5)
    else (if s then 2 ^ 1 else 2 ^ 6)

/-- FSETP (R407). -/
def fsetp (c : FCmp) (a b : Nat) : Bool :=
  match c, cmpNum (fmtF32.dec a) (fmtF32.dec b) with
  | .nan, r => r.isNone
  | .num, r => r.isSome
  | .ne, r => r != some 0
  | _, none => false
  | .eq, some r => r == 0
  | .lt, some r => decide (r < 0)
  | .le, some r => decide (r ≤ 0)
  | .gt, some r => decide (0 < r)
  | .ge, some r => decide (0 ≤ r)

/-! ### Packed operations (R412, R434, R435) -/

def lo16 (a : Nat) : Nat := a % 65536
def hi16 (a : Nat) : Nat := a / 65536 % 65536
def pack16 (l h : Nat) : Nat := lo16 l + 65536 * lo16 h

def half16 (uns : Bool) (x : Nat) : Int := if uns then (lo16 x : Int) else sxN x 16

def packed2 (f : Int → Int → Nat) (uns : Bool) (a b : Nat) : Nat :=
  pack16 (f (half16 uns (lo16 a)) (half16 uns (lo16 b))) (f (half16 uns (hi16 a)) (half16 uns (hi16 b)))

def vadd2 (m : PMod) (a b : Nat) : Nat := packed2 (fun x y => intResult (!m.uns) m.sat 16 (x + y)) m.uns a b
def vsub2 (m : PMod) (a b : Nat) : Nat := packed2 (fun x y => intResult (!m.uns) m.sat 16 (x - y)) m.uns a b
def vmin2 (m : PMod) (a b : Nat) : Nat := packed2 (fun x y => truncI (min x y) 16) m.uns a b
def vmax2 (m : PMod) (a b : Nat) : Nat := packed2 (fun x y => truncI (max x y) 16) m.uns a b

/-- One half of VACS2: the value and the decision. -/
def acs (m : PMod) (a b lo hi : Nat) : Nat × Bool :=
  let form (x y : Nat) : Int := half16 m.uns (intResult (!m.uns) m.sat 16 (half16 m.uns x + half16 m.uns y))
  let x := form a lo
  let y := form b hi
  (truncI (min x y) 16, decide (y < x))

def vacs2 (m : PMod) (a b c : Nat) : Nat × Bool × Bool :=
  let (d0, p0) := acs m (lo16 a) (lo16 b) (lo16 c) (hi16 c)
  let (d1, p1) := acs m (hi16 a) (hi16 b) (lo16 c) (hi16 c)
  (pack16 d0 d1, p0, p1)

def hFmt (m : HMod) : Fmt := if m.f16 then fmtF16 else fmtBf16

def hpair (m : HMod) (f : Nat → Nat → Nat → Num × Exc) (a b c : Nat) : Nat × Exc :=
  let (l, x) := finish (hFmt m) m.rnd m.sat (f (lo16 a) (lo16 b) (lo16 c))
  let (h, y) := finish (hFmt m) m.rnd m.sat (f (hi16 a) (hi16 b) (hi16 c))
  (pack16 l h, x ||| y)

def hadd2 (m : HMod) (a b : Nat) : Nat × Exc :=
  hpair m (fun x y _ => addNum (isRd m.rnd) ((hFmt m).dec x) ((hFmt m).dec y)) a b 0
def hmul2 (m : HMod) (a b : Nat) : Nat × Exc := hpair m (fun x y _ => mulNum ((hFmt m).dec x) ((hFmt m).dec y)) a b 0
def hfma2 (m : HMod) (a b c : Nat) : Nat × Exc :=
  hpair m (fun x y z => fmaNum (isRd m.rnd) ((hFmt m).dec x) ((hFmt m).dec y) ((hFmt m).dec z)) a b c

/-! ### Conversions (R390, R391) -/

/-- Integer types of CVT: signed, bits. -/
def cvtInt? : CvtTy → Option (Bool × Nat)
  | .s32 => some (true, 32) | .z32 => some (false, 32) | .s64 => some (true, 64) | .z64 => some (false, 64)
  | .s16 => some (true, 16) | .z16 => some (false, 16) | .s8 => some (true, 8) | .z8 => some (false, 8)
  | _ => none

/-- The float formats of CVT but E8M0. -/
def cvtFmt? (uns ext : Bool) : CvtTy → Option Fmt
  | .f32 => some fmtF32 | .f16 => some fmtF16 | .bf16 => some fmtBf16 | .e2m1 => some fmtE2m1
  | .b8 n => some (fmtB8 (n.val + 1) uns ext)
  | _ => none

def cvtWidth : CvtTy → Nat
  | .s64 | .z64 => 64
  | .s32 | .z32 | .f32 => 32
  | .s16 | .z16 | .f16 | .bf16 => 16
  | .e2m1 => 4
  | _ => 8

/-- The exact value of a source of type `t` (R390). -/
def cvtDecode (m : CvtMod) (v : Nat) : Num :=
  let w := v % 2 ^ cvtWidth m.sty
  match cvtInt? m.sty with
  | some (s, n) => .ofInt (if s then sxN w n else w)
  | none => match cvtFmt? m.uns m.ext m.sty with
    | some f => f.dec w
    | none => if w = 0xFF then .nan else .fin false 1 ((w : Int) - 127) false

/-- CVT on one source: the result value (an integer result keeps its sign), and the exceptions. -/
def cvt (m : CvtMod) (v : Nat) : Int × Exc :=
  match cvtInt? m.dty, cvtInt? m.sty with
  | some (s, n), some (t, k) =>
    let x : Int := if t then sxN (v % 2 ^ k) k else (v % 2 ^ k : Nat)
    let r := intResult s m.sat n x
    (if s then sxN r n else r, 0)
  | some (s, n), none => roundInt s n (cvtDecode m v) m.rnd
  | none, _ =>
    let x := cvtDecode m v
    let (c, e) := match cvtFmt? m.uns m.ext m.dty with
      | some f => roundTo f x m.rnd m.sat
      | none => roundE8m0 x m.rnd m.sat
    ((c : Int), e)

end Sys2Proof.Machine
end

