-- ==== Sys2Proof/Machine/Cells.lean ====
section
/-! DEFINITION. Sparse storage as plain data in one canonical form: keys strictly rising and no entry equal to what an
unlisted key reads as. Memory, register files, tiles and scratch are all held this way. -/

namespace Sys2Proof.Machine

/-- Sparse storage of words of width `w`. -/
abbrev Cells (w : Nat) := List (Nat × BitVec w)

/-- What key `k` holds; an unlisted key reads `d`. -/
def Cells.getD {w : Nat} (d : BitVec w) : Cells w → Nat → BitVec w
  | [], _ => d
  | (a, v) :: c, k => if a = k then v else Cells.getD d c k

/-- Lists `v` at key `k`, in the order of the keys. -/
def Cells.put {w : Nat} : Cells w → Nat → BitVec w → Cells w
  | [], k, v => [(k, v)]
  | (a, x) :: c, k, v =>
    if a = k then (k, v) :: c else if k < a then (k, v) :: (a, x) :: c else (a, x) :: Cells.put c k v

/-- Writes `v` at key `k`, keeping the canonical form for the default `d`. -/
def Cells.setD {w : Nat} (d : BitVec w) (c : Cells w) (k : Nat) (v : BitVec w) : Cells w :=
  if v = d then c.filter fun p => !(p.1 == k) else Cells.put c k v

/-- The canonical form: keys above `lo` rising, no default value listed. -/
def Cells.wfFrom {w : Nat} (d : BitVec w) : Nat → Cells w → Bool
  | _, [] => true
  | lo, (a, v) :: c => decide (lo ≤ a) && decide (v ≠ d) && Cells.wfFrom d (a + 1) c

def Cells.wfD {w : Nat} (d : BitVec w) (c : Cells w) : Bool := Cells.wfFrom d 0 c

abbrev Cells.get {w : Nat} (c : Cells w) (k : Nat) : BitVec w := Cells.getD 0 c k
abbrev Cells.set {w : Nat} (c : Cells w) (k : Nat) (v : BitVec w) : Cells w := Cells.setD 0 c k v
abbrev Cells.wf {w : Nat} (c : Cells w) : Bool := Cells.wfD 0 c

/-- Drops every key of [lo, lo + n). -/
def Cells.clear {w : Nat} (c : Cells w) (lo n : Nat) : Cells w := c.filter fun p => !(lo ≤ p.1 && p.1 < lo + n)

/-- Keys of [lo, lo + n), moved to start at 0. -/
def Cells.slice {w : Nat} (c : Cells w) (lo n : Nat) : Cells w :=
  (c.filter fun p => lo ≤ p.1 && p.1 < lo + n).map fun p => (p.1 - lo, p.2)

/-- The bytes at `k`, `k + 1`, … as one little-endian value of `n` bytes (R2). -/
def Cells.bytes (c : Cells 8) : Nat → Nat → Nat
  | _, 0 => 0
  | k, n + 1 => (Cells.get c k).toNat + 256 * Cells.bytes c (k + 1) n

/-- Stores the low `n` bytes of `v` at `k`, little-endian (R2). -/
def Cells.putBytes (c : Cells 8) : Nat → Nat → Nat → Cells 8
  | _, 0, _ => c
  | k, n + 1, v => Cells.putBytes (Cells.set c k (BitVec.ofNat 8 v)) (k + 1) n (v / 256)

/-- The bytes at `k` as a list. -/
def Cells.byteList (c : Cells 8) : Nat → Nat → List Byte
  | _, 0 => []
  | k, n + 1 => Cells.get c k :: Cells.byteList c (k + 1) n

/-- Stores a list of bytes at `k`. -/
def Cells.putList (c : Cells 8) : Nat → List Byte → Cells 8
  | _, [] => c
  | k, b :: bs => Cells.putList (Cells.set c k b) (k + 1) bs

/-- A table of records by number, rising. -/
abbrev Tab (α : Type) := List (Nat × α)

def Tab.find? {α : Type} : Tab α → Nat → Option α
  | [], _ => none
  | (a, v) :: c, k => if a = k then some v else Tab.find? c k

def Tab.getD {α : Type} (d : α) (t : Tab α) (k : Nat) : α := (Tab.find? t k).getD d

def Tab.put {α : Type} : Tab α → Nat → α → Tab α
  | [], k, v => [(k, v)]
  | (a, x) :: c, k, v =>
    if a = k then (k, v) :: c else if k < a then (k, v) :: (a, x) :: c else (a, x) :: Tab.put c k v

def Tab.del {α : Type} (t : Tab α) (k : Nat) : Tab α := t.filter fun p => !(p.1 == k)

def Tab.upd {α : Type} (d : α) (t : Tab α) (k : Nat) (f : α → α) : Tab α := Tab.put t k (f (Tab.getD d t k))

end Sys2Proof.Machine
end

