-- ==== Sys2Proof/Machine/State.lean ====
section
/-! DEFINITION. The state of the Crintilas K9 as plain data: everything the specification gives the machine, the faults and
refusals of the model, and the state after reset. -/

namespace Sys2Proof.Machine

/-- Why the machine stops with a fault. -/
inductive Fault where
  /-- Raised by an instruction word given to `exec` while the current shuttle has no pick in progress. `step` never meets
  it, because it takes each word from a pick in progress. Safe. -/
  | noPick
  deriving DecidableEq, Repr

/-- Why an instruction has no meaning. -/
inductive Refusal where
  /-- Raised by an arm of `exec` whose instruction is not modelled yet. Safe. -/
  | notModelled (mnemonic : String)
  deriving DecidableEq, Repr

/-- One move of the device: a shuttle issues the next word of its pick, or one of the device's own steps happens. -/
inductive Move where
  | issue (sh : Nat)
  | event (i : Instr)
  deriving DecidableEq, Repr, Inhabited

/-! ### Wefts (spec/03, spec/04) -/

/-- The kernel header as the dispatcher keeps it (R85 to R88). `w` is the native width, 32 in compatibility mode (R26). -/
structure KHdr where
  w : Nat
  c16 : Bool
  race : BitVec 2
  twin : Bool
  bank : Bool
  eclass : Nat
  depth : Nat
  vregs : Nat
  sregs : Nat
  acc : Nat
  scratch : Nat
  threads : Nat
  entry : BitVec 32
  ewrap : Bool
  handler : BitVec 32
  w0 : DWord
  w1 : DWord
  w2 : DWord
  deriving DecidableEq, Repr, Inhabited

/-- States of a thread-table entry (R47). -/
inductive EState where
  | run | yld | wtl | barw | ecw | park
  deriving DecidableEq, Repr, Inhabited

/-- A thread-table entry (R46). -/
structure Entry where
  depth : Nat
  pc : BitVec 32
  resume : Nat
  mask : Lanes
  state : EState
  aux : BitVec 32
  deriving DecidableEq, Repr, Inhabited

/-- What a wait number names (R484). -/
structure Wait where
  num : Nat
  counter : Nat
  threshold : DWord
  acq : Bool
  scope : Scope
  half : Nat
  /-- Pick and word of the ECWAIT, to which VIEW CHANGED returns its threads (R332). -/
  pc : BitVec 32
  resume : Nat
  deriving DecidableEq, Repr, Inhabited

/-- The record under which threads parked (R484, R273); `posted` is false for PARK (R275), `token` is that of a
forwarded call (R305), `handle` names the engine command of an engine park (R237). -/
structure Park where
  num : Nat
  posted : Bool
  cause : BitVec 16
  sub : BitVec 16
  lanes : Lanes
  addr : BitVec 57
  aux : DWord
  token : Option Nat
  handle : Option Nat
  /-- Pick and word of a twin's primary copy whose result a resumed lane's v0 is (R344). -/
  res : Option (Nat × Nat) := none
  deriving DecidableEq, Repr, Inhabited

/-- Lanes to be parked at their next pick boundary or when they leave a waiting state (R237, R275). -/
structure Divert where
  lanes : Lanes
  num : Nat
  deriving DecidableEq, Repr, Inhabited

/-- Where one lane of $trapmask returns (R265, R269). -/
structure Restart where
  lane : Nat
  depth : Nat
  pc : BitVec 32
  resume : Nat
  deriving DecidableEq, Repr, Inhabited

/-- The running user handler (R265). -/
structure Handler where
  lane : Nat
  entry : Entry
  restarts : List Restart
  deriving DecidableEq, Repr, Inhabited

/-- A trap of user class raised in a pick and not yet delivered (R263, R265): `back` is its restart point, `here` the trapping
word. -/
structure LaneTrap where
  lane : Nat
  cause : BitVec 16
  sub : BitVec 16
  addr : BitVec 57
  word : BitVec 32
  back : Restart
  here : Restart
  deriving DecidableEq, Repr, Inhabited

/-- What a lane's new key and state still depend on when its pick ends (R54): its arrival or wait at a barrier (R379), the wait
number of an ECWAIT (R311, R484), or a call to the supervisor (R276). -/
inductive EndAct where
  | none
  | bar (m : BarMode) (k count : Nat)
  | ecwait (num : Nat)
  | call (service idx : Nat)
  deriving DecidableEq, Repr, Inhabited

/-- Where the last word of a pick sends a lane (R54). -/
structure Dest where
  lane : Nat
  depth : Nat
  pc : BitVec 32
  state : EState
  aux : BitVec 32
  gone : Bool
  act : EndAct := .none
  deriving DecidableEq, Repr, Inhabited

/-- A frontier entry (R82). -/
structure Front where
  ktag : BitVec 8
  wser : BitVec 20
  clk : BitVec 16
  deriving DecidableEq, Repr, Inhabited

/-- A scoreboard entry: operand codes [first, first + count) and the operations that free it, of which a word of both halves of a weft in
compatibility mode has two (R112). -/
structure SbEntry where
  ops : List Nat
  first : Nat
  count : Nat
  pc : BitVec 32
  deriving DecidableEq, Repr, Inhabited

/-- A pick as fetched (R51, R125); `words` are the words after the header. -/
structure Fetched where
  pc : BitVec 32
  header : DWord
  words : List DWord
  deriving DecidableEq, Repr, Inhabited

/-- A translation that a weft waits for or that failed (R264). -/
structure Walk where
  va : BitVec 57
  write : Bool
  done : Bool
  cause : BitVec 16
  deriving DecidableEq, Repr, Inhabited

/-- A FENCE whose thread's next write becomes a release (R185). -/
structure RelPend where
  lanes : Lanes
  scope : Scope
  deriving DecidableEq, Repr, Inhabited

/-- A pick that has issued its last word while race checks are outstanding (R218). -/
structure Ending where
  pick : Nat
  next : BitVec 32
  act0 : Lanes
  pc : BitVec 32
  depth : Nat
  act : Lanes
  dests : List Dest
  deriving DecidableEq, Repr, Inhabited

/-- A word whose resumption takes $pidx (R84). -/
structure PidxPend where
  half : Nat
  pc : BitVec 32
  resume : Nat
  lanes : Lanes
  deriving DecidableEq, Repr, Inhabited

/-- The key of a sync sidecar entry (R213). -/
inductive SideKey where
  | line (l : Nat)
  | counter (id : Nat)
  | scr (bolt l : Nat)
  deriving DecidableEq, Repr, Inhabited

/-- The last read of a thread, which FENCE .acq makes an acquire: what it read, its operation, and the FLAGS of the line's record when it was
performed, where the line keeps one (R185, R213). -/
structure ReadMark where
  key : SideKey
  op : Nat
  flags : Option Nat
  deriving DecidableEq, Repr, Inhabited

/-- A word at which a twin copy waits for its interval to settle (R344), by pick and word; `full` for a store that waits on a full
hold buffer (R346). -/
structure TwinAt where
  pick : Nat
  idx : Nat
  settled : Bool
  full : Bool
  deriving DecidableEq, Repr, Inhabited

/-- The result of a word that the primary copy performed for both (R344): by lane, the value for the destination. -/
structure TwinRes where
  widx : Nat
  pick : Nat
  idx : Nat
  vals : Tab Nat
  /-- Whether the values are complete. -/
  whole : Bool
  deriving DecidableEq, Repr, Inhabited

/-- A bolt barrier (R379): its phase, the count its phase requires (0 the whole bolt), the arrivals counted, and the lanes that
arrived by weft index. -/
structure Barrier where
  phase : Nat
  count : Nat
  arrived : Nat
  who : Tab Lanes
  deriving DecidableEq, Repr, Inhabited

/-- A weft (R22, R46, R71); `bars` and `scratch` are those of a supervisor weft, which is its own bolt (R380), `mirror` holds the RACE traps of the primary copy by pick (R224), `badWords` the registers and tiles that hold an
uncorrectable error (R337), `badTiles` the invalid tiles (R76), `crec` is the context record that governs its bolt (R278), `waitPd` the predicate that the WAITL of
each waiting lane writes (R64), `image` the firmware image whose built-in
supervisor kernel it runs (R272). -/
structure Weft where
  serial : Nat
  crec : List DWord
  bolt : Nat
  widx : Nat
  hdr : KHdr
  ctx : BitVec 16
  asid : BitVec 16
  kbase : BitVec 57
  args : BitVec 57
  sup : Bool
  entries : List Entry
  waits : List Wait
  parks : List Park
  divert : List Divert
  nextWait : Nat
  nextPark : Nat
  vregs : Cells 32
  preds : Cells 64
  sregs : Cells 64
  qs : Cells 8
  flags : Cells 6
  tiles : Cells 32
  waitPd : Tab Nat
  badTiles : List Nat
  badWords : List Nat
  skip : Lanes
  signals : Tab (BitVec 8)
  /-- Lanes resumed in the middle of a pick whose pending signal is due where they stand (R277). -/
  sigNow : Lanes := 0
  fpst : Cells 5
  pidx : Cells 16
  pidxPend : List PidxPend
  trapcause : BitVec 32
  trappc : BitVec 32
  trapmask : Lanes
  trapaddr : BitVec 57
  handler : Option Handler
  trapPend : List LaneTrap
  /-- Threads of a suspended pick, which must end for them before `trapPend` is delivered (R265). -/
  trapFor : Lanes := 0
  ending : Option Ending
  sb : List SbEntry
  fetch : Option Fetched
  walks : List Walk
  starve : Nat
  skips : Cells 8
  serve : Option Nat
  prio : Nat
  age : Nat
  rclk : BitVec 16
  frontier : List (Option Front)
  hbsat : Bool
  mirror : List (Nat × LaneTrap)
  bars : Tab Barrier
  twinAt : Option TwinAt
  relPend : List RelPend
  lastRead : Tab ReadMark
  scratch : Cells 8
  picks : Nat
  gated : Bool
  stopped : Bool
  image : Option Nat := none
  deriving DecidableEq, Repr, Inhabited

/-- A pick in progress on a shuttle (R52): it began at word `start` with the threads `act0`. -/
structure PickRun where
  ref : WRef
  pc : BitVec 32
  depth : Nat
  header : DWord
  words : List DWord
  idx : Nat
  start : Nat
  act0 : Lanes
  act : Lanes
  handler : Bool
  dests : List Dest
  traps : List LaneTrap
  deriving DecidableEq, Repr, Inhabited

/-- A shuttle (R12); `stopAt` is its clock when it was last stopped (R283); `capOff` and `capOn` name the contexts whose trigger is disarmed here, or is capturing (R359). -/
structure Shuttle where
  run : Option PickRun
  clock : BitVec 64
  stopped : Bool
  stopAt : BitVec 64
  closed : Bool
  fencedSub : List Nat
  mmas : Nat
  selfTest : Bool
  bins : Cells 48
  stalls : Cells 48
  capOff : List Nat
  capOn : List Nat
  seq : Nat
  deriving DecidableEq, Repr, Inhabited

/-! ### Memory system (spec/07, spec/08, spec/09, spec/13) -/

/-- An L1 copy of a 64-byte line: its eight words each absent, clean or dirty, the region and translation of its last fill,
and whether the partner core has written the line since (R163, R164, R184). -/
structure L1Line where
  line : Nat
  asid : BitVec 16
  va : BitVec 57
  region : BitVec 2
  valid : BitVec 8
  dirty : BitVec 8
  data : BitVec 512
  partner : Bool
  ef : Bool
  deriving DecidableEq, Repr, Inhabited

/-- What a translation gives (R287, R288). -/
structure Xlate where
  page : Nat
  target : BitVec 4
  region : BitVec 2
  rt : Bool
  write : Bool
  exec : Bool
  dirty : Bool
  sup : Bool
  deriving DecidableEq, Repr, Inhabited

/-- A cached translation: ASID, first virtual page, size in pages, and what it gives (R291, R292). -/
structure TlbEntry where
  asid : BitVec 16
  vpn : Nat
  pages : Nat
  x : Xlate
  deriving DecidableEq, Repr, Inhabited

/-- A cached walk entry: the table frame found for a virtual prefix at a level (R292). -/
structure WalkEntry where
  asid : BitVec 16
  level : Nat
  pfx : Nat
  frame : Nat
  deriving DecidableEq, Repr, Inhabited

/-- A sync sidecar entry (R213): the releaser's entry with its clock after the increase, its lane, the clock it wrote with, its epoch,
flags, scope, pair and bolt, and its frontier; `stamp` orders uses. -/
structure Side where
  key : SideKey
  stamp : Nat
  ent : Front
  lane : Nat
  clk : BitVec 16
  epoch : Nat
  flags : BitVec 2
  scope : Scope
  pair : Nat
  bolt : Nat
  frontier : List Front
  hbsat : Bool
  deriving DecidableEq, Repr, Inhabited

/-- A release mark of a home slice (R188). -/
structure Mark where
  line : Nat
  pair : Nat
  stamp : Nat
  deriving DecidableEq, Repr, Inhabited

/-- A TLBINV in progress (R294). -/
structure Inv where
  id : Nat
  ref : Option WRef
  scope : InvScope
  va : BitVec 57
  asid : BitVec 16
  /-- Function and tag of the control command to be answered at completion (R295). -/
  reply : Option (Nat × DWord)
  deriving DecidableEq, Repr, Inhabited

/-- Steps of a migration (R298). -/
inductive MigStage where
  | waiting | round | frozen
  deriving DecidableEq, Repr, Inhabited

/-- A page migration (R297, R298); `bits` are the offsets of old-frame lines rewritten. -/
structure Mig where
  id : Nat
  record : Nat
  va : BitVec 57
  asid : BitVec 16
  newTarget : BitVec 4
  newFrame : Nat
  stage : MigStage
  leafAt : Nat
  leaf : DWord
  size : Nat
  oldPa : Nat
  newPa : Nat
  rounds : Nat
  bits : List Nat
  deriving DecidableEq, Repr, Inhabited

/-- A location that an engine can own (R192). -/
inductive Loc where
  | line (l : Nat)
  | scr (bolt l : Nat)
  | tile (w : WRef) (n : Nat)
  deriving DecidableEq, Repr, Inhabited

/-- An engine operation that owns locations. -/
inductive EngId where
  | tcopy (core handle : Nat)
  | gather (id : Nat)
  | slop (id : Nat)
  | coll (core handle : Nat)
  deriving DecidableEq, Repr, Inhabited

/-- One owned location; `off` is the walk offset from which it is written (R193, R236). -/
structure Own where
  eng : EngId
  loc : Loc
  off : Nat
  deriving DecidableEq, Repr, Inhabited

/-- The memory system. -/
structure Mem where
  cells : Cells 8
  poison : List Nat
  rmeta : Tab DWord
  marks : List Mark
  sidecar : List Side
  stamp : Nat
  l1 : Tab (List L1Line)
  ccache : Tab (List (Nat × BitVec 512))
  tlb : Tab (List TlbEntry)
  walkc : List WalkEntry
  invs : List Inv
  hostHeld : List Nat
  migs : List Mig
  roots : Tab Nat
  owned : List Own
  /-- What peer memory still holds where the L2 has a newer, dirty byte, by its place (R168). -/
  l2peer : Tab (BitVec 8) := []
  /-- The model's own: the full count of whole-bolt barriers at the last recorded write of a line, by which WRAP is told (R223). -/
  wepoch : Tab Nat := []
  deriving DecidableEq, Repr, Inhabited

/-! ### Operations in flight -/

/-- One access of an instruction by one lane; `perf` marks an atomic that has been performed, or a constant-cache hit, whose value `data`
then holds; `seen` a release store that stands in the L1s of its pair and has still to reach its home slice (R184, R187); `relScope` is
the scope at which a write of `rel` releases, and `top` the highest lane of its word that writes the same line (R209). -/
structure Access where
  lane : Nat
  va : DWord
  pa : Nat
  region : BitVec 2
  target : BitVec 4
  rt : Bool
  data : BitVec 128
  cmp : DWord
  checked : Bool
  perf : Bool := false
  seen : Bool := false
  relScope : Scope := .weft
  top : Nat := 0
  deriving DecidableEq, Repr, Inhabited

inductive Space where
  | generic | scratch | const | counter
  deriving DecidableEq, Repr, Inhabited

/-- Matrix-class operations as issued (R111, R120); registers are captured at issue (R112). -/
inductive MatOp where
  | mma (m : MmaMod) (tile half boff start stop : Nat) (aregs scales : Cells 32)
  | accld (tile half off : Nat)
  | accst (tile half off : Nat)
  | toRegs (dst tile half : Nat)
  | toTile (tile half : Nat) (regs : Cells 32)
  deriving DecidableEq, Repr, Inhabited

inductive OpKind where
  | load | store | atomic | fence | cctl (op : CctlOp) | ecadd | ecrd | ectrig | matrix (m : MatOp)
  deriving DecidableEq, Repr, Inhabited

/-- Registers that an operation writes. -/
inductive DstReg where
  | none
  | vec (n count : Nat)
  | scal (n : Nat)
  deriving DecidableEq, Repr, Inhabited

/-- The race identity of an access: that of its weft, or the one an engine operation took at issue (R209, R214, R220); `epoch` counts
the bolt's whole-bolt barriers. -/
structure RaceId where
  mode : BitVec 2
  ewrap : Bool
  ktag : BitVec 8
  wser : BitVec 20
  serbase : Nat
  nwefts : Nat
  lane : Nat
  clk : BitVec 16
  epoch : Nat
  frontier : List Front
  hbsat : Bool
  deriving DecidableEq, Repr, Inhabited

/-- An operation issued and not complete (R111). `accs` are the accesses not yet performed, `order`, `scope` and
`remote` those it carries, `uni` a word performed once for its half's threads, `rel` the lanes whose write is a release, `flags` the
flag cells it counts on, `pick` its place in the weft's order, `eng` the
identity that a matrix-class operation took at issue (R220). -/
structure MemOp where
  id : Nat
  ref : WRef
  kind : OpKind
  space : Space
  size : Nat
  sgn : Bool
  aop : AtomOp
  w64 : Bool
  order : AOrd
  vol : Bool
  scope : Scope
  remote : Bool
  ef : Bool
  dst : DstReg
  uni : Bool
  rel : Lanes
  flags : List Nat
  lanes : Lanes
  accs : List Access
  pick : Nat
  handler : Bool
  pc : BitVec 32
  idx : Nat
  head : Nat
  depth : Nat
  eng : Option RaceId
  /-- Whether the release clock has been raised for it (R210). -/
  bumped : Bool := false
  deriving DecidableEq, Repr, Inhabited

inductive CStat where
  | queued | active | parked | done | aborted | baddesc | ctrstale | tagfail | poison
  deriving DecidableEq, Repr, Inhabited

/-- A tensor copy command (R225 to R244), of the weft `widx` of bolt `bolt` (0 for the supervisor weft): `failed` is the BADDESC subcode met before
it owned anything, `held` marks a BADDESC command whose handle stays taken and halts the queue, `src` holds the source bytes read by walk
offset, and from 2^48 on its scales. -/
structure Cmd where
  core : Nat
  handle : Nat
  ref : WRef
  bolt : Nat
  widx : Nat
  half : Nat
  ctx : BitVec 16
  asid : BitVec 16
  /-- The root of its address space, by the reading of the context record that governs it (R278). -/
  root : Nat := 0
  daddr : DWord
  desc : Option (List DWord)
  status : CStat
  sub : Nat
  off : Nat
  seq : Nat
  failed : Option Nat
  /-- $clock of the issuing shuttle when `failed` was detected (R240). -/
  failedAt : DWord := 0
  /-- Destination lines, by their offset from DST, that the command does not own yet (R234). -/
  unowned : List Nat := []
  started : Bool
  held : Bool
  flags : List Nat
  src : Cells 8
  race : RaceId
  pc : BitVec 32
  idx : Nat
  depth : Nat
  deriving DecidableEq, Repr, Inhabited

/-- A GATHER or SCATTER (R408, R446). -/
structure Gath where
  id : Nat
  scatter : Bool
  ref : WRef
  bolt : Nat
  widx : Nat
  half : Nat
  ctx : BitVec 16
  asid : BitVec 16
  /-- The root of its address space, by the reading of the context record that governs it (R278). -/
  root : Nat := 0
  base : DWord
  list : Nat
  scr : Nat
  count : Nat
  size : Nat
  next : Nat
  parked : Bool
  flags : List Nat
  race : RaceId
  act : Lanes
  pc : BitVec 32
  idx : Nat
  depth : Nat
  deriving DecidableEq, Repr, Inhabited

/-- A slice operation (R448 to R452). -/
structure Slop where
  id : Nat
  core : Nat
  unit : Nat
  ref : WRef
  bolt : Nat
  widx : Nat
  ctx : BitVec 16
  asid : BitVec 16
  /-- The root of its address space, by the reading of the context record that governs it (R278). -/
  root : Nat := 0
  daddr : DWord
  desc : List DWord
  lines : Nat
  next : Nat
  parked : Bool
  counts : List (Nat × Nat × List Nat)
  race : RaceId
  pc : BitVec 32
  idx : Nat
  depth : Nat
  deriving DecidableEq, Repr, Inhabited

/-! ### Bolts, launches, queues (spec/02, spec/11, spec/16) -/

/-- A write of a twin copy held until its interval settles (R346). -/
structure Held where
  va : DWord
  pa : Nat
  size : Nat
  data : Nat
  widx : Nat
  region : BitVec 2
  /-- The scope of the release that the write is, when it is one. -/
  rel : Option Scope := none
  deriving DecidableEq, Repr, Inhabited

/-- What a bank holds of a bolt (R349): `side` its scratch sidecar entries by the parity of their core (R224), the rest what its open
interval holds of signed writes. -/
structure Bank where
  wefts : List Weft
  scratch : Cells 8
  smeta : Cells 32
  bars : Tab Barrier
  epoch : Nat
  side : List (Nat × Side)
  sig : BitVec 64
  held : List Held
  heldBytes : Nat
  deriving DecidableEq, Repr, Inhabited

/-- States of a placed bolt (R37). -/
inductive BState where
  | resident | swapping | swapped
  deriving DecidableEq, Repr, Inhabited

/-- A bolt that has been placed (R37), at `since` microseconds; `barDue` marks a bank due that holds waiters of barrier 0; `savedSide` are the scratch sidecar entries of a swapped bolt by the
parity of their core (R224). Offsets of `scratch` are those of the even core's view (R28). -/
structure Bolt where
  id : Nat
  serial : Nat
  idx : Nat
  copy : Nat
  st : BState
  pair : Nat
  core : Nat
  placed : Nat
  since : Nat
  spilled : Bool
  scratch : Cells 8
  smeta : Cells 32
  badScratch : List Nat
  bars : Tab Barrier
  epoch : Nat
  left : Nat
  saved : List Weft
  savedCmds : List Cmd
  savedSide : List (Nat × Side)
  bank : Option Bank
  bankDue : Bool
  barDue : Bool
  sinceBank : Bool
  sig : BitVec 64
  held : List Held
  heldBytes : Nat
  atEnd : Bool
  results : List TwinRes
  intervalNo : Nat
  /-- The model's own: as `Mem.wepoch`, for the lines of its scratch. -/
  wepoch : Tab Nat := []
  deriving DecidableEq, Repr, Inhabited

/-- Where a launch stands between its record and its completion (R249). -/
inductive LStage where
  | pending | taken | waiting | tagwait | dispatch | running | completing
  deriving DecidableEq, Repr, Inhabited

/-- A hint range with its counts (R299, R300). -/
structure Hint where
  base : Nat
  lines : Nat
  cls : Nat
  accesses : Nat
  misses : Nat
  deriving DecidableEq, Repr, Inhabited

/-- A launch (R246 to R253). -/
structure Launch where
  serial : Nat
  queue : Nat
  fn : Nat
  fromHost : Bool
  record : List DWord
  writable : Nat
  stage : LStage
  ctx : BitVec 16
  asid : BitVec 16
  /-- The root of its address space, by the reading of the context record that governs it (R278). -/
  root : Nat := 0
  hdr : KHdr
  nextB : Nat
  total : Nat
  retired : Nat
  ktag : BitVec 8
  hints : List (Option Hint)
  parent : List Front
  parentSat : Bool
  order : Nat
  captured : Bool
  /-- The status of a launch that is completing, whose record waits to be written (R250). -/
  status : Nat := 0
  deriving DecidableEq, Repr, Inhabited

/-- A work queue (R245, R310). -/
structure Queue where
  owner : BitVec 16
  fn : Nat
  level : Nat
  dev : Bool
  gate : Bool
  credits : BitVec 16
  deriving DecidableEq, Repr, Inhabited

/-- An event counter slot (R307, R308); `fences` names the view slots whose commits fenced it (R332). -/
structure Counter where
  value : DWord
  tthr : DWord
  arm : Bool
  fired : Bool
  abs : Bool
  action : BitVec 2
  target : BitVec 12
  addv : BitVec 12
  delta : BitVec 32
  ctx : Option (BitVec 16)
  fn : Nat
  fences : List Nat
  flags : BitVec 2
  deriving DecidableEq, Repr, Inhabited

/-- A core (R13); `gateLast` is the age, weft index and bolt of the weft last added to its energy gate's set (R36). -/
structure Core where
  sp : BitVec 2
  tgtw : BitVec 7
  overflow : List (List DWord)
  frozen : Bool
  gateLast : Option (Nat × Nat × Nat)
  fills : Cells 48
  sside : List Side
  nextSeq : Nat
  /-- The place in the issue order of the command whose granule the copy engine served last (R226). -/
  turn : Nat := 0
  deriving DecidableEq, Repr, Inhabited

/-! ### Views and collectives (spec/15) -/

/-- States of a view slot (R319, R321). -/
inductive VState where
  | empty | live | agree | lost | joining | excluded
  deriving DecidableEq, Repr, Inhabited

/-- A member's acknowledgement of a proposal (R323). -/
structure VAck where
  member : Nat
  seq : Option Nat
  deriving DecidableEq, Repr, Inhabited

/-- A view slot (R319 to R324). -/
structure View where
  self : Nat
  t : BitVec 32
  ta : BitVec 32
  members : List Nat
  state : VState
  contact : Nat
  kathr : Nat
  ethr : Nat
  addrMap : DWord
  suspects : List Nat
  joiners : List Nat
  maxTag : Nat
  acked : Nat
  proposal : Option (List Nat)
  proposalTag : BitVec 32
  acks : List VAck
  nextSeq : Nat
  doneTop : Option Nat
  deriving DecidableEq, Repr, Inhabited

/-- A partial result or staged input received from a member (R328). -/
structure Partial where
  src : Nat
  data : List Byte
  deriving DecidableEq, Repr, Inhabited

inductive CollStage where
  | staging | exchange | ready | ending
  deriving DecidableEq, Repr, Inhabited

/-- A collective instance (R325 to R335); `counts` are the flag cells that count it, by bolt and weft index (0, 0 for the supervisor weft),
`status` the ending of one in stage `ending`. -/
structure Coll where
  core : Nat
  handle : Nat
  ref : WRef
  bolt : Nat
  widx : Nat
  ctx : BitVec 16
  asid : BitVec 16
  /-- The root of its address space, by the reading of the context record that governs it (R278). -/
  ptRoot : Nat := 0
  slot : Nat
  seq : Nat
  desc : List DWord
  stage : CollStage
  status : Nat
  tag0 : BitVec 32
  n0 : Nat
  members0 : List Nat
  chg : Bool
  stale : Nat
  lowx : Nat
  parts : List Partial
  ready : List Nat
  out : List Byte
  parked : Bool
  counts : List (Nat × Nat × List Nat)
  /-- Its place among the operations of its weft: those below it stand before it (R179). -/
  stamp : Nat := 0
  /-- A commit has shown that a member has completed it: it completes with the output it holds (R331). -/
  sure : Bool := false
  race : RaceId
  pc : BitVec 32
  idx : Nat
  depth : Nat
  deriving DecidableEq, Repr, Inhabited

/-- What the device sends to other devices (R318). -/
inductive FabMsg where
  | keepalive (ethernet : Bool) (dst : Nat)
  | suspicion (slot dst : Nat) (members : List Nat)
  | proposal (slot dst : Nat) (tag : BitVec 32) (members : List Nat)
  | ack (slot dst : Nat) (tag : BitVec 32) (seq : Option Nat)
  | commit (slot dst : Nat) (tag : BitVec 32) (members : List Nat) (top : Option Nat)
  | lost (slot dst : Nat)
  | join (slot dst member : Nat)
  | collPart (slot seq dst : Nat) (tag : BitVec 32) (data : List Byte)
  | collReady (slot seq dst : Nat) (tag : BitVec 32)
  | collAbort (slot seq dst : Nat)
  | collMismatch (slot seq dst : Nat)
  | peerData (dst : Nat) (data : List Byte)
  deriving DecidableEq, Repr, Inhabited

/-- An Ethernet message not yet acknowledged (R318). -/
structure Unacked where
  id : Nat
  msg : FabMsg
  slot : Nat
  member : Nat
  attempts : Nat
  deriving DecidableEq, Repr, Inhabited

/-- The fabric side of the device. -/
structure Fabric where
  views : Tab View
  colls : List Coll
  outbox : List FabMsg
  unacked : List Unacked
  nextMsg : Nat
  deriving DecidableEq, Repr, Inhabited

/-! ### Host interface, security, debug (spec/14, spec/17) -/

/-- What the device sends to the host. -/
inductive HostMsg where
  | used (fn queue len : Nat)
  | completion (fn queue : Nat) (words : List DWord)
  | response (fn : Nat) (tag : DWord) (status : Nat) (result : List DWord)
  | declined (fn : Nat)
  | accepted (fn : Nat)
  | msix (fn vector : Nat)
  | event (words : List DWord)
  | syscall (words : List DWord) (args : List Word)
  | debugEvent (words : List DWord)
  | trace (words : List DWord)
  | backInvalidate (line : Nat)
  | readData (data : List Byte)
  | spdm (kind : Nat) (data : List Byte)
  deriving DecidableEq, Repr, Inhabited

inductive Tdi where
  | unlocked | locked | run | error
  deriving DecidableEq, Repr, Inhabited

/-- A key slot of a context (R243, R314). -/
structure KeySlot where
  key : BitVec 256
  last : DWord
  deriving DecidableEq, Repr, Inhabited

/-- A call forwarded on queue 1,025 (R305). -/
structure Call where
  token : Nat
  core : Nat
  ref : WRef
  park : Nat
  lanes : Lanes
  deriving DecidableEq, Repr, Inhabited

/-- The virtio side of the device; `us` counts microseconds since cold reset (R306), `held` what arrives during a firmware switch
(R317) and `image` the number of the firmware image that runs (the model's own count). -/
structure HostIf where
  features : Tab Bool
  waiting : List (List DWord)
  dropped : Nat
  calls : List Call
  nextToken : Nat
  out : List HostMsg
  held : List Instr
  us : Nat
  image : Nat
  /-- The TDIs that are bound, by VF (R313). -/
  tdi : Tab Tdi := []
  /-- MSI-X (R309): the vectors, by function, whose mask bit is clear, the functions whose mask is set, and the vectors pending. -/
  msixOpen : List (Nat × Nat) := []
  msixOff : List Nat := []
  msixPend : List (Nat × Nat) := []
  deriving DecidableEq, Repr, Inhabited

/-- The debug session and capture of a context (R356 to R361): `captured` and `copies` are what the capture area has received, the words
of launches and the contents of pages. -/
structure Debug where
  token : Option (BitVec 128)
  unlocked : Bool
  launched : Bool
  armed : Bool
  ring : DWord
  logn : Nat
  start : DWord
  stop : DWord
  area : DWord
  areaLen : Nat
  areaUsed : Nat
  capStopped : Bool
  pages : List Nat
  due : List Nat
  captured : List (List DWord)
  copies : List (Nat × List Byte)
  deriving DecidableEq, Repr, Inhabited

/-- SPDM session states (R315). -/
inductive SpdmState where
  | start | versioned | capable | negotiated | keyed | session
  deriving DecidableEq, Repr, Inhabited

/-- Security state: TDIs, SPDM and firmware (R313 to R317); `fwTrace` is the buffer of the firmware debug domain (R362), its oldest record
first. -/
structure Sec where
  ctxFn : Tab Nat
  spdm : SpdmState
  staged : Option (List Byte)
  /-- The image that runs (R315); none: the one that the device was made with. -/
  running : Option (List Byte) := none
  version : Nat
  rollback : Nat
  switching : Bool
  fwDebug : Bool
  fwTrace : List (List DWord)
  fwSeq : Nat
  deriving DecidableEq, Repr, Inhabited

/-! ### Reliability and platform (spec/16, spec/17) -/

/-- An entry of a stack's repeat tracker (R341, R342). -/
structure Track where
  pch : Nat
  row : Nat
  count : Nat
  pins : List Nat
  deriving DecidableEq, Repr, Inhabited

/-- The correction state of one HBM stack (R338 to R342), its sensor (`valid` once a conversion has completed, R363) and its refresh row (R364). -/
structure Stack where
  bloom : List Nat
  tracker : List Track
  erased : Tab (List Nat)
  spares : Tab Nat
  valid : Bool
  temp : Int
  refresh : Nat
  deriving DecidableEq, Repr, Inhabited

/-- A scan in progress (R352). -/
structure Scan where
  pair : Nat
  queued : Bool
  deriving DecidableEq, Repr, Inhabited

/-- Reliability and platform state; `coreMap` is the physical pair that each logical pair is bound to, itself where it lists none, and
`spares` the physical pairs that stand by (R11; notes/assumptions/8.md); `die` holds the die sensors THS_0 on whose conversions have completed, which is the VALID of R363. -/
structure Plat where
  stackRows : Tab Stack
  log : List (DWord × DWord)
  threshold : Nat
  scans : List Scan
  lastScan : Tab Nat
  scanLevel : Nat
  coreMap : Tab Nat
  spares : List Nat
  duty : Nat
  warned : Bool
  tripped : Bool
  die : List Int
  selfTestEvery : Nat
  deriving DecidableEq, Repr, Inhabited

/-! ### Control registers -/

/-- The registers that REGWR writes (R169, R204, R259, R271). A `new` value waits while STATUS reads pending (R304). -/
structure Regs where
  carve : BitVec 32
  carveNew : Option (BitVec 32)
  racewin : DWord
  racewinNew : Option DWord
  power : DWord
  sventry : DWord
  sventryNew : Option DWord
  svbase : DWord
  svbaseNew : Option DWord
  ctxtab : DWord
  ctxtabNew : Option DWord
  deriving DecidableEq, Repr, Inhabited

/-- The kernel tags in use (R205): the tag given last, those live, and those retiring with the pass they wait for. -/
structure Tags where
  last : Nat
  live : List Nat
  retiring : List Nat
  sweeping : List Nat
  deriving DecidableEq, Repr, Inhabited

/-- Dispatch state (R30, R252, R254, R255): `budget`, `gap` and `smoulder` are what the last power evaluation put in effect (R256, R259,
R260), `scanQueue` names pairs to be drained and scanned (R352). -/
structure Disp where
  launches : List Launch
  queues : Tab Queue
  serial : Nat
  lastPair : Nat
  removed : List Nat
  rr : Tab Nat
  holds : List Nat
  /-- Bolts that pending bolts have had swapped out, with the serial of the launch that waits for them (R255). -/
  victims : List (Nat × Nat) := []
  nextOrder : Nat
  nextBolt : Nat
  tags : Tags
  budget : Nat
  gap : Nat
  smoulder : Bool
  scanQueue : List Nat
  deriving DecidableEq, Repr, Inhabited

/-- The device apart from its control registers; `keys` are the key slots of the contexts (R243, R314). `fresh` counts the free values drawn (the model's own field). -/
structure Dev where
  fresh : Nat
  mem : Mem
  wefts : Tab Weft
  shuttles : Tab Shuttle
  cores : Tab Core
  ops : List MemOp
  nextOp : Nat
  cmds : List Cmd
  gathers : List Gath
  slops : List Slop
  bolts : List Bolt
  disp : Disp
  counters : Tab Counter
  fabric : Fabric
  host : HostIf
  debug : Tab Debug
  keys : Tab KeySlot
  deriving DecidableEq, Repr, Inhabited

/-- The state of the machine. `agenda` names the moves to come and `cur` the shuttle whose word is being executed; both
are the model's own fields (notes/assumptions/1.md). -/
structure State where
  agenda : List Move
  cur : Nat
  dev : Dev
  regs : Regs
  sec : Sec
  plat : Plat
  deriving DecidableEq, Repr, Inhabited

/-- A register holds nothing of a kernel: the header of an absent kernel. -/
def KHdr.none : KHdr :=
  { w := 32, c16 := false, race := 0, twin := false, bank := false, eclass := 0, depth := 0, vregs := 1, sregs := 0,
    acc := 0, scratch := 0, threads := 1, entry := 0x20, ewrap := false, handler := 0, w0 := 0, w1 := 0, w2 := 0 }

def Shuttle.reset : Shuttle :=
  { run := none, clock := 0, stopped := false, stopAt := 0, closed := false, fencedSub := [], mmas := 0, selfTest := false,
    bins := [], stalls := [], capOff := [], capOn := [], seq := 0 }

def Core.reset : Core :=
  { sp := 0, tgtw := 0, overflow := [], frozen := false, gateLast := none, fills := [],
    sside := [], nextSeq := 0 }

def Barrier.reset : Barrier := { phase := 0, count := 0, arrived := 0, who := [] }

def Queue.reset : Queue := { owner := 0, fn := 0, level := 0, dev := false, gate := false, credits := 0 }

def Counter.reset : Counter :=
  { value := 0, tthr := 0, arm := false, fired := false, abs := false, action := 0, target := 0, addv := 0, delta := 0,
    ctx := none, fn := 0, fences := [], flags := 0 }

def View.reset : View :=
  { self := 0x3FFFF, t := 0, ta := 0, members := [], state := .empty, contact := 0, kathr := 100000, ethr := 1000,
    addrMap := 0, suspects := [], joiners := [], maxTag := 0, acked := 0, proposal := none, proposalTag := 0,
    acks := [], nextSeq := 0, doneTop := none }

def Stack.reset : Stack := { bloom := [], tracker := [], erased := [], spares := [], valid := false, temp := 0, refresh := 0 }

def Debug.reset : Debug :=
  { token := none, unlocked := false, launched := false, armed := false, ring := 0, logn := 0, start := 0, stop := 0, area := 0,
    areaLen := 0, areaUsed := 0, capStopped := false, pages := [], due := [], captured := [], copies := [] }

def Mem.reset : Mem :=
  { cells := [], poison := [], rmeta := [], marks := [], sidecar := [], stamp := 0, l1 := [], ccache := [], tlb := [], walkc := [],
    invs := [], hostHeld := [], migs := [], roots := [], owned := [] }

def Disp.reset : Disp :=
  { launches := [], queues := [], serial := 1, lastPair := 511, removed := [], rr := [], holds := [], nextOrder := 0,
    nextBolt := 0, tags := { last := 0, live := [], retiring := [], sweeping := [] }, budget := 64, gap := 4, smoulder := false,
    scanQueue := [] }

def Fabric.reset : Fabric := { views := [], colls := [], outbox := [], unacked := [], nextMsg := 0 }

def HostIf.reset : HostIf :=
  { features := [], waiting := [], dropped := 0, calls := [], nextToken := 0, out := [],
    held := [], us := 0, image := 0 }

def Dev.reset : Dev :=
  { fresh := 0, mem := Mem.reset, wefts := [], shuttles := [], cores := [], ops := [], nextOp := 0, cmds := [],
    gathers := [], slops := [], bolts := [], disp := Disp.reset, counters := [], fabric := Fabric.reset,
    host := HostIf.reset, debug := [], keys := [] }

/-- Reset values of R169 (CTXMB 64), R204 (0), R259 (GAP 4, BUDGET 64) and R271 (0). -/
def Regs.reset : Regs :=
  { carve := 0x00400000, carveNew := none, racewin := 0, racewinNew := none, power := 0x0000000004400000, sventry := 0,
    sventryNew := none, svbase := 0, svbaseNew := none, ctxtab := 0, ctxtabNew := none }

def Sec.reset : Sec :=
  { ctxFn := [], spdm := .start, staged := none, version := 0, rollback := 0, switching := false,
    fwDebug := false, fwTrace := [], fwSeq := 0 }

def Plat.reset : Plat :=
  { stackRows := [], log := [], threshold := 4, scans := [], lastScan := [], scanLevel := 7, coreMap := [],
    spares := (List.range 32).map (512 + ·),
    duty := 16, warned := false, tripped := false, die := [], selfTestEvery := 4096 }

/-- The machine right after cold reset (R365, R475). -/
def State.reset : State :=
  { agenda := [], cur := 0, dev := Dev.reset, regs := Regs.reset, sec := Sec.reset, plat := Plat.reset }

end Sys2Proof.Machine
end

