-- ==== Sys2Proof/Machine/Operands.lean ====
section
/-! DEFINITION. Operand forms: lanes and halves, the reads of a weft's registers by the type of their reader (R95 to R98),
the register writes (R114), and the guards (R101). -/

namespace Sys2Proof.Machine

/-! ### Lanes and halves -/

/-- Lane numbers of a mask below `n`, rising. -/
def lanesBelow (n : Nat) (m : Lanes) : List Nat := (List.range n).filter fun l => m.getLsbD l

def lanesOf (m : Lanes) : List Nat := lanesBelow 64 m

def oneLane (l : Nat) : Lanes := 1#64 <<< l

def maskOf (ls : List Nat) : Lanes := ls.foldl (fun m l => m ||| oneLane l) 0

/-- Lowest lane of a mask, 0 when it is empty. -/
def lowLane (m : Lanes) : Nat := ((lanesOf m).head?).getD 0

/-- Half of a lane: 0 outside compatibility mode (R67). -/
def Weft.halfOf (w : Weft) (l : Nat) : Nat := if w.hdr.c16 && decide (16 ≤ l) then 1 else 0

/-- Lanes of a half (R67); a weft in compatibility mode has 32. -/
def Weft.halfMask (w : Weft) (h : Nat) : Lanes :=
  if w.hdr.c16 then (if h = 0 then 0xFFFF else ~~~0xFFFF) else BitVec.allOnes 64

/-- Halves with threads in `act` (R67). -/
def Weft.halves (w : Weft) (act : Lanes) : List Nat :=
  if w.hdr.c16 then [0, 1].filter fun h => (act &&& w.halfMask h) != 0 else [0]

/-- g of R152: W/16, or 1 in compatibility mode. -/
def Weft.g (w : Weft) : Nat := if w.hdr.c16 then 1 else w.hdr.w / 16

/-- All lanes 0 to W − 1. -/
def Weft.full (w : Weft) : Lanes := BitVec.allOnes 64 >>> (64 - w.hdr.w)

/-- Lanes whose threads have not ended: those of the table's entries and of the running handler's held state. -/
def Weft.live (w : Weft) : Lanes := w.entries.foldl (fun m e => m ||| e.mask) 0

/-! ### Registers (R71) -/

def Weft.v (w : Weft) (lane n : Nat) : BitVec 32 := Cells.get w.vregs (lane * 1024 + n)
/-- A word written whole holds no uncorrectable error (R337). -/
def Weft.mend (w : Weft) (key : Nat) : Weft := { w with badWords := w.badWords.filter (· != key) }

/-- Keys under which the words of a weft can be uncorrectable: vector registers, scalars and tiles (R337). -/
def badV (lane n : Nat) : Nat := lane * 1024 + n
def badS (n : Nat) : Nat := 65536 + n
def badTile (t : Nat) : Nat := 65664 + t

def Weft.setV (w : Weft) (lane n : Nat) (x : BitVec 32) : Weft :=
  ({ w with vregs := Cells.set w.vregs (lane * 1024 + n) x } : Weft).mend (badV lane n)

/-- Place of scalar sN of a half (R67). -/
def Weft.sIdx (w : Weft) (h n : Nat) : Nat := if w.hdr.c16 then 64 * h + n else n
def Weft.s (w : Weft) (h n : Nat) : BitVec 64 := Cells.get w.sregs (w.sIdx h n)
def Weft.setS (w : Weft) (h n : Nat) (x : BitVec 64) : Weft :=
  ({ w with sregs := Cells.set w.sregs (w.sIdx h n) x } : Weft).mend (badS (w.sIdx h n))

/-- Per-thread predicates; p7 reads 1 (R71). -/
def Weft.p (w : Weft) (lane k : Nat) : Bool := k == 7 || (Cells.get w.preds k).getLsbD lane
def Weft.setP (w : Weft) (lane k : Nat) (b : Bool) : Weft :=
  if k = 7 then w
  else
    let old := Cells.get w.preds k
    { w with preds := Cells.set w.preds k (if b then old ||| oneLane lane else old &&& ~~~ oneLane lane) }

/-- Uniform predicates of a half; q7 reads 1 (R71). -/
def Weft.q (w : Weft) (h k : Nat) : Bool := k == 7 || (Cells.get w.qs h).getLsbD k
def Weft.setQ (w : Weft) (h k : Nat) (b : Bool) : Weft :=
  if k = 7 then w
  else
    let old := Cells.get w.qs h
    let bit : BitVec 8 := 1#8 <<< k
    { w with qs := Cells.set w.qs h (if b then old ||| bit else old &&& ~~~ bit) }

/-- A predicate operand read by a thread. -/
def Weft.pred (w : Weft) (h lane : Nat) : Operand → Bool
  | .p n => w.p lane n.val
  | .q n => w.q h n.val
  | _ => false

/-! ### Values by reader type (R95 to R98) -/

/-- How an instruction reads a source. -/
inductive Reader where
  | i32 | i64 | f32 | p16 | bf2 | f162
  | cvt (t : CvtTy)
  deriving DecidableEq, Repr

/-- The inline floats of R96. -/
def inlineFloat (n : Nat) : Nat :=
  [0x00000000, 0x3F000000, 0x3F800000, 0x40000000, 0x40800000, 0xBF000000, 0xBF800000, 0xC0000000, 0xC0800000,
   0x3E800000, 0x41000000, 0x7F800000, 0xFF800000, 0x7FC00000, 0x3FB8AA3B, 0x3F317218].getD n 0

/-- An inline integer in a reader's form (R97). -/
def readInt (r : Reader) (x : Int) : Nat :=
  match r with
  | .i32 => truncI x 32
  | .i64 => truncI x 64
  | .f32 => rne32 (.ofInt x)
  | .p16 => pack16 (truncI x 16) (truncI x 16)
  | .bf2 => let c := (roundTo fmtBf16 (.ofInt x) .rn false).1; pack16 c c
  | .f162 => let c := (roundTo fmtF16 (.ofInt x) .rn false).1; pack16 c c
  | .cvt t => match t with
    | .f32 => rne32 (.ofInt x)
    | .f16 => (roundTo fmtF16 (.ofInt x) .rn false).1
    | .bf16 => (roundTo fmtBf16 (.ofInt x) .rn false).1
    | t => truncI x (cvtWidth t)

/-- An inline float in a reader's form (R97). -/
def readFloat (r : Reader) (b : Nat) : Nat :=
  match r with
  | .bf2 => let c := (roundTo fmtBf16 (fmtF32.dec b) .rn false).1; pack16 c c
  | .f162 => let c := (roundTo fmtF16 (fmtF32.dec b) .rn false).1; pack16 c c
  | .cvt .f16 => (roundTo fmtF16 (fmtF32.dec b) .rn false).1
  | .cvt .bf16 => (roundTo fmtBf16 (fmtF32.dec b) .rn false).1
  | .cvt t => b % 2 ^ cvtWidth t
  | _ => b

def Reader.wide : Reader → Bool
  | .i64 => true
  | .cvt t => t.wide
  | _ => false

/-- The literal as a reader takes it: 64 bits sign-extended, or its low 32 bits (R98). -/
def readLit (r : Reader) (l : BitVec 58) : Nat :=
  let x := (l.signExtend 64).toNat
  if r.wide then x else x % 2 ^ 32

/-- opnd(o, t): what thread `lane` of half `h` reads through operand `o` (R95, R97, R98). -/
def Weft.opnd (w : Weft) (h lane : Nat) (lit : Option (BitVec 58)) (r : Reader) : Operand → Nat
  | .vec n => if r.wide then (w.v lane n.val).toNat + 2 ^ 32 * (w.v lane (n.val + 1)).toNat else (w.v lane n.val).toNat
  | .scal n => let x := (w.s h n.val).toNat; if r.wide then x else x % 2 ^ 32
  | .imm n => readInt r ((n.val : Int) - 32)
  | .fimm n => readFloat r (inlineFloat n.val)
  | .lit => match lit with | some l => readLit r l | none => 0
  | .p n => (w.p lane n.val).toNat
  | .q n => (w.q h n.val).toNat

/-! ### Writes (R114, R132) -/

/-- How a value reaches a scalar register: the 32-bit result sign- or zero-extended, or all 64 bits. -/
inductive Ext where
  | sx32 | zx32 | full
  deriving DecidableEq, Repr

def Ext.apply (e : Ext) (v : Nat) : BitVec 64 :=
  match e with
  | .sx32 => (BitVec.ofNat 32 v).signExtend 64
  | .zx32 => (BitVec.ofNat 32 v).zeroExtend 64
  | .full => BitVec.ofNat 64 v

def intExt (t : IntTy) : Ext :=
  match t with | .s32 => .sx32 | .z32 => .zx32 | _ => .full

/-- wr(dst, t, v): a vector register takes 32 bits, a pair 64; a scalar the extended value; a predicate bit 0. -/
def Weft.write (w : Weft) (h lane : Nat) (d : Operand) (wide : Bool) (e : Ext) (v : Nat) : Weft :=
  match d with
  | .vec n =>
    let w := w.setV lane n.val (BitVec.ofNat 32 v)
    if wide then w.setV lane (n.val + 1) (BitVec.ofNat 32 (v / 2 ^ 32)) else w
  | .scal n => w.setS h n.val (e.apply v)
  | .p n => w.setP lane n.val (v % 2 == 1)
  | .q n => w.setQ h n.val (v % 2 == 1)
  | _ => w

/-! ### Guards (R101) -/

def Weft.guardOn (w : Weft) (h lane : Nat) (g : Guard) : Bool :=
  (if g.uni then w.q h g.num.val else w.p lane g.num.val) != g.neg

/-- Threads of `act` whose guard holds. -/
def Weft.guarded (w : Weft) (act : Lanes) (g : Guard) : List Nat :=
  (lanesOf act).filter fun l => w.guardOn (w.halfOf l) l g

/-! ### The context of a word being issued -/

/-- What a word's meaning reads: the control registers, the shuttle, the pick in progress and its weft as they stand when
the word issues, and the word's own header. -/
structure Ctx where
  regs : Regs
  sh : Nat
  run : PickRun
  w : Weft
  guard : Guard
  lit : Option (BitVec 58)
  deriving Repr

def Ctx.core (c : Ctx) : Nat := c.run.ref.core

/-- Threads of `act` whose guard holds. -/
def Ctx.on (c : Ctx) : List Nat := c.w.guarded c.run.act c.guard

/-- Halves with threads in `act` for which a uniform word executes (R67, R366). -/
def Ctx.onHalves (c : Ctx) : List Nat := (c.w.halves c.run.act).filter fun h => c.w.guardOn h 0 c.guard

/-- Threads of `act` in a half. -/
def Ctx.actOf (c : Ctx) (h : Nat) : Lanes := c.run.act &&& c.w.halfMask h

def Ctx.get (c : Ctx) (lane : Nat) (r : Reader) (o : Operand) : Nat := c.w.opnd (c.w.halfOf lane) lane c.lit r o

/-- The value a weft instruction reads, once for half `h`. -/
def Ctx.uget (c : Ctx) (h : Nat) (r : Reader) (o : Operand) : Nat := c.w.opnd h 0 c.lit r o

/-- Byte offset of the word being issued. -/
def Ctx.wordPc (c : Ctx) : BitVec 32 := c.run.pc + 8 + BitVec.ofNat 32 (8 * c.run.idx)

/-- Byte offset of the header after the pick. -/
def Ctx.nextPc (c : Ctx) : BitVec 32 := c.run.pc + 8 + BitVec.ofNat 32 (8 * c.run.words.length)

end Sys2Proof.Machine
end

