-- ==== Sys2Proof/Machine/Flags.lean ====
section
/-! DEFINITION. Flags, scoreboard and sticky exceptions: the wefts, shuttles and cores of the device by their numbers, the
counting of operations on flags (R75, R110, R111), the scoreboard (R112), $fpst and the enabled exceptions (R81, R140). -/

namespace Sys2Proof.Machine

/-! ### Wefts, shuttles and cores by number -/

def refKey (r : WRef) : Nat := r.core * 128 + r.shuttle * 32 + r.slot
def refOfKey (k : Nat) : WRef := { core := k / 128, shuttle := k / 32 % 4, slot := k % 32 }

/-- The supervisor weft's place (R33, R272). It may issue on any shuttle of its core and no rule names the shuttle that is its own: what
depends on one, which is $shuttle and the cycles that run a WAITL deadline down, is taken from shuttle 0 (DESIGN CHOICE,
notes/assumptions/67.md). -/
def supRef (core : Nat) : WRef := { core := core, shuttle := 0, slot := 16 }

/-- The name of a weft in the ownership of its tiles, the same wherever its bolt is placed. -/
def Weft.tileRef (w : Weft) (core : Nat) : WRef := if w.sup then supRef core else { core := 2048 + w.bolt, shuttle := 0, slot := w.widx }

def Dev.weft? (d : Dev) (r : WRef) : Option Weft := Tab.find? d.wefts (refKey r)
def Dev.putW (d : Dev) (r : WRef) (w : Weft) : Dev := { d with wefts := Tab.put d.wefts (refKey r) w }
def Dev.modW (d : Dev) (r : WRef) (f : Weft → Weft) : Dev :=
  match d.weft? r with
  | some w => d.putW r (f w)
  | none => d
def Dev.dropW (d : Dev) (r : WRef) : Dev := { d with wefts := Tab.del d.wefts (refKey r) }

def Dev.sh (d : Dev) (k : Nat) : Shuttle := Tab.getD Shuttle.reset d.shuttles k
def Dev.modSh (d : Dev) (k : Nat) (f : Shuttle → Shuttle) : Dev :=
  { d with shuttles := Tab.upd Shuttle.reset d.shuttles k f }
def Dev.core (d : Dev) (k : Nat) : Core := Tab.getD Core.reset d.cores k
def Dev.modCore (d : Dev) (k : Nat) (f : Core → Core) : Dev := { d with cores := Tab.upd Core.reset d.cores k f }
def Dev.modMem (d : Dev) (f : Mem → Mem) : Dev := { d with mem := f d.mem }
def Dev.bolt? (d : Dev) (id : Nat) : Option Bolt := d.bolts.find? (·.id == id)
def Dev.modBolt (d : Dev) (id : Nat) (f : Bolt → Bolt) : Dev :=
  { d with bolts := d.bolts.map fun b => if b.id = id then f b else b }

/-- The launch of a bolt. -/
def Dev.launchOf? (d : Dev) (bolt : Nat) : Option Launch :=
  (d.bolt? bolt).bind fun b => d.disp.launches.find? (·.serial == b.serial)

/-- Cores that software can name (R10). -/
def coreCount : Nat := 1024

/-- A free value's number, counted (notes/assumptions/2.md). -/
def Dev.draw (d : Dev) : Nat × Dev := (d.fresh, { d with fresh := d.fresh + 1 })

/-! ### Flags (R75, R110, R111) -/

/-- FA and FB of a pick header: the flag number, or none for code 15 (R102). -/
def headFlag (header : DWord) (fb : Bool) : Option Nat :=
  let n := header.toNat / 2 ^ (if fb then 41 else 45) % 16
  if n < 12 then some n else none

/-- The flag cells on which an operation counts: one in each of its halves (R110, R67). -/
def Ctx.flagKeys (c : Ctx) (fb : Bool) (hs : List Nat) : List Nat :=
  match headFlag c.run.header fb with
  | some f => hs.map fun h => h * 16 + f
  | none => []

/-- Whether counting would raise a flag above 63 (R75). -/
def Weft.flagsFull (w : Weft) (ks : List Nat) : Bool := ks.any fun k => Cells.get w.flags k == 63

def Weft.addFlags (w : Weft) (ks : List Nat) : Weft :=
  { w with flags := ks.foldl (fun f k => Cells.set f k (Cells.get f k + 1)) w.flags }

def Weft.subFlags (w : Weft) (ks : List Nat) : Weft :=
  { w with flags := ks.foldl (fun f k => if Cells.get f k = 0 then f else Cells.set f k (Cells.get f k - 1)) w.flags }

/-- One completion on the flags `ks` of weft `r` (R111). -/
def Dev.decFlags (d : Dev) (r : WRef) (ks : List Nat) : Dev := d.modW r fun w => w.subFlags ks

/-! ### Scoreboard (R112) -/

/-- The code range of a register operand over `n` registers. -/
def operandRange (o : Operand) (n : Nat) : Option (Nat × Nat) :=
  match o with
  | .vec k => some (k.val, n)
  | .scal k => some (640 + k.val, 1)
  | _ => none

def overlaps (a b : Nat × Nat) : Bool := decide (a.1 < b.1 + b.2) && decide (b.1 < a.1 + a.2)

/-- Whether a range meets a pending write. -/
def Weft.pendingReg (w : Weft) (r : Nat × Nat) : Bool := w.sb.any fun e => overlaps (e.first, e.count) r

/-- Scalar and vector registers that the slots of a pair word name. -/
def pairRanges (s : Option SSlot) (v : Option VSlot) : List (Nat × Nat) :=
  let st (t : PST) : List (Nat × Nat) := match t with | .reg n => [(640 + n.val, 1)] | .imm _ => []
  (match s with
   | none => []
   | some (.bin _ d s t) | some (.lea _ d s t) | some (.sel _ d s t) => [(640 + d.val, 1), (640 + s.val, 1)] ++ st t
   | some (.mov d t) => (640 + d.val, 1) :: st t
   | some (.setp _ _ _ s t) => (640 + s.val, 1) :: st t) ++
  (match v with
   | none => []
   | some v => (v.vd.val, 1) :: (match v.vs with | .vec n => [(n.val, 1)] | .scal n => [(640 + n.val, 1)] | .imm _ => []))

/-- Every register range an instruction reads or writes. -/
def Weft.ranges (w : Weft) (i : Instr) : List (Nat × Nat) :=
  match i with
  | .pairWord _ _ s v => pairRanges s v
  | .syscall _ _ => [(0, 6)] ++ (i.uses w.hdr.w w.g).filterMap fun u => operandRange u.o u.n
  | i => (i.uses w.hdr.w w.g).filterMap fun u => operandRange u.o u.n

/-- Whether the word must wait for a pending write of one of its registers (R112). -/
def Weft.sbWaits (w : Weft) (i : Instr) : Bool := (w.ranges i).any fun r => w.pendingReg r

/-- Takes a scoreboard entry on a destination range, freed when each of the operations `ops` has written. -/
def Weft.takeSb (w : Weft) (ops : List Nat) (r : Nat × Nat) (pc : BitVec 32) : Weft :=
  { w with sb := w.sb ++ [{ ops := ops, first := r.1, count := r.2, pc := pc }] }

/-- Operation `op` has written its registers. -/
def Weft.freeSb (w : Weft) (op : Nat) : Weft :=
  { w with sb := (w.sb.map fun e => { e with ops := e.ops.filter (· != op) }).filter fun e => !e.ops.isEmpty }

/-! ### Exceptions (R81, R140) -/

def Weft.orFpst (w : Weft) (h : Nat) (e : Exc) : Weft := { w with fpst := Cells.set w.fpst h (Cells.get w.fpst h ||| e) }

/-- FTRAP of the context record: overflow, divide-by-zero, invalid (R278). -/
def Weft.ftrap (w : Weft) : Nat := ((w.crec.getD 4 0).toNat) % 8

/-- The cause that an exception set raises under the context's trap enables, if any (R140). -/
def Weft.excCause (w : Weft) (e : Exc) : Option Nat :=
  if e &&& excInvalid != 0 && w.ftrap % 2 == 1 then some 0x08
  else if e &&& excDivZero != 0 && w.ftrap / 2 % 2 == 1 then some 0x09
  else if e &&& excOverflow != 0 && w.ftrap / 4 % 2 == 1 then some 0x0A
  else none

end Sys2Proof.Machine
end

