-- ==== Sys2Proof/Machine/Lines.lean ====
section
/-! DEFINITION. Memory at the home slices and the L1 copies of the cores: reads and writes by region, releases, acquires,
write-backs and the ownership of lines by engines (spec/07, spec/08). A physical place is target code · 2^64 + address. -/

namespace Sys2Proof.Machine

/-! ### Home slices -/

def pkey (target addr : Nat) : Nat := target * 2 ^ 64 + addr
def lineOf (pa : Nat) : Nat := pa / 64

def Dev.homeRd (d : Dev) (pa n : Nat) : Nat := Cells.bytes d.mem.cells pa n
def Dev.homeBytes (d : Dev) (pa n : Nat) : List Byte := Cells.byteList d.mem.cells pa n

/-- Sets the rewritten-line bit of every migration whose old frame holds the line (R298). -/
def Mem.markRewritten (m : Mem) (pa : Nat) : Mem :=
  { m with migs := m.migs.map fun g =>
      if g.stage != .waiting && g.oldPa ≤ pa && pa < g.oldPa + g.size && !(g.bits.contains ((pa - g.oldPa) / 64)) then
        { g with bits := g.bits ++ [(pa - g.oldPa) / 64] }
      else g }

/-- Whether a place lies in peer memory. -/
def inPeer (pa : Nat) : Bool := pa / 2 ^ 64 == 2

/-- Keeps what the peer's memory holds where the L2 is about to hold newer bytes (R168). Of the L2's copies of peer lines State holds these
dirty bytes alone (DESIGN CHOICE, notes/assumptions/68.md). -/
def Mem.keepPeer (m : Mem) (pa n : Nat) : Mem :=
  if inPeer pa then
    { m with l2peer := (List.range n).foldl (fun t k =>
        if (Tab.find? t (pa + k)).isSome then t else Tab.put t (pa + k) (Cells.get m.cells (pa + k))) m.l2peer }
  else m

/-- The directory takes back the copies that L1s hold of a line under it, before another agent writes it (R164, R203). -/
def Mem.recall (m : Mem) (line : Nat) : Mem :=
  if m.l1.any fun p => p.2.any fun l => l.region == 2 && l.line == line then
    { m with l1 := (m.l1.map fun p => (p.1, p.2.filter fun l => !(l.region == 2 && l.line == line))).filter fun p => !p.2.isEmpty }
  else m

/-- A write at the home slice of a line: the bytes, the copies that the directory takes back, the migration bit, and the
back-invalidation of a host copy (R168). -/
def Dev.homeWr (d : Dev) (pa n v : Nat) : Dev :=
  let m := d.mem
  let held := m.hostHeld.contains (lineOf pa)
  let m := (({ m.keepPeer pa n with cells := Cells.putBytes m.cells pa n v }).recall (lineOf pa)).markRewritten pa
  if held then
    { d with mem := { m with hostHeld := m.hostHeld.filter (· != lineOf pa) },
             host := { d.host with out := d.host.out ++ [.backInvalidate (lineOf pa)] } }
  else { d with mem := m }

def Dev.homeWrList (d : Dev) (pa : Nat) : List Byte → Dev
  | [] => d
  | b :: bs => Dev.homeWrList (d.homeWr pa 1 b.toNat) (pa + 1) bs

/-- Peer memory as the peer has it: bytes that the L2 holds dirty have not reached it (R168). -/
def Dev.tgtByte (d : Dev) (pa : Nat) : Byte := (Tab.find? d.mem.l2peer pa).getD (Cells.get d.mem.cells pa)

def Dev.tgtRd (d : Dev) (pa : Nat) : Nat → Nat
  | 0 => 0
  | n + 1 => (d.tgtByte pa).toNat + 256 * d.tgtRd (pa + 1) n

/-- A write of one byte at the target itself, past the L2: a device-region access (R164, R168). -/
def Dev.tgtWr1 (d : Dev) (pa : Nat) (b : Byte) : Dev :=
  if (Tab.find? d.mem.l2peer pa).isSome then d.modMem fun m => { m with l2peer := Tab.put m.l2peer pa b }
  else if inPeer pa then d.modMem fun m => { m with cells := Cells.set m.cells pa b }
  else d.homeWr pa 1 b.toNat

def Dev.tgtWrList (d : Dev) (pa : Nat) : List Byte → Dev
  | [] => d
  | b :: bs => (d.tgtWr1 pa b).tgtWrList (pa + 1) bs

def natBytes (v : Nat) : Nat → List Byte
  | 0 => []
  | n + 1 => BitVec.ofNat 8 v :: natBytes (v / 256) n

def Dev.tgtWr (d : Dev) (pa n v : Nat) : Dev := if inPeer pa then d.tgtWrList pa (natBytes v n) else d.homeWr pa n v

/-- The L2's dirty bytes of peer lines, all of them or those of one line, reach the peer (R168, R173). -/
def Dev.flushPeer (d : Dev) (line : Option Nat) : Dev :=
  if d.mem.l2peer.isEmpty then d
  else d.modMem fun m => { m with l2peer := match line with
    | none => []
    | some l => m.l2peer.filter fun p => lineOf p.1 != l }

def Dev.poisoned (d : Dev) (pa : Nat) : Bool := d.mem.poison.contains (lineOf pa)

/-- A write that covers a whole line clears its poison (R340). -/
def Dev.clearPoison (d : Dev) (line : Nat) : Dev :=
  d.modMem fun m => { m with poison := m.poison.filter (· != line) }

/-! ### L1 (R163, R164) -/

def partnerOf (core : Nat) : Nat := if core % 2 = 0 then core + 1 else core - 1
def pairOf (core : Nat) : Nat := core / 2

def Dev.l1 (d : Dev) (core : Nat) : List L1Line := Tab.getD [] d.mem.l1 core
def Dev.setL1 (d : Dev) (core : Nat) (ls : List L1Line) : Dev :=
  d.modMem fun m => { m with l1 := if ls.isEmpty then Tab.del m.l1 core else Tab.put m.l1 core ls }
def Dev.l1? (d : Dev) (core line : Nat) : Option L1Line := (d.l1 core).find? (·.line == line)
def Dev.l1Put (d : Dev) (core : Nat) (l : L1Line) : Dev :=
  d.setL1 core (l :: (d.l1 core).filter (·.line != l.line))
def Dev.l1Drop (d : Dev) (core line : Nat) : Dev := d.setL1 core ((d.l1 core).filter (·.line != line))

/-- Word `j` of a copy. -/
def L1Line.word (l : L1Line) (j : Nat) : Nat := (l.data >>> (64 * j)).toNat % 2 ^ 64

def L1Line.setWord (l : L1Line) (j v : Nat) (dirty : Bool) : L1Line :=
  let keep : BitVec 512 := ~~~ (BitVec.ofNat 512 (2 ^ 64 - 1) <<< (64 * j))
  { l with data := (l.data &&& keep) ||| (BitVec.ofNat 512 (v % 2 ^ 64) <<< (64 * j)),
           valid := l.valid ||| (1#8 <<< j), dirty := if dirty then l.dirty ||| (1#8 <<< j) else l.dirty }

/-- Words that a copy holds, and those of a core's L1, which holds 256 KiB (R13, R163). -/
def L1Line.words (l : L1Line) : Nat := ((List.range 8).filter fun k => l.valid.getLsbD k).length
def Dev.l1Words (d : Dev) (core : Nat) : Nat := ((d.l1 core).map L1Line.words).sum
def l1Cap : Nat := 32768

/-- Writes the dirty words of a copy to the home slice. -/
def Dev.wbWords (d : Dev) (l : L1Line) : Dev :=
  (List.range 8).foldl (fun d j => if l.dirty.getLsbD j then d.homeWr (l.line * 64 + 8 * j) 8 (l.word j) else d) d

/-- Writes a core's dirty copy of a line back and keeps it clean. -/
def Dev.wbLine (d : Dev) (core line : Nat) : Dev :=
  match d.l1? core line with
  | some l => if l.dirty = 0 then d else (d.wbWords l).l1Put core { l with dirty := 0 }
  | none => d

def Dev.wbDrop (d : Dev) (core line : Nat) : Dev := (d.wbLine core line).l1Drop core line

/-- Both copies of a pair written back and dropped. -/
def Dev.pairDrop (d : Dev) (core line : Nat) : Dev := (d.wbDrop core line).wbDrop (partnerOf core) line
def Dev.pairWb (d : Dev) (core line : Nat) : Dev := (d.wbLine core line).wbLine (partnerOf core) line

/-- Notes, for the partner core's read-shared copy, that this core has written the line (R184). -/
def Dev.notePartner (d : Dev) (core line : Nat) : Dev :=
  match d.l1? (partnerOf core) line with
  | some l => d.l1Put (partnerOf core) { l with partner := true }
  | none => d

/-- How an access reaches memory: its place, the region and translation that govern it. -/
structure Where where
  pa : Nat
  va : BitVec 57
  asid : BitVec 16
  region : BitVec 2
  rt : Bool
  target : BitVec 4
  deriving DecidableEq, Repr, Inhabited

/-- The region that governs copies: a line of a private or read-shared page with RT is held under the directory, as a coherent one is
(R203). -/
def Where.kind (a : Where) : BitVec 2 := if a.region = 3 then 3 else if a.rt then 2 else a.region

/-- Whether a copy stands under the translation of an access: the L1 is indexed by virtual address and tagged with the ASID (R163). -/
def L1Line.under (l : L1Line) (a : Where) : Bool := l.asid == a.asid && l.va.toNat / 64 == a.va.toNat / 64

/-- Whether a core's own copy, under the access's translation, holds the word. -/
def Dev.l1Own (d : Dev) (core : Nat) (a : Where) : Bool :=
  match d.l1? core (lineOf a.pa) with
  | some l => l.under a && l.valid.getLsbD (a.pa % 64 / 8)
  | none => false

/-- Whether an access is served by the L1s of its pair: by the core's own copy, or through the snoop filter by the partner's copy of a
private line (R164). -/
def Dev.l1Hit (d : Dev) (core : Nat) (a : Where) : Bool :=
  d.l1Own core a ||
    (a.kind == 0 && match d.l1? (partnerOf core) (lineOf a.pa) with
      | some l => l.valid.getLsbD (a.pa % 64 / 8)
      | none => false)

/-- Room for a fill of line `keep`: blocks allocated by .ef go first, then the copies longest unused, dirty words to their home slice. The
order is a DESIGN CHOICE, which R173 leaves to an implementation (notes/assumptions/68.md). -/
def Dev.l1Trim (d : Dev) (core keep : Nat) : Dev :=
  if d.l1Words core ≤ l1Cap then d
  else
    let ls := ((d.l1 core).filter (·.line != keep)).reverse
    (ls.filter (·.ef) ++ ls.filter fun l => !l.ef).foldl (fun d l => if d.l1Words core ≤ l1Cap then d else d.wbDrop core l.line) d

/-- One fill of an L1: the word asked for, and further words of the line as the predictor chooses; a copy that stands under another
translation moves with its words (R163). -/
def Dev.fill (d : Dev) (core : Nat) (a : Where) (ef : Bool) : Dev :=
  let line := lineOf a.pa
  let j := a.pa % 64 / 8
  let (n, d) := d.draw
  let extra := Config.fillMask n
  let old := d.l1? core line
  let base : L1Line := old.getD
    { line := line, asid := a.asid, va := a.va, region := a.kind, valid := 0, dirty := 0, data := 0, partner := false, ef := ef }
  let other := if a.kind = 0 then ((d.l1? (partnerOf core) line).map (·.valid)).getD 0 else 0
  let brings (k : Nat) : Bool := k == j || extra.getLsbD k && !other.getLsbD k
  let l := (List.range 8).foldl (fun (l : L1Line) k =>
    if brings k && !l.valid.getLsbD k && !other.getLsbD k then l.setWord k (d.homeRd (line * 64 + 8 * k) 8) false else l) base
  let d := (d.l1Put core { l with asid := a.asid, va := a.va, region := a.kind }).l1Trim core line
  -- FILLb counts fills of b + 1 words and stays at its maximum (R355)
  let moved := match old with | some l => !l.under a | none => false
  let b := ((List.range 8).filter fun k => brings k && (moved || !base.valid.getLsbD k)).length - 1
  d.modCore core fun c =>
    { c with fills := if Cells.get c.fills b = BitVec.allOnes 48 then c.fills else Cells.set c.fills b (Cells.get c.fills b + 1) }

/-- Value of `n` bytes, within one aligned word, of a copy that holds that word. -/
def L1Line.read (l : L1Line) (pa n : Nat) : Nat := l.word (pa % 64 / 8) / 2 ^ (8 * (pa % 8)) % 2 ^ (8 * n)

/-- The word with `n` bytes at `pa` replaced. -/
def patch (w pa n v : Nat) : Nat :=
  let s := 8 * (pa % 8)
  let m := (2 ^ (8 * n) - 1) <<< s
  (w &&& (2 ^ 64 - 1 - m)) ||| ((v % 2 ^ (8 * n)) <<< s)

/-- A plain load of up to 8 aligned bytes (R164, R182). -/
def Dev.loadWord (d : Dev) (core : Nat) (a : Where) (n : Nat) (ef : Bool) : Nat × Dev :=
  let copy (d : Dev) (k : Nat) : Nat := ((d.l1? k (lineOf a.pa)).map (·.read a.pa n)).getD 0
  if a.kind = 3 then (d.tgtRd a.pa n, d)
  else if d.l1Own core a then (copy d core, d)
  else if d.l1Hit core a then (copy d (partnerOf core), d)
  else
    let d := d.fill core a ef
    (copy d core, d)

/-- A volatile load: the pair's dirty copies first reach the home slice, which is read (R186). -/
def Dev.loadVol (d : Dev) (core : Nat) (a : Where) (n : Nat) : Nat × Dev :=
  if a.kind = 3 then (d.tgtRd a.pa n, d)
  else
    let d := d.pairWb core (lineOf a.pa)
    (d.homeRd a.pa n, d)

/-- A store of up to 8 aligned bytes (R164). A line under the directory is owned before it is written; the model gives its new value to
the home slice at once, which answers every later access as a recall of the owner's copy would. -/
def Dev.storeWord (d : Dev) (core : Nat) (a : Where) (n v : Nat) (vol ef : Bool) : Dev :=
  let line := lineOf a.pa
  let k := a.kind
  if k = 3 then d.tgtWr a.pa n v
  else if k = 2 then
    if vol then d.homeWr a.pa n v
    else
      let d := if d.l1Own core a then d else d.fill core a ef
      let mine := d.l1? core line
      let d := d.homeWr a.pa n v
      match mine with
      | some l => d.l1Put core (l.setWord (a.pa % 64 / 8) (patch (l.word (a.pa % 64 / 8)) a.pa n v) false)
      | none => d
  else if k = 1 then
    let d := d.homeWr a.pa n v
    let d := match d.l1? core line with
      | some l =>
        let j := a.pa % 64 / 8
        if l.valid.getLsbD j then d.l1Put core (l.setWord j (patch (l.word j) a.pa n v) false) else d
      | none => d
    d.notePartner core line
  else if vol then (d.pairDrop core line).homeWr a.pa n v
  else
    let d := d.wbDrop (partnerOf core) line
    let j := a.pa % 64 / 8
    let d := if d.l1Own core a then d else d.fill core a ef
    match d.l1? core line with
    | some l => d.l1Put core (l.setWord j (patch (l.word j) a.pa n v) true)
    | none => d

/-- Loads and stores of 1 to 16 bytes: a .b128 access is two of its aligned halves (R418, R441). -/
def Dev.load (d : Dev) (core : Nat) (a : Where) (n : Nat) (vol ef : Bool) : Nat × Dev :=
  let one (d : Dev) (a : Where) (n : Nat) := if vol then d.loadVol core a n else d.loadWord core a n ef
  if n ≤ 8 then one d a n
  else
    let (x, d) := one d a 8
    let (y, d) := one d { a with pa := a.pa + 8 } 8
    (x + 2 ^ 64 * y, d)

def Dev.store (d : Dev) (core : Nat) (a : Where) (n v : Nat) (vol ef : Bool) : Dev :=
  if n ≤ 8 then d.storeWord core a n v vol ef
  else
    (d.storeWord core a 8 (v % 2 ^ 64) vol ef).storeWord core { a with pa := a.pa + 8 } 8 (v / 2 ^ 64) vol ef

/-- Before a global atomic: the pair's dirty copy reaches the home slice, and the issuing core's copy goes (R190, R191). -/
def Dev.atomPrep (d : Dev) (core : Nat) (a : Where) : Dev :=
  let line := lineOf a.pa
  let d := d.pairWb core line
  let d := d.l1Drop core line
  if a.region = 0 then d.l1Drop (partnerOf core) line else d.notePartner core line

/-! ### Releases and acquires (R184) -/

/-- Writes back every dirty private line of the pair. -/
def Dev.releasePair (d : Dev) (core : Nat) : Dev :=
  let all (d : Dev) (k : Nat) : Dev :=
    (d.l1 k).foldl (fun d l => if l.dirty = 0 then d else d.wbLine k l.line) d
  all (all d core) (partnerOf core)

/-- Drops the clean words of the private and read-shared lines of one core. -/
def Dev.dropClean (d : Dev) (core : Nat) : Dev :=
  d.setL1 core ((d.l1 core).filterMap fun l =>
    if l.region == 2 then some l else if l.dirty = 0 then none else some { l with valid := l.dirty })

def scopeWide : Scope → Bool
  | .dev | .sys => true
  | _ => false

/-- The cache actions of a release at a scope. -/
def Dev.release (d : Dev) (core : Nat) (s : Scope) : Dev :=
  match s with
  | .dev => d.releasePair core
  | .sys => (d.releasePair core).flushPeer none
  | _ => d

/-- The cache actions of an acquire at a scope. -/
def Dev.acquire (d : Dev) (core : Nat) (s : Scope) : Dev :=
  match s with
  | .weft => d
  | .bolt | .pair => d.setL1 core ((d.l1 core).filter fun l => !(l.region == 1 && l.partner))
  | .dev | .sys => (d.dropClean core).dropClean (partnerOf core)

/-! ### Engine accesses (R192, R194) -/

/-- One byte as an engine reads it: from the issuing pair's L1 when that pair holds it dirty, else at the home slice. -/
def Dev.engByte (d : Dev) (core pa : Nat) : Byte :=
  let dirty (k : Nat) : Option Nat :=
    match d.l1? k (lineOf pa) with
    | some l => if l.dirty.getLsbD (pa % 64 / 8) then some (l.read pa 1) else none
    | none => none
  match dirty core with
  | some v => BitVec.ofNat 8 v
  | none => match dirty (partnerOf core) with
    | some v => BitVec.ofNat 8 v
    | none => BitVec.ofNat 8 (d.homeRd pa 1)

/-- Bytes of one line as an engine reads them: device-region lines are read at the target. -/
def Dev.engBytes (d : Dev) (core : Nat) (a : Where) (n : Nat) : List Byte :=
  if a.kind = 3 then (List.range n).map fun k => d.tgtByte (a.pa + k) else (List.range n).map fun k => d.engByte core (a.pa + k)

def leBytes (bs : List Byte) : Nat := bs.foldr (fun b n => b.toNat + 256 * n) 0

/-- Bytes written by an engine: the pair's copies are invalid once it owns the line; a full line loses its poison. -/
def Dev.engWrite (d : Dev) (core : Nat) (a : Where) (bs : List Byte) : Dev :=
  let d := if a.kind = 3 then d.tgtWrList a.pa bs else (d.pairDrop core (lineOf a.pa)).homeWrList a.pa bs
  if bs.length = 64 && a.pa % 64 = 0 then d.clearPoison (lineOf a.pa) else d

def Dev.ownerOf (d : Dev) (l : Loc) : Option Own := d.mem.owned.find? (·.loc == l)

/-- Takes ownership of a location, written from walk offset `off`. -/
def Dev.own (d : Dev) (e : EngId) (l : Loc) (off : Nat) : Dev :=
  if d.mem.owned.any (fun o => o.eng == e && o.loc == l) then d
  else d.modMem fun m => { m with owned := m.owned ++ [{ eng := e, loc := l, off := off }] }

def Dev.disownLoc (d : Dev) (e : EngId) (l : Loc) : Dev :=
  d.modMem fun m => { m with owned := m.owned.filter fun o => !(o.eng == e && o.loc == l) }

def Dev.disown (d : Dev) (e : EngId) : Dev :=
  d.modMem fun m => { m with owned := m.owned.filter fun o => o.eng != e }

/-! ### Release marks (R188, R189) -/

/-- Steps 2 to 4 of R188: the marked pair writes back its dirty private lines and the mark goes. -/
def Dev.promote (d : Dev) (line : Nat) : Dev :=
  match d.mem.marks.find? (·.line == line) with
  | some k => (d.releasePair (2 * k.pair)).modMem fun m => { m with marks := m.marks.filter (·.line != line) }
  | none => d

/-- A write by another pair to a marked line performs the promotion first (R189). -/
def Dev.promoteFor (d : Dev) (line pair : Nat) : Dev :=
  if d.mem.marks.any (fun k => k.line == line && k.pair != pair) then d.promote line else d

end Sys2Proof.Machine
end

