-- ==== Sys2Proof/Machine/Translate.lean ====
section
/-! DEFINITION. Translation of generic addresses (spec/13): the page table walk, the permissions, the TLBs and walk caches,
and the invalidation of translations. -/

namespace Sys2Proof.Machine

/-! ### Register fields -/

def hbmBytes : Nat := 576 * 2 ^ 30
def mib : Nat := 2 ^ 20

/-- Chip scratch in bytes (R169). -/
def Regs.chipBytes (r : Regs) : Nat := r.carve.toNat % 512 * mib
/-- Race window and carve-out (R204). -/
def Regs.wsize (r : Regs) : Nat := r.racewin.toNat / 2 ^ 16 % 1024
def Regs.wbase (r : Regs) : Nat := r.racewin.toNat % 1024 * 2 ^ 30
def Regs.cbase (r : Regs) : Nat := r.racewin.toNat / 2 ^ 32 % 8192 * (128 * mib)
def Regs.inCarve (r : Regs) (a : Nat) : Bool :=
  decide (r.cbase ≤ a) && decide (a < r.cbase + r.wsize * (128 * mib))
def Regs.inWindow (r : Regs) (a : Nat) : Bool :=
  decide (r.wbase ≤ a) && decide (a < r.wbase + r.wsize * 2 ^ 30)

/-! ### Walks (R286 to R290) -/

/-- What an access does: `own` takes a line that is to be written, and marks no page DIRTY until the write (R192, R291). -/
inductive AKind where
  | rd | wr | ex | own
  deriving DecidableEq, Repr

/-- What a walk ends in: a leaf with its entry's place, a trap cause, or a wait for a migration's freeze. -/
inductive WalkRes where
  | ok (x : Xlate) (vpn pages leafAt : Nat)
  | fault (cause : Nat)
  | hold
  deriving DecidableEq, Repr

def causePage : Nat := 0x10
def causeProt : Nat := 0x11

def nbit (n k : Nat) : Bool := n / 2 ^ k % 2 == 1
def nfld (n lo w : Nat) : Nat := n / 2 ^ lo % 2 ^ w

def pteFrame (e : Nat) : Nat := nfld e 12 40
def pteTarget (e : Nat) : Nat := nfld e 52 4

/-- Whether a table frame may be walked: in HBM, outside the carve-out (R286). -/
def tableOk (r : Regs) (frame : Nat) : Bool := decide (frame * 4096 + 4096 ≤ hbmBytes) && !r.inCarve (frame * 4096)

/-- Whether the address a leaf forms meets the condition of its target (R288). -/
def physOk (r : Regs) (target addr : Nat) : Bool :=
  if target = 0 then decide (addr < hbmBytes) && !r.inCarve addr
  else if target = 1 then true
  else if target = 2 then Config.stationUp (addr / 2 ^ 42 % 1024)
  else decide (addr < r.chipBytes)

/-- Whether the 16 leaves of the contiguous group of the entry at `at` obey R289. -/
def groupOk (d : Dev) (tbl idx lvl : Nat) : Bool :=
  let base := idx / 16 * 16
  let e0 := d.homeRd (pkey 0 (tbl + 8 * base)) 8
  let step := 512 ^ lvl
  let common (e : Nat) : Nat := e - pteFrame e * 4096 - (if nbit e 7 then 128 else 0) - (if nbit e 8 then 256 else 0)
  pteFrame e0 % (16 * step) == 0 &&
    (List.range 16).all fun k =>
      let e := d.homeRd (pkey 0 (tbl + 8 * (base + k))) 8
      nbit e 10 && common e == common e0 && pteFrame e == pteFrame e0 + k * step

/-- What a leaf entry gives for a page of `pages` 4 KiB pages. -/
def leafOf (e frame : Nat) : Xlate :=
  { page := frame * 4096, target := BitVec.ofNat 4 (pteTarget e), region := BitVec.ofNat 2 (nfld e 2 2), rt := nbit e 9,
    write := nbit e 4, exec := nbit e 5, dirty := nbit e 8, sup := nbit e 6 }

/-- One level of the walk; `n` is the level plus one (R286, R289, R290). -/
def walkLevel (r : Regs) (d : Dev) (va : Nat) : Nat → Nat → WalkRes
  | 0, _ => .fault causeProt
  | n + 1, frame =>
    let idx := va / 2 ^ (12 + 9 * n) % 512
    let tbl := frame * 4096
    let leafAt := tbl + 8 * idx
    let e := d.homeRd (pkey 0 leafAt) 8
    let pages := 512 ^ n
    if !nbit e 0 then .fault causePage
    else if nbit e 1 then
      if n ≥ 3 || pteTarget e > 3 then .fault causeProt
      else if nbit e 11 then
        (if d.mem.migs.any (fun g => g.leafAt == leafAt && g.stage == .frozen) then .hold else .fault causeProt)
      else
        let own := leafOf e (pteFrame e)
        let vpn := va / 4096 / pages * pages
        if nbit e 10 && decide (n < 2) && !groupOk d tbl idx n then
          -- a broken group: its own leaf or any member, unspecified which (R289)
          let k := (Config.groupMember d.fresh).val
          let em := d.homeRd (pkey 0 (tbl + 8 * (idx / 16 * 16 + k))) 8
          if nbit em 0 && nbit em 1 && nbit em 10 && pteTarget em ≤ 3 && !nbit em 11 then
            .ok (leafOf em (pteFrame em + idx % 16 * pages - k * pages)) vpn pages (tbl + 8 * (idx / 16 * 16 + k))
          else .ok own vpn pages leafAt
        else .ok own vpn pages leafAt
    else if n = 0 || pteTarget e ≠ 0 || !tableOk r (pteFrame e) then .fault causeProt
    else walkLevel r d va n (pteFrame e)

/-- The valid leaf entry that the walk of an address ends at, whatever it holds. -/
def rawLeaf (r : Regs) (d : Dev) (va : Nat) : Nat → Nat → Option Nat
  | 0, _ => none
  | n + 1, frame =>
    let e := d.homeRd (pkey 0 (frame * 4096 + 8 * (va / 2 ^ (12 + 9 * n) % 512))) 8
    if !nbit e 0 then none
    else if nbit e 1 then (if n ≥ 3 then none else some e)
    else if n = 0 || pteTarget e ≠ 0 || !tableOk r (pteFrame e) then none
    else rawLeaf r d va n (pteFrame e)

/-- The root of an ASID by the last reading of a context record that names it (R278, R292; ASID 0: notes/assumptions/4.md). -/
def Dev.root (d : Dev) (asid : BitVec 16) : Nat := Tab.getD 0 d.mem.roots asid.toNat

/-- An address space as a reading of a context record gives it: its ASID and its root (R278). -/
structure ASpace where
  asid : BitVec 16
  root : Nat
  deriving DecidableEq, Repr, Inhabited

/-- PTROOT of a context record. -/
def ptRoot (crec : List DWord) : Nat := nfld (crec.getD 1 0).toNat 12 40

/-- The space of a weft: that of the reading of its context's record that governs its bolt. -/
def Weft.space (w : Weft) : ASpace := { asid := w.asid, root := ptRoot w.crec }
def Cmd.space (x : Cmd) : ASpace := { asid := x.asid, root := x.root }
def Gath.space (x : Gath) : ASpace := { asid := x.asid, root := x.root }
def Slop.space (x : Slop) : ASpace := { asid := x.asid, root := x.root }
def Coll.space (x : Coll) : ASpace := { asid := x.asid, root := x.ptRoot }
def Launch.space (x : Launch) : ASpace := { asid := x.asid, root := x.root }

/-- The space of an ASID where no context is named: the root of the last reading. -/
def Dev.spaceOf (d : Dev) (asid : BitVec 16) : ASpace := { asid := asid, root := d.root asid }
def Dev.space0 (d : Dev) : ASpace := d.spaceOf 0

/-- The deepest cached walk entry for an address: the level plus one and the frame at which to start. -/
def Dev.walkStart (d : Dev) (as : ASpace) (va : Nat) (cached : Bool) : Nat × Nat :=
  let hit (n : Nat) : Option WalkEntry :=
    d.mem.walkc.find? fun w => w.asid == as.asid && w.level == n && w.pfx == va / 2 ^ (12 + 9 * (n + 1))
  if cached then
    match hit 0 with
    | some w => (1, w.frame)
    | none => match hit 1 with
      | some w => (2, w.frame)
      | none => match hit 2 with
        | some w => (3, w.frame)
        | none => (5, as.root)
  else (5, as.root)

def Dev.walk (d : Dev) (r : Regs) (as : ASpace) (va : Nat) (cached : Bool) : WalkRes :=
  let (n, frame) := d.walkStart as va cached
  if tableOk r frame then walkLevel r d va n frame else .fault causeProt

/-- Caches the frame of the table that holds a leaf (R292). -/
def Dev.cacheWalk (d : Dev) (asid : BitVec 16) (va pages leafAt : Nat) : Dev :=
  let lvl := if pages = 1 then 0 else if pages = 512 then 1 else 2
  let w : WalkEntry := { asid := asid, level := lvl, pfx := va / 2 ^ (12 + 9 * (lvl + 1)), frame := leafAt / 4096 }
  d.modMem fun m => { m with walkc := w :: m.walkc.filter fun x => !(x.asid == w.asid && x.level == w.level && x.pfx == w.pfx) }

/-- The permission and placement tests of an access through a translation (R288, R290). -/
def xlateFault (r : Regs) (asid : BitVec 16) (x : Xlate) (addr : Nat) (k : AKind) : Option Nat :=
  if !physOk r x.target.toNat addr then some causeProt
  else if x.sup && asid != 0 then some causeProt
  else match k with
    | .wr | .own => if x.write then none else some causeProt
    | .ex => if x.exec then none else some causeProt
    | .rd => none

/-! ### TLBs (R291, R292) -/

def Dev.tlbOf (d : Dev) (core : Nat) : List TlbEntry := Tab.getD [] d.mem.tlb core
def Dev.setTlb (d : Dev) (core : Nat) (l : List TlbEntry) : Dev :=
  d.modMem fun m => { m with tlb := if l.isEmpty then Tab.del m.tlb core else Tab.put m.tlb core l }

def TlbEntry.covers (e : TlbEntry) (asid : BitVec 16) (va : Nat) : Bool :=
  e.asid == asid && decide (e.vpn ≤ va / 4096) && decide (va / 4096 < e.vpn + e.pages)

/-- Physical address of a virtual one under an entry. -/
def TlbEntry.addr (e : TlbEntry) (va : Nat) : Nat := (e.x.page + (va - e.vpn * 4096)) % 2 ^ 52

/-- What an access meets at the core's TLB: a miss, a fault, or its place. A write through an entry cached with DIRTY clear
walks again (R291). -/
inductive XRes where
  | ok (w : Where)
  | fault (cause : Nat)
  | miss
  deriving DecidableEq, Repr

/-- The place of an access: a coherent page of peer memory is treated as device (R168), and RT counts on chip scratch and on HBM frames inside
the race window alone, on no device-region page (R202). -/
def whereOf (r : Regs) (asid : BitVec 16) (x : Xlate) (addr va : Nat) : Where :=
  let region := if x.target = 2 && x.region = 2 then 3 else x.region
  { pa := pkey x.target.toNat addr, va := BitVec.ofNat 57 va, asid := asid, region := region,
    rt := x.rt && region != 3 && (x.target == 3 || (x.target == 0 && r.inWindow addr)), target := x.target }

def Dev.lookup (d : Dev) (r : Regs) (core : Nat) (asid : BitVec 16) (va : Nat) (k : AKind) : XRes :=
  if va ≥ 2 ^ 57 then .fault causeProt
  else match (d.tlbOf core).find? (·.covers asid va) with
    | none => .miss
    | some e =>
      match xlateFault r asid e.x (e.addr va) k with
      | some c => .fault c
      | none => if k = .wr && !e.x.dirty then .miss else .ok (whereOf r asid e.x (e.addr va) va)

/-- Performs a walk for an access and, when it succeeds, sets ACCESSED and, for a write, DIRTY in the leaf and fills the TLB
(R290, R291). -/
def Dev.walkFill (d : Dev) (r : Regs) (core : Nat) (as : ASpace) (va : Nat) (k : AKind) (cached : Bool) :
    WalkRes × Dev :=
  let (_, d') := d.draw
  let asid := as.asid
  match d.walk r as va cached with
  | .fault c => (.fault c, d')
  | .hold => (.hold, d)
  | .ok x vpn pages leafAt =>
    let e : TlbEntry := { asid := asid, vpn := vpn, pages := pages, x := x }
    match xlateFault r asid x (e.addr va) k with
    | some c => (.fault c, d')
    | none =>
      let old := d.homeRd (pkey 0 leafAt) 8
      let upd := old ||| 128 ||| (if k = .wr then 256 else 0)
      let d := if upd = old then d' else d'.homeWr (pkey 0 leafAt) 8 upd
      let x := { x with dirty := x.dirty || k == .wr }
      let e := { e with x := x }
      let d := d.setTlb core (e :: (d.tlbOf core).filter fun o => !(o.asid == asid && o.vpn == vpn && o.pages == pages))
      (.ok x vpn pages leafAt, d.cacheWalk asid va pages leafAt)

/-- What a device-side access (an engine, a fetch, a ring write) meets: its place, a fault, or the wait for a freeze. -/
inductive PRes where
  | ok (w : Where)
  | fault (cause : Nat)
  | hold
  deriving DecidableEq, Repr

/-- Translates for an engine, a fetch or the device itself, walking at once on a miss. -/
def Dev.place (d : Dev) (r : Regs) (core : Nat) (as : ASpace) (va : Nat) (k : AKind) : PRes × Dev :=
  match d.lookup r core as.asid va k with
  | .ok w => (.ok w, d)
  | .fault c => (.fault c, d)
  | .miss =>
    match d.walkFill r core as va k true with
    | (.ok x vpn _ _, d) => (.ok (whereOf r as.asid x ((x.page + (va - vpn * 4096)) % 2 ^ 52) va), d)
    | (.fault c, d) => (.fault c, d)
    | (.hold, d) => (.hold, d)

/-! ### Device reads and writes by virtual address -/

/-- Reads `n` bytes at a virtual address for the device (R194): from the home slice when no weft reads, with the issuing
pair's dirty copies when `core` is that of a weft. The region must not be device where `nodev` asks for it. -/
inductive DRead where
  | ok (v : Nat)
  | fault (cause sub : Nat) (va : Nat)
  | hold
  deriving DecidableEq, Repr

def Dev.readVa (d : Dev) (r : Regs) (core : Nat) (as : ASpace) (va n : Nat) (forWeft : Bool) : DRead × Dev :=
  match d.place r core as va .rd with
  | (.ok w, d) =>
    if d.poisoned w.pa then (.fault 0x13 1 va, d)
    else if forWeft then (.ok (leBytes (d.engBytes core w n)), d)
    else (.ok (if w.kind = 3 then d.tgtRd w.pa n else d.homeRd w.pa n), d)
  | (.fault c, d) => (.fault c 0 va, d)
  | (.hold, d) => (.hold, d)

/-- Reads `k` words of 64 bits, line by line where they span lines. -/
def Dev.readWords (d : Dev) (r : Regs) (core : Nat) (as : ASpace) (forWeft : Bool) :
    Nat → Nat → Except (Nat × Nat × Nat) (List DWord) × Dev
  | _, 0 => (.ok [], d)
  | va, k + 1 =>
    match d.readVa r core as va 8 forWeft with
    | (.ok v, d) =>
      match d.readWords r core as forWeft (va + 8) k with
      | (.ok ws, d) => (.ok (BitVec.ofNat 64 v :: ws), d)
      | (.error e, d) => (.error e, d)
    | (.fault c s a, d) => (.error (c, s, a), d)
    | (.hold, d) => (.error (0, 0, va), d)

/-- A device write by virtual address at the home slice or the target (a release at its scope: the device keeps no copy). -/
def Dev.writeVa (d : Dev) (r : Regs) (core : Nat) (as : ASpace) (va n v : Nat) : Option Nat × Dev :=
  match d.place r core as va .wr with
  | (.ok w, d) => (none, if w.kind = 3 then d.tgtWr w.pa n v else (d.homeWr w.pa n v).flushPeer (some (lineOf w.pa)))
  | (.fault c, d) => (some c, d)
  | (.hold, d) => (some causePage, d)

/-- Writes a list of 64-bit words; stops at the first fault. -/
def Dev.writeWords (d : Dev) (r : Regs) (core : Nat) (as : ASpace) : Nat → List DWord → Option (Nat × Nat) × Dev
  | _, [] => (none, d)
  | va, w :: ws =>
    match d.writeVa r core as va 8 w.toNat with
    | (none, d) => d.writeWords r core as (va + 8) ws
    | (some c, d) => (some (c, va), d)

/-! ### Invalidation (R294) -/

/-- Whether a translation of (asid, first page, pages) lies in the scope of an invalidation. -/
def Inv.hits (i : Inv) (asid : BitVec 16) (vpn pages : Nat) : Bool :=
  match i.scope with
  | .all => true
  | .asid => asid == i.asid
  | .page =>
    -- the whole contiguous group around the page counts
    let grp := 16 * pages
    asid == i.asid && i.va.toNat / 4096 / grp == vpn / grp

/-- Drops what an invalidation covers: TLBs, walk caches, the lines of the constant caches, which are held by virtual address, and L1 copies
under covered translations; further copies of the address space go with them (R294). -/
def Dev.invalidate (d : Dev) (i : Inv) : Dev :=
  let d := d.modMem fun m =>
    { m with tlb := (m.tlb.map fun p => (p.1, p.2.filter fun e => !i.hits e.asid e.vpn e.pages)).filter fun p => !p.2.isEmpty,
             walkc := m.walkc.filter fun w =>
               match i.scope with
               | .all => false
               | .asid => w.asid != i.asid
               | .page => !(w.asid == i.asid && i.va.toNat / 2 ^ (12 + 9 * (w.level + 1)) == w.pfx),
             ccache := (m.ccache.map fun p => (p.1, p.2.filter fun x => i.scope != .all && x.1 / 2 ^ 57 != i.asid.toNat)).filter fun p =>
               !p.2.isEmpty }
  d.mem.l1.foldl (fun d p =>
    p.2.foldl (fun d l => if i.scope == .all || l.asid == i.asid then d.wbDrop p.1 l.line else d) d) d

end Sys2Proof.Machine
end

