-- ==== Sys2Proof/Machine/Ops.lean ====
section
/-! DEFINITION. The shared operations on wefts: the thread table and its merges (R46 to R50), taking a trap (park, replay
record, user handler) and the returns from one (R262 to R277). -/

namespace Sys2Proof.Machine

/-! ### The thread table -/

def Entry.sameKey (a b : Entry) : Bool :=
  a.depth == b.depth && a.pc == b.pc && a.resume == b.resume && a.aux == b.aux

/-- Whether two entries merge, and into which state (R48). -/
def Entry.joins (a b : Entry) : Option EState :=
  if !a.sameKey b then none
  else if a.state = b.state then some a.state
  else if (a.state = .run && b.state = .yld) || (a.state = .yld && b.state = .run) then some .run
  else none

/-- Writes an entry with the merges of R48; an empty one is free. -/
def insertEntry (es : List Entry) (e : Entry) : List Entry :=
  if e.mask = 0 then es
  else match es with
    | [] => [e]
    | x :: xs =>
      match x.joins e with
      | some s => { x with mask := x.mask ||| e.mask, state := s } :: xs
      | none => x :: insertEntry xs e

def insertAll (es : List Entry) (new : List Entry) : List Entry := new.foldl insertEntry es

/-- Takes lanes out of every entry. -/
def pullLanes (es : List Entry) (m : Lanes) : List Entry :=
  es.filterMap fun e => let k := e.mask &&& ~~~ m; if k = 0 then none else some { e with mask := k }

/-- Sends lanes that stand at a pick boundary in RUN or YLD to the parks named for them (R237, R275). -/
def Weft.settle (w : Weft) : Weft :=
  w.divert.foldl (fun w v =>
    let moved := w.entries.filterMap fun e =>
      if (e.state = .run || e.state = .yld) && e.resume = 0 && e.mask &&& v.lanes != 0 then
        some { e with mask := e.mask &&& v.lanes, state := .park, aux := BitVec.ofNat 32 v.num }
      else none
    let gone := moved.foldl (fun m e => m ||| e.mask) 0
    { w with entries := insertAll (pullLanes w.entries gone) moved,
             divert := (w.divert.map fun x => if x.num = v.num then { x with lanes := x.lanes &&& ~~~ gone } else x).filter
               fun x => x.lanes != 0 }) w

/-- Writes entries, merges them and settles diverted lanes. -/
def Weft.addEntries (w : Weft) (es : List Entry) : Weft := { w with entries := insertAll w.entries es }.settle

/-- Whether `a` is a better head than `b` (R50). -/
def Entry.better (a b : Entry) : Bool :=
  if a.depth ≠ b.depth then decide (b.depth < a.depth)
  else if a.pc ≠ b.pc then decide (a.pc.toNat < b.pc.toNat)
  else decide (b.resume < a.resume)

def bestEntry (es : List Entry) : Option Entry :=
  es.foldl (fun b e => match b with | none => some e | some x => if e.better x then some e else some x) none

/-- The head entry: the best RUN entry, that of the half being served in compatibility mode, and the YLD entries when no
entry is in RUN (R50, R70). -/
def Weft.head? (w : Weft) : Option Entry :=
  let runs := w.entries.filter (·.state = .run)
  let runs := if runs.isEmpty then (w.entries.filter (·.state = .yld)).map fun e => { e with state := .run } else runs
  let runs := insertAll [] runs
  match w.serve with
  | some h =>
    let mine := runs.filter fun e => e.mask &&& w.halfMask h != 0
    bestEntry (if mine.isEmpty then runs else mine)
  | none => bestEntry runs

/-- Every YLD entry back in RUN (R50, R62). -/
def Weft.unyield (w : Weft) : Weft :=
  { w with entries := insertAll [] (w.entries.map fun e => if e.state = .yld then { e with state := .run } else e) }

/-! ### Kernel and words -/

/-- Index of the memory head of a pick: its first race-checked memory instruction (R126). -/
def memHeadFrom : Nat → List DWord → Nat
  | k, [] => k
  | k, w :: ws => match decodeWord w ws.head? with
    | .ok i => if i.raceChecked then k else memHeadFrom (k + 1) ws
    | .error _ => memHeadFrom (k + 1) ws

def memHead (ws : List DWord) : Nat := memHeadFrom 0 ws

/-! ### Replay records (R273, R274) -/

/-- What a replay record says of the weft and the event. -/
structure Report where
  ref : WRef
  ctx : BitVec 16
  asid : BitVec 16
  cause : Nat
  sub : Nat
  lanes : Lanes
  pc : BitVec 32
  resume : Nat
  depth : Nat
  addr : Nat
  aux : Nat
  time : BitVec 64
  deriving Repr

/-- Words +0x00 to +0x28 of a record; SEQ is set when it enters the ring. -/
def Report.words (r : Report) : List DWord :=
  [BitVec.ofNat 64 (r.ctx.toNat * 2 ^ 48 + r.asid.toNat * 2 ^ 32 + r.sub % 65536 * 65536 + r.cause),
   r.lanes,
   BitVec.ofNat 64 (r.pc.toNat * 2 ^ 32 + r.resume % 32 * 2 ^ 27 + r.depth % 32 * 2 ^ 22 + r.ref.shuttle % 4 * 2 ^ 20 +
     r.ref.slot % 16 * 65536),
   BitVec.ofNat 64 (r.addr % 2 ^ 57), BitVec.ofNat 64 r.aux, r.time]

/-- Supervisor area of a core (R271). -/
def Regs.area (r : Regs) (core : Nat) : Nat :=
  ((r.svbase.toNat / 8192 % 2 ^ 44) * 8192 + 8192 * core) % 2 ^ 57

/-- Moves records of the overflow list into the ring while it has room; a record whose write cannot be translated stays
(R273). -/
def drainList (r : Regs) (core : Nat) : Dev → List (List DWord) → Dev × List (List DWord)
  | d, [] => (d, [])
  | d, rec :: rest =>
    let area := r.area core
    let n := (d.core core).nextSeq
    match d.readVa r core d.space0 (area + 8) 8 false with
    | (.ok cons, d) =>
      if 64 ≤ n - cons then (d, rec :: rest)
      else
        match d.writeWords r core d.space0 (area + 0x1000 + 64 * (n % 64)) (rec ++ [BitVec.ofNat 64 n, 0]) with
        | (none, d) =>
          match d.writeVa r core d.space0 area 8 (n + 1) with
          | (none, d) => drainList r core (d.modCore core fun c => { c with nextSeq := n + 1 }) rest
          | (some _, d) => (d, rec :: rest)
        | (some _, d) => (d, rec :: rest)
    | (_, d) => (d, rec :: rest)

def Dev.drain (d : Dev) (r : Regs) (core : Nat) : Dev :=
  let before := (d.core core).overflow
  let (d, left) := drainList r core d before
  let d := d.modCore core fun c => { c with overflow := left }
  -- OVF counts the records that wait
  match d.readVa r core d.space0 (r.area core + 0x10) 8 false with
  | (.ok ovf, d') => if ovf = left.length then d else (d'.writeVa r core d'.space0 (r.area core + 0x10) 8 left.length).2
  | _ => d

/-- Posts a record to the core's replay queue (R273). -/
def Dev.post (d : Dev) (r : Regs) (core : Nat) (words : List DWord) : Dev :=
  (d.modCore core fun c => { c with overflow := c.overflow ++ [words] }).drain r core

/-- An event for queue 1,026: type and two arguments; beyond 256 the oldest is dropped (R306). -/
def Dev.event (d : Dev) (type a b : Nat) : Dev :=
  let w : List DWord := [BitVec.ofNat 64 type, BitVec.ofNat 64 d.host.us, BitVec.ofNat 64 a, BitVec.ofNat 64 b]
  let h := d.host
  let full := decide (256 ≤ h.waiting.length)
  { d with host := { h with waiting := (if full then h.waiting.drop 1 else h.waiting) ++ [w],
                            dropped := if full then h.dropped + 1 else h.dropped } }

/-- Whether a write of a bolt's launch to a page waits until the capture area has the page's contents (R361): the device after it,
with the page named for its copy. -/
def Dev.captureWaits (d : Dev) (bolt va : Nat) : Option Dev :=
  match d.launchOf? bolt with
  | none => none
  | some l =>
    match Tab.find? d.debug l.ctx.toNat with
    | none => none
    | some g =>
      let page := va % 2 ^ 57 / 4096
      if !l.captured || !g.unlocked || g.capStopped || g.pages.contains page then none
      else some { d with debug := Tab.put d.debug l.ctx.toNat { g with due := if g.due.contains page then g.due else g.due ++ [page] } }

/-! ### Traps (R262, R263) -/

/-- Restart points of R7. -/
inductive Back where
  | here | next | skip | head | pidx
  deriving DecidableEq, Repr

/-- One thread's trap at the word being issued. -/
structure Trap where
  lane : Nat
  cause : Nat
  sub : Nat
  addr : Nat
  back : Back
  aux : Nat := 0
  deriving DecidableEq, Repr

/-- Causes that go to the kernel's handler when it has one (R262). -/
def userCause (c : Nat) : Bool := [0x03, 0x04, 0x05, 0x06, 0x08, 0x09, 0x0A, 0x12, 0x14, 0x18, 0x19, 0x1B].contains c

def trapsAt (ls : List Nat) (cause sub addr : Nat) (back : Back) : List Trap :=
  ls.map fun l => { lane := l, cause := cause, sub := sub, addr := addr, back := back }

/-- Where a pick in progress stands: the place of its weft and pick, as a trap and its restart need them. -/
structure Site where
  ref : WRef
  pc : BitVec 32
  depth : Nat
  words : List DWord
  idx : Nat
  head : Nat
  len : Nat
  handler : Bool
  deriving Repr

def Ctx.site (c : Ctx) (len : Nat) : Site :=
  { ref := c.run.ref, pc := c.run.pc, depth := c.run.depth, words := c.run.words, idx := c.run.idx, head := memHead c.run.words, len := len,
    handler := c.run.handler }

/-- Byte offset of the trapping word. -/
def Site.word (s : Site) : BitVec 32 := s.pc + 8 + BitVec.ofNat 32 (8 * s.idx)

/-- Key to which a lane returns (R269). -/
def Site.restart (s : Site) (t : Trap) : Restart :=
  let key (pc : BitVec 32) (k : Nat) : Restart := { lane := t.lane, depth := s.depth, pc := pc, resume := k }
  match t.back with
  | .here | .skip | .pidx => key s.pc s.idx
  | .head => key s.pc s.head
  | .next =>
    if s.idx + s.len ≥ s.words.length then key (s.pc + 8 + BitVec.ofNat 32 (8 * s.words.length)) 0
    else key s.pc (s.idx + s.len)

/-- Parks lanes of weft `ref` at a key under a fresh park number, with a record posted (R263, R264, R274). -/
def Dev.parkWith (d : Dev) (r : Regs) (ref : WRef) (handler : Bool) (back : Restart) (lanes : Lanes) (cause sub addr aux : Nat)
    (time : BitVec 64) : Dev :=
  match d.weft? ref with
  | none => d
  | some w =>
    let n := w.nextPark
    let p : Park := { num := n, posted := true, cause := BitVec.ofNat 16 cause, sub := BitVec.ofNat 16 sub, lanes := lanes,
                      addr := BitVec.ofNat 57 addr, aux := BitVec.ofNat 64 aux, token := none, handle := none }
    let e : Entry := { depth := back.depth, pc := back.pc, resume := back.resume, mask := lanes, state := .park,
                       aux := BitVec.ofNat 32 n }
    let w := { w with nextPark := n + 1, parks := w.parks ++ [p] }
    let w := if handler then { w with handler := w.handler.map fun (h : Handler) => { h with entry := e } } else w.addEntries [e]
    let rep : Report := { ref := ref, ctx := w.ctx, asid := w.asid, cause := cause, sub := sub, lanes := lanes, pc := back.pc,
                          resume := back.resume, depth := back.depth, addr := addr, aux := aux, time := time }
    (d.putW ref w).post r ref.core rep.words

/-- Distinct (cause, subcode, restart pc, restart index) among traps, in the order met. -/
def groupTraps (s : Site) : List Trap → List (Nat × Nat × BitVec 32 × Nat)
  | [] => []
  | t :: ts =>
    let b := s.restart t
    let k := (t.cause, t.sub, b.pc, b.resume)
    let rest := groupTraps s ts
    if rest.contains k then k :: rest.filter (· != k) else k :: rest

/-- TAKING A TRAP (R222, R262, R263, R265, R266, R272). Threads whose cause goes to the supervisor park, one record for each pair of
cause and subcode; those whose cause goes to the kernel's handler are returned, to be delivered when the pick has ended, and so is a RACE
of a kernel without one, which follows the records of every racing thread of the pick; a trap of the supervisor weft freezes it. -/
def Dev.takeTraps (d : Dev) (r : Regs) (s : Site) (time : BitVec 64) (ts : List Trap) : Dev × List LaneTrap :=
  match d.weft? s.ref with
  | none => (d, [])
  | some w =>
    if ts.isEmpty then (d, [])
    else if w.sup then
      -- R272: the supervisor weft freezes, an event is posted and the core admits no bolt
      let mask := maskOf (ts.map (·.lane))
      let e : Entry := { depth := s.depth, pc := s.pc, resume := s.idx, mask := mask, state := .park, aux := 0 }
      let d := d.putW s.ref { w with entries := insertAll w.entries [e], stopped := true }
      let d := d.modCore s.ref.core fun c => { c with frozen := true }
      (d.event 1 s.ref.core 0, [])
    else
      let toUser (t : Trap) : Bool := userCause t.cause && (w.hdr.handler != 0 || t.cause == 0x12) && !s.handler
      let up := ts.filter toUser
      let down := ts.filter fun t => !toUser t
      let skips := maskOf ((down.filter (·.back = .skip)).map (·.lane))
      let d := d.modW s.ref fun w => { w with skip := w.skip ||| skips }
      let d := (groupTraps s down).foldl (fun d k =>
        let mine := down.filter fun t => let b := s.restart t; (t.cause, t.sub, b.pc, b.resume) == k
        match mine with
        | t :: _ =>
          d.parkWith r s.ref s.handler (s.restart t) (maskOf (mine.map (·.lane))) t.cause t.sub t.addr t.aux time
        | [] => d) d
      (d, up.map fun t =>
        { lane := t.lane, cause := BitVec.ofNat 16 t.cause, sub := BitVec.ofNat 16 t.sub, addr := BitVec.ofNat 57 t.addr,
          word := s.word, back := s.restart t, here := s.restart { t with back := .here } })

/-! ### The user handler (R263, R265, R268) -/

/-- The pending trap of the lowest lane. -/
def lowestTrap (ts : List LaneTrap) : Option LaneTrap :=
  ts.foldl (fun b t => match b with | none => some t | some x => if t.lane < x.lane then some t else some x) none

/-- The entry of one lane that returns to RUN. -/
def Restart.entry (b : Restart) : Entry :=
  { depth := b.depth, pc := b.pc, resume := b.resume, mask := oneLane b.lane, state := .run, aux := 0 }

/-- Delivers the pending user traps of a weft whose pick has ended: the lowest lane is elected and runs alone at HANDLER,
$trapmask holds the lanes of its cause, and the others return to RUN at the trapping word. -/
def Weft.deliver (w : Weft) : Weft :=
  match lowestTrap w.trapPend with
  | none => w
  | some t =>
    let same : List LaneTrap := w.trapPend.filter fun x => x.cause == t.cause
    let rest : List LaneTrap := w.trapPend.filter fun x => x.cause != t.cause
    let skips := if t.cause == 0x18 then maskOf (same.map fun x => x.lane) else 0
    let hand : Entry := { depth := t.back.depth, pc := w.hdr.handler, resume := 0, mask := oneLane t.lane, state := .run, aux := 0 }
    let w : Weft :=
      { w with
        trapPend := [], trapcause := t.sub ++ t.cause, trappc := t.word, trapmask := maskOf (same.map fun x => x.lane),
        trapaddr := t.addr, skip := w.skip ||| skips, fetch := none,
        handler := some { lane := t.lane, entry := hand, restarts := same.map fun x => x.back } }
    w.addEntries (rest.map fun x => x.here.entry)

/-- RETURN FROM A HANDLER: each lane of $trapmask returns to RUN at its restart point (R268). -/
def Weft.endHandler (w : Weft) : Weft :=
  match w.handler with
  | none => w
  | some h =>
    ({ w with handler := none, fetch := none } : Weft).addEntries (h.restarts.map Restart.entry)

/-! ### Parks and their end (R275, R277) -/

/-- Lanes in PARK. -/
def Weft.parked (w : Weft) : Lanes :=
  (w.entries.filter (·.state = .park)).foldl (fun m e => m ||| e.mask) 0 |||
    (match w.handler with | some h => if h.entry.state = .park then h.entry.mask else 0 | none => 0)

/-- Drops parks under which no lane stands or is to be parked. -/
def Weft.cleanParks (w : Weft) : Weft :=
  let used (n : Nat) : Bool :=
    w.entries.any (fun e => e.state == .park && e.aux == BitVec.ofNat 32 n) || w.divert.any (fun v => v.num == n) ||
      (match w.handler with | some h => h.entry.state == .park && h.entry.aux == BitVec.ofNat 32 n | none => false)
  { w with parks := w.parks.filter fun p => used p.num }

/-- RETURN OF PARKED LANES: each parked lane of the mask goes to RUN at the restart point recorded for it; a lane that is still to be
parked is unaffected (R275, R464). -/
def Weft.resumeLanes (w : Weft) (mask : Lanes) : Weft :=
  let out := w.entries.filterMap fun e =>
    if e.state = .park && e.mask &&& mask != 0 then some { e with mask := e.mask &&& mask, state := .run, aux := 0 } else none
  let gone := out.foldl (fun m e => m ||| e.mask) 0
  -- a parked lane with a signal pending is diverted here, in the middle of its pick if need be (R277)
  let now := maskOf (((out.filter (·.resume != 0)).flatMap fun e => lanesOf e.mask).filter fun l => (Tab.find? w.signals l).isSome)
  let w : Weft := { w with entries := pullLanes w.entries gone, sigNow := w.sigNow ||| now }
  let w : Weft := { w with handler := w.handler.map fun (h : Handler) =>
    if h.entry.state = .park && h.entry.mask &&& mask != 0 then { h with entry := { h.entry with state := .run, aux := 0 } }
    else h }
  (w.addEntries out).cleanParks

/-- Threads that have not ended, apart from those of a pick in progress. -/
def Weft.alive (w : Weft) : Lanes :=
  w.live ||| ((w.ending.map (·.act)).getD 0) ||| maskOf (w.trapPend.map (·.lane)) |||
    ((w.handler.map fun (h : Handler) => maskOf (h.restarts.map (·.lane))).getD 0)

/-- Sends the handler thread, at its pick boundary, to the park that PARK or an engine named for its lane (R237, R275). -/
def Weft.settleHandler (w : Weft) : Weft :=
  match w.handler with
  | none => w
  | some h =>
    if h.entry.state ≠ .run || h.entry.resume ≠ 0 then w
    else match w.divert.find? (·.lanes.getLsbD h.lane) with
      | none => w
      | some v =>
        { w with handler := some { h with entry := { h.entry with state := .park, aux := BitVec.ofNat 32 v.num } },
                 divert := (w.divert.map fun x => if x.num = v.num then { x with lanes := x.lanes &&& ~~~ oneLane h.lane } else x).filter
                   fun x => x.lanes != 0 }

/-- The pick in progress of a weft. -/
def Dev.runOf? (d : Dev) (r : WRef) (handler : Bool) : Option (Nat × PickRun) :=
  (List.range 4).foldl (fun x j => match x with
    | some y => some y
    | none => match (d.sh (r.core * 4 + j)).run with
      | some k => if k.ref == r && k.handler == handler then some (r.core * 4 + j, k) else none
      | none => none) none

/-- Parks every thread of a weft at its next pick boundary under one record, as an engine park does (R237): a thread that runs a user handler
at the boundary of its own picks. -/
def Dev.enginePark (d : Dev) (r : Regs) (ref : WRef) (cause sub addr aux : Nat) (handle : Option Nat) (time : BitVec 64)
    (running : Lanes) : Dev :=
  match d.weft? ref with
  | none => d
  | some w =>
    let n := w.nextPark
    let lanes := w.alive ||| running
    let p : Park := { num := n, posted := true, cause := BitVec.ofNat 16 cause, sub := BitVec.ofNat 16 sub, lanes := lanes,
                      addr := BitVec.ofNat 57 addr, aux := BitVec.ofNat 64 aux, token := none, handle := handle }
    let e := ((bestEntry w.entries)).getD { depth := 0, pc := 0, resume := 0, mask := 0, state := .run, aux := 0 }
    let w : Weft := { w with nextPark := n + 1, parks := w.parks ++ [p], divert := w.divert ++ [{ lanes := lanes, num := n }] }
    let w := if (d.runOf? ref true).isSome then w.settle else w.settle.settleHandler
    let rep : Report := { ref := ref, ctx := w.ctx, asid := w.asid, cause := cause, sub := sub, lanes := lanes, pc := e.pc,
                          resume := e.resume, depth := e.depth, addr := addr, aux := aux, time := time }
    (d.putW ref w).post r ref.core rep.words

/-- Threads leave the table (R47, R396): their pending signals and skip bits go with them (R49). -/
def Weft.exitLanes (w : Weft) (m : Lanes) : Weft :=
  { w with entries := pullLanes w.entries m, skip := w.skip &&& ~~~ m, sigNow := w.sigNow &&& ~~~ m, trapFor := w.trapFor &&& ~~~ m,
           signals := w.signals.filter fun p => !m.getLsbD p.1,
           divert := (w.divert.map fun v => { v with lanes := v.lanes &&& ~~~ m }).filter (·.lanes != 0) }

/-- The cycle count of a weft's shuttle; for a supervisor weft, that of shuttle 0 of its core. -/
def Dev.clockOf (d : Dev) (ref : WRef) : BitVec 64 := (d.sh (ref.core * 4 + ref.shuttle)).clock

end Sys2Proof.Machine
end

