-- ==== Sys2Proof/Machine/Race.lean ====
section
/-! DEFINITION. Data races (spec/09): home slices and their sync sidecars with the release marks (R166, R188, R189, R213), line and
scratch metadata (R207 to R209), clocks and frontiers (R210 to R212), the check (R214, R215, R217) and the race ring (R221 to
R223). -/

namespace Sys2Proof.Machine

/-! ### Home slices (R166, R171) -/

def fold7 (x : Nat) : Nat := (List.range 7).foldl (fun r k => r ^^^ (x / 2 ^ (7 * k) % (if k = 6 then 16 else 128))) 0

/-- The location that a mark of a counter names, past every line of the four targets (R188, R195). -/
def ctrMark (id : Nat) : Nat := 2 ^ 80 + id

/-- Where a chip-scratch line stands in its home slice, and a line of the context partition in its slice: the slice, the set and the way
(R171). -/
structure SlicePlace where
  slice : Nat
  set : Nat
  way : Nat
  deriving DecidableEq, Repr

def chipPlace (off : Nat) : SlicePlace :=
  let j := off / 64 / 384
  { slice := off / 64 % 384, set := j % 1024, way := 15 - j / 1024 }

def ctxPlace (off : Nat) : SlicePlace :=
  let j := off / 64 / 384
  { slice := off / 64 % 384, set := j % 1024, way := j / 1024 }

/-- Home slice of a line, chip scratch line by line in rotation; counters live in slice (id mod 384) (R213). -/
def sliceOf (line : Nat) : Nat :=
  if 2 ^ 80 ≤ line then (line - 2 ^ 80) % 384
  else if line / 2 ^ 58 = 3 then (chipPlace (line % 2 ^ 58 * 64)).slice
  else let x := line % 2 ^ 46; 128 * (x % 3) + fold7 x

def SideKey.slice : SideKey → Nat
  | .line l => sliceOf l
  | .counter id => id % 384
  | .scr _ _ => 0

/-! ### The sync sidecars (R188, R189, R213) -/

def Mem.tick (m : Mem) : Nat × Mem := (m.stamp, { m with stamp := m.stamp + 1 })

/-- Entries and marks that a slice's sidecar holds, by their stamps. That the mark and the entry of one line take two of its 2,048 places, and
that an acquire or a write alone counts as a use, is a DESIGN CHOICE (notes/assumptions/67.md). -/
def Mem.stampsIn (m : Mem) (slice : Nat) : List Nat :=
  ((m.marks.filter fun k => sliceOf k.line == slice).map (·.stamp)) ++
    ((m.sidecar.filter fun e => e.key.slice == slice).map (·.stamp))

/-- Makes room for one entry in a slice's sidecar: the least recently used goes, and a mark is promoted first (R189). -/
def Dev.makeRoom (d : Dev) (slice : Nat) : Dev :=
  let st := d.mem.stampsIn slice
  if st.length < 2048 then d
  else match st.min? with
    | none => d
    | some t =>
      match d.mem.marks.find? (·.stamp == t) with
      | some k => d.promote k.line
      | none => d.modMem fun m => { m with sidecar := m.sidecar.filter (·.stamp != t) }

/-- Marks a line as released by a pair at .bolt or .pair scope (R188). -/
def Dev.markLine (d : Dev) (line pair : Nat) : Dev :=
  let d := (d.modMem fun m => { m with marks := m.marks.filter (·.line != line) }).makeRoom (sliceOf line)
  let (t, m) := d.mem.tick
  { d with mem := { m with marks := { line := line, pair := pair, stamp := t } :: m.marks } }

def SideKey.inCore : SideKey → Bool
  | .scr _ _ => true
  | _ => false

/-- The core whose scratch holds the line of a key: in a bolt that spans its pair, the even core has the lower half of the offsets of its own
view (R28, R213). -/
def Dev.sideCore (d : Dev) (core : Nat) : SideKey → Nat
  | .scr b l => match d.launchOf? b with
    | some x => if 1024 < x.hdr.threads then 2 * pairOf core + (if l * 64 < x.hdr.scratch / 2 then 0 else 1) else core
    | none => core
  | _ => core

/-- The sidecar entry of a key; scratch entries live with the core (R213). -/
def Dev.side? (d : Dev) (core : Nat) (k : SideKey) : Option Side :=
  let core := d.sideCore core k
  if k.inCore then (d.core core).sside.find? (·.key == k) else d.mem.sidecar.find? (·.key == k)

/-- A use of an entry, for its replacement. -/
def Dev.touchSide (d : Dev) (core : Nat) (k : SideKey) : Dev :=
  let core := d.sideCore core k
  let (t, m) := d.mem.tick
  let upd (l : List Side) : List Side := l.map fun e => if e.key = k then { e with stamp := t } else e
  if k.inCore then ({ d with mem := m } : Dev).modCore core fun c => { c with sside := upd c.sside }
  else { d with mem := { m with sidecar := upd m.sidecar } }

/-- Adds an entry to a core's scratch sidecar of 256, the least recently used giving way. -/
def putScratchSide (l : List Side) (e : Side) : List Side :=
  let l := l.filter (·.key != e.key)
  let l := if l.length < 256 then l
    else match (l.map (·.stamp)).min? with
      | some t => l.filter (·.stamp != t)
      | none => l
  e :: l

def Dev.putSide (d : Dev) (core : Nat) (e : Side) : Dev :=
  let core := d.sideCore core e.key
  if e.key.inCore then
    let (t, m) := d.mem.tick
    ({ d with mem := m } : Dev).modCore core fun c => { c with sside := putScratchSide c.sside { e with stamp := t } }
  else
    let d := (d.modMem fun m => { m with sidecar := m.sidecar.filter (·.key != e.key) }).makeRoom e.key.slice
    let (t, m) := d.mem.tick
    { d with mem := { m with sidecar := { e with stamp := t } :: m.sidecar } }

/-! ### Metadata (R202, R207, R208) -/

/-- A writer's record (R207). -/
structure Rec where
  ktag : Nat
  wser : Nat
  lane : Nat
  clk : Nat
  epoch : Nat
  flags : Nat
  deriving DecidableEq, Repr

def Rec.ofWord (w : Nat) : Rec :=
  { ktag := nfld w 56 8, wser := nfld w 36 20, lane := nfld w 30 6, clk := nfld w 14 16, epoch := nfld w 2 12, flags := nfld w 0 2 }

def Rec.word (r : Rec) : Nat :=
  r.ktag % 256 * 2 ^ 56 + r.wser % 2 ^ 20 * 2 ^ 36 + r.lane % 64 * 2 ^ 30 + r.clk % 2 ^ 16 * 2 ^ 14 + r.epoch % 4096 * 4 + r.flags % 4

/-- Whether a line's frame is tracked: chip scratch, or HBM inside the race window (R202). -/
def Regs.tracked (r : Regs) (line : Nat) : Bool :=
  line / 2 ^ 58 == 3 || (line / 2 ^ 58 == 0 && r.inWindow (line * 64))

/-- Where the metadata of an HBM line stands in the carve-out (R204). -/
def Regs.metaAt (r : Regs) (line : Nat) : Nat := pkey 0 (r.cbase + (line * 64 - r.wbase) / 8)

/-- A line's metadata: that held with the line, else that spilled to the carve-out; chip scratch has no spill (R207). -/
def Dev.rmetaOf (d : Dev) (r : Regs) (line : Nat) : Nat :=
  match Tab.find? d.mem.rmeta line with
  | some w => w.toNat
  | none => if line / 2 ^ 58 = 0 && r.inWindow (line * 64) then d.homeRd (r.metaAt line) 8 else 0

def Dev.setRmeta (d : Dev) (line w : Nat) : Dev :=
  d.modMem fun m => { m with rmeta := Tab.put m.rmeta line (BitVec.ofNat 64 w) }

def emptyCode : BitVec 32 := 0xFFF80000
def sideCode : BitVec 32 := 0xFFF00000

def Bolt.smetaOf (b : Bolt) (line : Nat) : BitVec 32 := Cells.getD emptyCode b.smeta line
def Bolt.setSmeta (b : Bolt) (line : Nat) (v : BitVec 32) : Bolt := { b with smeta := Cells.setD emptyCode b.smeta line v }

/-! ### Identities (R206, R209, R224) -/

/-- Wefts of a bolt (R22). -/
def KHdr.nwefts (h : KHdr) : Nat := (h.threads + h.w - 1) / h.w

/-- Whether a bolt is the copy that performs: the only one, or the twin of the lowest copy number, which is that on the
lowest-numbered pair at placement and at every settlement (R344, R347). -/
def Dev.isPrimary (d : Dev) (b : Bolt) : Bool :=
  d.bolts.all fun x => !(x.serial == b.serial && x.idx == b.idx && x.id != b.id) || decide (b.copy < x.copy)

/-- The identity with which a lane of a weft is checked; mode 3 stands for a twin's secondary copy, which neither checks nor
records. -/
def Dev.raceIdOf (d : Dev) (w : Weft) (lane : Nat) : RaceId :=
  let b := d.bolt? w.bolt
  let idx := (b.map (·.idx)).getD 0
  let n := w.hdr.nwefts
  let first := match b with | some b => d.isPrimary b | none => true
  { mode := if w.sup then 0 else if w.hdr.race = 0 then 0 else if first then w.hdr.race else 3,
    ewrap := w.hdr.ewrap, ktag := ((d.launchOf? w.bolt).map (·.ktag)).getD 0,
    wser := BitVec.ofNat 20 (idx * n + w.widx), serbase := idx * n % 2 ^ 20, nwefts := n, lane := lane, clk := w.rclk,
    epoch := (b.map (·.epoch)).getD 0, frontier := w.frontier.filterMap id, hbsat := w.hbsat }

def RaceId.on (t : RaceId) : Bool := t.mode == 1 || t.mode == 2
def RaceId.traps (t : RaceId) : Bool := t.mode == 1

def Dev.tagLive (d : Dev) (k : Nat) : Bool := d.disp.tags.live.contains k

/-! ### The check (R214, R215, R217) -/

def sameBolt (m : Rec) (t : RaceId) : Bool :=
  m.ktag == t.ktag.toNat && decide ((m.wser + 2 ^ 20 - t.serbase) % 2 ^ 20 < t.nwefts)

/-- Epochs compare modulo 4,096, or modulo 256 for a scratch line's own record. -/
def sameEpoch (short : Bool) (m : Rec) (t : RaceId) : Bool :=
  let n := if short then 256 else 4096
  m.epoch % n == t.epoch % n

def frontOrders (short : Bool) (h : Front) (m : Rec) : Bool :=
  if short then let x := (h.clk.toNat + 2 ^ 16 - m.clk % 2048) % 2048; decide (1 ≤ x) && decide (x ≤ 1023)
  else decide (m.clk < h.clk.toNat)

def frontFor (t : RaceId) (m : Rec) : List Front :=
  t.frontier.filter fun h => h.ktag.toNat == m.ktag && h.wser.toNat == m.wser

def ordered (short : Bool) (live : Nat → Bool) (t : RaceId) (m : Rec) : Bool :=
  m.ktag == 0 ||
  (m.ktag == t.ktag.toNat && m.wser == t.wser.toNat) ||
  !live m.ktag ||
  (sameBolt m t && ((t.ewrap && decide ((if short then 256 else 4096) ≤ t.epoch)) || !sameEpoch short m t)) ||
  (frontFor t m).any (fun h => frontOrders short h m) ||
  t.hbsat ||
  (!short && m.clk == 65535)

/-- Two synchronising or atomic accesses never race (R180). -/
def races (short : Bool) (live : Nat → Bool) (t : RaceId) (sync : Bool) (m : Rec) : Bool :=
  !ordered short live t m && !(sync && m.flags != 0)

/-- A race met: the writer's record as the race record shows it, and what the record says of the comparison (R223). -/
structure Hit where
  wrec : Nat
  wrap : Bool
  sameEp : Bool
  stale : Bool
  noEnt : Bool
  deriving DecidableEq, Repr

/-- `wrote` is the full epoch count of the write, where the model has it: the epochs compared equal by wrap when it is another. -/
def hitOf (short : Bool) (t : RaceId) (m : Rec) (wrec : Nat) (wrote : Option Nat) : Hit :=
  let same := sameBolt m t && sameEpoch short m t
  { wrec := wrec, wrap := same && (match wrote with | some e => e != t.epoch | none => false), sameEp := same,
    stale := !(frontFor t m).isEmpty, noEnt := (frontFor t m).isEmpty }

/-- The check of a global line. -/
def Dev.checkLine (d : Dev) (r : Regs) (t : RaceId) (sync : Bool) (line : Nat) : Option Hit :=
  let w := d.rmetaOf r line
  let m := Rec.ofWord w
  if races false d.tagLive t sync m then some (hitOf false t m w (Tab.find? d.mem.wepoch line)) else none

/-- The record that governs a scratch line: its own 32 bits, or its sidecar entry in full; none when it has no writer. An entry is compared by
the clock with which its release wrote, which R210 gives the write, and not by the clock after the increase that R213 keeps beside it: a
DESIGN CHOICE (notes/assumptions/67.md). -/
def Dev.scratchRec (d : Dev) (core : Nat) (b : Bolt) (t : RaceId) (line : Nat) : Option (Bool × Rec × Nat) :=
  let c := b.smetaOf line
  if c = emptyCode then none
  else if c = sideCode then
    (d.side? core (.scr b.id line)).map fun e =>
      let m : Rec := { ktag := e.ent.ktag.toNat, wser := e.ent.wser.toNat, lane := e.lane, clk := e.clk.toNat, epoch := e.epoch,
                       flags := e.flags.toNat }
      (false, m, m.word)
  else
    let n := c.toNat
    some (true, { ktag := t.ktag.toNat, wser := (t.serbase + nfld n 25 7) % 2 ^ 20, lane := nfld n 19 6, clk := nfld n 8 11,
                  epoch := nfld n 0 8, flags := 0 }, n)

def Dev.checkScratch (d : Dev) (core : Nat) (b : Bolt) (t : RaceId) (sync : Bool) (line : Nat) : Option Hit :=
  match d.scratchRec core b t line with
  | none => none
  | some (short, m, w) => if races short d.tagLive t sync m then some (hitOf short t m w (if short then Tab.find? b.wepoch line else some m.epoch)) else none

/-! ### Records of writes (R202, R209) -/

/-- A write to a global line: the writer's record on a tracked line reached with RT set, "no writer" when the writer's kernel has
race mode off or has none. -/
def Dev.noteWrite (d : Dev) (r : Regs) (t : Option RaceId) (rt : Bool) (line flags : Nat) : Dev :=
  if !r.tracked line then d
  else match t with
    | some t =>
      if t.on then
        if rt then
          (d.setRmeta line (Rec.word { ktag := t.ktag.toNat, wser := t.wser.toNat, lane := t.lane, clk := t.clk.toNat, epoch := t.epoch,
                                       flags := flags })).modMem fun m => { m with wepoch := Tab.put m.wepoch line t.epoch }
        else d
      else if t.mode = 3 then d
      else if d.rmetaOf r line = 0 then d else d.setRmeta line 0
    | none => if d.rmetaOf r line = 0 then d else d.setRmeta line 0

/-- A write to a scratch line; `sync` for atomics and releases, whose record is the sidecar's. A weft whose clock is stuck leaves the empty
code (R209). -/
def Dev.noteScratch (d : Dev) (bolt : Nat) (widx : Nat) (t : RaceId) (line : Nat) (sync : Bool) : Dev :=
  if !t.on then d
  else d.modBolt bolt fun b =>
    { b with wepoch := Tab.put b.wepoch line t.epoch }.setSmeta line
      (if t.clk = 65535 then emptyCode
       else if sync then sideCode
       else BitVec.ofNat 32 (widx % 128 * 2 ^ 25 + t.lane % 64 * 2 ^ 19 + t.clk.toNat % 2048 * 256 + t.epoch % 256))

/-! ### Clocks and frontiers (R210, R212, R213) -/

/-- What an acquire at .sys by the dispatcher merges into a launch: the entry and frontier of a release at .dev or .sys. -/
def Dev.sideFronts (d : Dev) (k : SideKey) (flags : Option Nat) : List Front × Bool :=
  match d.side? 0 k with
    | none => ([], flags.any (2 ≤ ·))
    | some e => if e.scope = .dev || e.scope = .sys then (e.ent :: e.frontier, e.hbsat) else ([], false)

/-- The release clock after a release: it stays at 65,535. -/
def Weft.bumpClk (w : Weft) : Weft := if w.rclk = 65535 then w else { w with rclk := w.rclk + 1 }

/-- Puts an entry in the first free slot of eight. -/
def putFront (live : Nat → Bool) : Nat → List (Option Front) → Front → Option (List (Option Front))
  | 0, _, _ => none
  | _ + 1, [], e => some [some e]
  | _ + 1, none :: l, e => some (some e :: l)
  | n + 1, some x :: l, e =>
    if live x.ktag.toNat then (putFront live n l e).map (some x :: ·) else some (some e :: l)

/-- Merging an entry into a weft's frontier. -/
def Weft.merge (w : Weft) (live : Nat → Bool) (e : Front) : Weft :=
  let same (x : Option Front) : Bool := match x with | some x => x.ktag == e.ktag && x.wser == e.wser | none => false
  if w.frontier.any same then
    { w with frontier := w.frontier.map fun x => if same x then x.map fun x => { x with clk := if x.clk < e.clk then e.clk else x.clk } else x }
  else match putFront live 8 w.frontier e with
    | some l => { w with frontier := l }
    | none => { w with hbsat := true }

def Weft.mergeAll (w : Weft) (live : Nat → Bool) (l : List Front) (sat : Bool) : Weft :=
  let w := l.foldl (fun w e => w.merge live e) w
  if sat then { w with hbsat := true } else w

/-- Whether a release that an entry records covers the acquirer, and the acquirer's scope the releaser (R174, R179). -/
def Side.covers (e : Side) (t : RaceId) (pair bolt : Nat) (scope : Scope) : Bool :=
  let one (s : Scope) : Bool :=
    match s with
    | .weft => e.ent.ktag == t.ktag && e.ent.wser == t.wser
    | .bolt => e.bolt == bolt
    | .pair => e.pair == pair
    | .dev | .sys => true
  one e.scope && one scope

/-- The race side of an acquire by a weft of a key whose last write carries `flags` (none where the line keeps no record): it merges
the entry's clock and frontier when it synchronises with its release, by their scopes or, with `promoted`, by having promoted the release of
another pair, or saturates when the last write was a release whose entry is gone (R213). -/
def Dev.sideWeft (d : Dev) (core : Nat) (w : Weft) (k : SideKey) (flags : Option Nat) (scope : Scope) (promoted : Bool) : Weft × Dev :=
  let t := d.raceIdOf w 0
  if !t.on then (w, d)
  else
    match d.side? core k with
      | none => if flags.any (2 ≤ ·) then ({ w with hbsat := true }, d) else (w, d)
      | some e =>
        let d := d.touchSide core k
        if (promoted && e.pair != pairOf core) || e.covers t (pairOf core) w.bolt scope then
          ((w.merge d.tagLive e.ent).mergeAll d.tagLive e.frontier e.hbsat, d)
        else (w, d)

def Dev.acquireSide (d : Dev) (ref : WRef) (k : SideKey) (flags : Option Nat) (scope : Scope) (promoted : Bool) : Dev :=
  match d.weft? ref with
  | none => d
  | some w => let (w, d) := d.sideWeft ref.core w k flags scope promoted; d.putW ref w

/-- The race side of a release write by a lane: the entry it publishes carries the clock after the increase. -/
def Dev.releaseSide (d : Dev) (ref : WRef) (lane : Nat) (k : SideKey) (scope : Scope) (flags : Nat) : Dev :=
  match d.weft? ref with
  | none => d
  | some w =>
    let t := d.raceIdOf w lane
    if !t.on then d
    else
      d.putSide ref.core
        { key := k, stamp := 0, ent := { ktag := t.ktag, wser := t.wser, clk := w.bumpClk.rclk }, lane := lane, clk := t.clk,
          epoch := t.epoch, flags := BitVec.ofNat 2 flags, scope := scope, pair := pairOf ref.core, bolt := w.bolt,
          frontier := t.frontier, hbsat := t.hbsat }

/-- The flags an atomic leaves on its line or counter: 11 for a release, 11 where it leaves an entry whole, else 01 (R207, R213). -/
def Dev.atomFlags (d : Dev) (core : Nat) (k : SideKey) (rel : Bool) : Nat :=
  if rel || (d.side? core k).isSome then 3 else 1

/-! ### The race ring (R221, R223) -/

/-- A racing access as its record names it. -/
structure RaceAt where
  ref : WRef
  scr : Bool
  addr : Nat
  kind : Nat
  size : Nat
  writes : Bool
  word : BitVec 32
  pc : BitVec 32
  resume : Nat
  depth : Nat
  report : Bool
  deriving Repr

def raceWords (a : RaceAt) (t : RaceId) (w : Weft) (bidx time : Nat) (h : Hit) : List Nat :=
  let b (x : Bool) (k : Nat) : Nat := if x then 2 ^ k else 0
  [b a.scr 63 + a.addr % 2 ^ 57,
   t.ktag.toNat * 2 ^ 56 + t.wser.toNat * 2 ^ 36 + t.lane % 64 * 2 ^ 30 + t.epoch % 4096 * 2 ^ 18 + t.clk.toNat,
   h.wrec,
   a.word.toNat * 2 ^ 32 + a.ref.core % 1024 * 2 ^ 22 + a.ref.shuttle % 4 * 2 ^ 20 + a.size % 16 * 16 + a.kind % 16,
   w.asid.toNat * 2 ^ 48 + w.ctx.toNat * 2 ^ 32 + b a.report 8 + b h.wrap 4 + b a.writes 3 + b h.sameEp 2 + b h.stale 1 + b h.noEnt 0,
   time, bidx % 2 ^ 40]

/-- A replay record for a fault on a race-ring write: it parks no lane (R221). -/
def Dev.ringFault (d : Dev) (r : Regs) (a : RaceAt) (w : Weft) (cause addr i : Nat) : Dev :=
  let rep : Report :=
    { ref := a.ref, ctx := w.ctx, asid := w.asid, cause := cause, sub := 4, lanes := 0, pc := a.pc, resume := a.resume, depth := a.depth,
      addr := addr, aux := i, time := d.clockOf a.ref }
  d.post r a.ref.core rep.words

/-- Writes one race record; answers its index, and whether it was dropped. -/
def Dev.raceRecord (d : Dev) (r : Regs) (a : RaceAt) (t : RaceId) (h : Hit) : Dev × Nat × Bool :=
  match d.weft? a.ref with
  | none => (d, 0, true)
  | some w =>
    let base := (w.crec.getD 2 0).toNat % 2 ^ 57
    if base = 0 then (d, 0, true)
    else
      let core := a.ref.core
      match d.readWords r core w.space false base 4 with
      | (.error (c, _, va), d) => (d.ringFault r a w c va 0, 0, true)
      | (.ok hdr, d) =>
        let prod := (hdr.getD 0 0).toNat
        let cons := (hdr.getD 1 0).toNat
        let drops := (hdr.getD 2 0).toNat
        let logn := (hdr.getD 3 0).toNat % 32
        let drop (d : Dev) : Dev :=
          match d.writeVa r core w.space (base + 16) 8 (drops + 1) with
          | (none, d) => d
          | (some c, d) => d.ringFault r a w c (base + 16) prod
        if logn < 4 || 20 < logn || (prod + 2 ^ 64 - cons) % 2 ^ 64 = 2 ^ logn then (drop d, prod, true)
        else
          let bidx := ((d.bolt? w.bolt).map (·.idx)).getD 0
          let ws := (raceWords a t w bidx (d.clockOf a.ref).toNat h ++ [prod % 2 ^ 32]).map (BitVec.ofNat 64)
          match d.writeWords r core w.space (base + 64 + 64 * (prod % 2 ^ logn)) ws with
          | (some (c, va), d) => ((drop d).ringFault r a w c va prod, prod, true)
          | (none, d) =>
            match d.writeVa r core w.space base 8 (prod + 1) with
            | (none, d) => (d, prod, false)
            | (some c, d) => (d.ringFault r a w c base prod, prod, true)

/-- Subcode of a RACE trap (R222), as bits [31:16] of $trapcause. -/
def raceSub (i : Nat) (dropped : Bool) : Nat := (if dropped then 2 ^ 15 else 0) + i % 2 ^ 15

end Sys2Proof.Machine
end

