-- ==== Sys2Proof/Machine/Sync.lean ====
section
/-! DEFINITION. Event counters with their triggers and waits (R307 to R311), and bolt barriers (R211, R379, R380). -/

namespace Sys2Proof.Machine

/-! ### Event counters -/

def Dev.counter (d : Dev) (id : Nat) : Counter := Tab.getD Counter.reset d.counters id
def Dev.modCtr (d : Dev) (id : Nat) (f : Counter → Counter) : Dev :=
  { d with counters := Tab.upd Counter.reset d.counters id f }

/-- signed(a − b) ≥ 0 (R309, R311). -/
def signedGe (a b : DWord) : Bool := decide (0 ≤ (a - b).toInt)

/-- Threads that wait under a wait number return to RUN. -/
def Weft.endWait (w : Weft) (num : Nat) : Weft :=
  let here (e : Entry) : Bool := e.state == .ecw && e.aux == BitVec.ofNat 32 num
  let out := (w.entries.filter here).map fun e => { e with state := .run, aux := 0 }
  ({ w with entries := w.entries.filter (fun e => !here e), waits := w.waits.filter (·.num != num) } : Weft).addEntries out

/-- The acquire of a counter's value by a weft; with .remote it first promotes a release that another pair marked (R188, R195,
R213). -/
def Dev.acquireCtr (d : Dev) (ref : WRef) (id : Nat) (scope : Scope) (promoted : Bool) : Dev :=
  let d := if promoted then d.promoteFor (ctrMark id) (pairOf ref.core) else d
  (d.acquire ref.core scope).acquireSide ref (.counter id) (some (d.counter id).flags.toNat) scope promoted

/-- The waits of a swapped weft that a counter's value ends; the acquire of its restoration covers theirs (R176, R311). -/
def Dev.endSaved (d : Dev) (pair id : Nat) (v : DWord) (w : Weft) : Weft :=
  (w.waits.filter fun x => x.counter == id && signedGe v x.threshold).foldl (fun w x =>
    (if x.acq then (d.sideWeft (2 * pair) w (.counter id) (some (d.counter id).flags.toNat) x.scope false).1 else w).endWait x.num) w

/-- Every wait on a counter whose threshold its value meets ends (R311). -/
def Dev.releaseWaits (d : Dev) (id : Nat) : Dev :=
  let v := (d.counter id).value
  let d : Dev := { d with bolts := d.bolts.map fun b => { b with saved := b.saved.map (d.endSaved b.pair id v) } }
  d.wefts.foldl (fun d p =>
    let ref := refOfKey p.1
    (p.2.waits.filter fun x => x.counter == id && signedGe v x.threshold).foldl (fun d x =>
      let d := if x.acq then d.acquireCtr ref id x.scope false else d
      d.modW ref fun w => w.endWait x.num) d) d

/-- MSI-X vectors of a function (R301). -/
def msixVectors (fn : Nat) : Nat := if fn = 0 then 2048 else 128

/-- Whether the things of a function operate: a VF bound as a TDI is in RUN (R313). -/
def Dev.fnLive (d : Dev) (fn : Nat) : Bool := match Tab.find? d.host.tdi fn with | some t => t == .run | none => true

/-- Whether a counter operates (R313). -/
def Dev.ctrLive (d : Dev) (id : Nat) : Bool := d.fnLive (d.counter id).fn

/-- A message of vector `t` of a function, under the masking and pending rules of its table (R309): PRESUMED from PCI Express (log 69), a masked
vector is pending until it is unmasked. -/
def Dev.sendMsix (d : Dev) (fn t : Nat) : Dev :=
  let h := d.host
  if msixVectors fn ≤ t then d
  else if h.msixOpen.contains (fn, t) && !h.msixOff.contains fn then
    { d with host := { h with out := h.out ++ [.msix fn t], msixPend := h.msixPend.filter (· != (fn, t)) } }
  else { d with host := { h with msixPend := if h.msixPend.contains (fn, t) then h.msixPend else h.msixPend ++ [(fn, t)] } }

/-- What follows an operation on a counter: its waits, then its trigger; a counter-add action is an operation on its target. Each
firing disarms, so `n` bounds the chain (R309). -/
def Dev.ctrAfter : Nat → Dev → Nat → Dev
  | 0, d, _ => d
  | n + 1, d, id =>
    let d := d.releaseWaits id
    let c := d.counter id
    if !(c.arm && signedGe c.value c.tthr) then d
    else
      let d := d.modCtr id fun c => { c with arm := false, fired := true }
      let t := c.target.toNat
      if c.action = 0 then
        d.sendMsix c.fn t
      else if c.action = 1 then
        match Tab.find? d.disp.queues t with
        | some q =>
          if q.gate && d.fnLive q.fn then
            let v := min 65535 (q.credits.toNat + c.addv.toNat)
            { d with disp := { d.disp with queues := Tab.put d.disp.queues t { q with credits := BitVec.ofNat 16 v } } }
          else d
        | none => d
      else if !d.ctrLive t then d
      else
        let f := d.atomFlags 0 (.counter t) false
        let d := d.modCtr t fun k => { k with value := k.value + c.addv.zeroExtend 64, flags := BitVec.ofNat 2 f }
        Dev.ctrAfter n d t

/-- One operation in a counter's order; a counter of a TDI that is not in RUN does not operate (R313). -/
def Dev.ctrOp (d : Dev) (id : Nat) (f : Counter → Counter) : Dev := if d.ctrLive id then (d.modCtr id f).ctrAfter 4097 id else d

/-- An addition, with the flags it leaves (R207, R213). -/
def Dev.ctrAdd (d : Dev) (id : Nat) (v : DWord) (rel : Bool) : Dev :=
  let f := d.atomFlags 0 (.counter id) rel
  d.ctrOp id fun c => { c with value := c.value + v, flags := BitVec.ofNat 2 f }

/-- The trigger word at +0x18 (R307, R309): it stores the fields, and arms or disarms; `rel` reads ABS as 0 (ECTRIG). -/
def Counter.control (c : Counter) (w : DWord) (rel : Bool) : Counter :=
  let abs := !rel && w.getLsbD 61
  let delta : BitVec 32 := w.truncate 32
  let c : Counter :=
    { c with abs := abs, action := (w >>> 58).truncate 2, target := (w >>> 44).truncate 12, addv := (w >>> 32).truncate 12,
             delta := delta }
  if w.getLsbD 63 && c.action != 3 then
    { c with arm := true, fired := false, tthr := if abs then c.tthr else c.value + delta.signExtend 64 }
  else { c with arm := false }

/-- The trigger word as it reads. -/
def Counter.controlWord (c : Counter) : DWord :=
  BitVec.ofNat 64 ((if c.arm then 2 ^ 63 else 0) + (if c.fired then 2 ^ 62 else 0) + (if c.abs then 2 ^ 61 else 0) +
    c.action.toNat * 2 ^ 58 + c.target.toNat * 2 ^ 44 + c.addv.toNat * 2 ^ 32 + c.delta.toNat)

def Dev.ctrControl (d : Dev) (id : Nat) (w : DWord) (rel : Bool) : Dev := d.ctrOp id fun c => c.control w rel

/-! ### Barriers -/

/-- The wefts of a bolt, by place. -/
def Dev.boltWefts (d : Dev) (bolt : Nat) : List (WRef × Weft) :=
  d.wefts.filterMap fun p => if !p.2.sup && p.2.bolt == bolt then some (refOfKey p.1, p.2) else none

/-- The wefts that share a weft's barriers: its bolt's, or a supervisor weft alone (R380). -/
def Dev.barWefts (d : Dev) (ref : WRef) (w : Weft) : List (WRef × Weft) := if w.sup then [(ref, w)] else d.boltWefts w.bolt

def Dev.barsOf (d : Dev) (w : Weft) : Tab Barrier := if w.sup then w.bars else ((d.bolt? w.bolt).map (·.bars)).getD []

def Dev.setBar (d : Dev) (ref : WRef) (k : Nat) (b : Barrier) : Dev :=
  match d.weft? ref with
  | none => d
  | some w =>
    if w.sup then d.putW ref { w with bars := Tab.put w.bars k b }
    else d.modBolt w.bolt fun x => { x with bars := Tab.put x.bars k b }

/-- Threads that wait at a barrier return to RUN, each weft with the acquire of its completion (R380). -/
def Dev.releaseBar (d : Dev) (ws : List (WRef × Weft)) (k : Nat) : Dev :=
  ws.foldl (fun d p =>
    let d := d.acquire p.1.core .bolt
    d.modW p.1 fun w =>
      let here (e : Entry) : Bool := e.state == .barw && e.aux == BitVec.ofNat 32 k
      let out := (w.entries.filter here).map fun e => { e with state := .run, aux := 0 }
      ({ w with entries := w.entries.filter fun e => !here e } : Weft).addEntries out) d

/-- Whether barrier 0 of the weft's bolt banks it or ends its twin interval (R344, R349). -/
def Dev.twinned (d : Dev) (w : Weft) : Bool :=
  match d.bolt? w.bolt with
  | some b => d.bolts.any fun x => x.serial == b.serial && x.idx == b.idx && x.id != b.id
  | none => false

def Dev.banks (d : Dev) (w : Weft) : Bool := !w.sup && (w.hdr.bank || d.twinned w)

/-- The completion of a barrier's phase (R211, R379, R380): the epoch or the merges, then the bank of barrier 0, then the release of
its waiters, which a bank due holds in BARW. -/
def Dev.completeBar (d : Dev) (ref : WRef) (k : Nat) (b : Barrier) : Dev :=
  match d.weft? ref with
  | none => d
  | some w =>
    let d := d.setBar ref k { phase := b.phase + 1, count := 0, arrived := 0, who := [] }
    let ws := d.barWefts ref w
    let d :=
      if b.count = 0 then
        let d := d.modBolt w.bolt fun x => { x with epoch := x.epoch + 1 }
        ws.foldl (fun d p => d.modW p.1 fun w =>
          let t := d.raceIdOf w 0
          { w with frontier := w.frontier.map fun e => e.filter fun e =>
              !(e.ktag == t.ktag && decide ((e.wser.toNat + 2 ^ 20 - t.serbase) % 2 ^ 20 < t.nwefts)) }) d
      else
        -- wefts take part by arriving or by waiting
        let took := ws.filter fun p => (Tab.find? b.who p.2.widx).isSome ||
          p.2.entries.any fun e => e.state == .barw && e.aux == BitVec.ofNat 32 k
        let ents : List Front := took.map fun p => let t := d.raceIdOf p.2 0; { ktag := t.ktag, wser := t.wser, clk := p.2.rclk }
        if w.hdr.race = 0 || w.sup then d
        else took.foldl (fun d p => d.modW p.1 fun w => w.mergeAll d.tagLive ents false) d
    if k = 0 && d.banks w then d.modBolt w.bolt fun x => { x with bankDue := true, barDue := true, atEnd := true }
    else d.releaseBar (d.barWefts ref w) k

/-- Whether a phase is complete: enough arrivals, or, with count 0, every thread that has not ended (R40, R379). -/
def Dev.barDone (d : Dev) (ref : WRef) (w : Weft) (b : Barrier) : Bool :=
  if b.who.isEmpty then false
  else if b.count ≠ 0 then decide (b.count ≤ b.arrived)
  else (d.barWefts ref w).all fun p =>
    let lanes := p.2.live ||| ((p.2.ending.map (·.act)).getD 0) ||| ((p.2.handler.map fun (h : Handler) => maskOf (h.restarts.map (·.lane))).getD 0) |||
      maskOf (p.2.trapPend.map (·.lane)) |||
      ((List.range 4).foldl (fun m j => match (d.sh (p.1.core * 4 + j)).run with
        | some r => if r.ref == p.1 && !r.handler then m ||| r.act else m
        | none => m) 0)
    lanes &&& ~~~ (Tab.getD 0 b.who p.2.widx) == 0

/-- Arrival of lanes of a weft at barrier `k` with count `c`; the instruction has raised the release clock (R210). -/
def Dev.arriveBar (d : Dev) (ref : WRef) (lanes : Lanes) (k c : Nat) : Dev :=
  match d.weft? ref with
  | none => d
  | some w =>
    let b := Tab.getD Barrier.reset (d.barsOf w) k
    let b := if b.who.isEmpty then { b with count := c } else b
    let b : Barrier := { b with arrived := b.arrived + (lanesOf lanes).length,
                                who := Tab.put b.who w.widx (Tab.getD 0 b.who w.widx ||| lanes) }
    let d := d.setBar ref k b
    if d.barDone ref w b then d.completeBar ref k b else d

/-- Ended threads can complete the open phases of count 0 (R40). -/
def Dev.barsAfterExit (d : Dev) (ref : WRef) : Dev :=
  match d.weft? ref with
  | none => d
  | some w =>
    (List.range 16).foldl (fun d k =>
      match Tab.find? (d.barsOf w) k with
      | some b => if b.count = 0 && d.barDone ref w b then d.completeBar ref k b else d
      | none => d) d

end Sys2Proof.Machine
end

