-- ==== Sys2Proof/Machine/Kill.lean ====
section
/-! DEFINITION. The end of launches and bolts: completion (R249 to R251), context kill (R37, R285), and the loss of a bolt that consumes
an uncorrectable error: rollback to its bank, a third twin copy, or a kill (R348 to R350). -/

namespace Sys2Proof.Machine

/-! ### Dropping wefts -/

/-- Where a user weft stands, by bolt and index within it; bolt 0 is the supervisor weft of the core. -/
def Dev.placeOf (d : Dev) (core bolt widx : Nat) : Option WRef :=
  if bolt = 0 then (if (d.weft? (supRef core)).isSome then some (supRef core) else none)
  else (List.find? (fun (p : Nat × Weft) => !p.2.sup && p.2.bolt == bolt && p.2.widx == widx) d.wefts).map fun p => refOfKey p.1

/-- Whether a command is final (R225). -/
def CStat.final : CStat → Bool
  | .queued | .active | .parked => false
  | _ => true

/-- Engine commands end ABORTED, and gathers, scatters and slice operations end, with the locations they own (R235, R285). -/
def Dev.dropEngines (d : Dev) (mine : Nat → Nat → Nat → Bool) : Dev :=
  let cmds := d.cmds.filter fun x => mine x.core x.bolt x.widx && !x.status.final
  let gaths := d.gathers.filter fun x => mine x.ref.core x.bolt x.widx
  let slops := d.slops.filter fun x => mine x.core x.bolt x.widx
  let owners : List EngId := (cmds.map fun x => EngId.tcopy x.core x.handle) ++ (gaths.map fun x => EngId.gather x.id) ++
    (slops.map fun x => EngId.slop x.id)
  { d with
    cmds := d.cmds.map fun x => if mine x.core x.bolt x.widx && !x.status.final then { x with status := .aborted, src := [] } else x,
    gathers := d.gathers.filter fun x => !mine x.ref.core x.bolt x.widx,
    slops := d.slops.filter fun x => !mine x.core x.bolt x.widx,
    mem := { d.mem with owned := d.mem.owned.filter fun o => !owners.contains o.eng } }

/-- Everything of the wefts that `gone` names leaves the device: their slots, picks, operations and engine commands, with the locations
these own. -/
def Dev.dropWefts (d : Dev) (gone : WRef → Bool) : Dev :=
  let d := d.dropEngines fun core bolt widx => match d.placeOf core bolt widx with | some r => gone r | none => false
  { d with
    wefts := d.wefts.filter fun p => !gone (refOfKey p.1),
    shuttles := d.shuttles.map fun p => match p.2.run with
      | some r => if gone r.ref then (p.1, { p.2 with run := none }) else p
      | none => p,
    ops := d.ops.filter fun o => !gone o.ref }

/-- Whether a place holds a user weft of a bolt. -/
def Dev.ofBolt (d : Dev) (bolt : Nat) (r : WRef) : Bool :=
  match d.weft? r with
  | some w => !w.sup && w.bolt == bolt
  | none => false

def Dev.dropBoltWefts (d : Dev) (bolt : Nat) : Dev := d.dropWefts (d.ofBolt bolt)

/-! ### Completion of a launch (R249 to R251) -/

/-- The TLB of the dispatcher, which belongs to no core. -/
def dispCore : Nat := 1024

/-- Bits of HINTS: ranges with at least 4,096 accesses whose miss ratio lies outside the band of their class (R300). -/
def hintBits (hs : List (Option Hint)) : Nat :=
  let out (h : Hint) : Bool :=
    decide (4096 ≤ h.accesses) &&
      (match h.cls with
       | 0 => decide (2 * h.misses < h.accesses)
       | 1 => decide (5 * h.misses < h.accesses) || decide (4 * h.accesses < 5 * h.misses)
       | 2 => decide (20 * h.misses < h.accesses) || decide (h.accesses < 2 * h.misses)
       | _ => decide (h.accesses < 20 * h.misses))
  (List.range hs.length).foldl (fun n i => match hs.getD i none with | some h => if out h then n + 2 ^ i else n | none => n) 0

def completionWords (l : Launch) (status : Nat) : List DWord :=
  [BitVec.ofNat 64 l.serial, BitVec.ofNat 64 status, BitVec.ofNat 64 (if status = 0 then hintBits l.hints else 0), 0]

/-- A kernel tag whose launch has ended is retiring (R205). -/
def Dev.retireTag (d : Dev) (k : Nat) : Dev :=
  if k = 0 then d
  else
    let t := d.disp.tags
    { d with disp := { d.disp with tags := { t with live := t.live.filter (· != k), retiring := t.retiring ++ [k] } } }

/-- A launch leaves the device. -/
def Dev.dropLaunch (d : Dev) (l : Launch) : Dev :=
  ({ d with disp := { d.disp with launches := d.disp.launches.filter (·.serial != l.serial) } } : Dev).retireTag l.ktag.toNat

/-- Where a launch of a device-owned queue wants its completion record; 0 for none. -/
def Launch.crecAt (l : Launch) : Nat := if l.fromHost then 0 else (l.record.getD 12 0).toNat % 2 ^ 57

/-- The completion record and, on a host queue, the used chain; the launch leaves the device. Where a migration has frozen the record's
page, the launch stays, completing, until the freeze ends (R250, R298). -/
def Dev.writeCompletion (d : Dev) (regs : Regs) (l : Launch) (status : Nat) : Dev :=
  let ws := completionWords l status
  if l.fromHost then
    ({ d with host := { d.host with out := d.host.out ++ [HostMsg.completion l.fn l.queue ws, HostMsg.used l.fn l.queue 32] } } : Dev).dropLaunch l
  else if l.crecAt = 0 then d.dropLaunch l
  else match d.place regs dispCore l.space l.crecAt .wr with
    | (.hold, d) =>
      let l : Launch := { l with stage := .completing, status := status }
      { d with disp := { d.disp with launches := d.disp.launches.map fun x => if x.serial = l.serial then l else x } }
    | (_, d) => (d.writeWords regs dispCore l.space l.crecAt ws).2.dropLaunch l

/-- Completion records that waited for a freeze are written. -/
def Dev.retryCompletions (d : Dev) (regs : Regs) : Dev :=
  (d.disp.launches.filter (·.stage == .completing)).foldl (fun d l => d.writeCompletion regs l l.status) d

/-- The launch's signal: SADD on SCTR (R250 step 3, R249). -/
def Dev.launchSignal (d : Dev) (l : Launch) (rel : Bool) : Dev :=
  let w := (l.record.getD 6 0)
  if w.getLsbD 63 then d.ctrAdd (w.toNat % 4096) (l.record.getD 7 0) rel else d

/-- Completion after the last bolt has retired. -/
def Dev.completeLaunch (d : Dev) (regs : Regs) (l : Launch) : Dev := (d.launchSignal l true).writeCompletion regs l 0

/-! ### Context kill (R285) -/

/-- Whether a launch has been accepted (R249 steps 1 to 5 passed). -/
def Launch.accepted (l : Launch) : Bool :=
  match l.stage with
  | .tagwait | .dispatch | .running | .completing => true
  | _ => false

/-- What the other members of a collective are told when it is aborted here (R331). -/
def collAbortMsgs (v : View) (k : Coll) : List FabMsg :=
  (k.members0.filter (· != v.self)).map fun m => FabMsg.collAbort k.slot k.seq m

/-- A message and, over Ethernet, the record of its attempts (R318). -/
def Fabric.send (f : Fabric) (slot member : Nat) (m : FabMsg) : Fabric :=
  { f with outbox := f.outbox ++ [m], nextMsg := f.nextMsg + 1,
           unacked := f.unacked ++ [{ id := f.nextMsg, msg := m, slot := slot, member := member, attempts := 1 }] }

def FabMsg.dst : FabMsg → Nat
  | .keepalive _ d | .suspicion _ d _ | .proposal _ d _ _ | .ack _ d _ _ | .commit _ d _ _ _ | .lost _ d | .join _ d _
  | .collPart _ _ d _ _ | .collReady _ _ d _ | .collAbort _ _ d | .collMismatch _ _ d | .peerData d _ => d

def Dev.sendAll (d : Dev) (slot : Nat) (ms : List FabMsg) : Dev :=
  { d with fabric := ms.foldl (fun f m => f.send slot m.dst m) d.fabric }

/-- The result record of an instance (R329). -/
def collRecord (v : View) (k : Coll) (status : Nat) : List DWord :=
  [BitVec.ofNat 64 (v.t.toNat * 2 ^ 32 + k.tag0.toNat),
   BitVec.ofNat 64 (v.members.length * 2 ^ 26 + k.n0 * 2 ^ 7 + (if k.chg then 64 else 0) + status % 64),
   BitVec.ofNat 64 k.stale, BitVec.ofNat 64 (k.seq % 2 ^ 32 * 2 ^ 32 + k.lowx % 2 ^ 18)]

/-- Address of the result record; bits [4:0] of a misaligned RREC read as 0. -/
def Coll.rrec (k : Coll) : Nat := (k.desc.getD 6 0).toNat % 2 ^ 57 / 32 * 32

/-- The instances of a killed context end ABORTED at every member, each with its record where it can be written (R285, R329, R335). -/
def Dev.abortColls (d : Dev) (regs : Regs) (mine : Coll → Bool) : Dev :=
  let gone := d.fabric.colls.filter mine
  let owners := gone.map fun k => EngId.coll k.core k.handle
  let d := gone.foldl (fun d k =>
    let v := Tab.getD View.reset d.fabric.views k.slot
    (d.writeWords regs k.core k.space k.rrec (collRecord v k 1)).2.sendAll k.slot (collAbortMsgs v k)) d
  { d with
    fabric := { d.fabric with colls := d.fabric.colls.filter fun k => !mine k },
    mem := { d.mem with owned := d.mem.owned.filter fun o => !owners.contains o.eng } }

/-- RUN: a stopped shuttle and its wefts go on (R282). -/
def Dev.runShuttle (d : Dev) (k : Nat) : Dev :=
  let d := d.modSh k fun s => { s with stopped := false }
  { d with wefts := d.wefts.map fun p =>
      let r := refOfKey p.1
      if r.core * 4 + r.shuttle = k && !p.2.sup then (p.1, { p.2 with stopped := false }) else p }

/-- The contexts with wefts on a shuttle. -/
def Dev.shuttleCtxs (d : Dev) (k : Nat) : List (BitVec 16) :=
  d.wefts.filterMap fun p => let r := refOfKey p.1; if r.core * 4 + r.shuttle == k && !p.2.sup then some p.2.ctx else none

/-- The end of a debug session: its triggers are disarmed, and the shuttles stopped in it go on (R285, R356). -/
def Dev.endSession (d : Dev) (ctx : BitVec 16) : Dev :=
  match Tab.find? d.debug ctx.toNat with
  | none => d
  | some g =>
    if !g.unlocked then d
    else
      let d : Dev := { d with debug := Tab.put d.debug ctx.toNat { g with unlocked := false, armed := false, due := [] } }
      (d.shuttles.filter fun p => p.2.stopped && (d.shuttleCtxs p.1).contains ctx).foldl (fun d p => d.runShuttle p.1) d

/-- The pseudo-core under which a swapped bolt's commands of one parity keep what they own. -/
def savedCore (bolt core : Nat) : Nat := 2048 + 2 * bolt + core % 2

/-- The scratch sidecar entries of bolts that leave the device go, and what their saved commands own. -/
def Dev.dropBolts (d : Dev) (lost : List Nat) : Dev :=
  let saved (o : Own) : Bool := match o.eng with
    | .tcopy core _ => decide (2048 ≤ core) && lost.contains ((core - 2048) / 2)
    | _ => false
  { d with cores := d.cores.map fun p => (p.1, { p.2 with sside := p.2.sside.filter fun x => !lost.contains x.bolt }),
           mem := { d.mem with owned := d.mem.owned.filter fun o => !saved o } }

/-- CONTEXT KILL: `cause` is the one its event reports (R306). -/
def Dev.killCtx (d : Dev) (regs : Regs) (ctx : BitVec 16) (cause : Nat) : Dev :=
  let d := d.endSession ctx
  let mine (r : WRef) : Bool := match d.weft? r with | some w => !w.sup && w.ctx == ctx | none => false
  let serials := (d.disp.launches.filter (·.ctx == ctx)).map (·.serial)
  let dead := d.disp.launches.filter fun l => l.ctx == ctx && l.accepted && l.stage != .completing
  let calls := d.host.calls.filter fun k => !mine k.ref
  let d := (d.dropWefts mine).abortColls regs (·.ctx == ctx)
  let lost := (d.bolts.filter fun b => serials.contains b.serial).map (·.id)
  let d := (d.dropEngines fun _ bolt _ => lost.contains bolt).dropBolts lost
  let d : Dev :=
    { d with
      bolts := d.bolts.filter fun b => !serials.contains b.serial,
      keys := d.keys.filter fun p => p.1 / 16 != ctx.toNat,
      host := { d.host with calls := calls },
      disp := { d.disp with launches := d.disp.launches.filter fun l => l.ctx != ctx || l.accepted,
                            holds := d.disp.holds.filter fun s => !serials.contains s } }
  (dead.foldl (fun d l => d.writeCompletion regs l 2) d).event 5 ctx.toNat cause

/-! ### Loss of a bolt (R348, R350) -/

/-- A bolt as its bank holds it; the dispatcher restores it like a swapped bolt when its wefts have lost their places. -/
def Bolt.fromBank (b : Bolt) (k : Bank) : Bolt :=
  { b with scratch := k.scratch, smeta := k.smeta, badScratch := [], bars := k.bars, epoch := k.epoch, left := k.wefts.length,
           bankDue := false, barDue := false, sig := k.sig, held := k.held, heldBytes := k.heldBytes, atEnd := false }

/-- The scratch sidecar entries of a bolt, by the parity of their core (R224). -/
def Dev.sideOf (d : Dev) (b : Bolt) : List (Nat × Side) :=
  [2 * b.pair, 2 * b.pair + 1].flatMap fun c => ((d.core c).sside.filter fun x => x.bolt == b.id).map fun x => (c % 2, x)

/-- Saved entries in the sidecars of a bolt's cores, in place of those it has there. -/
def Dev.restoreSide (d : Dev) (b : Bolt) (side : List (Nat × Side)) : Dev :=
  let one (d : Dev) (c : Nat) : Dev :=
    d.modCore c fun k => { k with sside := (side.filter fun x => x.1 == c % 2).foldl (fun l x => putScratchSide l x.2)
                                    (k.sside.filter fun x => x.bolt != b.id) }
  one (one d (2 * b.pair)) (2 * b.pair + 1)

/-- The bank in place: every weft of the bank that is still resident takes its banked state. -/
def Dev.rollbackHere (d : Dev) (b : Bolt) (k : Bank) : Dev :=
  let here := d.boltWefts b.id
  let d := d.dropEngines fun _ bolt _ => bolt == b.id
  let runs := d.shuttles.map fun p => match p.2.run with
    | some r => if here.any (fun x => x.1 == r.ref) then (p.1, { p.2 with run := none }) else p
    | none => p
  let d : Dev :=
    { d with shuttles := runs, ops := d.ops.filter fun o => !here.any fun x => x.1 == o.ref,
             bolts := d.bolts.map fun x => if x.id = b.id then { b.fromBank k with st := .resident } else x }
  let d := here.foldl (fun d x => match k.wefts.find? fun w => w.widx == x.2.widx with
    | some w => d.putW x.1 { w with age := x.2.age, prio := x.2.prio, gated := x.2.gated, stopped := x.2.stopped }
    | none => d) d
  d.restoreSide b k.side

/-- The bank under no pair: its wefts wait to be placed again. -/
def Dev.rollbackAway (d : Dev) (b : Bolt) (k : Bank) (copy : Nat) : Dev :=
  let d := d.dropBoltWefts b.id
  { d with bolts := d.bolts.map fun x =>
      if x.id = b.id then { b.fromBank k with st := .swapped, copy := copy, saved := k.wefts, savedCmds := [], savedSide := k.side } else x }

/-- The other copy of a twin bolt. -/
def Dev.twinOf (d : Dev) (b : Bolt) : Option Bolt :=
  d.bolts.find? fun x => x.serial == b.serial && x.idx == b.idx && x.id != b.id

/-- A bolt has consumed an uncorrectable error of a register, tile or scratch word. A twin copy is replaced by a third, which reads the
results its partner holds; a banked bolt returns to its bank unless it has performed what a bank cannot take back; any other bolt's
context is killed. -/
def Dev.loseBolt (d : Dev) (regs : Regs) (bolt : Nat) : Dev :=
  match d.bolt? bolt with
  | none => d
  | some b =>
    let ctx := ((d.launchOf? bolt).map (·.ctx)).getD 0
    let asid := ((d.launchOf? bolt).map (·.asid)).getD 0
    match b.bank with
    | none => d.killCtx regs ctx 0x13
    | some k =>
      match d.twinOf b with
      | some t =>
        -- the partner is being replaced too: the rollback rule decides for both
        if t.copy = 2 && (b.sinceBank || t.sinceBank) then d.killCtx regs ctx 0x13
        else if t.copy = 2 then d.rollbackAway b k b.copy
        else
        let d : Dev := { d with disp := { d.disp with scanQueue := d.disp.scanQueue ++ [b.pair] } }
        let d := d.modBolt t.id fun x => { x with results := x.results ++ b.results, copy := 0 }
        d.rollbackAway b k 2
      | none =>
        if b.sinceBank then d.killCtx regs ctx 0x13
        else
          -- a bolt that loses its place takes its co-resident launch with it, to be restored together (R43; DESIGN
          -- CHOICE, notes/assumptions/68.md)
          let mates := fun (d : Dev) => if (d.launchOf? bolt).any fun l => (l.record.getD 10 0).getLsbD 0 then
            { d with bolts := d.bolts.map fun x => if x.serial == b.serial && x.st == .resident then { x with st := .swapping } else x } else d
          let rep : Report :=
            { ref := { core := b.core, shuttle := 0, slot := 0 }, ctx := ctx, asid := asid, cause := 0x13, sub := 0, lanes := 0, pc := 0,
              resume := 0, depth := 0, addr := 0, aux := 0, time := d.clockOf { core := b.core, shuttle := 0, slot := 0 } }
          let whole := k.wefts.all fun w => (d.boltWefts bolt).any fun x => x.2.widx == w.widx
          let d := if whole then d.rollbackHere b k else mates (d.rollbackAway b k b.copy)
          d.post regs b.core rep.words

end Sys2Proof.Machine
end

