-- ==== Sys2Proof/Machine/Issue.lean ====
section
/-! DEFINITION. The issue of a pick's words (R51 to R54): eligibility, cycles and their histogram (R353, R354), what a word
answers, the end and the suspension of a pick, and WAITL (R64). Every instruction word runs through `runWord`. -/

namespace Sys2Proof.Machine

/-! ### Eligibility (R51) -/

def refOnShuttle (k : Nat) (r : WRef) : Bool := r.core * 4 + r.shuttle == k && r.slot < 16

/-- The entry that would head the weft: that of a running handler, else by R50. -/
def Weft.headNow (w : Weft) : Option Entry :=
  match w.handler with
  | some h => if h.entry.state = .run then some h.entry else none
  | none => w.head?

/-- Lanes whose pending signal is due: they stand at a pick boundary, or have returned from a park (R277). -/
def Weft.signalDue (w : Weft) : Lanes :=
  if w.handler.isSome then 0
  else
    let at0 := (w.entries.filter fun e => (e.state = .run || e.state = .yld) && e.resume = 0).foldl (fun m e => m ||| e.mask) 0
    let mid := (w.entries.filter fun e => e.state = .run || e.state = .yld).foldl (fun m e => m ||| e.mask) 0 &&& w.sigNow
    (at0 ||| mid) &&& maskOf (w.signals.map (·.1))

/-- Whether every flag of a header's wait mask reads zero in the banks of the halves of `act` (R51, R67). -/
def Weft.waitMaskClear (w : Weft) (header : DWord) (act : Lanes) : Bool :=
  (w.halves act).all fun h => (List.range 12).all fun f =>
    !header.getLsbD (49 + f) || Cells.get w.flags (h * 16 + f) == 0

/-- Whether a shuttle of the core is issuing a pick of this weft. -/
def Dev.isRunning (d : Dev) (r : WRef) : Bool :=
  (List.range 4).any fun j => match (d.sh (r.core * 4 + j)).run with | some k => k.ref == r | none => false

/-- Whether a bolt of the weft's launch keeps it from issuing: it is being swapped or banked, or a co-resident sibling is not
resident (R42, R43, R349). -/
def Dev.boltHolds (d : Dev) (w : Weft) : Bool :=
  if w.sup then false
  else match d.bolt? w.bolt with
    | none => false
    | some b =>
      b.st != .resident || b.bankDue ||
        (match d.disp.launches.find? (·.serial == b.serial) with
         | none => false
         | some l =>
           let cores := (l.record.getD 10 0).getLsbD 0
           cores && (l.nextB < l.total || d.bolts.any fun x => x.serial == b.serial && x.st != .resident))

/-- The bolt of which a weft's bolt is the secondary copy, if it is one (R344). -/
def Dev.primaryOf (d : Dev) (w : Weft) : Option Bolt :=
  match d.bolt? w.bolt with
  | none => none
  | some b => if d.isPrimary b then none else d.bolts.find? fun x => x.serial == b.serial && x.idx == b.idx && d.isPrimary x

/-- What the primary copy's word gave, once it has completed (R344). -/
def Dev.primaryResult (d : Dev) (w : Weft) (p : Bolt) (pick idx : Nat) : Option (Tab Nat) :=
  let open_ := d.ops.any fun o => o.pick == pick && o.idx == idx &&
    (match d.weft? o.ref with | some x => x.bolt == p.id && x.widx == w.widx | none => false)
  if open_ then none
  else (p.results.find? fun r => r.widx == w.widx && r.pick == pick && r.idx == idx && r.whole).map (·.vals)

/-- Whether a twin copy waits for its interval to settle, or as the secondary for the primary's result (R344, R346). -/
def Dev.twinHeld (d : Dev) (w : Weft) : Bool :=
  match w.twinAt with
  | none => false
  | some t => !t.settled ||
    (!t.full && match d.primaryOf w with
      | none => false
      | some p => (d.primaryResult w p t.pick t.idx).isNone)

/-- Whether race checks of the weft's accesses are still open, for which its next pick waits (R218). -/
def Dev.openChecks (d : Dev) (r : WRef) (w : Weft) : Bool :=
  w.hdr.race != 0 && d.ops.any fun o => o.ref == r && o.accs.any (!·.checked) &&
    (o.kind == .load || o.kind == .store || o.kind == .atomic)

/-- Energy weight of a weft (R34). -/
def Weft.weight (w : Weft) : Nat := [1, 2, 3, 4, 6, 8, 12, 16].getD w.hdr.eclass 16

/-- The user wefts resident on a core. -/
def Dev.coreWefts (d : Dev) (core : Nat) : List (WRef × Weft) :=
  d.wefts.filterMap fun p => let r := refOfKey p.1; if r.core == core && !p.2.sup then some (r, p.2) else none

def Dev.coreWeight (d : Dev) (core : Nat) : Nat := ((d.coreWefts core).map fun p => p.2.weight).sum

/-- Whether the energy gate is at work on a core: its resident weight exceeds the budget (R36). -/
def Dev.gateOn (d : Dev) (core : Nat) : Bool := decide (d.disp.budget < d.coreWeight core)

def Dev.eligible (d : Dev) (r : WRef) (w : Weft) : Bool :=
  !w.stopped && !(w.gated && d.gateOn r.core) && w.ending.isNone && (w.trapPend.isEmpty || w.trapFor != 0) && w.signalDue == 0 &&
    w.walks.all (·.done) && !d.isRunning r && !d.boltHolds w && !d.openChecks r w && !d.twinHeld w &&
    (match w.headNow with
     | none => false
     | some e =>
       match w.fetch with
       | none => false
       | some f => f.pc == e.pc && (e.resume != 0 || w.waitMaskClear f.header e.mask))

/-- The user wefts of a shuttle. -/
def Dev.residents (d : Dev) (k : Nat) : List (WRef × Weft) :=
  d.wefts.filterMap fun p => let r := refOfKey p.1; if refOnShuttle k r then some (r, p.2) else none

/-- Whether `a` is older than `b`: resident earlier, at equal age of lower weft index (R56). DESIGN CHOICE (log 68): between wefts of one index
that two bolts of a batch placed in the same step, the bolt placed first. -/
def Weft.older (a b : Weft) : Bool :=
  if a.age ≠ b.age then decide (a.age < b.age) else if a.widx ≠ b.widx then decide (a.widx < b.widx) else decide (a.bolt < b.bolt)

def oldestOf (ws : List (WRef × Weft)) : Option (WRef × Weft) :=
  ws.foldl (fun o p => match o with | none => some p | some q => if p.2.older q.2 then some p else some q) none

/-! ### Cycles (R19, R353, R354) -/

def OpKind.isCctl : OpKind → Bool
  | .cctl _ => true
  | _ => false

/-- The location that an engine can own, of an access; a constant that misses is fetched like a load (R161, R192). -/
def Access.loc (a : Access) (bolt : Nat) : Space → Option Loc
  | .generic | .const => if a.region = 3 then none else some (.line (lineOf a.pa))
  | .scratch => some (.scr bolt (lineOf a.pa))
  | .counter => none

/-- The weft that issued a command, and the command's place among its operations. -/
def Dev.engIssue (d : Dev) : EngId → Option (WRef × Nat)
  | .tcopy core handle => (d.cmds.find? fun x => x.core == core && x.handle == handle).map fun x => (x.ref, x.seq)
  | .gather id => (d.gathers.find? (·.id == id)).map fun g => (g.ref, g.id)
  | .slop id => (d.slops.find? (·.id == id)).map fun x => (x.ref, x.id)
  | .coll core handle => (d.fabric.colls.find? fun x => x.core == core && x.handle == handle).map fun k => (k.ref, k.stamp)

/-- Whether an access of the weft that stands before a command's issue is still open: the command's reads and writes come after it (R179). -/
def Dev.beforeOpen (d : Dev) (r : WRef) (n : Nat) : Bool :=
  d.ops.any fun o => o.ref == r && decide (o.id < n) && o.accs.any fun a => !a.perf

/-- Whether an engine's ownership of a location holds back an access of an operation: not one that its own weft issued before the command,
which the command waits for (R179, R193). -/
def Dev.ownHolds (d : Dev) (o : MemOp) (l : Loc) : Bool :=
  match d.ownerOf l with
  | none => false
  | some w => match d.engIssue w.eng with
    | some (r, n) => !(r == o.ref && decide (o.id < n))
    | none => true

/-- Whether an access of the weft is held by an engine's ownership (R165, R193). -/
def Dev.heldAccess (d : Dev) (r : WRef) (bolt : Nat) : Bool :=
  d.ops.any fun o => o.ref == r && !o.kind.isCctl && o.accs.any fun a => !a.perf && !a.seen && match a.loc bolt o.space with
    | some l => d.ownHolds o l
    | none => false

/-- The reason that a cycle of a pick in progress which issues nothing charges: that of the word, or one that stands before it (R354). -/
def Dev.waitReason (d : Dev) (r : WRef) (reason : Nat) : Nat :=
  match d.weft? r with
  | none => reason
  | some w =>
    if w.stopped then 12
    else if w.handler.isSome then 11
    else if reason != 7 && d.heldAccess r w.bolt then 3
    else reason

/-- The stall reason of a resident weft that is not eligible (R354). -/
def Dev.stallReason (d : Dev) (r : WRef) (w : Weft) : Nat :=
  let head := bestEntry w.entries
  let inSt (s : EState) : Bool := match head with | some e => e.state == s | none => false
  if w.stopped then 12
  else if w.handler.isSome then 11
  else if w.gated && d.gateOn r.core then 10
  else if w.ending.isSome then (if d.heldAccess r w.bolt then 3 else 2)
  else match w.head? with
    | none =>
      if inSt .park then 6 else if inSt .barw then 4 else if inSt .ecw then 5 else if inSt .wtl then 13 else 15
    | some e =>
      if w.entries.all (fun x => x.state != .run) then 13
      else match w.fetch with
        | none => 8
        | some f =>
          if f.pc != e.pc then 8
          else if w.walks.any (fun k => !k.done) then 7
          else if d.heldAccess r w.bolt then 3
          else if d.openChecks r w then 2
          else if !w.waitMaskClear f.header e.mask then 1
          else 15

def satAdd (c : Cells 48) (k n : Nat) : Cells 48 :=
  let v := (Cells.get c k).toNat + n
  Cells.set c k (if v ≥ 2 ^ 48 then BitVec.allOnes 48 else BitVec.ofNat 48 v)

/-- Charges `n` cycles of a shuttle to a bin, and to a stall counter when it is bin 0. -/
def Dev.charge (d : Dev) (k n bin reason : Nat) : Dev :=
  d.modSh k fun s =>
    { s with bins := satAdd s.bins bin n, stalls := if bin = 0 then satAdd s.stalls reason n else s.stalls }

/-- The YLD entries back in RUN when no entry is in RUN (R50). -/
def Weft.unyieldIfNone (w : Weft) : Weft := if w.entries.all (fun x => x.state != .run) then w.unyield else w

/-- The same of a weft none of whose picks is in progress: the entry of a pick in progress is in RUN. -/
def Dev.rouse (d : Dev) (r : WRef) : Dev :=
  if d.isRunning r then d else d.modW r fun w => if w.ending.isSome then w else w.unyieldIfNone

/-- Lanes leave their entries in WTL: each writes its predicate and returns to RUN (R64). -/
def Weft.releaseWaitl (w : Weft) (outs : List (Nat × Entry × Bool)) : Weft :=
  let w := outs.foldl (fun (w : Weft) x =>
    match Tab.find? w.waitPd x.1 with
    | some k => ({ w with waitPd := Tab.del w.waitPd x.1 } : Weft).setP x.1 k x.2.2
    | none => w) w
  let gone := maskOf (outs.map (·.1))
  let w : Weft := { w with entries := w.entries.filterMap fun e =>
    if e.state = .wtl then (let k := e.mask &&& ~~~ gone; if k = 0 then none else some { e with mask := k }) else some e }
  w.addEntries (outs.map fun x =>
    { depth := x.2.1.depth, pc := x.2.1.pc, resume := 0, mask := oneLane x.1, state := .run, aux := 0 })

/-- `n` cycles of a weft's shuttle, in which WAITL deadlines run down, but not while the weft is stopped. A deadline that ended in an
earlier cycle than the last releases its waiters with 0; one that ends in the last is judged with what else falls in that cycle (R64, R65). -/
def Weft.runDown (w : Weft) (running : Bool) (n : Nat) : Weft :=
  if w.stopped || w.entries.all (·.state != .wtl) then w
  else
    let late := w.entries.filter fun e => e.state == .wtl && decide (e.aux.toNat < n)
    let w := if late.isEmpty then w
      else (if running || w.ending.isSome then w else w.unyieldIfNone).releaseWaitl
        (late.flatMap fun e => (lanesOf e.mask).map fun l => (l, e, false))
    { w with entries := w.entries.map fun e =>
        if e.state = .wtl then { e with aux := BitVec.ofNat 32 (e.aux.toNat - n) } else e }

/-- `n` cycles pass on a shuttle. -/
def Dev.tick (d : Dev) (k n : Nat) : Dev :=
  let d := d.modSh k fun s => { s with clock := s.clock + BitVec.ofNat 64 n }
  { d with wefts := d.wefts.map fun p =>
      let r := refOfKey p.1
      if r.core * 4 + r.shuttle == k then (p.1, p.2.runDown (d.isRunning r) n) else p }

/-- Cycles in which a user weft, or the supervisor weft, issues a word (R353). -/
def Dev.issueCycles (d : Dev) (k n : Nat) (sup : Bool) : Dev :=
  let bin := if sup then 0 else min 16 (1 + ((d.residents k).filter fun p => d.eligible p.1 p.2).length)
  (d.charge k n bin 11).tick k n

/-- A cycle in which the pick in progress issues nothing. -/
def Dev.waitCycle (d : Dev) (k reason : Nat) : Dev := (d.charge k 1 0 reason).tick k 1

/-! ### WAITL (R64, R65) -/

/-- Threads that have not ended, by lane, with the depth at which each stands. -/
def Weft.standing (w : Weft) (running : List (Nat × Nat)) : List (Nat × Nat) :=
  (w.entries.flatMap fun e => (lanesOf e.mask).map fun l => (l, e.depth)) ++
    (match w.handler with | some h => h.restarts.map fun b => (b.lane, b.depth) | none => []) ++
    (w.trapPend.map fun t => (t.lane, t.back.depth)) ++
    (match w.ending with | some e => (lanesOf e.act).map fun l => (l, e.depth) | none => []) ++ running

/-- Releases the waiters of every (depth, pc) at which all threads of the depth have arrived; with `timeout`, also those whose
deadline has run down. -/
def Weft.evalWaitl (w : Weft) (running : List (Nat × Nat)) (timeout : Bool) : Weft :=
  let all := w.standing running
  let waits := w.entries.filter fun e => e.state == .wtl
  let inWait (d : Nat) (pc : BitVec 32) (l : Nat) : Bool :=
    waits.any fun e => e.depth == d && e.pc == pc && e.mask.getLsbD l
  let arrived (e : Entry) (h : Nat) : Bool :=
    all.all fun x => x.2 != e.depth || w.halfOf x.1 != h || inWait e.depth e.pc x.1
  let outs := waits.flatMap fun e =>
    (lanesOf e.mask).filterMap fun l =>
      if arrived e (w.halfOf l) then some (l, e, true)
      else if timeout && e.aux == 0 then some (l, e, false) else none
  -- with no pick in progress and no entry in RUN, what yielded runs again before anything is released beside it (R50)
  let w := if running.isEmpty && w.ending.isNone then w.unyieldIfNone else w
  if outs.isEmpty then w else w.releaseWaitl outs

/-- Lanes of a pick in progress of the weft, with their depth. -/
def Dev.runningLanes (d : Dev) (r : WRef) : List (Nat × Nat) :=
  (List.range 4).flatMap fun j => match (d.sh (r.core * 4 + j)).run with
    | some k => if k.ref == r && !k.handler then (lanesOf k.act).map fun l => (l, k.depth) else []
    | none => []

/-- WAITL at the end of a pick: arrival first, then the deadlines that stand at 0 (R64, R65). -/
def Dev.evalWaits (d : Dev) (r : WRef) : Dev := d.modW r fun w => w.evalWaitl (d.runningLanes r) (!w.stopped)

/-! ### Trace records (R358, R359) -/

/-- Writes one record to a context's trace ring, or counts it dropped. -/
def Dev.traceRec (d : Dev) (r : Regs) (core : Nat) (as : ASpace) (g : Debug) (ws : List DWord) : Dev :=
  let base := g.ring.toNat
  let n := 2 ^ g.logn
  match d.readVa r core as base 8 false, d.readVa r core as (base + 8) 8 false, d.readVa r core as (base + 16) 8 false with
  | (.ok prod, d), (.ok cons, _), (.ok drop, _) =>
    if prod - cons ≥ n then (d.writeVa r core as (base + 16) 8 (drop + 1)).2
    else
      match d.writeWords r core as (base + 64 + 32 * (prod % n)) ws with
      | (none, d) => (d.writeVa r core as base 8 (prod + 1)).2
      | (some _, d) => (d.writeVa r core as (base + 16) 8 (drop + 1)).2
  | _, _, _ => d

/-- What one cycle of a shuttle shows to the trigger: a pick issue, a TMARK, a trap. -/
structure Seen where
  pick : Option (BitVec 32 × Nat × Nat × Lanes)
  tag : Option Nat
  trap : Option (Nat × BitVec 32)
  deriving Repr

/-- A trigger condition (R359). -/
def Seen.meets (c : Seen) (w : DWord) : Bool :=
  let k := w.toNat / 2 ^ 60
  let v := w.toNat % 2 ^ 32
  if k = 1 then true
  else if k = 2 then (match c.pick with | some p => p.1.toNat == v | none => false)
  else if k = 3 then (match c.tag with | some t => t == v | none => false)
  else if k = 4 then c.trap.isSome
  else false

/-- Evaluates the trigger of the weft's context in one cycle and writes its records when the cycle is captured. -/
def Dev.trace (d : Dev) (r : Regs) (sh : Nat) (w : Weft) (seen : Seen) : Dev :=
  match Tab.find? d.debug w.ctx.toNat with
  | none => d
  | some g =>
    let s := d.sh sh
    let k := w.ctx.toNat
    if !g.unlocked || !g.armed || s.capOff.contains k then d
    else
      let start := seen.meets g.start
      let stop := seen.meets g.stop
      let captured := s.capOn.contains k || start
      if !captured then d
      else
        let d := d.modSh sh fun s =>
          { s with capOn := if stop then s.capOn.filter (· != k) else k :: s.capOn.filter (· != k), capOff := if stop then k :: s.capOff else s.capOff }
        let recs : List (Nat × Nat × Nat) :=
          (match seen.pick with | some (pc, slot, depth, act) => [(1, pc.toNat * 2 ^ 32 + slot * 65536 + depth, act.toNat)] | none => []) ++
          (match seen.tag with | some t => [(2, t, 0)] | none => []) ++
          (match seen.trap with | some (c, pc) => [(3, c + pc.toNat * 2 ^ 32, 0)] | none => [])
        recs.foldl (fun d x =>
          let q := (d.sh sh).seq
          let d := d.traceRec r (sh / 4) w.space g
            [BitVec.ofNat 64 (x.1 * 2 ^ 48 + sh * 2 ^ 32 + q % 2 ^ 32), (d.sh sh).clock, BitVec.ofNat 64 x.2.1, BitVec.ofNat 64 x.2.2]
          d.modSh sh fun s => { s with seq := q + 1 }) d

/-! ### The end of a pick (R54) -/

/-- Skip counts of the halves after a pick of the threads `act`, beside which the entries `others` stood in the table; `serve` is the half
that is still to be served (R70). -/
def Weft.countSkips (w : Weft) (act : Lanes) (others : List Entry) (serve : Option Nat) : Weft :=
  if !w.hdr.c16 then w
  else
    let one (c : Cells 8) (h : Nat) : Cells 8 :=
      if act &&& w.halfMask h != 0 then Cells.set c h 0
      else if others.any (fun e => e.state == .run && e.mask &&& w.halfMask h != 0) then Cells.set c h (Cells.get c h + 1)
      else c
    let c := one (one w.skips 0) 1
    if serve.isSome then { w with skips := c, serve := serve }
    else if Cells.get c 0 ≥ 16 then { w with skips := Cells.set c 0 0, serve := some 0 }
    else if Cells.get c 1 ≥ 16 then { w with skips := Cells.set c 1 0, serve := some 1 }
    else { w with skips := c, serve := none }

/-- Gives the threads of an ended pick their new keys and states, with the merges of R48, and queues its user traps. -/
def Weft.finishPick (w : Weft) (depth : Nat) (next : BitVec 32) (act0 act : Lanes) (dests : List Dest)
    (traps : List LaneTrap) : Weft :=
  let dest (l : Nat) : Dest :=
    (dests.find? (·.lane == l)).getD { lane := l, depth := depth, pc := next, state := .run, aux := 0, gone := false }
  let ds := (lanesOf act).map dest
  let others := w.entries
  let w := w.unyield
  let w := w.exitLanes (maskOf ((ds.filter (·.gone)).map (·.lane)))
  let w := { w with trapPend := w.trapPend ++ traps, trapFor := w.trapFor &&& ~~~ act0, fetch := none, picks := w.picks + 1 }
  let w := w.addEntries ((ds.filter fun x => !x.gone).map fun x =>
    { depth := x.depth, pc := x.pc, resume := 0, mask := oneLane x.lane, state := x.state, aux := x.aux })
  w.countSkips act0 others none

/-- The handler thread at the end of one of its picks (R266, R268): EXIT ends the handler. The pick counts for the halves (R70). No rule
says whether it counts as another entry's pick that clears the YLD marks of the entries held meanwhile; the model leaves them (DESIGN CHOICE,
notes/assumptions/67.md). -/
def Weft.finishHandlerPick (w : Weft) (depth : Nat) (next : BitVec 32) (act : Lanes) (dests : List Dest) : Weft :=
  match w.handler with
  | none => w
  | some h =>
    let w := w.countSkips (oneLane h.lane) w.entries w.serve
    if act = 0 then { w with fetch := none, picks := w.picks + 1 }
    else
      let x := (dests.find? (·.lane == h.lane)).getD
        { lane := h.lane, depth := depth, pc := next, state := .run, aux := 0, gone := false }
      let w : Weft := { w with fetch := none, picks := w.picks + 1 }
      if x.gone then w.endHandler
      else ({ w with handler := some { h with entry := { depth := x.depth, pc := x.pc, resume := 0, mask := oneLane h.lane,
                                                         state := .run, aux := 0 } } } : Weft).settleHandler

/-- Whether an access of pick number `pick` is still to be race-checked (R218). -/
def Dev.checksOpen (d : Dev) (r : WRef) (w : Weft) (pick : Nat) : Bool :=
  w.hdr.race != 0 && d.ops.any fun o => o.ref == r && o.pick == pick && o.accs.any (!·.checked) &&
    (o.kind == .load || o.kind == .store || o.kind == .atomic)

/-- Whether a weft has an access not yet performed, or a copy command that has not yet taken its ownership (R234). -/
def Dev.weftBusy (d : Dev) (r : WRef) : Bool :=
  d.ops.any (fun o => o.ref == r) || d.cmds.any fun c => c.ref == r && c.desc.isNone && !c.status.final

def EndAct.arrives : EndAct → Bool
  | .bar .sync _ _ | .bar .arrive _ _ => true
  | _ => false

def EndAct.isBar : EndAct → Bool
  | .bar _ _ _ => true
  | _ => false

/-- A twin's secondary copy ends a pick after the primary has ended it, so that it meets the primary's RACE traps (R224). -/
def Dev.mirrorOpen (d : Dev) (w : Weft) (pick : Nat) : Bool :=
  w.hdr.race != 0 &&
    match d.bolt? w.bolt with
    | none => false
    | some b => !d.isPrimary b && d.wefts.any fun p => p.2.widx == w.widx && p.2.bolt != w.bolt && decide (p.2.picks ≤ pick) &&
        (match d.bolt? p.2.bolt with | some x => x.serial == b.serial && x.idx == b.idx && d.isPrimary x | none => false)

/-- Whether the end of a pick waits: for its race checks (R218); where threads arrive at a barrier, for every earlier access of the
weft, an arrival being a release (R184, R380); and where they meet a barrier, for a bank that their bolt is due (R349). -/
def Dev.endHeld (d : Dev) (r : WRef) (w : Weft) (pick : Nat) (dests : List Dest) : Bool :=
  d.checksOpen r w pick || d.mirrorOpen w pick || (dests.any (·.act.arrives) && d.weftBusy r) ||
    (dests.any (·.act.isBar) && !w.sup && (match d.bolt? w.bolt with | some b => b.bankDue | none => false))

/-- Lanes of the dests with one end action. -/
def lanesActing (dests : List Dest) (act : Lanes) (a : EndAct) : Lanes :=
  maskOf ((dests.filter fun x => x.act == a && act.getLsbD x.lane).map (·.lane))

/-- Threads of an ended pick take their keys and states; calls park with a record for each service number (R276), arrivals reach
their barriers (R379), and ended threads may complete others (R40). -/
def Dev.finishDev (d : Dev) (regs : Regs) (ref : WRef) (depth : Nat) (next : BitVec 32) (act0 act : Lanes) (dests : List Dest)
    (traps : List LaneTrap) : Dev :=
  match d.weft? ref with
  | none => d
  | some w =>
    let acts := ((dests.filter fun x => act.getLsbD x.lane).map (·.act)).eraseDups
    let calls := acts.filterMap fun a => match a with | .call n idx => some (n, idx, lanesActing dests act a) | _ => none
    let called := calls.foldl (fun m c => m ||| c.2.2) 0
    let dests := dests.map fun x => match x.act with
      | .ecwait n => if w.waits.any (·.num == n) then x else { x with state := .run, aux := 0 }
      | _ => x
    let w0 := w
    let w := (w.finishPick depth next act0 (act &&& ~~~ called) dests traps)
    let d := d.putW ref w
    let d := calls.foldl (fun d c =>
      (d.parkWith regs ref false { lane := lowLane c.2.2, depth := depth, pc := next, resume := 0 } c.2.2 0x1A 0 0 c.1 (d.clockOf ref)).modW ref
        fun x => { x with parks := x.parks.map fun p => if p.num + 1 = x.nextPark then { p with res := some (w0.picks, c.2.1) } else p }) d
    -- a BAR by which threads arrive raises the release clock once (R210)
    let d := if acts.any EndAct.arrives then d.modW ref Weft.bumpClk else d
    let d := acts.foldl (fun d a => match a with
      | .bar .sync k c | .bar .arrive k c => d.arriveBar ref (lanesActing dests act a) k c
      | _ => d) d
    let d := if dests.any (·.gone) then d.barsAfterExit ref else d
    d.evalWaits ref

/-- Completes an ended pick whose end waits for nothing more. -/
def Dev.tryEnding (d : Dev) (regs : Regs) (r : WRef) : Dev :=
  match d.weft? r with
  | none => d
  | some w =>
    match w.ending with
    | none => d
    | some e =>
      if d.endHeld r w e.pick e.dests then d
      else
        let hit := (w.mirror.filter (·.1 == e.pick)).map (·.2)
        let hit := hit.filter fun t => e.act.getLsbD t.lane
        let gone := maskOf (hit.map (·.lane))
        let user := w.hdr.handler != 0
        let d := d.putW r { w with ending := none, mirror := w.mirror.filter fun m => decide (e.pick < m.1) }
        let d := d.finishDev regs r e.depth e.next e.act0 (e.act &&& ~~~ gone) e.dests (if user then hit else [])
        if user then d
        else (hit.map (·.sub)).eraseDups.foldl (fun d sub =>
          let mine := hit.filter (·.sub == sub)
          match mine with
          | t :: _ => d.parkWith regs r false t.back (maskOf (mine.map (·.lane))) t.cause.toNat sub.toNat t.addr.toNat 0 (d.clockOf r)
          | [] => d) d

/-- Ends the pick in progress of a shuttle: at once, or when what its end waits for has come about. -/
def Dev.endPick (d : Dev) (regs : Regs) (k : Nat) (run : PickRun) : Dev :=
  let d := d.modSh k fun s => { s with run := none }
  match d.weft? run.ref with
  | none => d
  | some w =>
    let next := run.pc + 8 + BitVec.ofNat 32 (8 * run.words.length)
    if run.handler then d.putW run.ref (w.finishHandlerPick run.depth next run.act run.dests)
    else
      let e : Ending := { pick := w.picks, next := next, act0 := run.act0, pc := run.pc, depth := run.depth, act := run.act,
                          dests := run.dests }
      (d.putW run.ref { w with ending := some e, trapPend := w.trapPend ++ run.traps, trapFor := w.trapFor &&& ~~~ run.act0 }).tryEnding
        regs run.ref

/-- Suspends the pick at the word being issued: its threads keep their key, with resume at that word (R52, R264). User traps that others
of its threads have raised wait until it has ended for these (R265). -/
def Dev.suspend (d : Dev) (k : Nat) (run : PickRun) : Dev :=
  let d := d.modSh k fun s => { s with run := none }
  match d.weft? run.ref with
  | none => d
  | some w =>
    let e : Entry := { depth := run.depth, pc := run.pc, resume := run.idx, mask := run.act, state := .run, aux := 0 }
    if run.handler then d.putW run.ref { w with handler := w.handler.map fun (h : Handler) => { h with entry := e } }
    else
      let pend := w.trapPend ++ run.traps
      let wait := (w.trapFor &&& ~~~ run.act0) ||| (if pend.isEmpty then 0 else run.act)
      d.putW run.ref ({ w with trapPend := pend, trapFor := wait }.addEntries [e])

/-! ### One word -/

/-- What the meaning of a word answers: it waits at issue for a reason of R354, it suspends the pick (R264), it consumes an uncorrectable
word (R350), or it issues:
the device after it, its cycles, the threads that trap and where the last word sends threads. -/
inductive Eff where
  | wait (reason : Nat)
  | suspend (d : Dev)
  | lost
  | done (d : Dev) (cycles : Nat) (traps : List Trap) (dests : List Dest)

/-- A BREAK of a context under debug: the shuttle stops, the breaking lanes keep the word with their skip bits set, and an event
of kind 3 is posted (R357). -/
def Dev.debugBreak (d : Dev) (c : Ctx) (m : Lanes) : Dev :=
  let e : Entry := { depth := c.run.depth, pc := c.run.pc, resume := c.run.idx, mask := m, state := .run, aux := 0 }
  let q := (d.sh c.sh).seq
  let ev : List DWord := [BitVec.ofNat 64 (3 * 2 ^ 48 + c.sh * 2 ^ 32 + q % 2 ^ 32), (d.sh c.sh).clock,
                          BitVec.ofNat 64 (0x18 + c.wordPc.toNat * 2 ^ 32), 0]
  let d : Dev := { d with host := { d.host with out := d.host.out ++ [HostMsg.debugEvent ev] } }
  let d := d.modSh c.sh fun x => { x with stopped := true, stopAt := x.clock, seq := q + 1 }
  let d := d.modW c.run.ref fun w =>
    if c.run.handler then { w with skip := w.skip ||| m, handler := w.handler.map fun (h : Handler) => { h with entry := e } }
    else { w with skip := w.skip ||| m, entries := insertEntry w.entries e }
  { d with wefts := d.wefts.map fun p => if refOnShuttle c.sh (refOfKey p.1) then (p.1, { p.2 with stopped := true }) else p }

/-! ### Tests where the word issues (R72, R123 to R125) -/

/-- Whether an operand's registers lie outside the weft's allocation (R67, R72). -/
def Weft.outside (w : Weft) (r : Nat × Nat) : Bool :=
  if r.1 < 640 then decide (w.hdr.vregs < r.1 + r.2)
  else decide (w.hdr.sregs ≤ r.1 - 640) || (w.hdr.c16 && decide (64 ≤ r.1 - 640))

/-- Whether a word's literal, which stands after it, is itself malformed: a reserved bit set, or its E not at the pick's last word
(R98, R103). -/
def Ctx.litBad (c : Ctx) (i : Instr) : Bool :=
  (i.hdr?.bind (·.lit)).isSome &&
    (fld (c.run.words.getD (c.run.idx + 1) 0) 58 3 != 0 || i.last != (c.run.idx + 2 == c.run.words.length))

/-- Every subcode of R124 that the word meets in its place: those of the word in a weft of this width, its place in the pick,
the allocation, and the words barred in a user handler (R266) or to a kernel of fewer than six vector registers (R460). -/
def Ctx.wordErrs (c : Ctx) (i : Instr) : List Nat :=
  i.encErrs c.w.hdr.w c.w.g ++
  (if (i.hdr?.bind (·.lit)).isSome || i.last == (c.run.idx + 1 == c.run.words.length) then [] else [5]) ++
  (if i.endsPick && c.run.idx + i.length != c.run.words.length then [6] else []) ++
  (if (c.w.ranges i).any c.w.outside || i.tilesOf.any (fun t => decide (c.w.hdr.acc ≤ t)) then [0xA] else []) ++
  (if c.run.handler && i.barredInHandler then [1] else [])

/-- Whether the weft may not execute the word (R78, R123). -/
def Ctx.barred (c : Ctx) (i : Instr) : Bool :=
  !c.w.sup &&
    (i.privileged || (i.isLx && !c.run.handler) ||
      match i with
      | .movs _ num _ _ => num == 56
      | .sets _ num _ => num == 56 || (num == 11 && !c.run.handler)
      | _ => false)

/-- The trap that the word raises where it issues, for every thread of `act`: ILL with the lowest subcode, else PRIV. -/
def Ctx.issueTrap (c : Ctx) (i : Instr) : Option (Nat × Nat) :=
  match lowest (c.wordErrs i) with
  | some e => some (0x01, e)
  | none => if c.barred i then some (0x02, 0) else none

/-- Words by which the pick advances past a word that has issued. -/
def Ctx.advance (c : Ctx) (i : Instr) : Nat := if c.litBad i then 1 else i.length

/-- The word's effect on the machine: cycles, traps, the advance of the pick and its end (R52 to R54, R263). -/
def settleWord (i : Instr) (s : State) (c : Ctx) : Eff → State
  | .wait reason => { s with dev := s.dev.waitCycle c.sh (s.dev.waitReason c.run.ref reason) }
  | .suspend d => { s with dev := (d.suspend c.sh c.run).waitCycle c.sh (s.dev.waitReason c.run.ref 7) }
  | .lost => { s with dev := (s.dev.loseBolt c.regs c.w.bolt).waitCycle c.sh 15 }
  | .done d n traps dests =>
    let len := c.advance i
    let d := d.issueCycles c.sh n c.w.sup
    let seen : Seen :=
      { pick := if c.run.idx = c.run.start then some (c.run.pc, c.run.ref.slot, c.run.depth, c.run.act) else none,
        tag := match i with
          | .tmark _ a => if (c.onHalves).isEmpty then none else some (c.uget (c.onHalves.headD 0) .i32 a)
          | _ => none,
        trap := traps.head?.map fun t => (t.cause, c.wordPc) }
    let d := d.trace c.regs c.sh c.w seen
    -- a BREAK of a context under debug stops the shuttle instead of trapping (R357)
    let (dbg, traps) := if traps.any (·.cause == 0x18) && (match Tab.find? d.debug c.w.ctx.toNat with | some g => g.unlocked | none => false)
      then (traps.filter (·.cause == 0x18), traps.filter (·.cause != 0x18)) else ([], traps)
    let (d, lts) := d.takeTraps c.regs (c.site len) (d.sh c.sh).clock traps
    let off := maskOf ((traps ++ dbg).map (·.lane))
    let act := c.run.act &&& ~~~ off
    let run : PickRun := { c.run with idx := c.run.idx + len, act := act, dests := c.run.dests ++ dests,
                                      traps := c.run.traps ++ lts }
    let d := if dbg.isEmpty then d else d.debugBreak c (maskOf (dbg.map (·.lane)))
    if act = 0 || (i.last && !c.litBad i) then { s with dev := d.endPick c.regs c.sh run }
    -- a trap freezes the supervisor weft, whose other threads stop at the next word (R272)
    else if c.w.sup && !traps.isEmpty then { s with dev := d.suspend c.sh run }
    else { s with dev := d.modSh c.sh fun x => { x with run := some run } }

/-- The context of a word on the current shuttle. -/
def State.ctxOf? (s : State) (guard : Guard) (lit : Option (BitVec 58)) : Option Ctx :=
  match (s.dev.sh s.cur).run with
  | none => none
  | some run =>
    match s.dev.weft? run.ref with
    | none => none
    | some w => some { regs := s.regs, sh := s.cur, run := run, w := w, guard := guard, lit := lit }

def State.ctx? (s : State) (i : Instr) : Option Ctx :=
  s.ctxOf? (i.guard?.getD { uni := true, neg := false, num := 7 }) (i.hdr?.bind (·.lit))

/-- Threads that consume an uncorrectable register or tile of the word: of a vector register its lane, or
every thread of `act` where the word reads the registers of all lanes, of the rest the threads of the half. -/
def Ctx.consumers (c : Ctx) (i : Instr) : Lanes :=
  let bad (k : Nat) : Bool := c.w.badWords.contains k
  let whole := match i with
    | .mma _ _ _ _ _ _ | .accmvToTile _ _ _ => true
    | _ => false
  let half (h : Nat) : Lanes := c.run.act &&& c.w.halfMask h
  let tile (t : Nat) : Lanes := (c.w.halves c.run.act).foldl (fun m h =>
    if bad (badTile (h * 128 + t)) then m ||| half h else m) 0
  ((i.uses c.w.hdr.w c.w.g).filter (·.rd)).foldl (fun m u => match u.o with
    | .vec k =>
      if whole then
        (if (lanesOf c.w.full).any fun l => (List.range u.n).any fun j => bad (badV l (k.val + j)) then m ||| c.run.act else m)
      else m ||| maskOf ((lanesOf c.run.act).filter fun l => (List.range u.n).any fun j => bad (badV l (k.val + j)))
    | .scal k => (c.w.halves c.run.act).foldl (fun m h => if bad (badS (c.w.sIdx h k.val)) then m ||| half h else m) m
    | _ => m) 0 |||
  match i with
  | .mma _ m t _ _ _ => if m.ra then 0 else tile t.val
  | .accst _ t _ | .accmvToRegs _ _ t => tile t.val
  | _ => 0

/-- Causes that a thread raises before UNCORR (R263). -/
def beforeUncorr (cause : Nat) : Bool := [0x03, 0x04, 0x05, 0x06, 0x10, 0x11].contains cause

/-- What a word does where it issues: the trap of `issueTrap` for every thread of `act` (R125), a wait while a register it names has
a pending write (R112), or its own effect `f`; where a thread that raises none of the causes before UNCORR consumes an uncorrectable
word, the loss of the bolt (R263, R350), or the trap of the supervisor weft. -/
def Ctx.perform (c : Ctx) (i : Instr) (d : Dev) (f : Ctx → Dev → Eff) : Eff :=
  match c.issueTrap i with
  | some (cause, sub) => .done d 1 (trapsAt (lanesOf c.run.act) cause sub 0 .here) []
  | none =>
    if c.w.sbWaits i then .wait 2
    else if c.w.badWords.isEmpty then f c d
    else match f c d with
      | .done d' n ts ds =>
        let eaten := c.consumers i &&& ~~~ maskOf ((ts.filter fun t => beforeUncorr t.cause).map (·.lane))
        if eaten = 0 then .done d' n ts ds
        else if c.w.sup then .done d 1 (trapsAt (lanesOf c.run.act) 0x13 0 0 .here) []
        else .lost
      | e => e

/-- Runs a word on the current shuttle. With no pick in progress there is no weft for which it could issue. -/
def runWord (i : Instr) (s : State) (f : Ctx → Dev → Eff) : Host.Outcome State Fault Refusal :=
  match s.ctx? i with
  | none => .fault .noPick
  | some c => .next (settleWord i s c (c.perform i s.dev f))

/-! ### Cycles of a word (R53) -/

def upTo (n k : Nat) : Nat := max 1 ((n + k - 1) / k)

/-- Cycles of a per-thread word over the threads whose guard holds; a uniform one takes a cycle per half. -/
def Ctx.cycles (c : Ctx) (uniform : Bool) (k : Nat) : Nat :=
  if uniform then max 1 (c.w.halves c.run.act).length else upTo c.on.length k

/-- The weft after per-thread or uniform writes: for a uniform word once per half whose guard holds. -/
def Ctx.eachLane (c : Ctx) (d : Operand) (f : Nat → Nat → Weft → Weft) : Weft :=
  if d.makesUniform then c.onHalves.foldl (fun w h => f h 0 w) c.w
  else c.on.foldl (fun w l => f (c.w.halfOf l) l w) c.w

/-- The traps of a word for every thread of `act` (R125). -/
def Ctx.trapAll (c : Ctx) (d : Dev) (cause sub addr : Nat) : Eff := .done d 1 (trapsAt (lanesOf c.run.act) cause sub addr .here) []

end Sys2Proof.Machine
end

