-- ==== Sys2Proof/Machine/Integer.lean ====
section
/-! DEFINITION. Class 1: integer arithmetic, bit operations, predicates and selection (R367, R374, R381, R382, R385, R388,
R413 to R415, R430 to R433), and the shared form of a word that computes and writes at once. -/

namespace Sys2Proof.Machine

/-- A word that computes per thread, or once per half when `uni`, and writes before the next word: `f` gives for half and lane
the writes and the exceptions raised. An exception whose trap is enabled replaces the writes (R140, R398). -/
def aluWord (i : Instr) (s : State) (uni : Bool) (cyc : Ctx → Nat) (f : Ctx → Nat → Nat → (Weft → Weft) × Exc) :
    Host.Outcome State Fault Refusal :=
  runWord i s fun c dev =>
    let units : List (Nat × Nat) := if uni then c.onHalves.map fun h => (h, 0) else c.on.map fun l => (c.w.halfOf l, l)
    let w := units.foldl (fun w u =>
      let r := f c u.1 u.2
      let w := if r.2 = 0 then w else w.orFpst u.1 r.2
      if (c.w.excCause r.2).isSome then w else r.1 w) c.w
    let traps := units.flatMap fun u =>
      match c.w.excCause (f c u.1 u.2).2 with
      | some k => trapsAt (if uni then lanesOf (c.actOf u.1) else [u.2]) k 0 0 .here
      | none => []
    .done (dev.putW c.run.ref w) (cyc c) traps []

/-- Operand reader of a unit. -/
def Ctx.rd (c : Ctx) (h l : Nat) (r : Reader) (o : Operand) : Nat := c.w.opnd h l c.lit r o

def intReader (t : IntTy) : Reader := if t.wide then .i64 else .i32

/-- An n-bit pattern as the type reads it (R413). -/
def intVal (t : IntTy) (x : Nat) : Int := if t.signed then sxN x t.bits else x

/-- Cycles of the 64-bit multiplies (R53). -/
def mulCycles (t : IntTy) (d : Operand) (c : Ctx) : Nat :=
  if t.wide && !d.makesUniform then max 1 (4 * ((c.on.length + 15) / 16)) else c.cycles d.makesUniform 16

/-- A class 1 word that writes an n-bit result computed from its n-bit sources. -/
def intWord (i : Instr) (s : State) (t : IntTy) (d : Operand) (cyc : Ctx → Nat) (f : (Operand → Nat) → Nat) :
    Host.Outcome State Fault Refusal :=
  aluWord i s d.makesUniform cyc fun c h l =>
    let v := f (c.rd h l (intReader t))
    (fun w => w.write h l d t.wide (intExt t) v, 0)

def plainCycles (d : Operand) (c : Ctx) : Nat := c.cycles d.makesUniform 16

/-! ### Arithmetic (R413, R414) -/

def iresult (m : IntMod) (x : Int) : Nat := intResult m.ty.signed m.sat m.ty.bits x

def execIadd (h : Hdr) (m : IntMod) (d a b : Operand) (s : State) : Host.Outcome State Fault Refusal :=
  intWord (.iadd h m d a b) s m.ty d (plainCycles d) fun g => iresult m (intVal m.ty (g a) + intVal m.ty (g b))

def execIsub (h : Hdr) (m : IntMod) (d a b : Operand) (s : State) : Host.Outcome State Fault Refusal :=
  intWord (.isub h m d a b) s m.ty d (plainCycles d) fun g => iresult m (intVal m.ty (g a) - intVal m.ty (g b))

def execImul (h : Hdr) (m : IntMod) (d a b : Operand) (s : State) : Host.Outcome State Fault Refusal :=
  intWord (.imul h m d a b) s m.ty d (mulCycles m.ty d) fun g => iresult m (intVal m.ty (g a) * intVal m.ty (g b))

/-- The upper n bits of the exact 2n-bit product. -/
def imulhVal (t : IntTy) (a b : Nat) : Nat := truncI ((intVal t a * intVal t b) / (2 ^ t.bits : Nat)) t.bits

def execImulh (h : Hdr) (t : IntTy) (d a b : Operand) (s : State) : Host.Outcome State Fault Refusal :=
  intWord (.imulh h t d a b) s t d (mulCycles t d) fun g => imulhVal t (g a) (g b)

def execImad (h : Hdr) (m : IntMod) (d a b c : Operand) (s : State) : Host.Outcome State Fault Refusal :=
  intWord (.imad h m d a b c) s m.ty d (mulCycles m.ty d) fun g =>
    iresult m (intVal m.ty (g a) * intVal m.ty (g b) + intVal m.ty (g c))

def execImin (h : Hdr) (t : IntTy) (d a b : Operand) (s : State) : Host.Outcome State Fault Refusal :=
  intWord (.imin h t d a b) s t d (plainCycles d) fun g => truncI (min (intVal t (g a)) (intVal t (g b))) t.bits

def execImax (h : Hdr) (t : IntTy) (d a b : Operand) (s : State) : Host.Outcome State Fault Refusal :=
  intWord (.imax h t d a b) s t d (plainCycles d) fun g => truncI (max (intVal t (g a)) (intVal t (g b))) t.bits

def execIabs (h : Hdr) (m : IntMod) (d a : Operand) (s : State) : Host.Outcome State Fault Refusal :=
  intWord (.iabs h m d a) s m.ty d (plainCycles d) fun g =>
    iresult m (let x := intVal m.ty (g a); if x < 0 then -x else x)

def execMov (h : Hdr) (t : IntTy) (d a : Operand) (s : State) : Host.Outcome State Fault Refusal :=
  intWord (.mov h t d a) s t d (plainCycles d) fun g => g a

def execLea (h : Hdr) (m : IntMod) (k : Fin 8) (d a b : Operand) (s : State) : Host.Outcome State Fault Refusal :=
  intWord (.lea h m k d a b) s m.ty d (plainCycles d) fun g =>
    iresult m (intVal m.ty (g a) + intVal m.ty (g b) * (2 ^ k.val : Nat))

/-! ### Bits (R374, R381, R382, R385, R388, R430) -/

def execAnd (h : Hdr) (t : IntTy) (d a b : Operand) (s : State) : Host.Outcome State Fault Refusal :=
  intWord (.and h t d a b) s t d (plainCycles d) fun g => g a &&& g b

def execOr (h : Hdr) (t : IntTy) (d a b : Operand) (s : State) : Host.Outcome State Fault Refusal :=
  intWord (.or h t d a b) s t d (plainCycles d) fun g => g a ||| g b

def execXor (h : Hdr) (t : IntTy) (d a b : Operand) (s : State) : Host.Outcome State Fault Refusal :=
  intWord (.xor h t d a b) s t d (plainCycles d) fun g => g a ^^^ g b

def execNot (h : Hdr) (t : IntTy) (d a : Operand) (s : State) : Host.Outcome State Fault Refusal :=
  intWord (.not h t d a) s t d (plainCycles d) fun g => 2 ^ t.bits - 1 - g a

/-- The shift count: bits [31:0] of srcB, masked to n − 1 or clamped to n (R430). -/
def shiftCount (clamp : Bool) (n b : Nat) : Nat := let k := b % 2 ^ 32; if clamp then min k n else k % n

def shlVal (clamp : Bool) (n a b : Nat) : Nat := a * 2 ^ shiftCount clamp n b % 2 ^ n
def shrVal (clamp : Bool) (n a b : Nat) : Nat := a / 2 ^ shiftCount clamp n b
def sarVal (clamp : Bool) (n a b : Nat) : Nat := truncI (sxN a n / (2 ^ shiftCount clamp n b : Nat)) n

def execShl (h : Hdr) (m : ShMod) (d a b : Operand) (s : State) : Host.Outcome State Fault Refusal :=
  intWord (.shl h m d a b) s m.ty d (plainCycles d) fun g => shlVal m.clamp m.ty.bits (g a) (g b)

def execShr (h : Hdr) (m : ShMod) (d a b : Operand) (s : State) : Host.Outcome State Fault Refusal :=
  intWord (.shr h m d a b) s m.ty d (plainCycles d) fun g => shrVal m.clamp m.ty.bits (g a) (g b)

def execSar (h : Hdr) (m : ShMod) (d a b : Operand) (s : State) : Host.Outcome State Fault Refusal :=
  intWord (.sar h m d a b) s m.ty d (plainCycles d) fun g => sarVal m.clamp m.ty.bits (g a) (g b)

/-- BFX (R382). -/
def bfxVal (t : IntTy) (a b c : Nat) : Nat :=
  let pos := b % 256
  let len := min (c % 256) t.bits
  if len = 0 then 0
  else
    let f := truncI (intVal t a / (2 ^ pos : Nat)) len
    if t.signed then truncI (sxN f len) t.bits else f

def execBfx (h : Hdr) (t : IntTy) (d a b c : Operand) (s : State) : Host.Outcome State Fault Refusal :=
  intWord (.bfx h t d a b c) s t d (plainCycles d) fun g => bfxVal t (g a) (g b) (g c)

/-- BFI (R381). -/
def bfiVal (n a b c : Nat) : Nat :=
  let pos := c % 256
  let len := c / 256 % 256
  let mask := (2 ^ len - 1) * 2 ^ pos % 2 ^ n
  (b &&& (2 ^ n - 1 - mask)) ||| (a * 2 ^ pos % 2 ^ n &&& mask)

def execBfi (h : Hdr) (t : IntTy) (d a b c : Operand) (s : State) : Host.Outcome State Fault Refusal :=
  intWord (.bfi h t d a b c) s t d (plainCycles d) fun g => bfiVal t.bits (g a) (g b) (g c)

def popcVal (n a : Nat) : Nat := ((List.range n).filter fun k => nbit a k).length
def clzVal (n a : Nat) : Nat := if a = 0 then n else n - 1 - a.log2
def brevVal (n a : Nat) : Nat := (List.range n).foldl (fun r k => r + if nbit a k then 2 ^ (n - 1 - k) else 0) 0

def execPopc (h : Hdr) (t : IntTy) (d a : Operand) (s : State) : Host.Outcome State Fault Refusal :=
  intWord (.popc h t d a) s t d (plainCycles d) fun g => popcVal t.bits (g a)

def execClz (h : Hdr) (t : IntTy) (d a : Operand) (s : State) : Host.Outcome State Fault Refusal :=
  intWord (.clz h t d a) s t d (plainCycles d) fun g => clzVal t.bits (g a)

def execBrev (h : Hdr) (t : IntTy) (d a : Operand) (s : State) : Host.Outcome State Fault Refusal :=
  intWord (.brev h t d a) s t d (plainCycles d) fun g => brevVal t.bits (g a)

/-! ### Predicates, selection, bytes (R415, R431 to R433) -/

def icmp (c : ICmp) (a b : Int) : Bool :=
  match c with
  | .eq => a == b | .ne => a != b | .lt => decide (a < b) | .le => decide (a ≤ b) | .gt => decide (b < a) | .ge => decide (b ≤ a)

def execIsetp (h : Hdr) (t : IntTy) (cmp : ICmp) (d a b : Operand) (s : State) : Host.Outcome State Fault Refusal :=
  intWord (.isetp h t cmp d a b) s t d (plainCycles d) fun g => (icmp cmp (intVal t (g a)) (intVal t (g b))).toNat

def execSel (h : Hdr) (t : IntTy) (d a b p : Operand) (s : State) : Host.Outcome State Fault Refusal :=
  aluWord (.sel h t d a b p) s d.makesUniform (plainCycles d) fun c k l =>
    let v := if c.w.pred k l p then c.rd k l (intReader t) a else c.rd k l (intReader t) b
    (fun w => w.write k l d t.wide (intExt t) v, 0)

/-- The four result bytes of SWIZB from the pool of two words (R433). -/
def swizbVal (a b sel : Nat) : Nat :=
  let pool := a + 2 ^ 32 * b
  ((List.range 4).foldl (fun (r : Nat × Nat) i =>
    let k := sel / 16 ^ i % 16
    let x := if k ≤ 7 then pool / 256 ^ k % 256
      else if k = 9 then 0xFF
      else if k = 10 && i > 0 && decide (128 ≤ r.2) then 0xFF else 0
    (r.1 + x * 256 ^ i, x)) (0, 0)).1

def execSwizb (h : Hdr) (z : Bool) (d a b sel : Operand) (s : State) : Host.Outcome State Fault Refusal :=
  let t : IntTy := if z then .z32 else .s32
  intWord (.swizb h z d a b sel) s t d (plainCycles d) fun g => swizbVal (g a) (g b) (g sel)

def execPlop (h : Hdr) (table : BitVec 8) (d a b : Operand) (s : State) : Host.Outcome State Fault Refusal :=
  aluWord (.plop h table d a b) s d.makesUniform (plainCycles d) fun c k l =>
    let x (o : Operand) : Nat := (c.w.pred k l o).toNat
    (fun w => w.write k l d false .zx32 (table.getLsbD (4 * x a + 2 * x b + x d)).toNat, 0)

def execP2v (h : Hdr) (d : Operand) (s : State) : Host.Outcome State Fault Refusal :=
  aluWord (.p2v h d) s false (plainCycles d) fun c k l =>
    let v := (List.range 8).foldl (fun r n => r + (c.w.p l n).toNat * 2 ^ n) 0
    (fun w => w.write k l d false .zx32 v, 0)

def execV2p (h : Hdr) (a b : Operand) (s : State) : Host.Outcome State Fault Refusal :=
  aluWord (.v2p h a b) s false (fun c => upTo c.on.length 16) fun c k l =>
    let x := c.rd k l .i32 a
    let m := c.rd k l .i32 b
    (fun w => (List.range 7).foldl (fun w n => if nbit m n then w.setP l n (nbit x n) else w) w, 0)

end Sys2Proof.Machine
end

