-- ==== Sys2Proof/Machine/Float.lean ====
section
/-! DEFINITION. Class 2 and class 3: float, packed and conversion words, and the pair word (R106 to R109, R390, R397 to R407,
R412, R434, R435). -/

namespace Sys2Proof.Machine

/-- A word that writes a 32-bit result with exceptions; a scalar takes it zero-extended (R397, R412). -/
def floatWord (i : Instr) (s : State) (d : Operand) (k : Nat) (f : Ctx → Nat → Nat → Nat × Exc) :
    Host.Outcome State Fault Refusal :=
  aluWord i s d.makesUniform (fun c => c.cycles d.makesUniform k) fun c h l =>
    let r := f c h l
    (fun w => w.write h l d false .zx32 r.1, r.2)

/-! ### Float (R399 to R407) -/

def execFadd (h : Hdr) (m : FltMod) (d a b : Operand) (s : State) : Host.Outcome State Fault Refusal :=
  floatWord (.fadd h m d a b) s d 16 fun c k l => fadd m (c.rd k l .f32 a) (c.rd k l .f32 b)

def execFsub (h : Hdr) (m : FltMod) (d a b : Operand) (s : State) : Host.Outcome State Fault Refusal :=
  floatWord (.fsub h m d a b) s d 16 fun c k l => fsub m (c.rd k l .f32 a) (c.rd k l .f32 b)

def execFmul (h : Hdr) (m : FltMod) (d a b : Operand) (s : State) : Host.Outcome State Fault Refusal :=
  floatWord (.fmul h m d a b) s d 16 fun c k l => fmul m (c.rd k l .f32 a) (c.rd k l .f32 b)

def execFfma (h : Hdr) (m : FltMod) (d a b c : Operand) (s : State) : Host.Outcome State Fault Refusal :=
  floatWord (.ffma h m d a b c) s d 16 fun x k l => ffma m (x.rd k l .f32 a) (x.rd k l .f32 b) (x.rd k l .f32 c)

def execFmin (h : Hdr) (neg abs : Bool) (d a b : Operand) (s : State) : Host.Outcome State Fault Refusal :=
  floatWord (.fmin h neg abs d a b) s d 16 fun c k l => (fminmax false neg abs (c.rd k l .f32 a) (c.rd k l .f32 b), 0)

def execFmax (h : Hdr) (neg abs : Bool) (d a b : Operand) (s : State) : Host.Outcome State Fault Refusal :=
  floatWord (.fmax h neg abs d a b) s d 16 fun c k l => (fminmax true neg abs (c.rd k l .f32 a) (c.rd k l .f32 b), 0)

def execFsetp (h : Hdr) (cmp : FCmp) (d a b : Operand) (s : State) : Host.Outcome State Fault Refusal :=
  floatWord (.fsetp h cmp d a b) s d 16 fun c k l => ((fsetp cmp (c.rd k l .f32 a) (c.rd k l .f32 b)).toNat, 0)

def execFrcp (h : Hdr) (rnd : Rnd) (sat neg : Bool) (d a : Operand) (s : State) : Host.Outcome State Fault Refusal :=
  floatWord (.frcp h rnd sat neg d a) s d 4 fun c k l => funary rcpNum rnd sat neg (c.rd k l .f32 a)

def execFrsq (h : Hdr) (rnd : Rnd) (sat neg : Bool) (d a : Operand) (s : State) : Host.Outcome State Fault Refusal :=
  floatWord (.frsq h rnd sat neg d a) s d 4 fun c k l => funary rsqNum rnd sat neg (c.rd k l .f32 a)

def execFex2 (h : Hdr) (rnd : Rnd) (sat neg : Bool) (d a : Operand) (s : State) : Host.Outcome State Fault Refusal :=
  floatWord (.fex2 h rnd sat neg d a) s d 4 fun c k l => funary ex2Num rnd sat neg (c.rd k l .f32 a)

def execFlg2 (h : Hdr) (rnd : Rnd) (sat neg : Bool) (d a : Operand) (s : State) : Host.Outcome State Fault Refusal :=
  floatWord (.flg2 h rnd sat neg d a) s d 4 fun c k l => funary lg2Num rnd sat neg (c.rd k l .f32 a)

def execFsin (h : Hdr) (rnd : Rnd) (sat neg : Bool) (d a : Operand) (s : State) : Host.Outcome State Fault Refusal :=
  floatWord (.fsin h rnd sat neg d a) s d 4 fun c k l => funary (trigNum false) rnd sat neg (c.rd k l .f32 a)

def execFcos (h : Hdr) (rnd : Rnd) (sat neg : Bool) (d a : Operand) (s : State) : Host.Outcome State Fault Refusal :=
  floatWord (.fcos h rnd sat neg d a) s d 4 fun c k l => funary (trigNum true) rnd sat neg (c.rd k l .f32 a)

def execFrnd (h : Hdr) (rnd : Rnd) (sat neg : Bool) (d a : Operand) (s : State) : Host.Outcome State Fault Refusal :=
  floatWord (.frnd h rnd sat neg d a) s d 16 fun c k l => frnd rnd sat neg (c.rd k l .f32 a)

def execFclass (h : Hdr) (d a : Operand) (s : State) : Host.Outcome State Fault Refusal :=
  floatWord (.fclass h d a) s d 16 fun c k l => (fclass (c.rd k l .f32 a), 0)

def execFscale (h : Hdr) (rnd : Rnd) (sat neg : Bool) (d a b : Operand) (s : State) : Host.Outcome State Fault Refusal :=
  floatWord (.fscale h rnd sat neg d a b) s d 16 fun c k l =>
    fscale rnd sat neg (c.rd k l .f32 a) (sxN (c.rd k l .i32 b) 32)

/-! ### Packed (R412, R434, R435) -/

def execVadd2 (h : Hdr) (m : PMod) (d a b : Operand) (s : State) : Host.Outcome State Fault Refusal :=
  floatWord (.vadd2 h m d a b) s d 16 fun c k l => (vadd2 m (c.rd k l .p16 a) (c.rd k l .p16 b), 0)

def execVsub2 (h : Hdr) (m : PMod) (d a b : Operand) (s : State) : Host.Outcome State Fault Refusal :=
  floatWord (.vsub2 h m d a b) s d 16 fun c k l => (vsub2 m (c.rd k l .p16 a) (c.rd k l .p16 b), 0)

def execVmin2 (h : Hdr) (m : PMod) (d a b : Operand) (s : State) : Host.Outcome State Fault Refusal :=
  floatWord (.vmin2 h m d a b) s d 16 fun c k l => (vmin2 m (c.rd k l .p16 a) (c.rd k l .p16 b), 0)

def execVmax2 (h : Hdr) (m : PMod) (d a b : Operand) (s : State) : Host.Outcome State Fault Refusal :=
  floatWord (.vmax2 h m d a b) s d 16 fun c k l => (vmax2 m (c.rd k l .p16 a) (c.rd k l .p16 b), 0)

def execVacs2 (h : Hdr) (m : PMod) (dec : Fin 4) (d a b c : Operand) (s : State) : Host.Outcome State Fault Refusal :=
  aluWord (.vacs2 h m dec d a b c) s d.makesUniform (plainCycles d) fun x k l =>
    let r := vacs2 m (x.rd k l .p16 a) (x.rd k l .p16 b) (x.rd k l .p16 c)
    (fun w =>
      let w := w.write k l d false .zx32 r.1
      if dec.val = 3 then w else (w.setP l (2 * dec.val) r.2.1).setP l (2 * dec.val + 1) r.2.2, 0)

def halfReader (m : HMod) : Reader := if m.f16 then .f162 else .bf2

def execHadd2 (h : Hdr) (m : HMod) (d a b : Operand) (s : State) : Host.Outcome State Fault Refusal :=
  floatWord (.hadd2 h m d a b) s d 16 fun c k l => hadd2 m (c.rd k l (halfReader m) a) (c.rd k l (halfReader m) b)

def execHmul2 (h : Hdr) (m : HMod) (d a b : Operand) (s : State) : Host.Outcome State Fault Refusal :=
  floatWord (.hmul2 h m d a b) s d 16 fun c k l => hmul2 m (c.rd k l (halfReader m) a) (c.rd k l (halfReader m) b)

def execHfma2 (h : Hdr) (m : HMod) (d a b c : Operand) (s : State) : Host.Outcome State Fault Refusal :=
  floatWord (.hfma2 h m d a b c) s d 16 fun x k l =>
    hfma2 m (x.rd k l (halfReader m) a) (x.rd k l (halfReader m) b) (x.rd k l (halfReader m) c)

/-! ### Conversion (R390, R391) -/

/-- How the image of a result reaches a scalar: signed 8- to 32-bit types sign-extended, others zero-extended (R390). -/
def cvtExt (t : CvtTy) : Ext :=
  match t with
  | .s8 | .s16 | .s32 => .sx32
  | .s64 | .z64 => .full
  | _ => .zx32

def execCvt (h : Hdr) (m : CvtMod) (d a : Operand) (s : State) : Host.Outcome State Fault Refusal :=
  aluWord (.cvt h m d a) s d.makesUniform (plainCycles d) fun c k l =>
    let r := cvt m (c.rd k l (.cvt m.sty) a)
    (fun w => w.write k l d m.dty.wide (cvtExt m.dty) (truncI r.1 (if m.dty.wide then 64 else 32)), r.2)

/-! ### Pair words (R106 to R109) -/

/-- The second scalar source: a scalar or an inline integer. -/
def Ctx.pst (c : Ctx) (h : Nat) : PST → Nat
  | .reg n => (c.w.s h n.val).toNat
  | .imm n => truncI ((n.val : Int) - 32) 64

/-- The write of the scalar slot for half `h`, on 64-bit values (R107). -/
def Ctx.sslot (c : Ctx) (h : Nat) (o : SSlot) : Weft → Weft :=
  let reg (n : Fin 128) : Nat := (c.w.s h n.val).toNat
  let put (d : Fin 128) (v : Nat) (w : Weft) : Weft := w.setS h d.val (BitVec.ofNat 64 v)
  match o with
  | .bin op d s t =>
    let x := reg s
    let y := c.pst h t
    put d (match op with
      | .add => x + y
      | .sub => x + 2 ^ 64 - y
      | .and => x &&& y
      | .or => x ||| y
      | .xor => x ^^^ y
      | .shl => shlVal false 64 x y
      | .shr => shrVal false 64 x y)
  | .mov d t => put d (c.pst h t)
  | .lea k d s t => put d (reg s + c.pst h t * 2 ^ k.val)
  | .setp uns cmp d s t =>
    let v (x : Nat) : Int := if uns then x else sxN x 64
    fun w => w.setQ h d.val (icmp cmp (v (reg s)) (v (c.pst h t)))
  | .sel k d s t => put d (if c.w.q h k.val then reg s else c.pst h t)

/-- Reader type of a vector-slot operation (R108). -/
def vopReader : VOp → Reader
  | .fadd _ | .fmul _ | .fmin _ _ | .fmax _ _ => .f32
  | .vadd2 _ | .vmin2 _ | .vmax2 _ => .p16
  | .hadd2 m | .hmul2 m => halfReader m
  | _ => .i32

/-- vd op vs, as the full form computes it with srcA = vd (R108). -/
def vopEval (op : VOp) (a b : Nat) : Nat × Exc :=
  match op with
  | .iadd z sat => (intResult (!z) sat 32 ((if z then (a : Int) else sxN a 32) + (if z then (b : Int) else sxN b 32)), 0)
  | .isub z sat => (intResult (!z) sat 32 ((if z then (a : Int) else sxN a 32) - (if z then (b : Int) else sxN b 32)), 0)
  | .and _ => (a &&& b, 0)
  | .or _ => (a ||| b, 0)
  | .xor _ => (a ^^^ b, 0)
  | .shl _ cl => (shlVal cl 32 a b, 0)
  | .shr _ cl => (shrVal cl 32 a b, 0)
  | .mov => (b, 0)
  | .fadd m => fadd m a b
  | .fmul m => fmul m a b
  | .fmin n ab => (fminmax false n ab a b, 0)
  | .fmax n ab => (fminmax true n ab a b, 0)
  | .vadd2 m => (vadd2 m a b, 0)
  | .vmin2 m => (vmin2 m a b, 0)
  | .vmax2 m => (vmax2 m a b, 0)
  | .hadd2 m => hadd2 m a b
  | .hmul2 m => hmul2 m a b

/-- The second vector source: a vector register, bits [31:0] of a scalar, or an inline integer of the operation's type. -/
def Ctx.pvs (c : Ctx) (h l : Nat) (r : Reader) : PVS → Nat
  | .vec n => (c.w.v l n.val).toNat
  | .scal n => (c.w.s h n.val).toNat % 2 ^ 32
  | .imm n => readInt r ((n.val : Int) - 32)

/-- Both slots read all their operands before either writes; a false uniform guard disables both (R109). -/
def execPairWord (last : Bool) (g : Guard) (so : Option SSlot) (vo : Option VSlot) (s : State) :
    Host.Outcome State Fault Refusal :=
  runWord (.pairWord last g so vo) s fun c dev =>
    let vs : List (Nat × Nat × (Nat × Exc)) := match vo with
      | none => []
      | some v => c.on.map fun l =>
        let h := c.w.halfOf l
        (h, l, vopEval v.op (c.w.v l v.vd.val).toNat (c.pvs h l (vopReader v.op) v.vs))
    let ss : List (Weft → Weft) := match so with
      | none => []
      | some o => c.onHalves.map fun h => c.sslot h o
    let w := ss.foldl (fun w f => f w) c.w
    let w := vs.foldl (fun w x =>
      let w := if x.2.2.2 = 0 then w else w.orFpst x.1 x.2.2.2
      match vo with
      | some v => if (c.w.excCause x.2.2.2).isSome then w else w.setV x.2.1 v.vd.val (BitVec.ofNat 32 x.2.2.1)
      | none => w) w
    let traps := vs.flatMap fun x =>
      match c.w.excCause x.2.2.2 with
      | some k => trapsAt [x.2.1] k 0 0 .here
      | none => []
    .done (dev.putW c.run.ref w) (if vo.isSome then upTo c.on.length 16 else max 1 (c.w.halves c.run.act).length) traps []

end Sys2Proof.Machine
end

