-- ==== Sys2Proof/Machine/Cross.lean ====
section
/-! DEFINITION. Class 4: the cross-thread words SHFL, VOTE, REDUX, MATES and RDFL (R68, R424, R436 to R440), and the special
registers read and written by MOVS and SETS (R77 to R84, R429, R461). -/

namespace Sys2Proof.Machine

/-! ### Cross-thread words -/

/-- Lanes of a group in which a cross-thread word acts: the weft, or a half in compatibility mode (R68). -/
def Weft.group (w : Weft) : Nat := if w.hdr.c16 then 16 else w.hdr.w

/-- Participants of a half: threads of `act` whose guard holds (R436). -/
def Ctx.parts (c : Ctx) (h : Nat) : List Nat := c.on.filter fun l => c.w.halfOf l == h

/-- Cycles of a cross-thread word (R53). -/
def Ctx.crossCycles (c : Ctx) : Nat := upTo c.w.hdr.w 16

/-- A cross-thread word: `f` gives, for a half and its participants, the weft after their writes; every read is of the weft as it
stood (R8). -/
def crossWord (i : Instr) (s : State) (f : Ctx → Nat → List Nat → Weft → Weft) : Host.Outcome State Fault Refusal :=
  runWord i s fun c d =>
    let w := (c.w.halves c.run.act).foldl (fun w h => let ps := c.parts h; if ps.isEmpty then w else f c h ps w) c.w
    .done (d.putW c.run.ref w) c.crossCycles [] []

/-- The largest power of two not above `n`, for `n` of 1 to 64. -/
def pow2Below (n : Nat) : Nat := 2 ^ n.log2

/-- Segment width of a SHFL (R437). -/
def shflWidth (wh w : Nat) : Nat := let w := w % 128; if w = 0 || wh < w then wh else pow2Below w

/-- Source lane of a SHFL within its group: lane `l`, segment width `w`, operand `k` (R437). -/
def shflSource (m : ShflMode) (l w k : Nat) : Nat :=
  let base := l - l % w
  match m with
  | .idx => base + k % w
  | .up => if l < base + k then l else l - k
  | .down => if base + w ≤ l + k then l else l + k
  | .xor => base + ((l % w) ^^^ (k % w))

def execShfl (h : Hdr) (m : ShflMode) (d a b sc : Operand) (s : State) : Host.Outcome State Fault Refusal :=
  crossWord (.shfl h m d a b sc) s fun c hf ps w =>
    let wd := shflWidth c.w.group (c.uget hf .i32 sc)
    let off := 16 * hf
    ps.foldl (fun w t =>
      let k := c.get t .i32 b % 128
      w.write hf t d false .zx32 (c.rd hf (off + shflSource m (t - off) wd k) .i32 a)) w

/-- VOTE: the answer of the participants whose predicate reads 1, `ones`, of all (R438). -/
def voteAnswer (m : VoteMode) (off : Nat) (ones ps : List Nat) : Nat :=
  match m with
  | .all => if ones.length = ps.length then 1 else 0
  | .any => if ones.isEmpty then 0 else 1
  | .eq => if ones.isEmpty || ones.length = ps.length then 1 else 0
  | .ballot => ((maskOf ones) >>> off).toNat

def execVote (h : Hdr) (m : VoteMode) (d a : Operand) (s : State) : Host.Outcome State Fault Refusal :=
  crossWord (.vote h m d a) s fun c hf ps w =>
    let r := voteAnswer m (16 * hf) (ps.filter fun t => c.w.pred hf t a) ps
    ps.foldl (fun w t => w.write hf t d (m == .ballot && c.w.hdr.w == 64) .zx32 r) w

/-- A binary32 result as an operation writes it: a NaN is the canonical one (R134). -/
def canon32 (a : Nat) : Nat := match fmtF32.dec a with | .nan => fmtF32.nan | _ => a

/-- REDUX over the participants' values (R439). -/
def reduxVal (op : RedOp) (ty : RedTy) (xs : List Nat) : Nat × Exc :=
  let signed := ty == .s32
  let val (x : Nat) : Int := if signed then sxN x 32 else x
  let fold (f : Nat → Nat → Nat) : Nat := match xs with | [] => 0 | x :: xs => xs.foldl f x
  match ty with
  | .f32 =>
    match op with
    | .min => (canon32 (fold (minMax fmtF32 false)), 0)
    | .max => (canon32 (fold (minMax fmtF32 true)), 0)
    | _ =>
      let ns := xs.map fmtF32.dec
      let pos := ns.any fun n => n == .inf false
      let neg := ns.any fun n => n == .inf true
      if ns.any (fun n => n == .nan) then (fmtF32.nan, 0)
      else if pos && neg then (fmtF32.nan, excInvalid)
      else if pos then (0x7F800000, 0)
      else if neg then (0xFF800000, 0)
      else if xs.all (· == 0x80000000) then (0x80000000, 0)
      else roundTo fmtF32 (sumFin ns) .rn false
  | _ =>
    match op with
    | .add => (truncI (xs.foldl (fun (s : Int) x => s + val x) 0) 32, 0)
    | .min => (fold fun x y => if val y < val x then y else x, 0)
    | .max => (fold fun x y => if val x < val y then y else x, 0)
    | .and => (fold (· &&& ·), 0)
    | .or => (fold (· ||| ·), 0)
    | .xor => (fold (· ^^^ ·), 0)

def execRedux (h : Hdr) (op : RedOp) (ty : RedTy) (d a : Operand) (s : State) : Host.Outcome State Fault Refusal :=
  let i : Instr := .redux h op ty d a
  let rdr : Reader := if ty == .f32 then .f32 else .i32
  runWord i s fun c dev =>
    let units := (c.w.halves c.run.act).filterMap fun hf =>
      let ps := c.parts hf
      if ps.isEmpty then none else some (hf, ps, reduxVal op ty (ps.map fun t => c.get t rdr a))
    let w := units.foldl (fun (w : Weft) u =>
      let w := if u.2.2.2 = 0 then w else w.orFpst u.1 u.2.2.2
      if (c.w.excCause u.2.2.2).isSome then w
      else u.2.1.foldl (fun w t => w.write u.1 t d false .zx32 u.2.2.1) w) c.w
    let traps := units.flatMap fun u =>
      match c.w.excCause u.2.2.2 with
      | some k => trapsAt u.2.1 k 0 0 .here
      | none => []
    .done (dev.putW c.run.ref w) c.crossCycles traps []

/-- The word MATES gives the participant `t` (R424): `key` gives each participant's key, `off` the first lane of the half. -/
def matesVal (key : Nat → Nat) (off : Nat) (ps : List Nat) (t : Nat) : Nat :=
  let g := ps.filter fun u => key u == key t
  let lead := g.headD t
  let rank := (g.filter (· < t)).length
  let ngrp := (ps.map key).eraseDups.length
  (lead - off) + 64 * g.length + 2 ^ 13 * rank + (if t = lead then 2 ^ 19 else 0) + 2 ^ 20 * ngrp

def execMates (h : Hdr) (w64 : Bool) (mask : Option Operand) (d a : Operand) (s : State) : Host.Outcome State Fault Refusal :=
  let rdr : Reader := if w64 then .i64 else .i32
  crossWord (.mates h w64 mask d a) s fun c hf ps w =>
    let key (t : Nat) : Nat :=
      match mask with
      | some b => c.get t rdr a &&& c.uget hf rdr b
      | none => c.get t rdr a
    ps.foldl (fun w t => w.write hf t d false .zx32 (matesVal key (16 * hf) ps t)) w

def execRdfl (h : Hdr) (d a : Operand) (s : State) : Host.Outcome State Fault Refusal :=
  crossWord (.rdfl h d a) s fun c hf ps w =>
    let v := c.get (ps.headD 0) .i32 a
    ps.foldl (fun w t => w.write hf t d false .zx32 v) w

/-! ### Special registers -/

/-- Grid position of a bolt by its linear index (R23). -/
def gridPos (rec : List DWord) (b : Nat) : Nat × Nat × Nat :=
  let gx := (rec.getD 1 0).toNat % 2 ^ 32
  let gy := (rec.getD 1 0).toNat / 2 ^ 32
  (b % gx, b / gx % gy, b / gx / gy)

/-- A frontier entry as $hbN shows it (R82). -/
def Front.word (f : Front) : BitVec 64 := BitVec.ofNat 64 (2 ^ 63 + f.ktag.toNat * 2 ^ 52 + f.wser.toNat * 2 ^ 32 + f.clk.toNat)

/-- The two words a view slot shows: $view and $member (R80). A JOINING slot has no view yet and reads as a slot without one; an EXCLUDED slot
reads the tag of its last view and its own member id, since R80 names neither state (DESIGN CHOICE, notes/assumptions/67.md). -/
def Dev.viewRegs (d : Dev) (slot : Nat) : Nat × Nat :=
  match Tab.find? d.fabric.views slot with
  | none => (0, 0x3FFFF)
  | some v =>
    if v.state = .empty || v.state = .joining then (0, 0x3FFFF)
    else (v.t.toNat + (if v.state = .lost then 2 ^ 32 else 0), v.self)

/-- The value of special register `num` for a lane of half `h`, `slot` the view slot of numbers 13 and 14 (R69, R77 to R82). -/
def Ctx.special (c : Ctx) (d : Dev) (h lane num slot : Nat) : Nat :=
  let w := c.w
  let b := d.bolt? w.bolt
  let pos := match b, d.launchOf? w.bolt with
    | some b, some l => gridPos l.record b.idx
    | _, _ => (0, 0, 0)
  let raced := w.hdr.race != 0
  if num = 0 then w.widx * w.hdr.w + lane
  else if num = 1 then if w.hdr.c16 then lane % 16 else lane
  else if num = 2 then if w.hdr.c16 then 2 * w.widx + lane / 16 else w.widx
  else if num = 3 then if w.hdr.c16 then 16 else w.hdr.w
  else if num = 4 then pos.1 else if num = 5 then pos.2.1 else if num = 6 then pos.2.2
  else if num = 7 then w.hdr.threads
  else if num = 8 then c.run.depth
  else if num = 9 then c.core
  else if num = 10 then c.run.ref.shuttle
  else if num = 11 then (Cells.get w.pidx h).toNat
  else if num = 12 then (d.sh c.sh).clock.toNat
  else if num = 13 then (d.viewRegs slot).1
  else if num = 14 then (d.viewRegs slot).2
  else if num = 15 then (Cells.get w.fpst h).toNat
  else if num = 16 then if raced then w.rclk.toNat else 0
  else if num = 17 then if raced then (b.map (·.epoch)).getD 0 % 4096 else 0
  else if 18 ≤ num && num ≤ 25 then if raced then ((w.frontier[num - 18]?.join).map fun f => f.word.toNat).getD 0 else 0
  else if num = 26 then if raced && w.hbsat then 1 else 0
  else if num = 32 then w.trapcause.toNat else if num = 33 then w.trappc.toNat
  else if num = 34 then w.trapmask.toNat else if num = 35 then w.trapaddr.toNat
  else if num = 40 then w.kbase.toNat else if num = 41 then w.args.toNat
  else if num = 48 then w.ctx.toNat else if num = 49 then w.asid.toNat
  else if num = 56 then (d.core c.core).tgtw.toNat
  else 0

def execMovs (h : Hdr) (num : BitVec 10) (d : Operand) (slot : Option Operand) (s : State) :
    Host.Outcome State Fault Refusal :=
  runWord (.movs h num d slot) s fun c dev =>
    let sl (hf : Nat) : Nat := match slot with | some a => c.uget hf .i32 a % 16 | none => 0
    let w := c.eachLane d fun hf l w => w.write hf l d (specialWide num.toNat) .full (c.special dev hf l num.toNat (sl hf))
    .done (dev.putW c.run.ref w) (c.cycles d.makesUniform 16) [] []

/-- SETS of a register of R77 that is writable. -/
def execSets (h : Hdr) (num : BitVec 10) (a : Operand) (s : State) : Host.Outcome State Fault Refusal :=
  runWord (.sets h num a) s fun c dev =>
    let dev := c.onHalves.foldl (fun (dev : Dev) hf =>
      let v := c.uget hf .i64 a
      if num = 15 then dev.modW c.run.ref fun w => { w with fpst := Cells.set w.fpst hf (BitVec.ofNat 5 v) }
      else if num = 11 then dev.modW c.run.ref fun w => { w with pidx := Cells.set w.pidx hf (BitVec.ofNat 16 v) }
      else if num = 56 then dev.modCore c.core fun k => { k with tgtw := BitVec.ofNat 7 v }
      else dev) dev
    .done dev (c.cycles true 1) [] []

end Sys2Proof.Machine
end

