-- ==== Sys2Proof/Machine/Twin.lean ====
section
/-! DEFINITION. Twin copies as a word meets them (R344 to R346): the signature, the hold buffer, and the words that issue only after
both copies have reached them and the interval has settled. -/

namespace Sys2Proof.Machine

/-! ### Signatures (R345) -/

def crcStep (c : BitVec 64) : Nat → BitVec 64
  | 0 => c
  | n + 1 => crcStep (if c.getLsbD 63 then (c <<< 1) ^^^ 0x42F0E1EBA9EA3693 else c <<< 1) n

/-- CRC-64/ECMA-182: initial value 0, no reflection, no final XOR. -/
def crc64 (bs : List Byte) : BitVec 64 :=
  bs.foldl (fun c b => let x : BitVec 64 := (b.zeroExtend 64).shiftLeft 56; crcStep (c ^^^ x) 8) 0

/-- The record of one signed write: address, log2 of the size, data. -/
def signRecord (va size : Nat) (data : List Byte) : BitVec 64 := crc64 (natBytes va 8 ++ [BitVec.ofNat 8 size.log2] ++ data)

def Dev.sign (d : Dev) (bolt va size : Nat) (data : List Byte) : Dev :=
  d.modBolt bolt fun b => { b with sig := b.sig + signRecord va size data }

/-! ### The hold buffer (R346) -/

/-- Whether a weft's bolt runs as twins. -/
def Dev.isTwin (d : Dev) (w : Weft) : Bool := !w.sup && d.twinned w

/-- Bytes a copy may hold in one interval. -/
def holdLimit : Nat := 2 ^ 20

/-- A signed write: it waits in the copy's hold buffer. -/
def Dev.hold (d : Dev) (bolt : Nat) (h : Held) : Dev :=
  (d.sign bolt h.va.toNat h.size (natBytes h.data h.size)).modBolt bolt fun b =>
    { b with held := b.held ++ [h], heldBytes := b.heldBytes + h.size }

/-- The value at a place as the copy reads it: memory with its own held writes over it. -/
def heldOver (hs : List Held) (pa n v : Nat) : Nat :=
  hs.foldl (fun v h =>
    (List.range n).foldl (fun v k =>
      if h.pa ≤ pa + k && pa + k < h.pa + h.size then
        v - v / 256 ^ k % 256 * 256 ^ k + h.data / 256 ^ (pa + k - h.pa) % 256 * 256 ^ k
      else v) v) v

/-! ### Words performed once for both copies (R344) -/

/-- What such a word does: it goes ahead, it is suspended until its interval has settled, or it takes the primary's result. -/
inductive Gate where
  | go
  | hold (d : Dev)
  | deliver (vals : Tab Nat)

/-- Keeps a result, or a part of one, for the secondary copy; nothing for a bolt that has none. -/
def Dev.publishPart (d : Dev) (ref : WRef) (pick idx : Nat) (vals : Tab Nat) (whole : Bool) : Dev :=
  match d.weft? ref with
  | none => d
  | some w =>
    if !d.isTwin w then d
    else d.modBolt w.bolt fun b =>
      let r : TwinRes := match b.results.find? fun r => r.widx == w.widx && r.pick == pick && r.idx == idx with
        | some r => { r with vals := vals.foldl (fun t p => Tab.put t p.1 p.2) r.vals, whole := whole }
        | none => { widx := w.widx, pick := pick, idx := idx, vals := vals, whole := whole }
      { b with results := r :: b.results.filter fun x => !(x.widx == w.widx && x.pick == pick && x.idx == idx) }

def Dev.publish (d : Dev) (ref : WRef) (pick idx : Nat) (vals : Tab Nat) : Dev := d.publishPart ref pick idx vals true

/-- The word has settled and issues: the copy waits no more. -/
def Dev.leaveGate (d : Dev) (c : Ctx) : Dev :=
  if c.w.twinAt.isNone then d else d.modW c.run.ref fun w => { w with twinAt := none }

/-- The same, and the secondary can see that it did. -/
def Dev.passGate (d : Dev) (c : Ctx) : Dev :=
  if c.w.twinAt.isNone then d
  else (d.leaveGate c).publish c.run.ref c.w.picks c.run.idx []

def Ctx.gate (c : Ctx) (d : Dev) (full : Bool) : Gate :=
  if !d.isTwin c.w then .go
  else
    let here := c.w.twinAt.any fun t => t.pick == c.w.picks && t.idx == c.run.idx && t.settled
    if !here then
      .hold (d.modW c.run.ref fun w =>
        { w with twinAt := some { pick := c.w.picks, idx := c.run.idx, settled := false, full := full } })
    else if full then .go
    else match d.primaryOf c.w with
      | none => .go
      | some p =>
        match d.primaryResult c.w p c.w.picks c.run.idx with
        | some vals => .deliver vals
        | none => .hold d

/-- Notes an effect after which a bank can no longer be restored (R350). -/
def Dev.passBank (d : Dev) (w : Weft) : Dev := if w.sup then d else d.modBolt w.bolt fun b => { b with sinceBank := true }

end Sys2Proof.Machine
end

