-- ==== Sys2Proof/Machine/Control.lean ====
section
/-! DEFINITION. Class 0: control words (R54, R59 to R66, R379, R383, R384, R396, R455 to R460) and LAUNCH (R253, R416). -/

namespace Sys2Proof.Machine

/-- Where a lane goes when the pick ends with it in RUN at its own depth. -/
def Ctx.goto (c : Ctx) (lane : Nat) (pc : BitVec 32) : Dest :=
  { lane := lane, depth := c.run.depth, pc := pc, state := .run, aux := 0, gone := false }

/-- A control word: one cycle; `f` gives each lane whose guard holds its destination. -/
def ctlWord (i : Instr) (s : State) (f : Ctx → Nat → Dest) : Host.Outcome State Fault Refusal :=
  runWord i s fun c d => .done d 1 [] (c.on.map (f c))

def execNop (h : Hdr) (s : State) : Host.Outcome State Fault Refusal := runWord (.nop h) s fun _ d => .done d 1 [] []

/-- Target of BRA and CALL: the word's own offset plus a signed word count (R105, R383). -/
def Ctx.branchTo (c : Ctx) (off : BitVec 30) : BitVec 32 := c.wordPc + off.signExtend 32 * 8

def Ctx.target (c : Ctx) (a : Operand) (lane : Nat) : BitVec 32 := BitVec.ofNat 32 (c.get lane .i32 a)

def execBra (h : Hdr) (off : BitVec 30) (s : State) : Host.Outcome State Fault Refusal :=
  ctlWord (.bra h off) s fun c l => c.goto l (c.branchTo off)

def execBrx (h : Hdr) (a : Operand) (s : State) : Host.Outcome State Fault Refusal :=
  ctlWord (.brx h a) s fun c l => c.goto l (c.target a l)

/-- CALL and CALLX: at depth D a thread traps STACK; else it pushes the next pick's offset and goes one deeper (R59, R60). -/
def callWord (i : Instr) (s : State) (target : Ctx → Nat → BitVec 32) : Host.Outcome State Fault Refusal :=
  runWord i s fun c d =>
    if c.run.depth ≥ c.w.hdr.depth then .done d 1 (trapsAt c.on 0x04 0 0 .here) []
    else
      let w := c.on.foldl (fun w l => w.setV l (c.w.hdr.vregs + c.run.depth) c.nextPc) c.w
      .done (d.putW c.run.ref w) 1 [] (c.on.map fun l => { c.goto l (target c l) with depth := c.run.depth + 1 })

def execCall (h : Hdr) (off : BitVec 30) (s : State) : Host.Outcome State Fault Refusal :=
  callWord (.call h off) s fun c _ => c.branchTo off

def execCallx (h : Hdr) (a : Operand) (s : State) : Host.Outcome State Fault Refusal :=
  callWord (.callx h a) s fun c l => c.target a l

def execRet (h : Hdr) (s : State) : Host.Outcome State Fault Refusal :=
  runWord (.ret h) s fun c d =>
    if c.run.depth = 0 then .done d 1 (trapsAt c.on 0x04 0 0 .here) []
    else .done d 1 [] (c.on.map fun l =>
      { c.goto l (c.w.v l (c.w.hdr.vregs + c.run.depth - 1)) with depth := c.run.depth - 1 })

def execExit (h : Hdr) (s : State) : Host.Outcome State Fault Refusal :=
  ctlWord (.exit h) s fun c l => { c.goto l c.nextPc with gone := true }

/-- YIELD; in a user handler it has no effect (R266). -/
def execYield (h : Hdr) (s : State) : Host.Outcome State Fault Refusal :=
  ctlWord (.yield h) s fun c l => if c.run.handler then c.goto l c.nextPc else { c.goto l c.nextPc with state := .yld }

/-- WAITL: the thread waits with its deadline; its predicate is written at its release (R64). -/
def execWaitl (h : Hdr) (d a : Operand) (s : State) : Host.Outcome State Fault Refusal :=
  runWord (.waitl h d a) s fun c dev =>
    let k := match d with | .p n => n.val | _ => 7
    let dev := dev.modW c.run.ref fun w => { w with waitPd := c.on.foldl (fun t l => Tab.put t l k) w.waitPd }
    .done dev 1 [] (c.on.map fun l => { c.goto l c.nextPc with state := .wtl, aux := BitVec.ofNat 32 (c.get l .i32 a) })

/-- BAR: arrival and wait take effect at the end of the pick (R379). -/
def execBar (h : Hdr) (m : BarMode) (a b : Operand) (s : State) : Host.Outcome State Fault Refusal :=
  ctlWord (.bar h m a b) s fun c l =>
    let k := c.get l .i32 a % 16
    let n := c.get l .i32 b % 4096
    let x := c.goto l c.nextPc
    { x with state := if m = .arrive then .run else .barw, aux := if m = .arrive then 0 else BitVec.ofNat 32 k, act := .bar m k n }

def execTrap (h : Hdr) (a : Operand) (s : State) : Host.Outcome State Fault Refusal :=
  runWord (.trap h a) s fun c d =>
    .done d 1 (c.on.map fun l => { lane := l, cause := 0x19, sub := c.get l .i32 a % 65536, addr := 0, back := .next }) []

/-- BREAK: a lane whose skip bit is set clears it and goes on (R269, R384). -/
def execBrk (h : Hdr) (a : Operand) (s : State) : Host.Outcome State Fault Refusal :=
  runWord (.brk h a) s fun c d =>
    let hit := c.on.filter fun l => !c.w.skip.getLsbD l
    let past := maskOf (c.on.filter fun l => c.w.skip.getLsbD l)
    let d := d.modW c.run.ref fun w => { w with skip := w.skip &&& ~~~ past }
    .done d 1 (hit.map fun l => { lane := l, cause := 0x18, sub := c.get l .i32 a % 256, addr := 0, back := .skip }) []

/-- SYSCALL: each thread parks at the end of the pick under its service number (R276, R460); of a twin bolt only the primary's call is
made, and the secondary's threads wait, parked, for its result (R344). -/
def execSyscall (h : Hdr) (a : Operand) (s : State) : Host.Outcome State Fault Refusal :=
  runWord (.syscall h a) s fun c d =>
    if c.on.isEmpty then .done d 1 [] []
    else match c.gate d false with
    | .hold d => .suspend d
    | .go =>
      .done ((d.leaveGate c).passBank c.w) 1 [] (c.on.map fun l => { c.goto l c.nextPc with act := .call (c.get l .i32 a) c.run.idx })
    | .deliver vals =>
      -- the primary's results stand in v0 of the same lanes
      let d := (d.passGate c).modW c.run.ref fun w =>
        vals.foldl (fun w p => if c.on.contains p.1 then w.setV p.1 0 (BitVec.ofNat 32 p.2) else w) w
      .done ((d.passBank c.w).publish c.run.ref c.w.picks c.run.idx vals) 1 [] (c.on.map fun l => c.goto l c.nextPc)

/-! ### LAUNCH (R253) -/

/-- Launches that a queue holds pending (R245). -/
def Dev.pendingOn (d : Dev) (queue : Nat) : Nat :=
  (d.disp.launches.filter fun l => l.queue == queue && l.stage == .pending).length

/-- A record on a queue with the next serial (R252). -/
def Dev.enqueue (d : Dev) (queue fn : Nat) (fromHost : Bool) (rec : List DWord) (writable : Nat) (owner : BitVec 16)
    (parent : List Front) (sat : Bool) : Dev :=
  let l : Launch :=
    { serial := d.disp.serial, queue := queue, fn := fn, fromHost := fromHost, record := rec, writable := writable,
      stage := .pending, ctx := owner, asid := 0, hdr := KHdr.none, nextB := 0, total := 0, retired := 0, ktag := 0, hints := [],
      parent := parent, parentSat := sat, order := 0, captured := false }
  { d with disp := { d.disp with launches := d.disp.launches ++ [l], serial := d.disp.serial + 1 } }

inductive LaunchRes where
  | wrote (v : Nat) (d : Dev)
  | trap (cause sub : Nat) (d : Dev)
  | hold (d : Dev)

/-- The release of LAUNCH at .dev, which the launching weft's clock counts (R210). -/
def Dev.launchRelease (d : Dev) (c : Ctx) : Dev := (d.release c.core .dev).modW c.run.ref Weft.bumpClk

/-- One LAUNCH of a half: the queue's tests in their order, else the copy of the record. The first half to come through, with `first`,
makes the release, which counts once for the weft (R210). -/
def Ctx.launchOne (c : Ctx) (d : Dev) (first : Bool) (addr queue : Nat) : LaunchRes :=
  let release (d : Dev) : Dev := if first then d.launchRelease c else d
  let ok := match Tab.find? d.disp.queues queue with
    | some q => decide (1 ≤ queue) && decide (queue ≤ 1024) && q.dev && q.owner == c.w.ctx
    | none => false
  if !ok then .wrote 0x8000000000000001 (release d)
  else if 256 ≤ d.pendingOn queue then .wrote 0x8000000000000002 (release d)
  else
    match d.readWords c.regs c.core c.w.space true addr 16 with
    | (.error (0, _, _), d) => .hold d
    | (.error (k, sub, _), d) => .trap k sub d
    | (.ok rec, d) =>
      let d := release d
      let q := (Tab.find? d.disp.queues queue).getD Queue.reset
      let w := (d.weft? c.run.ref).getD c.w
      let t := d.raceIdOf w 0
      let parent := if t.on then { ktag := t.ktag, wser := t.wser, clk := w.rclk } :: t.frontier else []
      .wrote d.disp.serial (d.enqueue queue q.fn false rec 0 q.owner parent (t.on && t.hbsat))

def Ctx.launchHalves (c : Ctx) (dst a b : Operand) : List Nat → Dev → List Trap → Tab Nat → Option (Dev × List Trap × Tab Nat) × Dev
  | [], d, ts, vs => (some (d, ts, vs), d)
  | h :: hs, d, ts, vs =>
    let addr := c.uget h .i64 a
    let lanes := lanesOf (c.actOf h)
    if addr % 64 ≠ 0 then c.launchHalves dst a b hs d (ts ++ trapsAt lanes 0x03 0 addr .here) vs
    else match c.launchOne d vs.isEmpty addr (c.uget h .i32 b % 2048) with
      | .hold d => (none, d)
      | .trap k sub d => c.launchHalves dst a b hs d (ts ++ trapsAt lanes k sub addr .here) vs
      | .wrote v d =>
        let d := d.modW c.run.ref fun w => w.write h 0 dst true .full v
        c.launchHalves dst a b hs d ts (Tab.put vs h v)

def execLaunch (h : Hdr) (d a b : Operand) (s : State) : Host.Outcome State Fault Refusal :=
  runWord (.launch h d a b) s fun c dev =>
    if c.onHalves.isEmpty then .done dev (c.cycles true 1) [] []
    else if dev.weftBusy c.run.ref then .wait 2
    else match c.gate dev false with
      | .hold dev => .suspend dev
      | .deliver vals =>
        let dev := (dev.passGate c).modW c.run.ref fun w => c.onHalves.foldl (fun w k => w.write k 0 d true .full (Tab.getD 0 vals k)) w
        .done (dev.publish c.run.ref c.w.picks c.run.idx vals) (c.cycles true 1) [] []
      | .go =>
        match c.launchHalves d a b c.onHalves (dev.passGate c) [] [] with
        | (none, _) => .wait 7
        | (some (dev, ts, vs), _) => 
          let dev := dev.publish c.run.ref c.w.picks c.run.idx vs
          .done (if vs.isEmpty then dev else dev.passBank c.w) (c.cycles true 1) ts []

end Sys2Proof.Machine
end

