-- ==== Sys2Proof/Machine/Memory.lean ====
section
/-! DEFINITION. Class 5 as it issues: LD, ST, LDS, STS, LDC, ATOM, ATOMS, RED, FENCE, PREF and CCTL (R118, R119, R158, R159, R161,
R264, R375 to R378, R387, R402, R417 to R421, R441 to R445). A word forms and tests its accesses, and places an operation whose accesses
the steps of the memory system perform. -/

namespace Sys2Proof

def AOrd.isAcq : AOrd → Bool
  | .acq | .ar => true
  | _ => false

def AOrd.isRel : AOrd → Bool
  | .rel | .ar => true
  | _ => false

def Scope.rank : Scope → Nat
  | .weft => 0
  | .bolt => 1
  | .pair => 2
  | .dev => 3
  | .sys => 4

def Scope.wider (a b : Scope) : Scope := if a.rank < b.rank then b else a

def MOrd.load : MOrd → AOrd
  | .sync => .acq
  | _ => .relaxed

def MOrd.store : MOrd → AOrd
  | .sync => .rel
  | _ => .relaxed

def Size.isSigned : Size → Bool
  | .s8 | .s16 => true
  | _ => false

end Sys2Proof

namespace Sys2Proof.Machine

/-! ### What a word asks for -/

/-- A memory word apart from its addresses and data. -/
structure MemForm where
  kind : OpKind
  space : Space
  size : Nat
  sgn : Bool := false
  aop : AtomOp := .add
  w64 : Bool := false
  order : AOrd := .relaxed
  vol : Bool := false
  scope : Scope := .weft
  remote : Bool := false
  ef : Bool := false
  fb : Bool := false
  dst : DstReg := .none
  uni : Bool := false

/-- One access as its word forms it: the lane, the address or offset, the data and the comparand. -/
structure Formed where
  lane : Nat
  addr : Int
  data : Nat := 0
  cmp : Nat := 0

def MemForm.writes (m : MemForm) : Bool :=
  match m.kind with
  | .store | .atomic => true
  | _ => false

/-- Registers that a destination operand names for `n` 32-bit registers. -/
def dstReg (d : Operand) (n : Nat) : DstReg :=
  match d with
  | .vec k => .vec k.val n
  | .scal k => .scal k.val
  | _ => .none

/-- Data registers as one little-endian value (R441). -/
def Ctx.regData (c : Ctx) (lane n : Nat) (d : Operand) : Nat :=
  match d with
  | .vec k => (List.range n).foldr (fun j v => (c.w.v lane (k.val + j)).toNat + 2 ^ 32 * v) 0
  | .scal k => (c.w.s (c.w.halfOf lane) k.val).toNat
  | _ => 0

/-- The signed offset of an address: an immediate in units of `z`, or an index register (R118, R417). -/
def Ctx.offset (c : Ctx) (lane z : Nat) : Off → Int
  | .imm n => n.toInt * z
  | .idx o => sxN (c.get lane .i32 o) 32

/-- The threads, or with `uni` the lowest threads of the halves, for which a word performs accesses. -/
def Ctx.memLanes (c : Ctx) (uni : Bool) : List Nat :=
  if uni then c.onHalves.map fun h => lowLane (c.actOf h) else c.on

/-- Threads that share an access: all of `act` in the half for a uniform word. -/
def Ctx.owners (c : Ctx) (uni : Bool) (lane : Nat) : List Nat :=
  if uni then lanesOf (c.actOf (c.w.halfOf lane)) else [lane]

/-! ### Places -/

/-- Whether a weft's bolt spans the pair (R27, R28). -/
def Weft.spans (w : Weft) : Bool := !w.sup && decide (1024 < w.hdr.threads)

/-- A scratch offset of a core's view in the even core's view (R28). -/
def Weft.scratchAt (w : Weft) (core o : Nat) : Nat :=
  if w.spans && core % 2 == 1 then (o + w.hdr.scratch / 2) % w.hdr.scratch else o

/-- The walk offset at which a parked engine operation restarts (R193, R236, R410, R447, R452). -/
def Dev.parkedAt (d : Dev) (e : EngId) : Option Nat :=
  match e with
  | .tcopy core handle => (d.cmds.find? fun x => x.core == core && x.handle == handle && x.status == .parked).map (·.off)
  | .gather id => (d.gathers.find? fun x => x.id == id && x.parked).map (·.next)
  | .slop id => (d.slops.find? fun x => x.id == id && x.parked).map (·.next)
  | .coll core handle => (d.fabric.colls.find? fun x => x.core == core && x.handle == handle && x.parked).map fun _ => 0

/-- Whether an owned location lies at or beyond the restart offset of a parked operation. -/
def Dev.ownedParked (d : Dev) (l : Loc) : Bool :=
  match d.ownerOf l with
  | none => false
  | some o => match d.parkedAt o.eng with | some k => decide (k ≤ o.off) | none => false

def Dev.owned (d : Dev) (l : Loc) : Bool := (d.ownerOf l).isSome

/-- What testing an access where it issues gives. -/
inductive Tested where
  | ok (a : Access)
  | trap (cause sub addr : Nat)
  | miss (k : Walk)

/-- $trapaddr of an offset or address (R159). -/
def addr57 (x : Int) : Nat := truncI x 57

/-- The line of the constant cache that a virtual address falls in (R161). -/
def constKey (asid : BitVec 16) (va : Nat) : Nat := asid.toNat * 2 ^ 57 + va % 2 ^ 57 / 64 * 64

/-- `n` bytes of a line at an address. -/
def lineVal (x : BitVec 512) (va n : Nat) : Nat := x.toNat / 2 ^ (8 * (va % 64)) % 2 ^ (8 * n)

/-- The tests of a generic access that reads or writes `va` (R158, R159, R164, R193, R264). A constant access that hits in the constant cache is
not translated (R161). -/
def Ctx.testVa (c : Ctx) (d : Dev) (m : MemForm) (f : Formed) (va : Nat) : Tested :=
  if va % m.size ≠ 0 then .trap 0x03 0 (va % 2 ^ 57)
  else match (if m.space = .const && decide (va < 2 ^ 57) then
      (Tab.getD [] d.mem.ccache c.core).find? (·.1 == constKey c.w.asid va) else none) with
  | some x =>
    .ok { lane := f.lane, va := BitVec.ofNat 64 va, pa := 0, region := 0, target := 0, rt := false,
          data := BitVec.ofNat 128 (lineVal x.2 va m.size), cmp := 0, checked := true, perf := true }
  | none =>
    let k : AKind := if m.writes then .wr else .rd
    match d.lookup c.regs c.core c.w.asid va k with
    | .fault cause => .trap cause 0 (va % 2 ^ 57)
    | .miss =>
      let here : BitVec 57 := BitVec.ofNat 57 va
      match c.w.walks.find? fun x => x.done && x.cause != 0 && x.va == here && x.write == m.writes with
      | some x => .trap x.cause.toNat 0 va
      | none => .miss { va := here, write := m.writes, done := false, cause := 0 }
    | .ok w =>
      if m.kind = .atomic && w.region = 3 then .trap causeProt 0 va
      else if w.region != 3 && (m.kind = .load || m.writes) && d.ownedParked (.line (lineOf w.pa)) then
        .trap causePage 1 va
      else
        .ok { lane := f.lane, va := BitVec.ofNat 64 va, pa := w.pa, region := w.region, target := w.target, rt := w.rt,
              data := BitVec.ofNat 128 f.data, cmp := BitVec.ofNat 64 f.cmp, checked := m.space == .const }

/-- The tests of a scratch access: an offset inside [0, S) (R28, R159, R417). -/
def Ctx.testScratch (c : Ctx) (d : Dev) (m : MemForm) (f : Formed) : Tested :=
  if f.addr % m.size ≠ 0 then .trap 0x03 0 (addr57 f.addr)
  else if f.addr < 0 || (c.w.hdr.scratch : Int) < f.addr + m.size then .trap 0x05 0 (addr57 f.addr)
  else
    let pa := c.w.scratchAt c.core f.addr.toNat
    if d.ownedParked (.scr c.w.bolt (lineOf pa)) then .trap causePage 1 (addr57 f.addr)
    else
      .ok { lane := f.lane, va := BitVec.ofInt 64 f.addr, pa := pa, region := 0, target := 0, rt := false,
            data := BitVec.ofNat 128 f.data, cmp := BitVec.ofNat 64 f.cmp, checked := false }

def Ctx.test (c : Ctx) (d : Dev) (m : MemForm) (f : Formed) : Tested :=
  match m.space with
  | .generic => c.testVa d m f (truncI f.addr 64)
  | .scratch => c.testScratch d m f
  | .const =>
    -- R161: offsets with bit 31 set are those of the argument block. R159 speaks of the address or offset of an access; what is tested for its
    -- alignment here is the generic address formed, a DESIGN CHOICE (notes/assumptions/19.md)
    let o := truncI f.addr 32
    c.testVa d m f (if o < 2 ^ 31 then c.w.kbase.toNat + o else c.w.args.toNat + (o - 2 ^ 31))
  | .counter =>
    -- R308, R332: the counter is the context's, and a read of a fenced one traps VIEW CHANGED
    let id := f.addr.toNat % 4096
    let k := d.counter id
    if !c.w.sup && k.ctx != some c.w.ctx then .trap causeProt 0 (64 * id)
    else if m.kind = .ecrd && !k.fences.isEmpty then .trap 0x14 1 0
    else
      .ok { lane := f.lane, va := 0, pa := id, region := 0, target := 0, rt := false, data := BitVec.ofNat 128 f.data, cmp := 0,
            checked := true }

/-! ### Placing the operation (R110 to R112, R185) -/

def Dev.fencing (d : Dev) (r : WRef) : Bool := d.ops.any fun o => o.ref == r && o.kind == .fence

def DstReg.range : DstReg → Option (Nat × Nat)
  | DstReg.none => Option.none
  | .vec n k => some (n, k)
  | .scal n => some (640 + n, 1)

/-- The key under which a read can later be made an acquire by FENCE .acq. -/
def Access.sideKey (a : Access) (bolt : Nat) : Space → SideKey
  | .scratch => .scr bolt (lineOf a.pa)
  | .counter => .counter a.pa
  | _ => .line (lineOf a.pa)

/-- Reads of the word are the last reads of their threads (R185, R402). -/
def Ctx.noteReads (c : Ctx) (id : Nat) (m : MemForm) (accs : List Access) (w : Weft) : Weft :=
  match m.kind with
  | .load | .atomic | .ecrd =>
    if m.space = .const then w
    else { w with lastRead := accs.foldl (fun t a => (c.owners m.uni a.lane).foldl (fun t l =>
      Tab.put t l { key := a.sideKey w.bolt m.space, op := id, flags := none }) t) w.lastRead }
  | _ => w

/-- Those of the lanes whose next write a FENCE .rel has made a release. -/
def Weft.pendingRel (w : Weft) (lanes : Lanes) : Lanes := w.relPend.foldl (fun m p => m ||| (p.lanes &&& lanes)) 0

/-- The widest scope at which those lanes' next write is a release by a FENCE .rel, from `own`, that of the word (R185). -/
def Weft.relScopeOf (w : Weft) (lanes : Lanes) (own : Scope) : Scope :=
  w.relPend.foldl (fun (s : Scope) p => if p.lanes &&& lanes = 0 then s else s.wider p.scope) own

def Weft.dropRel (w : Weft) (lanes : Lanes) : Weft :=
  { w with relPend := (w.relPend.map fun p => { p with lanes := p.lanes &&& ~~~ lanes }).filter (·.lanes != 0) }

/-- The write kinds that take a pending release. -/
def OpKind.isWrite : OpKind → Bool
  | .store | .atomic | .ecadd => true
  | _ => false

/-- Places an operation for the accesses that passed their tests; `extra` are lanes it stands for without an access. -/
def Ctx.place (c : Ctx) (d : Dev) (m : MemForm) (keys : List Nat) (accs : List Access) (extra : Lanes) : Dev :=
  let id := d.nextOp
  let lanes := maskOf (accs.flatMap fun a => c.owners m.uni a.lane)
  let pend : Lanes := if m.kind.isWrite then c.w.pendingRel lanes else 0
  let own : Lanes := if m.order.isRel && m.scope != .weft then lanes else 0
  -- the scope encoded in a write that is no release of its own has no part in that of a pending fence (R177, R185)
  let accs := accs.map fun a => { a with
    relScope := c.w.relScopeOf (if m.kind.isWrite then maskOf (c.owners m.uni a.lane) else 0) (if m.order.isRel then m.scope else .weft),
    top := if m.kind = .atomic then ((accs.filter fun b => lineOf b.pa == lineOf a.pa).map (·.lane)).foldl max a.lane else a.lane }
  let op : MemOp :=
    { id := id, ref := c.run.ref, kind := m.kind, space := m.space, size := m.size, sgn := m.sgn, aop := m.aop, w64 := m.w64,
      order := m.order, vol := m.vol, scope := m.scope, remote := m.remote, ef := m.ef, dst := m.dst, uni := m.uni,
      rel := own ||| pend, flags := keys, lanes := lanes ||| extra, accs := accs, pick := c.w.picks, handler := c.run.handler,
      pc := c.run.pc, idx := c.run.idx, head := memHead c.run.words, depth := c.run.depth, eng := none }
  let d : Dev := { d with ops := d.ops ++ [op], nextOp := id + 1 }
  d.modW c.run.ref fun w =>
    let w := (c.noteReads id m accs (w.addFlags keys)).dropRel pend
    match m.dst.range with
    | some r => w.takeSb [id] r c.wordPc
    | none => w

/-- What the tests of a word's accesses came to. -/
structure MemTests where
  accs : List Access
  traps : List Trap
  walks : List Walk

def Ctx.testAll (c : Ctx) (d : Dev) (m : MemForm) (fs : List Formed) : MemTests :=
  fs.foldl (fun t f =>
    match c.test d m f with
    | .ok a => { t with accs := t.accs ++ [a] }
    | .trap cause sub addr => { t with traps := t.traps ++ trapsAt (c.owners m.uni f.lane) cause sub addr .here }
    | .miss k => if t.walks.contains k then t else { t with walks := t.walks ++ [k] })
    { accs := [], traps := [], walks := [] }

/-- Signs the operands of a twin copy's global atomics (R345). -/
def Dev.signAtoms (d : Dev) (w : Weft) (m : MemForm) (accs : List Access) : Dev :=
  if m.kind = .atomic && m.space = .generic && d.isTwin w then
    accs.foldl (fun d a => d.sign w.bolt a.va.toNat m.size (natBytes a.data.toNat m.size)) d
  else d

/-- Bytes that the stores in flight of a bolt will add to its hold buffer. -/
def Dev.holding (d : Dev) (bolt : Nat) : Nat :=
  d.ops.foldl (fun n o =>
    if o.kind = .store && o.space = .generic && (match d.weft? o.ref with | some w => w.bolt == bolt | none => false) then
      n + o.size * o.accs.length
    else n) 0

/-- How a word of a twin bolt issues: global atomics and RED only once the interval has settled, a store on a full hold buffer
likewise, and an ECADD like an atomic (R344, R346). -/
def Ctx.memGate (c : Ctx) (d : Dev) (m : MemForm) (accs : List Access) : Gate :=
  if m.kind = .ecadd then c.gate d false
  else if m.space ≠ .generic then .go
  else match m.kind with
    | .atomic => c.gate d false
    | .store =>
      let used := ((d.bolt? c.w.bolt).map (·.heldBytes)).getD 0 + d.holding c.w.bolt
      if d.isTwin c.w && decide (holdLimit < used + m.size * accs.length) then c.gate d true else .go
    | _ => .go

/-- Writes a result to its destination (R418): sign-extended or zero-extended from `size` bytes. -/
def DstReg.put (r : DstReg) (w : Weft) (lane size : Nat) (sgn : Bool) (v : Nat) : Weft :=
  let x : Nat := if sgn then truncI (sxN v (8 * size)) 64 else v
  match r with
  | .none => w
  | .vec n k => (List.range k).foldl (fun w j => w.setV lane (n + j) (BitVec.ofNat 32 (x / 2 ^ (32 * j)))) w
  | .scal n => w.setS (w.halfOf lane) n (BitVec.ofNat 64 x)

/-- Issues a memory word. With every access translated, threads whose tests fail trap and the others' accesses are placed; one miss
suspends the pick until its walks complete (R264). -/
def Ctx.issueMem (c : Ctx) (d : Dev) (m : MemForm) (fs : List Formed) : Eff :=
  let n := if m.space = .counter then 1 else if m.uni then c.cycles true 1 else c.cycles false 16
  if fs.isEmpty then .done d n [] []
  else
    if d.fencing c.run.ref then .wait 15
    else if m.dst != .none && 32 ≤ c.w.sb.length then .wait 2
    else
      let t := c.testAll d m fs
      -- the flag counts for the halves whose threads proceed (R111, R264)
      let keys := c.flagKeys m.fb ((t.accs.map fun a => c.w.halfOf a.lane).eraseDups)
      if !t.walks.isEmpty then
        .suspend (d.modW c.run.ref fun w => { w with walks := w.walks.filter (fun k => k.done && k.cause != 0) ++ t.walks })
      else if c.w.flagsFull keys then .wait 15
      else match c.memGate d m t.accs with
        | .hold d => .suspend d
        | .deliver vals =>
          let d := (d.passGate c).modW c.run.ref fun w =>
            t.accs.foldl (fun w a => match Tab.find? vals a.lane with
              | some v => m.dst.put w a.lane m.size m.sgn v
              | none => w) { w with walks := [] }
          .done ((d.signAtoms c.w m t.accs).publish c.run.ref c.w.picks c.run.idx vals) n t.traps []
        | .go =>
          let d := (d.passGate c).modW c.run.ref fun w => { w with walks := [] }
          .done (if t.accs.isEmpty then d else (c.place (d.signAtoms c.w m t.accs) m keys t.accs 0)) n t.traps []

/-! ### Loads and stores (R417 to R421, R441 to R443) -/

/-- What LD, LDS, ST and STS share. -/
def memForm (m : MemMod) (kind : OpKind) (space : Space) (order : AOrd) (d : Operand) : MemForm :=
  { kind := kind, space := space, size := m.size.bytes, sgn := m.size.isSigned, order := order, vol := m.ord == .vol,
    scope := m.scope, remote := m.remote, ef := m.ef, fb := m.fb, dst := if kind = .load then dstReg d m.size.regs else .none,
    uni := d.makesUniform }

def execLd (h : Hdr) (m : MemMod) (d a : Operand) (off : Off) (s : State) : Host.Outcome State Fault Refusal :=
  runWord (.ld h m d a off) s fun c dev =>
    c.issueMem dev (memForm m .load .generic m.ord.load d)
      ((c.memLanes d.makesUniform).map fun l => { lane := l, addr := c.get l .i64 a + c.offset l m.size.bytes off })

def execSt (h : Hdr) (m : MemMod) (d a : Operand) (off : Off) (s : State) : Host.Outcome State Fault Refusal :=
  runWord (.st h m d a off) s fun c dev =>
    c.issueMem dev (memForm m .store .generic m.ord.store d)
      ((c.memLanes d.makesUniform).map fun l =>
        { lane := l, addr := c.get l .i64 a + c.offset l m.size.bytes off, data := c.regData l m.size.regs d })

def execLds (h : Hdr) (m : MemMod) (d a : Operand) (off : Off) (s : State) : Host.Outcome State Fault Refusal :=
  runWord (.lds h m d a off) s fun c dev =>
    c.issueMem dev (memForm m .load .scratch m.ord.load d)
      ((c.memLanes d.makesUniform).map fun l => { lane := l, addr := c.get l .i32 a + c.offset l m.size.bytes off })

def execSts (h : Hdr) (m : MemMod) (d a : Operand) (off : Off) (s : State) : Host.Outcome State Fault Refusal :=
  runWord (.sts h m d a off) s fun c dev =>
    c.issueMem dev (memForm m .store .scratch m.ord.store d)
      ((c.memLanes d.makesUniform).map fun l =>
        { lane := l, addr := c.get l .i32 a + c.offset l m.size.bytes off, data := c.regData l m.size.regs d })

def execLdc (h : Hdr) (size : Size) (fb : Bool) (d a : Operand) (off : Off) (s : State) : Host.Outcome State Fault Refusal :=
  runWord (.ldc h size fb d a off) s fun c dev =>
    c.issueMem dev
      { kind := .load, space := .const, size := size.bytes, sgn := size.isSigned, fb := fb, dst := dstReg d size.regs,
        uni := d.makesUniform }
      ((c.memLanes d.makesUniform).map fun l => { lane := l, addr := c.get l .i32 a + c.offset l size.bytes off })

/-! ### Atomics (R375 to R378, R444) -/

/-- How an atomic reads its value. -/
def atomReader (m : AtomMod) : Reader :=
  match m.op with
  | .faddF32 | .fminF32 | .fmaxF32 => .f32
  | .faddBf => .bf2
  | _ => if m.w64 then .i64 else .i32

def atomForm (m : AtomMod) (space : Space) (d : Option Operand) : MemForm :=
  let n := if m.w64 then 2 else 1
  { kind := .atomic, space := space, size := 4 * n, aop := m.op, w64 := m.w64, order := m.ord, scope := m.scope, remote := m.remote,
    ef := m.ef, fb := m.fb, dst := match d with | some d => dstReg d n | none => .none,
    uni := match d with | some d => d.makesUniform | none => false }

def Ctx.atomFormed (c : Ctx) (m : AtomMod) (d : Option Operand) (rdr : Reader) (a b : Operand) (l : Nat) : Formed :=
  { lane := l, addr := c.get l rdr a, data := c.get l (atomReader m) b % 2 ^ (if m.w64 then 64 else 32),
    cmp := match d with | some d => c.regData l (if m.w64 then 2 else 1) d % 2 ^ (if m.w64 then 64 else 32) | none => 0 }

def execAtom (h : Hdr) (m : AtomMod) (d a b : Operand) (s : State) : Host.Outcome State Fault Refusal :=
  runWord (.atom h m d a b) s fun c dev =>
    c.issueMem dev (atomForm m .generic (some d)) ((c.memLanes d.makesUniform).map (c.atomFormed m (some d) .i64 a b))

def execAtoms (h : Hdr) (m : AtomMod) (d a b : Operand) (s : State) : Host.Outcome State Fault Refusal :=
  runWord (.atoms h m d a b) s fun c dev =>
    c.issueMem dev (atomForm m .scratch (some d)) ((c.memLanes d.makesUniform).map (c.atomFormed m (some d) .i32 a b))

def execRed (h : Hdr) (m : AtomMod) (a b : Operand) (s : State) : Host.Outcome State Fault Refusal :=
  runWord (.red h m a b) s fun c dev =>
    c.issueMem dev (atomForm m .generic none) (c.on.map (c.atomFormed m none .i64 a b))

/-! ### FENCE, PREF and CCTL (R185, R387, R402, R445) -/

/-- FENCE: at .weft scope nothing; else an operation that completes when its cache actions are done. -/
def execFence (h : Hdr) (m : FenceMod) (s : State) : Host.Outcome State Fault Refusal :=
  runWord (.fence h m) s fun c dev =>
    if c.on.isEmpty || m.scope = .weft then .done dev (c.cycles false 16) [] []
    else
      let keys := c.flagKeys m.fb ((c.on.map c.w.halfOf).eraseDups)
      if dev.fencing c.run.ref || c.w.flagsFull keys then .wait 15
      else
        let op : MemForm := { kind := .fence, space := .generic, size := 1, order := m.ord, scope := m.scope, fb := m.fb }
        .done (c.place dev op keys [] (maskOf c.on)) (c.cycles false 16) [] []

/-- PREF: a line requested into the L1, dropped where it cannot be translated. -/
def Ctx.prefetch (c : Ctx) (ef : Bool) (d : Dev) (va : Nat) : Dev :=
  match d.place c.regs c.core c.w.space va .rd with
  | (.ok w, d) =>
    if w.kind = 3 || d.l1Own c.core w || d.owned (.line (lineOf w.pa)) then d else d.fill c.core w ef
  | (_, d) => d

def execPref (h : Hdr) (ef : Bool) (a : Operand) (off : Off) (s : State) : Host.Outcome State Fault Refusal :=
  runWord (.pref h ef a off) s fun c dev =>
    .done (c.on.foldl (fun dev l => c.prefetch ef dev (truncI (c.get l .i64 a + c.offset l 64 off) 64)) dev) (c.cycles false 16) [] []

def execCctl (h : Hdr) (op : CctlOp) (fb : Bool) (a : Operand) (off : Off) (s : State) : Host.Outcome State Fault Refusal :=
  runWord (.cctl h op fb a off) s fun c dev =>
    c.issueMem dev { kind := .cctl op, space := .generic, size := 1, fb := fb }
      (c.on.map fun l => { lane := l, addr := c.get l .i64 a + c.offset l 64 off })

end Sys2Proof.Machine
end

