-- ==== Sys2Proof/Machine/Perform.lean ====
section
/-! DEFINITION. The memory system's steps (R111, R160, R164, R167, R181 to R193, R214 to R222): LOAD_COMPLETE, STORE_PERFORMED,
ATOMIC_PERFORMED and FENCE_COMPLETE perform accesses in the order the memory model asks for, each with its race check. -/

namespace Sys2Proof.Machine

/-! ### Order (R182 to R185, R193) -/

def OpKind.isMatrix : OpKind → Bool
  | .matrix _ => true
  | _ => false

/-- Whether two accesses reach one location, taken line by line. -/
def sameSpot (o p : MemOp) (a b : Access) : Bool :=
  o.space == p.space &&
    match o.space with
    | .counter => a.pa == b.pa
    | .const => false
    | _ => lineOf a.pa == lineOf b.pa

/-- Threads that an access stands for. -/
def MemOp.owners (o : MemOp) (w : Weft) (lane : Nat) : Lanes :=
  if o.uni then o.lanes &&& w.halfMask (w.halfOf lane) else oneLane lane

/-- Whether an access of a word may be performed before that of an older word to the same line: a load of another thread in the same pick need
not meet the store (R183). -/
def freeLoad (w : Weft) (o : MemOp) (a : Access) (p : MemOp) (b : Access) : Bool :=
  o.kind == .load && p.kind == .store && o.pick == p.pick && o.owners w a.lane &&& p.owners w b.lane == 0

def MemOp.open_ (o : MemOp) : Bool := o.accs.any (!·.perf)

/-- An acquire that later accesses of the weft wait for. -/
def MemOp.acquires (o : MemOp) : Bool := o.order.isAcq && o.scope != .weft && o.kind != .fence

/-- Whether an older operation of the weft holds an access back: one location is taken in order, later accesses follow an acquire, a
release follows everything before it, device accesses keep their order, and in trap mode the checks of a thread keep their order. A load of
a line to which another thread of the same pick has stored may come before the store or after it (R183). -/
def holdsBack (race : Bool) (w : Weft) (o : MemOp) (a : Access) (p : MemOp) : Bool :=
  (p.accs.any fun b => !b.perf && ((sameSpot o p a b && !b.seen && !freeLoad w o a p b) ||
    (o.space == .generic && p.space == .generic && a.region == 3 && b.region == 3) ||
    (race && p.pick == o.pick && o.owners w a.lane &&& p.owners w b.lane != 0 && !b.checked))) ||
  (p.acquires && p.open_) ||
  (o.rel != 0 && p.open_)

/-- Whether an access can be performed now. -/
def Dev.ready (d : Dev) (w : Weft) (o : MemOp) (a : Access) : Bool :=
  let race := w.hdr.race == 1
  !(d.ops.any fun p => p.ref == o.ref && decide (p.id < o.id) && holdsBack race w o a p) &&
  !(o.accs.any fun b => !b.perf && decide (b.lane < a.lane) && sameSpot o o a b && o.kind != .atomic) &&
  (o.kind.isCctl || a.seen || match a.loc w.bolt o.space with | some l => !d.ownHolds o l | none => true) &&
  !(o.rel != 0 && d.cmds.any fun x => x.ref == o.ref && decide (x.seq < o.id) && x.desc.isNone && !x.status.final)

/-! ### Traps met when an access is performed -/

def MemOp.site (o : MemOp) : Site :=
  { ref := o.ref, pc := o.pc, depth := o.depth, words := [], idx := o.idx, head := o.head, len := 1, handler := o.handler }
/-- Takes an access out of its operation. -/
def Dev.dropAccess (d : Dev) (id lane : Nat) : Dev :=
  { d with ops := d.ops.map fun p => if p.id = id then { p with accs := p.accs.filter (·.lane != lane) } else p }

/-- Accesses that the trapping threads issued after operation `o` in the same pick are dropped; they issue again with the pick (R218). A uniform
access stays for the threads of its half that did not trap. -/
def Dev.dropLater (d : Dev) (w : Weft) (o : MemOp) (lanes : Lanes) : Dev :=
  { d with ops := d.ops.map fun p =>
      if p.ref == o.ref && p.pick == o.pick && decide (o.id < p.id) && !p.kind.isMatrix then
        { p with accs := p.accs.filter (fun a => a.perf || a.seen || p.owners w a.lane &&& ~~~ lanes != 0),
                 lanes := if p.uni then p.lanes &&& ~~~ lanes else p.lanes }
      else p }

/-- A RACE trap of a twin's primary copy, mirrored to its secondary (R224). -/
def Dev.mirrorTrap (d : Dev) (w : Weft) (o : MemOp) (ts : List LaneTrap) : Dev :=
  match (d.bolt? w.bolt).bind d.twinOf with
  | none => d
  | some t =>
    { d with wefts := d.wefts.map fun p =>
        if !p.2.sup && p.2.bolt == t.id && p.2.widx == w.widx then (p.1, { p.2 with mirror := p.2.mirror ++ ts.map fun x => (o.pick, x) })
        else p }

/-- TRAPPING THREADS THAT HAVE GONE ON: the threads of `lanes` leave the pick, or the key they have reached since, and trap at the word
where `site` stands (R193, R219, R222, R332, R340). -/
def Dev.lateTrapAt (d : Dev) (regs : Regs) (site : Site) (lanes : Lanes) (cause sub addr : Nat) (back : Back) : Dev :=
  let ref := site.ref
  match d.weft? ref with
  | none => d
  | some w =>
    let run := d.runOf? ref site.handler
    let inRun := match run with | some (_, r) => r.act | none => 0
    let atRest := if site.handler then (match w.handler with | some h => h.entry.mask | none => 0)
      else w.entries.foldl (fun m e => m ||| e.mask) 0 ||| (match w.ending with | some e => e.act | none => 0)
    let here := lanes &&& (inRun ||| atRest)
    if here = 0 then d
    else
      let d := match run with
        | some (k, r) => d.modSh k fun s => { s with run := some { r with act := r.act &&& ~~~ here } }
        | none => d
      let d := if site.handler then d else d.putW ref
        { w with entries := pullLanes w.entries here, trapFor := w.trapFor &&& ~~~ here, ending := w.ending.map fun (e : Ending) => { e with act := e.act &&& ~~~ here } }
      let ts := (lanesOf here).map fun l => ({ lane := l, cause := cause, sub := sub, addr := addr, back := back } : Trap)
      let d := d.trace regs (ref.core * 4 + ref.shuttle) w { pick := none, tag := none, trap := some (cause, site.word) }
      let (d, lts) := d.takeTraps regs site (d.clockOf ref) ts
      match run with
      | some (k, r) =>
        let r : PickRun := { r with act := r.act &&& ~~~ here, traps := r.traps ++ lts }
        if r.act = 0 then d.endPick regs k r
        else if w.sup then d.suspend k r
        else d.modSh k fun s => { s with run := some r }
      | none => (d.modW ref fun w => { w with trapPend := w.trapPend ++ lts }).rouse ref

/-- A thread whose access fails when it is performed traps at the word that issued it; a RACE trap of a twin's primary copy is mirrored
for the threads that are still there. -/
def Dev.lateTrap (d : Dev) (regs : Regs) (o : MemOp) (lanes : Lanes) (cause sub addr : Nat) (back : Back) : Dev :=
  match d.weft? o.ref with
  | none => d
  | some w =>
    let race : List LaneTrap := if cause = 0x12 then (lanesOf lanes).map fun l =>
      let t : Trap := { lane := l, cause := cause, sub := sub, addr := addr, back := back }
      { lane := l, cause := 0x12, sub := BitVec.ofNat 16 sub, addr := BitVec.ofNat 57 addr, word := o.site.word,
        back := o.site.restart t, here := o.site.restart { t with back := .here } } else []
    (d.mirrorTrap w o race).lateTrapAt regs o.site lanes cause sub addr back

/-- The failed access of a lane is dropped with those its threads issued later in the pick. -/
def Dev.failAccess (d : Dev) (regs : Regs) (w : Weft) (o : MemOp) (a : Access) (cause sub addr : Nat) (back : Back) : Dev :=
  let ls := o.owners w a.lane
  let d := (d.dropAccess o.id a.lane).dropLater w o ls
  let d : Dev := { d with ops := d.ops.map fun p => if p.id = o.id then { p with rel := p.rel &&& ~~~ ls } else p }
  d.lateTrap regs o ls cause sub addr back

/-! ### Scratch (R160, R337) -/

def Dev.scratchRd (d : Dev) (w : Weft) (pa n : Nat) : Nat :=
  if w.sup then Cells.bytes w.scratch pa n else ((d.bolt? w.bolt).map fun b => Cells.bytes b.scratch pa n).getD 0

/-- Writes scratch bytes; a 4-byte word written whole holds no uncorrectable error. -/
def Dev.scratchWr (d : Dev) (ref : WRef) (w : Weft) (pa n v : Nat) : Dev :=
  if w.sup then d.modW ref fun w => { w with scratch := Cells.putBytes w.scratch pa n v }
  else d.modBolt w.bolt fun b =>
    { b with scratch := Cells.putBytes b.scratch pa n v,
             badScratch := b.badScratch.filter fun k => !(pa ≤ 4 * k && 4 * k + 4 ≤ pa + n) }

/-- Whether an access to scratch consumes an uncorrectable word: a read of it, or a write of a part of it. -/
def Dev.scratchBad (d : Dev) (w : Weft) (pa n : Nat) (whole : Bool) : Bool :=
  match d.bolt? w.bolt with
  | none => false
  | some b => !w.sup && b.badScratch.any fun k => decide (pa < 4 * k + 4) && decide (4 * k < pa + n) && (whole || n < 4)

/-! ### Race checks (R202, R214, R215, R218 to R222) -/

def MemOp.isRel (o : MemOp) (a : Access) : Bool := o.rel.getLsbD a.lane

/-- Whether an access is synchronising or atomic (R180). -/
def MemOp.isSync (o : MemOp) (a : Access) : Bool :=
  o.kind == .atomic || o.isRel a || (o.order.isAcq && o.scope != .weft)

/-- KIND of a race record. -/
def MemOp.raceKind (o : MemOp) (a : Access) : Nat :=
  if o.kind = .atomic then 6
  else if o.kind = .load then (if o.vol then 2 else if o.isSync a then 4 else 0)
  else if o.vol then 3 else if o.isRel a then 5 else 1

/-- Whether an access reaches a line that is checked: scratch, or a tracked line through a page with RT. -/
def Regs.checks (r : Regs) (o : MemOp) (a : Access) : Bool :=
  match o.space with
  | .scratch => true
  | .generic => a.rt && a.region != 3 && r.tracked (lineOf a.pa)
  | _ => false

def Dev.raceHit (d : Dev) (regs : Regs) (w : Weft) (o : MemOp) (a : Access) (t : RaceId) : Option Hit :=
  if !t.on || !regs.checks o a then none
  else if o.space = .scratch then
    (d.bolt? w.bolt).bind fun b => d.checkScratch o.ref.core b t (o.isSync a) (lineOf a.pa)
  else d.checkLine regs t (o.isSync a) (lineOf a.pa)

/-- The check of one access: it is recorded in both modes, and in trap mode a racing access is not performed. Answers whether the access
goes on. -/
def Dev.checkAccess (d : Dev) (regs : Regs) (w : Weft) (o : MemOp) (a : Access) : Dev × Bool :=
  let t := d.raceIdOf w a.lane
  match d.raceHit regs w o a t with
  | none => (d, true)
  | some h =>
    let ra : RaceAt :=
      { ref := o.ref, scr := o.space == .scratch, addr := a.va.toNat % 2 ^ 57, kind := o.raceKind a, size := o.size.log2,
        writes := o.kind != .load, word := o.site.word, pc := o.pc, resume := o.idx, depth := o.depth, report := !t.traps }
    let (d, i, drop) := d.raceRecord regs ra t h
    if t.traps then (d.failAccess regs w o a 0x12 (raceSub i drop) (a.va.toNat % 2 ^ 57) .head, false) else (d, true)

/-! ### Hints (R300) -/

/-- Counts an L2 access of a launch in the lowest-numbered hint range that holds its address; whether it missed is not part of the
architecture. -/
def Dev.countHint (d : Dev) (bolt : Nat) (va : Nat) : Dev :=
  match d.launchOf? bolt with
  | none => d
  | some l =>
    let here (h : Option Hint) : Bool := match h with | some h => decide (h.base ≤ va) && decide (va < h.base + 64 * h.lines) | none => false
    match l.hints.findIdx? here with
    | none => d
    | some i =>
      let (n, d) := d.draw
      let miss := if Config.freeBit n then 1 else 0
      let hs := l.hints.mapIdx fun j h => if j = i then h.map fun h => { h with accesses := h.accesses + 1, misses := h.misses + miss } else h
      { d with disp := { d.disp with launches := d.disp.launches.map fun x => if x.serial = l.serial then { x with hints := hs } else x } }

/-- The same for the lines of a command of the launch. -/
def Dev.countHints (d : Dev) (bolt : Nat) (vas : List Nat) : Dev := vas.foldl (fun d va => d.countHint bolt va) d

/-! ### Performing one access -/

def Access.whereAt (a : Access) (asid : BitVec 16) : Where :=
  { pa := a.pa, va := a.va.truncate 57, asid := asid, region := a.region, rt := a.rt, target := a.target }

/-- Whether a load takes the line's value from its home slice. -/
def Dev.readsHome (d : Dev) (core : Nat) (a : Where) (vol : Bool) : Bool := vol || a.kind = 3 || !d.l1Hit core a

/-- Whether a store goes to the home slice, or fetches its block from there: not one of a private word that its own L1 holds (R164, R300). -/
def Dev.writesHome (d : Dev) (core : Nat) (a : Where) (vol : Bool) : Bool := vol || a.kind != 0 || !d.l1Own core a

/-- FLAGS of a line's record, where the line keeps one. -/
def Dev.lineFlags (d : Dev) (regs : Regs) (a : Access) : Option Nat :=
  if a.rt && regs.tracked (lineOf a.pa) then some (Rec.ofWord (d.rmetaOf regs (lineOf a.pa))).flags else none

def Dev.scratchFlags (d : Dev) (w : Weft) (line : Nat) : Option Nat :=
  (d.bolt? w.bolt).map fun b => if b.smetaOf line = sideCode then 3 else 0

/-- The acquire side of an access: the cache actions and promotion, then the merge (R184, R188, R213). -/
def Dev.acquireAt (d : Dev) (regs : Regs) (w : Weft) (o : MemOp) (a : Access) : Dev :=
  if !o.acquires then d
  else
    let core := o.ref.core
    let line := lineOf a.pa
    match o.space with
    | .generic =>
      let promoted := o.remote && d.mem.marks.any fun k => k.line == line && k.pair != pairOf core
      let d := if promoted then d.promote line else d
      (d.acquire core o.scope).acquireSide o.ref (.line line) (d.lineFlags regs a) o.scope (o.remote && scopeWide o.scope)
    | .scratch => (d.acquire core o.scope).acquireSide o.ref (.scr w.bolt line) (d.scratchFlags w line) .bolt false
    | .counter => d.acquireCtr o.ref a.pa o.scope o.remote
    | .const => d

/-- The constant cache's copy of a line, fetched on a miss (R161). No rule gives its organisation or its replacement: the model keeps 256 lines, held
by virtual address, any of which a line may take the place of, and the line fetched first gives way, at no other time (DESIGN CHOICE,
notes/assumptions/67.md). -/
def Dev.constRead (d : Dev) (core : Nat) (w : Where) (n : Nat) : Nat × Dev :=
  let lines := Tab.getD [] d.mem.ccache core
  let key := constKey w.asid w.va.toNat
  match lines.find? (·.1 == key) with
  | some x => (lineVal x.2 w.va.toNat n, d)
  | none =>
    let v := BitVec.ofNat 512 (leBytes (d.engBytes core { w with pa := lineOf w.pa * 64 } 64))
    (lineVal v w.va.toNat n, d.modMem fun m => { m with ccache := Tab.put m.ccache core (((key, v) :: lines).take 256) })

/-- Writes a result and takes the access out of its operation. -/
def Dev.deliverVal (d : Dev) (o : MemOp) (a : Access) (v : Nat) : Dev :=
  let d := (d.modW o.ref fun w => o.dst.put w a.lane o.size o.sgn v).dropAccess o.id a.lane
  if o.kind = .atomic && o.space = .generic then d.publish o.ref o.pick o.idx [(a.lane, v)] else d

/-- The FLAGS of the record that a read meets, kept for a FENCE .acq that makes it an acquire (R185, R213). -/
def Dev.noteFlags (d : Dev) (regs : Regs) (w : Weft) (o : MemOp) (a : Access) : Dev :=
  let fl := match o.space with
    | .generic => d.lineFlags regs a
    | .scratch => d.scratchFlags w (lineOf a.pa)
    | .counter => some (d.counter a.pa).flags.toNat
    | .const => none
  if fl.isNone || w.hdr.race = 0 then d
  else d.modW o.ref fun w => { w with lastRead := w.lastRead.map fun p => if p.2.op = o.id ∧ (o.owners w a.lane).getLsbD p.1 then (p.1, { p.2 with flags := fl }) else p }

/-- A load's access, past its check. -/
def Dev.doLoad (d : Dev) (regs : Regs) (w : Weft) (o : MemOp) (a : Access) : Dev :=
  let core := o.ref.core
  match o.space with
  | .scratch =>
    if d.scratchBad w a.pa o.size true then d.loseBolt regs w.bolt
    else
      let d := (d.noteFlags regs w o a).acquireAt regs w o a
      d.deliverVal o a (d.scratchRd w a.pa o.size)
  | .counter =>
    let d := (d.noteFlags regs w o a).acquireAt regs w o a
    d.deliverVal o a (d.counter a.pa).value.toNat
  | .const =>
    if d.poisoned a.pa then d.failAccess regs w o a 0x13 1 (a.va.toNat % 2 ^ 57) .here
    else
      let hit := (Tab.getD [] d.mem.ccache core).any (·.1 == constKey w.asid a.va.toNat)
      let d := if hit then d else d.countHint w.bolt a.va.toNat
      let (v, d) := d.constRead core (a.whereAt w.asid) o.size
      d.deliverVal o a v
  | .generic =>
    let at_ := a.whereAt w.asid
    let d := d.acquireAt regs w o a
    let d := d.noteFlags regs w o a
    let home := d.readsHome core at_ o.vol
    if home && d.poisoned a.pa then d.failAccess regs w o a 0x13 1 (a.va.toNat % 2 ^ 57) .here
    else
      let d := if home then d.countHint w.bolt a.va.toNat else d
      let (v, d) := d.load core at_ o.size o.vol o.ef
      let v := match d.bolt? w.bolt with | some b => heldOver b.held a.pa o.size v | none => v
      d.deliverVal o a v

/-- The release side of a write past its cache actions: the line written back last, the mark, the sidecar entry (R184, R188, R210,
R213). -/
def Dev.afterRelease (d : Dev) (w : Weft) (o : MemOp) (a : Access) (flags : Nat) : Dev :=
  let line := lineOf a.pa
  let d := if scopeWide a.relScope then (d.pairWb o.ref.core line).passBank w else d.markLine line (pairOf o.ref.core)
  d.releaseSide o.ref a.lane (.line line) a.relScope flags

/-- A private-region release at .dev or .sys stands in the L1s of its pair, whose threads can read it, before it reaches its home slice
(R184, R187). -/
def Dev.markSeen (d : Dev) (o : MemOp) (a : Access) : Dev :=
  { d with ops := d.ops.map fun p =>
      if p.id = o.id then { p with accs := p.accs.map fun b => if b.lane = a.lane then { b with seen := true } else b } else p }

/-- A store's access, past its check. A release at .dev or .sys to a private line takes two steps: its value in the L1s of the pair, then the
release with the line written back last. -/
def Dev.doStore (d : Dev) (regs : Regs) (w : Weft) (o : MemOp) (a : Access) : Dev :=
  let core := o.ref.core
  let line := lineOf a.pa
  let v := a.data.toNat % 2 ^ (8 * o.size)
  let rel := o.isRel a
  let t := d.raceIdOf w a.lane
  match o.space with
  | .scratch =>
    if d.scratchBad w a.pa o.size false then d.loseBolt regs w.bolt
    else
      let d := if rel then d.release core a.relScope else d
      let d := if rel && scopeWide a.relScope then d.passBank w else d
      let d := (d.scratchWr o.ref w a.pa o.size v).noteScratch w.bolt w.widx t line rel
      let d := if rel then d.releaseSide o.ref a.lane (.scr w.bolt line) .bolt 2 else d
      d.dropAccess o.id a.lane
  | _ =>
    if d.isTwin w then
      let h : Held := { va := a.va, pa := a.pa, size := o.size, data := v, widx := w.widx, region := a.region,
                        rel := if rel then some a.relScope else none }
      let d := (d.hold w.bolt h).noteWrite regs (some t) a.rt line (if rel then 2 else 0)
      let d := if rel then (d.release core a.relScope).releaseSide o.ref a.lane (.line line) a.relScope 2 else d
      d.dropAccess o.id a.lane
    else if a.seen then ((d.release core a.relScope).afterRelease w o a 2).dropAccess o.id a.lane
    else
      let at_ := a.whereAt w.asid
      let d := d.promoteFor line (pairOf core)
      let d := if d.writesHome core at_ o.vol then d.countHint w.bolt a.va.toNat else d
      let early := rel && scopeWide a.relScope && at_.kind = 0 && !o.vol
      let d := if rel && !early then d.release core a.relScope else d
      let d := d.store core at_ o.size v o.vol o.ef
      let d := d.noteWrite regs (some t) a.rt line (if rel then 2 else 0)
      if early then d.markSeen o a
      else
        let d := if rel then d.afterRelease w o a 2 else d
        d.dropAccess o.id a.lane

/-! ### Atomics (R375) -/

/-- f(op, old, b, cmp) on n-bit values. -/
def atomVal (op : AtomOp) (n old b cmp : Nat) : Nat :=
  let addF (f : Fmt) (x y : Nat) : Nat := (roundTo f (addNum false (f.dec x) (f.dec y)).1 .rn false).1
  match op with
  | .add => (old + b) % 2 ^ n
  | .minS => if sxN b n < sxN old n then b else old
  | .minZ => if b < old then b else old
  | .maxS => if sxN old n < sxN b n then b else old
  | .maxZ => if old < b then b else old
  | .and => old &&& b
  | .or => old ||| b
  | .xor => old ^^^ b
  | .exch => b
  | .cas => if old = cmp then b else old
  | .incwrap => if b ≤ old then 0 else old + 1
  | .faddF32 => addF fmtF32 old b
  | .fminF32 => minMax fmtF32 false old b
  | .fmaxF32 => minMax fmtF32 true old b
  | .faddBf => pack16 (addF fmtBf16 (lo16 old) (lo16 b)) (addF fmtBf16 (hi16 old) (hi16 b))

/-- The old value waits in the access for LOAD_COMPLETE; a RED has nothing to write. -/
def Dev.atomDone (d : Dev) (o : MemOp) (a : Access) (old : Nat) : Dev :=
  if o.dst = .none then d.dropAccess o.id a.lane
  else { d with ops := d.ops.map fun p =>
    if p.id = o.id then
      { p with accs := p.accs.map fun b => if b.lane = a.lane then { b with perf := true, data := BitVec.ofNat 128 old } else b }
    else p }

/-- An atomic's access, past its check: one read-modify-write at the home slice or the bank (R167, R190, R191). -/
def Dev.doAtomic (d : Dev) (regs : Regs) (w : Weft) (o : MemOp) (a : Access) : Dev :=
  let core := o.ref.core
  let line := lineOf a.pa
  let n := 8 * o.size
  let rel := o.isRel a
  -- the record names the highest lane of the word that writes the line (R209)
  let t := d.raceIdOf w (max a.lane a.top)
  let b := a.data.toNat % 2 ^ n
  match o.space with
  | .scratch =>
    if d.scratchBad w a.pa o.size true then d.loseBolt regs w.bolt
    else
      let d := (d.noteFlags regs w o a).acquireAt regs w o a
      let d := if rel then d.release core a.relScope else d
      let d := if rel && scopeWide a.relScope then d.passBank w else d
      let old := d.scratchRd w a.pa o.size
      let d := (d.scratchWr o.ref w a.pa o.size (atomVal o.aop n old b a.cmp.toNat)).noteScratch w.bolt w.widx t line true
      let d := if rel then d.releaseSide o.ref a.lane (.scr w.bolt line) .bolt 3 else d
      d.atomDone o a old
  | _ =>
    if d.poisoned a.pa then d.failAccess regs w o a 0x13 1 (a.va.toNat % 2 ^ 57) .here
    else
      let d := d.promoteFor line (pairOf core)
      let d := (d.noteFlags regs w o a).acquireAt regs w o a
      let d := if rel then d.release core a.relScope else d
      let d := (d.countHint w.bolt a.va.toNat).atomPrep core (a.whereAt w.asid)
      let old := d.homeRd a.pa o.size
      let d := d.homeWr a.pa o.size (atomVal o.aop n old b a.cmp.toNat)
      let fl := d.atomFlags core (.line line) rel
      let d := (d.noteWrite regs (some t) a.rt line fl).passBank w
      let d := if rel then d.afterRelease w o a fl else d
      d.atomDone o a old

/-! ### CCTL and counters -/

/-- CCTL on the issuing core's copy of a line (R387). -/
def Dev.doCctl (d : Dev) (o : MemOp) (a : Access) (op : CctlOp) : Dev :=
  let core := o.ref.core
  let line := lineOf a.pa
  let d :=
    if a.region = 3 || d.owned (.line line) then d
    else match op with
      | .wb => d.wbLine core line
      | .wbinv => d.wbDrop core line
      | .inv => match d.l1? core line with
        | some l => if l.dirty = 0 then d.l1Drop core line else d.l1Put core { l with valid := l.dirty }
        | none => d
  d.dropAccess o.id a.lane

/-- ECADD and ECTRIG reach their counter (R195, R308, R309). -/
def Dev.doCtr (d : Dev) (w : Weft) (o : MemOp) (a : Access) : Dev :=
  let id := a.pa
  let rel := o.isRel a
  let d := d.promoteFor (ctrMark id) (pairOf o.ref.core)
  let d := if rel then d.release o.ref.core a.relScope else d
  let d := d.dropAccess o.id a.lane
  if o.kind = .ectrig then d.ctrControl id (a.data.truncate 64) true
  else
    let d := if rel && !scopeWide a.relScope then d.markLine (ctrMark id) (pairOf o.ref.core) else d
    let d := if rel then d.releaseSide o.ref a.lane (.counter id) a.relScope 3 else d
    (d.ctrAdd id (a.data.truncate 64) rel).passBank w

/-! ### Completion (R111, R210) -/

/-- Whether nothing of an operation is left to perform or to write. -/
def MemOp.finished (o : MemOp) : Bool := o.accs.isEmpty

/-- An operation that has completed for every thread leaves its flag, its scoreboard entry and the device. -/
def Dev.completeOp (d : Dev) (regs : Regs) (id : Nat) : Dev :=
  match d.ops.find? (·.id == id) with
  | none => d
  | some o =>
    if !o.finished then d
    else
      let d : Dev := { d with ops := d.ops.filter (·.id != id) }
      let d := d.modW o.ref fun w =>
        let w := (w.subFlags o.flags).freeSb id
        if o.rel != 0 && o.kind != .fence && !o.bumped then w.bumpClk else w
      d.tryEnding regs o.ref

/-- The release clock rises once the last write of a releasing word has been performed, before its results are written (R210). -/
def Dev.bumpDone (d : Dev) (id : Nat) : Dev :=
  match d.ops.find? (·.id == id) with
  | none => d
  | some o =>
    if o.rel = 0 || o.bumped || o.kind = .fence || o.open_ then d
    else ({ d with ops := d.ops.map fun p => if p.id = id then { p with bumped := true } else p } : Dev).modW o.ref Weft.bumpClk

/-- One access of an operation, if it can be performed: the park on a parked engine's line, the check, and its effect. -/
def Dev.performOne (d : Dev) (regs : Regs) (id lane : Nat) : Dev :=
  match d.ops.find? (·.id == id) with
  | none => d
  | some o =>
    match d.weft? o.ref, o.accs.find? (·.lane == lane) with
    | some w, some a =>
      if a.perf then (if o.space = .const then d.deliverVal o a a.data.toNat else d)
      else if a.seen then (if d.ready w o a then d.doStore regs w o a else d)
      else
        let parked := !o.kind.isCctl && match a.loc w.bolt o.space with | some l => d.ownHolds o l && d.ownedParked l | none => false
        if parked then d.failAccess regs w o a causePage 1 (a.va.toNat % 2 ^ 57) .here
        else if !d.ready w o a then d
        else match (if o.space == .generic && (o.kind == .store || o.kind == .atomic) then d.captureWaits w.bolt a.va.toNat else none) with
        | some d => d
        | none =>
          let (d, go) := d.checkAccess regs w o a
          let d : Dev := { d with ops := d.ops.map fun p =>
            if p.id = id then { p with accs := p.accs.map fun b => if b.lane = lane then { b with checked := true } else b } else p }
          if !go then d
          else match o.kind with
            | .load | .ecrd => d.doLoad regs w o a
            | .store => d.doStore regs w o a
            | .atomic => d.doAtomic regs w o a
            | .cctl op => d.doCctl o a op
            | .ecadd | .ectrig => d.doCtr w o a
            | .fence | .matrix _ => d
    | _, _ => d

def Dev.performLanes (d : Dev) (regs : Regs) (id : Nat) (lanes : Lanes) : Dev :=
  (((lanesOf lanes).foldl (fun d l => d.performOne regs id l) d).bumpDone id).completeOp regs id

/-! ### The steps -/

def Dev.opKind? (d : Dev) (id : Nat) : Option OpKind := (d.ops.find? (·.id == id)).map (·.kind)

/-- LOAD_COMPLETE: loads and ECRD of the lanes are performed and written; atomics already performed are written. -/
def execLoadComplete (op : Nat) (lanes : Lanes) (s : State) : Host.Outcome State Fault Refusal :=
  match s.dev.ops.find? (·.id == op) with
  | none => .next s
  | some o =>
    match o.kind with
    | .load | .ecrd => .next { s with dev := s.dev.performLanes s.regs op lanes }
    | .atomic =>
      let d := (o.accs.filter fun a => a.perf && lanes.getLsbD a.lane).foldl (fun d a => d.deliverVal o a a.data.toNat) s.dev
      .next { s with dev := d.completeOp s.regs op }
    | _ => .next s

/-- STORE_PERFORMED: stores, CCTL, ECADD and ECTRIG. -/
def execStorePerformed (op : Nat) (lanes : Lanes) (s : State) : Host.Outcome State Fault Refusal :=
  match s.dev.opKind? op with
  | some .store | some (.cctl _) | some .ecadd | some .ectrig =>
    .next { s with dev := s.dev.performLanes s.regs op lanes }
  | _ => .next s

/-- ATOMIC_PERFORMED: one lane's read-modify-write. -/
def execAtomicPerformed (op lane : Nat) (s : State) : Host.Outcome State Fault Refusal :=
  match s.dev.opKind? op with
  | some .atomic => .next { s with dev := ((s.dev.performOne s.regs op lane).bumpDone op).completeOp s.regs op }
  | _ => .next s

/-- FENCE_COMPLETE, once every earlier access of the weft has been performed (R185, R402). -/
def execFenceComplete (op : Nat) (s : State) : Host.Outcome State Fault Refusal :=
  let d := s.dev
  match d.ops.find? (·.id == op) with
  | none => .next s
  | some o =>
    let older := d.ops.any fun p => p.ref == o.ref && decide (p.id < o.id) && p.open_
    let taking := o.order.isRel && d.cmds.any fun x => x.ref == o.ref && decide (x.seq < o.id) && x.desc.isNone && !x.status.final
    if o.kind ≠ .fence || older || taking then .next s
    else match d.weft? o.ref with
      | none => .next s
      | some w =>
        let core := o.ref.core
        let d := if o.order.isRel then d.release core o.scope else d
        let d := if o.order.isRel && scopeWide o.scope then d.passBank w else d
        let d := if o.order.isRel then d.modW o.ref fun w => { w with relPend := w.relPend ++ [{ lanes := o.lanes, scope := o.scope }] } else d
        let d := if o.order.isAcq then
            (lanesOf o.lanes).foldl (fun d l => match Tab.find? w.lastRead l with
              | some k => d.acquireSide o.ref k.key k.flags o.scope false
              | none => d) (d.acquire core o.scope)
          else d
        .next { s with dev := d.completeOp s.regs op }

end Sys2Proof.Machine
end

