-- ==== Sys2Proof/Machine/Matrix.lean ====
section
/-! DEFINITION. The matrix class: MMA, ACCLD, ACCST, ACCMV, ACCQ and ACCZ (R76, R147 to R156, R368 to R373, R425 to R428), their
completions, and the matrix self-test (R351). -/

namespace Sys2Proof.Machine

/-! ### Tiles -/

/-- Number of a tile in its weft: each half has its own in compatibility mode (R67). -/
def tileNo (half tile : Nat) : Nat := half * 128 + tile

def Weft.tile (w : Weft) (half tile m n : Nat) : BitVec 32 := Cells.get w.tiles (tileNo half tile * 256 + 16 * m + n)

/-- Writes a whole tile, which is then valid (R76) and free of uncorrectable words. -/
def Weft.setTile (w : Weft) (half tile : Nat) (f : Nat → Nat → BitVec 32) : Weft :=
  let base := tileNo half tile * 256
  ({ w with tiles := (List.range 256).foldl (fun t j => Cells.set t (base + j) (f (j / 16) (j % 16))) w.tiles,
            badTiles := w.badTiles.filter (· != tileNo half tile) } : Weft).mend (badTile (tileNo half tile))

/-- The tile that a matrix operation writes whole. -/
def MatOp.writesTile : MatOp → Option Nat
  | .mma _ t h _ _ _ _ _ | .accld t h _ | .toTile t h _ => some (tileNo h t)
  | .accst _ _ _ | .toRegs _ _ _ => none

/-- The tile that a matrix operation names. -/
def MatOp.tileOf : MatOp → Nat
  | .mma _ t h _ _ _ _ _ | .accld t h _ | .toTile t h _ | .accst t h _ | .toRegs _ t h => tileNo h t

def MemOp.mat? (o : MemOp) : Option MatOp :=
  match o.kind with
  | .matrix m => some m
  | _ => none

/-- Whether a tile is valid for the word being issued: after the weft's earlier matrix operations. -/
def Dev.tileValid (d : Dev) (ref : WRef) (w : Weft) (no : Nat) : Bool :=
  !w.badTiles.contains no || d.ops.any fun o => o.ref == ref && (o.mat?.bind MatOp.writesTile) == some no

/-- Whether a matrix operation of the weft is in flight, on one tile or on any. -/
def Dev.matrixBusy (d : Dev) (ref : WRef) (no : Option Nat) : Bool :=
  d.ops.any fun o => o.ref == ref && match o.mat? with
    | some m => no.isNone || no == some m.tileOf
    | none => false

def Dev.tileOwned (d : Dev) (ref : WRef) (no : Nat) : Bool :=
  match d.weft? ref with
  | some w => d.owned (.tile (w.tileRef ref.core) no)
  | none => false

/-! ### MMA arithmetic (R155, R156) -/

def truncTo (q : Int) (x : Num) : Num :=
  match x with
  | .fin s m e t => if q ≤ e then .fin s m e t else .fin s (shr m (q - e).toNat) q false
  | x => x

def chunkSum (acc : Nat) (terms : List Num) : Nat :=
  let all := fmtF32.dec acc :: terms
  if all.any (· == .nan) then fmtF32.nan
  else
    let pos := all.any (· == .inf false)
    let neg := all.any (· == .inf true)
    if pos && neg then fmtF32.nan
    else if pos then 0x7F800000
    else if neg then 0xFF800000
    else
      let nz := all.filter fun x => !x.isZero
      match nz with
      | [] => 0
      | x :: _ =>
        let top (x : Num) : Int := match x with | .fin _ m e _ => topBit m e | _ => 0
        let emax := nz.foldl (fun t y => max t (top y)) (top x)
        rne32 (sumFin (nz.map (truncTo (emax - 60))))

/-- An E8M0 scale as an exact value (R146). -/
def scaleNum (c : Nat) : Num := if c = 0xFF then .nan else .fin false 1 ((c : Int) - 127) false

def MmaFmt.stride : MmaFmt → Nat
  | .c16b | .c16h => 1024
  | .c8 | .c4 => 1088

/-- Element `k` of a row or column of 64 bytes whose bytes `b` gives (R150, R151). -/
def mmaElem (f : MmaFmt) (b : Nat → Nat) (k : Nat) : Num :=
  match f with
  | .c16b => fmtBf16.dec (b (2 * k) + 256 * b (2 * k + 1))
  | .c16h => fmtF16.dec (b (2 * k) + 256 * b (2 * k + 1))
  | .c8 => (fmtB8 4 false true).dec (b k)
  | .c4 => fmtE2m1.dec (b (k / 2) / 16 ^ (k % 2) % 16)

/-- Byte `b` of row `m` of chunk `c` of A, from the captured registers (R152). -/
def aByte (g half : Nat) (regs : Cells 32) (c m b : Nat) : Nat :=
  let j := b / (64 / g)
  let i := c * (16 / g) + b % (64 / g) / 4
  (Cells.get regs ((16 * j + m + 16 * half) * 1024 + i)).toNat / 256 ^ (b % 4) % 256

/-- The scale of block `kb` of row `m` of chunk `c` of A (R153). -/
def aScale (f : MmaFmt) (g half : Nat) (regs : Cells 32) (c m kb : Nat) : Num :=
  if f.scaled then
    let part := f.k / g
    let j := 32 * kb / part
    let nb := max 1 (f.k / (32 * g))
    let i := if 32 ≤ part then kb - j * nb else 0
    let b := c * nb + i
    scaleNum ((Cells.get regs ((16 * j + m + 16 * half) * 1024 + b / 4)).toNat / 256 ^ (b % 4) % 256)
  else .fin false 1 0 false

/-- The scale of block `kb` of column `n` of a B chunk whose bytes `b` gives (R150). -/
def bScale (f : MmaFmt) (b : Nat → Nat) (n kb : Nat) : Num :=
  match f with
  | .c8 => scaleNum (b (1024 + 2 * n + kb))
  | .c4 => scaleNum (b (1024 + 4 * n + kb))
  | _ => .fin false 1 0 false

def mmaTerm (f : MmaFmt) (g half : Nat) (aregs scales : Cells 32) (b : Nat → Nat) (c m n k : Nat) : Num :=
  let x := mmaElem f (aByte g half aregs c m) k
  let y := mmaElem f (fun j => b (64 * n + j)) k
  let t := (mulNum x y).1
  let s := (mulNum (aScale f g half scales c m (k / 32)) (bScale f b n (k / 32))).1
  match s with
  | .nan => .nan
  | s => (mulNum t s).1

/-- Element (m, n) after chunks `start` to `stop − 1`; `bs c` gives the bytes of B's chunk. -/
def mmaElemOut (mod : MmaMod) (g half : Nat) (aregs scales : Cells 32) (bs : Nat → Nat → Nat) (start stop m n acc : Nat) : Nat :=
  ((List.range stop).filter (start ≤ ·)).foldl (fun acc c =>
    chunkSum acc ((List.range mod.fmt.k).map (mmaTerm mod.fmt g half aregs scales (bs c) c m n))) acc

/-! ### $pidx (R84, R270) -/

/-- The index at which the word being issued starts: $pidx when it resumes a word that trapped with it. -/
def Ctx.startIdx (c : Ctx) (half : Nat) : Nat :=
  if c.w.pidxPend.any (fun p => p.half == half && p.pc == c.run.pc && p.resume == c.run.idx && p.lanes &&& c.run.act != 0) then
    (Cells.get c.w.pidx half).toNat
  else 0

/-- The resumption takes $pidx, which returns to zero. -/
def Ctx.takePidx (c : Ctx) (half : Nat) (w : Weft) : Weft :=
  let mine (p : PidxPend) : Bool := p.half == half && p.pc == c.run.pc && p.resume == c.run.idx && p.lanes &&& c.run.act != 0
  if w.pidxPend.any mine then
    { w with pidx := Cells.set w.pidx half 0, pidxPend := w.pidxPend.filter fun p => !mine p }
  else w

/-- A trap with restart point `pidx` writes the index at which the word resumes. -/
def Ctx.leavePidx (c : Ctx) (half i : Nat) (w : Weft) : Weft :=
  { w with pidx := Cells.set w.pidx half (BitVec.ofNat 16 i),
           pidxPend := w.pidxPend ++ [{ half := half, pc := c.run.pc, resume := c.run.idx, lanes := c.actOf half }] }

/-! ### Placing a matrix operation -/

/-- Accesses to the `n` scratch lines from offset `o`, in the view of the weft's core. -/
def Ctx.lineAccs (c : Ctx) (o n : Nat) : List Access :=
  (List.range n).map fun j =>
    { lane := j, va := BitVec.ofNat 64 (o + 64 * j), pa := c.w.scratchAt c.core (o + 64 * j), region := 0, target := 0, rt := false,
      data := 0, cmp := 0, checked := true }

/-- The scoreboard entry of a word: taken by its first half, and kept until its second half has written as well (R112). -/
def Weft.joinSb (w : Weft) (op : Nat) (r : Nat × Nat) (pc : BitVec 32) : Weft :=
  if w.sb.any fun e => e.pc == pc && (e.first, e.count) == r then
    { w with sb := w.sb.map fun e => if e.pc == pc && (e.first, e.count) == r then { e with ops := e.ops ++ [op] } else e }
  else w.takeSb [op] r pc

/-- Places a matrix operation of a half, which counts on FA. -/
def Ctx.placeMat (c : Ctx) (d : Dev) (half : Nat) (m : MatOp) (dst : DstReg) (accs : List Access) : Dev :=
  let id := d.nextOp
  let keys := c.flagKeys false [half]
  let op : MemOp :=
    { id := id, ref := c.run.ref, kind := .matrix m, space := .scratch, size := 64, sgn := false, aop := .add, w64 := false,
      order := .relaxed, vol := false, scope := .weft, remote := false, ef := false, dst := dst, uni := true, rel := 0, flags := keys,
      lanes := c.actOf half, accs := accs, pick := c.w.picks, handler := c.run.handler, pc := c.run.pc, idx := c.run.idx,
      head := c.run.idx, depth := c.run.depth, eng := some (d.raceIdOf c.w (lowLane (c.actOf half))) }
  let d : Dev := { d with ops := d.ops ++ [op], nextOp := id + 1 }
  d.modW c.run.ref fun w =>
    let w := w.addFlags keys
    match dst.range with
    | some r => w.joinSb id r c.wordPc
    | none => w

/-- A matrix-class word: it waits while its tile is owned by an engine or a flag is full, then acts for each half. -/
def matWord (i : Instr) (s : State) (tile : Nat) (waits : Ctx → Dev → Option Nat)
    (f : Ctx → Nat → Dev × List Trap → Dev × List Trap) : Host.Outcome State Fault Refusal :=
  runWord i s fun c d =>
    let hs := c.onHalves
    if hs.isEmpty then .done d 1 [] []
    else if hs.any fun h => d.tileOwned c.run.ref (tileNo h tile) then .wait 3
    else match waits c d with
      | some r => .wait r
      | none =>
        let r := hs.foldl (fun x h => f c h x) (d, [])
        .done r.1 1 r.2 []

/-- A full FA holds a counting word at issue (R75). -/
def Ctx.faFull (c : Ctx) : Option Nat := if c.w.flagsFull (c.flagKeys false c.onHalves) then some 15 else none

def Ctx.halfTraps (c : Ctx) (h cause sub addr : Nat) (back : Back) : List Trap := trapsAt (lanesOf (c.actOf h)) cause sub addr back

/-! ### MMA (R425 to R428) -/

/-- Registers captured at issue: `n` from `base`, of every lane of the half (R112). -/
def Ctx.capture (c : Ctx) (half : Nat) (base : Operand) (n : Nat) : Cells 32 :=
  match base with
  | .vec b =>
    (lanesOf (c.w.full &&& c.w.halfMask half)).foldl (fun t l =>
      (List.range n).foldl (fun t j => Cells.set t (l * 1024 + j) (c.w.v l (b.val + j))) t) []
  | _ => []

/-- The first chunk of [j, n) that leaves the scratch allocation, or n. -/
def lastChunk (o stride s j n : Nat) : Nat :=
  ((List.range n).find? fun c => decide (j ≤ c) && decide (s < o + (c + 1) * stride)).getD n

def Ctx.issueMma (c : Ctx) (m : MmaMod) (tile : Nat) (a b : Operand) (sc : Option Operand) (h : Nat) (x : Dev × List Trap) :
    Dev × List Trap :=
  let d := x.1
  let o := c.uget h .i64 b
  let n := m.chunks.val + 1
  let stride := MmaFmt.stride m.fmt
  let j := c.startIdx h
  if !(m.ra && j = 0) && !d.tileValid c.run.ref c.w (tileNo h tile) then (d, x.2 ++ c.halfTraps h 0x06 0 0 .here)
  else if o % 64 ≠ 0 || 2 ^ 32 ≤ o then (d, x.2 ++ c.halfTraps h 0x03 0 (o % 2 ^ 57) .here)
  else
    let d := d.modW c.run.ref (c.takePidx h)
    let stop := lastChunk o stride c.w.hdr.scratch j n
    let d :=
      if j < stop then
        let g := c.w.g
        let op : MatOp := .mma m tile h o j stop (c.capture h a (n * 16 / g))
          (match sc with | some s => c.capture h s ((n * max 1 (m.fmt.k / (32 * g)) + 3) / 4) | none => [])
        c.placeMat d h op .none (c.lineAccs (o + j * stride) ((stop - j) * stride / 64))
      else d
    if stop < n then
      -- the tile is valid whichever chunk traps (R270)
      let valid (w : Weft) : Weft := { w with badTiles := w.badTiles.filter (· != tileNo h tile) }
      (d.modW c.run.ref fun w => c.leavePidx h stop (valid w), x.2 ++ c.halfTraps h 0x05 0 ((o + stop * stride) % 2 ^ 57) .pidx)
    else (d, x.2)

/-- What holds an MMA at issue: a self-test, a full flag, or an owned line of B. -/
def Ctx.mmaWaits (c : Ctx) (d : Dev) (m : MmaMod) (b : Operand) : Option Nat :=
  if (d.sh c.sh).selfTest then some 9
  else match c.faFull with
    | some r => some r
    | none =>
      if c.onHalves.any fun h =>
        let o := c.uget h .i64 b
        decide (o + (m.chunks.val + 1) * MmaFmt.stride m.fmt ≤ c.w.hdr.scratch) &&
          (c.lineAccs o ((m.chunks.val + 1) * MmaFmt.stride m.fmt / 64)).any fun a => d.owned (.scr c.w.bolt (lineOf a.pa))
      then some 3 else none

def execMma (h : Hdr) (m : MmaMod) (tile : Fin 128) (a b : Operand) (sc : Option Operand) (s : State) : Host.Outcome State Fault Refusal :=
  matWord (.mma h m tile a b sc) s tile.val (fun c d => c.mmaWaits d m b) fun c hf x => c.issueMma m tile.val a b sc hf x

/-! ### ACCLD, ACCST, ACCMV, ACCQ, ACCZ (R368 to R373) -/

/-- ACCLD and ACCST: the tests of the block, then the operation. -/
def Ctx.issueBlock (c : Ctx) (load : Bool) (tile : Nat) (b : Operand) (h : Nat) (x : Dev × List Trap) : Dev × List Trap :=
  let d := x.1
  let o := c.uget h .i64 b
  if !load && !d.tileValid c.run.ref c.w (tileNo h tile) then (d, x.2 ++ c.halfTraps h 0x06 0 0 .here)
  else if o % 64 ≠ 0 then (d, x.2 ++ c.halfTraps h 0x03 0 (o % 2 ^ 57) .here)
  else if 2 ^ 32 ≤ o || c.w.hdr.scratch < o + 1024 then (d, x.2 ++ c.halfTraps h 0x05 0 (o % 2 ^ 57) .here)
  else
    let accs := c.lineAccs o 16
    match accs.find? fun a => d.ownedParked (.scr c.w.bolt (lineOf a.pa)) with
    | some a => (d, x.2 ++ c.halfTraps h causePage 1 (a.va.toNat % 2 ^ 57) .here)
    | none => (c.placeMat d h (if load then .accld tile h o else .accst tile h o) .none accs, x.2)

def execAccld (h : Hdr) (tile : Fin 128) (b : Operand) (s : State) : Host.Outcome State Fault Refusal :=
  matWord (.accld h tile b) s tile.val (fun c _ => c.faFull) fun c hf x => c.issueBlock true tile.val b hf x

def execAccst (h : Hdr) (tile : Fin 128) (b : Operand) (s : State) : Host.Outcome State Fault Refusal :=
  matWord (.accst h tile b) s tile.val (fun c _ => c.faFull) fun c hf x => c.issueBlock false tile.val b hf x

def execAccmvToRegs (h : Hdr) (d : Operand) (tile : Fin 128) (s : State) : Host.Outcome State Fault Refusal :=
  matWord (.accmvToRegs h d tile) s tile.val
    (fun c _ => match c.faFull with
      | some r => some r
      | none => if 32 ≤ c.w.sb.length then some 2 else none)
    fun c hf x =>
      if !x.1.tileValid c.run.ref c.w (tileNo hf tile.val) then (x.1, x.2 ++ c.halfTraps hf 0x06 0 0 .here)
      else
        let base := match d with | .vec n => n.val | _ => 0
        (c.placeMat x.1 hf (.toRegs base tile.val hf) (dstReg d (16 / c.w.g)) [], x.2)

def execAccmvToTile (h : Hdr) (tile : Fin 128) (a : Operand) (s : State) : Host.Outcome State Fault Refusal :=
  matWord (.accmvToTile h tile a) s tile.val (fun c _ => c.faFull) fun c hf x =>
    (c.placeMat x.1 hf (.toTile tile.val hf (c.capture hf a (16 / c.w.g))) .none [], x.2)

/-- ACCQ waits for every earlier matrix-class instruction of the weft. -/
def execAccq (h : Hdr) (d : Operand) (tile : Fin 128) (s : State) : Host.Outcome State Fault Refusal :=
  matWord (.accq h d tile) s tile.val (fun c dev => if dev.matrixBusy c.run.ref none then some 9 else none) fun c hf x =>
    (x.1.modW c.run.ref fun w => w.write hf 0 d false .zx32 (if w.badTiles.contains (tileNo hf tile.val) then 0 else 1), x.2)

/-- ACCZ takes effect in the order of the weft's matrix-class instructions: it waits for those that name its tile. -/
def execAccz (h : Hdr) (tile : Fin 128) (s : State) : Host.Outcome State Fault Refusal :=
  matWord (.accz h tile) s tile.val
    (fun c d => if c.onHalves.any fun hf => d.matrixBusy c.run.ref (some (tileNo hf tile.val)) then some 9 else none) fun c hf x =>
    (x.1.modW c.run.ref fun w => w.setTile hf tile.val fun _ _ => 0, x.2)

/-! ### Engine accesses and races (R220) -/

/-- Where a race found by an engine access is reported. -/
structure EngAt where
  ref : WRef
  bolt : Nat
  pc : BitVec 32
  idx : Nat
  depth : Nat

/-- An engine's access to a line by the identity it took at issue: it is checked, a race is recorded in the ring and never traps, and a
write leaves its record (R209, R220). -/
def Dev.engCheck (d : Dev) (regs : Regs) (t : RaceId) (e : EngAt) (scr rt writes : Bool) (line addr : Nat) : Dev :=
  let hit :=
    if !t.on then none
    else if scr then (d.bolt? e.bolt).bind fun b => d.checkScratch e.ref.core b t false line
    else if rt && regs.tracked line then d.checkLine regs t false line else none
  let d := match hit with
    | none => d
    | some h =>
      let a : RaceAt :=
        { ref := e.ref, scr := scr, addr := addr % 2 ^ 57, kind := if writes then 8 else 7, size := 6, writes := writes,
          word := e.pc + 8 + BitVec.ofNat 32 (8 * e.idx), pc := e.pc, resume := e.idx, depth := e.depth, report := true }
      (d.raceRecord regs a t h).1
  if !writes then d
  else if scr then d.noteScratch e.bolt ((t.wser.toNat + 2 ^ 20 - t.serbase) % 2 ^ 20) t line false
  else d.noteWrite regs (some t) rt line 0

def MemOp.engAt (o : MemOp) (w : Weft) : EngAt := { ref := o.ref, bolt := w.bolt, pc := o.pc, idx := o.idx, depth := o.depth }

def Dev.checkBlock (d : Dev) (regs : Regs) (w : Weft) (o : MemOp) (writes : Bool) : Dev :=
  match o.eng with
  | none => d
  | some t => o.accs.foldl (fun d a => d.engCheck regs t (o.engAt w) true false writes (lineOf a.pa) a.va.toNat) d

/-! ### Completion -/

/-- Whether a matrix operation can complete: the weft's earlier ones have, its scratch accesses are in order, and, for a transfer, no
engine owns its lines. -/
def Dev.matReady (d : Dev) (w : Weft) (o : MemOp) : Bool :=
  !(d.ops.any fun p => p.ref == o.ref && decide (p.id < o.id) &&
      (p.kind.isMatrix || o.accs.any fun a => p.accs.any fun b => !b.perf && sameSpot o p a b)) &&
  !(o.accs.any fun a => d.owned (.scr w.bolt (lineOf a.pa)))

/-- Byte of a scratch offset in the view of a weft's core. -/
def Dev.viewByte (d : Dev) (w : Weft) (core o : Nat) : Nat := d.scratchRd w (w.scratchAt core o) 1

/-- The effect of a matrix operation. -/
def Dev.doMat (d : Dev) (regs : Regs) (o : MemOp) (w : Weft) (m : MatOp) : Dev :=
  let core := o.ref.core
  match m with
  | .mma mod tile half boff start stop aregs scales =>
    let d := d.checkBlock regs w o false
    let bs (c j : Nat) : Nat := d.viewByte w core (boff + c * MmaFmt.stride mod.fmt + j)
    let out (m n : Nat) : BitVec 32 :=
      let acc := if mod.ra && start = 0 then 0 else (w.tile half tile m n).toNat
      BitVec.ofNat 32 (mmaElemOut mod w.g half aregs scales bs start stop m n acc)
    d.modW o.ref fun w => w.setTile half tile out
  | .accld tile half off =>
    let d := d.checkBlock regs w o false
    d.modW o.ref fun w => w.setTile half tile fun m n => BitVec.ofNat 32 (d.scratchRd w (w.scratchAt core (off + 64 * m + 4 * n)) 4)
  | .accst tile half off =>
    let d := d.checkBlock regs w o true
    (List.range 256).foldl (fun d j =>
      d.scratchWr o.ref w (w.scratchAt core (off + 4 * j)) 4 (w.tile half tile (j / 16) (j % 16)).toNat) d
  | .toRegs base tile half =>
    d.modW o.ref fun w =>
      (lanesOf (w.full &&& w.halfMask half)).foldl (fun w l =>
        (List.range (16 / w.g)).foldl (fun w i => w.setV l (base + i) (w.tile half tile (l % 16) (l % (16 * w.g) / 16 * (16 / w.g) + i))) w) w
  | .toTile tile half regs =>
    d.modW o.ref fun w => w.setTile half tile fun m n =>
      Cells.get regs ((n / (16 / w.g) * 16 + m + 16 * half) * 1024 + n % (16 / w.g))

/-- Whether a source block of a matrix operation holds an uncorrectable word. -/
def Dev.matBad (d : Dev) (w : Weft) (o : MemOp) (m : MatOp) : Bool :=
  match m with
  | .mma _ _ _ _ _ _ _ _ | .accld _ _ _ => o.accs.any fun a => d.scratchBad w a.pa 64 true
  | _ => false

/-- Completes a matrix operation; `every` is the count of MMAs between self-tests (R351). -/
def Dev.completeMat (d : Dev) (regs : Regs) (every : Nat) (o : MemOp) (w : Weft) (m : MatOp) : Dev :=
  if !d.matReady w o then d
  else if d.matBad w o m then d.loseBolt regs w.bolt
  else
    let d := d.doMat regs o w m
    let k := o.ref.core * 4 + o.ref.shuttle
    let d := match m with
      | .mma _ _ _ _ _ _ _ _ => d.modSh k fun s =>
          if every ≤ s.mmas + 1 then { s with mmas := 0, selfTest := true } else { s with mmas := s.mmas + 1 }
      | _ => d
    let d : Dev := { d with ops := d.ops.map fun p => if p.id = o.id then { p with accs := [] } else p }
    d.completeOp regs o.id

def MatOp.isMma : MatOp → Bool
  | .mma _ _ _ _ _ _ _ _ => true
  | _ => false

/-- MMA_COMPLETE and ACCUMULATOR_TRANSFER_COMPLETE. -/
def matEvent (s : State) (op : Nat) (mma : Bool) : State :=
  match s.dev.ops.find? (·.id == op) with
  | none => s
  | some o =>
    match o.mat?, s.dev.weft? o.ref with
    | some m, some w => if m.isMma == mma then { s with dev := s.dev.completeMat s.regs s.plat.selfTestEvery o w m } else s
    | _, _ => s

def execMmaComplete (op : Nat) (s : State) : Host.Outcome State Fault Refusal := .next (matEvent s op true)

def execAccumulatorTransferComplete (op : Nat) (s : State) : Host.Outcome State Fault Refusal := .next (matEvent s op false)

/-- A pair takes its place in the scan queue once. -/
def Dev.queueScan (d : Dev) (pair : Nat) : Dev :=
  if d.disp.scanQueue.contains pair then d else { d with disp := { d.disp with scanQueue := d.disp.scanQueue ++ [pair] } }

/-- MATRIX_SELF_TEST with the sub-arrays that fail: two can be fenced, a third failure closes the shuttle (R351). -/
def execMatrixSelfTest (sh : Nat) (failing : List Nat) (s : State) : Host.Outcome State Fault Refusal :=
  let x := s.dev.sh sh
  if !x.selfTest then .next s
  else
    let new := (failing.filter fun k => decide (k < 16) && !x.fencedSub.contains k).eraseDups
    let room := 2 - x.fencedSub.length
    let d := s.dev.modSh sh fun x =>
      { x with selfTest := false, fencedSub := x.fencedSub ++ new.take room, closed := x.closed || decide (room < new.length) }
    .next { s with dev := if room < new.length then d.queueScan (sh / 8) else d }

end Sys2Proof.Machine
end

