-- ==== Sys2Proof/Machine/Counters.lean ====
section
/-! DEFINITION. ECADD, ECRD, ECTRIG and ECWAIT on the event counters (R307 to R311, R332, R366, R393 to R395). -/

namespace Sys2Proof.Machine

/-- A counter word other than ECWAIT: one access for each half whose guard holds. -/
def ctrForm (kind : OpKind) (m : EcMod) (order : AOrd) (dst : DstReg) : MemForm :=
  { kind := kind, space := .counter, size := 8, order := order, scope := m.scope, remote := m.remote, fb := m.fb, dst := dst, uni := true }

def execEcadd (h : Hdr) (m : EcMod) (a b : Operand) (s : State) : Host.Outcome State Fault Refusal :=
  runWord (.ecadd h m a b) s fun c d =>
    c.issueMem d (ctrForm .ecadd m (if m.sync then .rel else .relaxed) .none)
      ((c.memLanes true).map fun l => { lane := l, addr := c.get l .i64 a, data := c.get l .i64 b })

def execEcrd (h : Hdr) (m : EcMod) (dst a : Operand) (s : State) : Host.Outcome State Fault Refusal :=
  runWord (.ecrd h m dst a) s fun c d =>
    c.issueMem d (ctrForm .ecrd m (if m.sync then .acq else .relaxed) (dstReg dst 2))
      ((c.memLanes true).map fun l => { lane := l, addr := c.get l .i64 a })

def execEctrig (h : Hdr) (fb : Bool) (a b : Operand) (s : State) : Host.Outcome State Fault Refusal :=
  runWord (.ectrig h fb a b) s fun c d =>
    c.issueMem d (ctrForm .ectrig { sync := false, scope := .weft, remote := false, fb := fb } .relaxed .none)
      ((c.memLanes true).map fun l => { lane := l, addr := c.get l .i64 a, data := c.get l .i64 b })

/-- ECWAIT of one half: the observation in its issue cycle, its acquire when it holds, else a wait under a fresh number. -/
def Ctx.waitCtr (c : Ctx) (m : EcMod) (a b : Operand) (x : Dev × List Trap × List Dest) (h : Nat) : Dev × List Trap × List Dest :=
  let d := x.1
  let id := c.uget h .i64 a % 4096
  let thr : DWord := BitVec.ofNat 64 (c.uget h .i64 b)
  let k := d.counter id
  if !c.w.sup && k.ctx != some c.w.ctx then (d, x.2.1 ++ c.halfTraps h causeProt 0 (64 * id) .here, x.2.2)
  else if !k.fences.isEmpty then (d, x.2.1 ++ c.halfTraps h 0x14 1 0 .here, x.2.2)
  else
    let acq := m.sync && m.scope != .weft
    if signedGe k.value thr then (if acq then d.acquireCtr c.run.ref id m.scope false else d, x.2.1, x.2.2)
    else
      let n := ((d.weft? c.run.ref).map (·.nextWait)).getD 0
      let wt : Wait := { num := n, counter := id, threshold := thr, acq := acq, scope := m.scope, half := h, pc := c.run.pc, resume := c.run.idx }
      let d := d.modW c.run.ref fun w => { w with waits := w.waits ++ [wt], nextWait := n + 1 }
      (d, x.2.1, x.2.2 ++ (lanesOf (c.actOf h)).map fun l =>
        { c.goto l c.nextPc with state := .ecw, aux := BitVec.ofNat 32 n, act := .ecwait n })

def execEcwait (h : Hdr) (m : EcMod) (a b : Operand) (s : State) : Host.Outcome State Fault Refusal :=
  runWord (.ecwait h m a b) s fun c d =>
    if d.fencing c.run.ref then .wait 15
    else
      let r := c.onHalves.foldl (c.waitCtr m a b) (d, [], [])
      .done r.1 1 r.2.1 r.2.2

end Sys2Proof.Machine
end

