-- ==== Sys2Proof/Machine/Spans.lean ====
section
/-! DEFINITION. Spans of virtual memory as an engine reads, owns and writes them, line by line (R192 to R194, R220, R237). -/

namespace Sys2Proof.Machine

/-- A span cut at lines: address and bytes of each piece; `fuel` bounds the pieces. -/
def spanCuts : Nat → Nat → Nat → List (Nat × Nat)
  | 0, _, _ => []
  | fuel + 1, va, n =>
    if n = 0 then []
    else let k := min n (64 - va % 64); (va, k) :: spanCuts fuel (va + k) (n - k)

def cutsOf (va n : Nat) : List (Nat × Nat) := spanCuts (n / 64 + 2) va n

/-- What an engine acts for: its identity at issue, where its races are reported, and the core and address space of its weft. -/
structure EngBy where
  eng : EngId
  race : RaceId
  at_ : EngAt
  space : ASpace

def EngBy.core (e : EngBy) : Nat := e.at_.ref.core

/-- What became of a span: done, or the cause, subcode and address at which it stopped. -/
inductive Span (α : Type) where
  | ok (v : α)
  | stop (cause sub va : Nat)
  | hold

/-- Race checks of the lines that an engine has read, in order (R220). -/
def Dev.checkReads (d : Dev) (regs : Regs) (e : EngBy) (ps : List Where) : Dev :=
  ps.foldl (fun d w => d.engCheck regs e.race e.at_ false w.rt false (lineOf w.pa) w.va.toNat) d

/-- Reads a span of generic memory for an engine (R194); the places read come with the bytes. -/
def Dev.fetchSpan (d : Dev) (regs : Regs) (e : EngBy) : List (Nat × Nat) → Span (List Byte × List Where) × Dev
  | [] => (.ok ([], []), d)
  | (va, n) :: rest =>
    match d.place regs e.core e.space va .rd with
    | (.fault c, d) => (.stop c 2 va, d)
    | (.hold, d) => (.hold, d)
    | (.ok w, d) =>
      if d.poisoned w.pa then (.stop 0x13 2 va, d)
      else
        let bs := d.engBytes e.core w n
        match d.fetchSpan regs e rest with
        | (.ok more, d) => (.ok (bs ++ more.1, w :: more.2), d)
        | (.stop c s a, d) => (.stop c s a, d)
        | (.hold, d) => (.hold, d)

/-- The same as one read of the engine, which waits until every access that its weft made before the command has been performed (R179): its
lines are checked for races (R220) and counted for the hint ranges (R300) once, when it is made. -/
def Dev.readSpan (d : Dev) (regs : Regs) (e : EngBy) (cuts : List (Nat × Nat)) : Span (List Byte) × Dev :=
  let blocked := match d.engIssue e.eng with | some (r, n) => d.beforeOpen r n | none => false
  if blocked then (.hold, d)
  else match d.fetchSpan regs e cuts with
    | (.ok (bs, ps), d) => (.ok bs, (d.checkReads regs e ps).countHints e.at_.bolt (ps.map (·.va.toNat)))
    | (.stop c s a, d) => (.stop c s a, d)
    | (.hold, d) => (.hold, d)

/-- Takes ownership of the lines of a span; a line written from walk offset `off` and the pieces after it in order. Device-region lines
are not owned (R192). -/
def Dev.ownSpan (d : Dev) (regs : Regs) (e : EngBy) : Nat → List (Nat × Nat) → Span Unit × Dev
  | _, [] => (.ok (), d)
  | off, (va, n) :: rest =>
    match d.place regs e.core e.space va .own with
    | (.fault c, d) => (.stop c 2 va, d)
    | (.hold, d) => (.hold, d)
    | (.ok w, d) =>
      let d := if w.region = 3 then d
        else (d.pairDrop e.core (lineOf w.pa)).own e.eng (.line (lineOf w.pa)) off
      d.ownSpan regs e (off + n) rest

/-- The places of a span that is to be written. -/
def Dev.placeSpan (d : Dev) (regs : Regs) (e : EngBy) : List (Nat × Nat) → Span (List (Where × Nat)) × Dev
  | [] => (.ok [], d)
  | (va, n) :: rest =>
    match d.place regs e.core e.space va .wr with
    | (.fault c, d) => (.stop c 2 va, d)
    | (.hold, d) => (.hold, d)
    | (.ok w, d) =>
      match d.placeSpan regs e rest with
      | (.ok more, d) => (.ok ((w, n) :: more), d)
      | (.stop c s a, d) => (.stop c s a, d)
      | (.hold, d) => (.hold, d)

/-- Writes bytes at places already translated, each line checked for races. -/
def Dev.writePlaces (d : Dev) (regs : Regs) (e : EngBy) : List (Where × Nat) → List Byte → Dev
  | [], _ => d
  | (w, n) :: rest, bs =>
    let d := d.engCheck regs e.race e.at_ false w.rt true (lineOf w.pa) w.va.toNat
    let d := d.countHint e.at_.bolt w.va.toNat
    ((d.promoteFor (lineOf w.pa) (pairOf e.core)).engWrite e.core w (bs.take n)).writePlaces regs e rest (bs.drop n)

/-- Writes a span once every line of it translates. -/
def Dev.writeSpan (d : Dev) (regs : Regs) (e : EngBy) (va : Nat) (bs : List Byte) : Span Unit × Dev :=
  match d.placeSpan regs e (cutsOf va bs.length) with
  | (.ok ps, d) =>
    match (cutsOf va bs.length).findSome? fun c => d.captureWaits e.at_.bolt c.1 with
    | some d => (.hold, d)
    | none => (.ok (), d.writePlaces regs e ps bs)
  | (.stop c s a, d) => (.stop c s a, d)
  | (.hold, d) => (.hold, d)

/-! ### The weft that an engine operation serves -/

/-- A decrement of flags of a weft, which may have been swapped out (R279). -/
def Dev.countDown (d : Dev) (regs : Regs) (core bolt widx : Nat) (keys : List Nat) : Dev :=
  match d.placeOf core bolt widx with
  | some ref => (d.decFlags ref keys).tryEnding regs ref
  | none => d.modBolt bolt fun b => { b with saved := b.saved.map fun w => if w.widx = widx then w.subFlags keys else w }

/-- Lanes of the pick in progress of a weft. -/
def Dev.pickLanes (d : Dev) (r : WRef) : Lanes :=
  (List.range 4).foldl (fun m j => match (d.sh (r.core * 4 + j)).run with
    | some k => if k.ref == r && !k.handler then m ||| k.act else m
    | none => m) 0

/-- AUX of an engine park: the handle in [63:58] and the restart offset in [39:0] (R273). -/
def engAux (handle off : Nat) : Nat := handle % 64 * 2 ^ 58 + off % 2 ^ 40

/-- The release that an engine's counter addition makes, at .sys (R195, R213, R328): it publishes the identity taken at issue. -/
def Dev.releaseEng (d : Dev) (core bolt : Nat) (t : RaceId) (k : SideKey) : Dev :=
  let d := d.release core .sys
  if !t.on then d
  else
    d.putSide core
      { key := k, stamp := 0, ent := { ktag := t.ktag, wser := t.wser, clk := if t.clk = 65535 then t.clk else t.clk + 1 }, lane := t.lane,
        clk := t.clk, epoch := t.epoch, flags := 3, scope := .sys, pair := pairOf core, bolt := bolt, frontier := t.frontier, hbsat := t.hbsat }

end Sys2Proof.Machine
end

