-- ==== Sys2Proof/Machine/Collectives.lean ====
section
/-! DEFINITION. Fabric collectives (R325 to R335, R386, R389): the descriptor, the arithmetic, the steps of an instance, its endings, and
the words COLL and CABORT. -/

namespace Sys2Proof.Machine

/-! ### Slots and instances -/

def Dev.view (d : Dev) (slot : Nat) : View := Tab.getD View.reset d.fabric.views slot
def Dev.putView (d : Dev) (slot : Nat) (v : View) : Dev := { d with fabric := { d.fabric with views := Tab.put d.fabric.views slot v } }

def Dev.coll? (d : Dev) (core handle : Nat) : Option Coll := d.fabric.colls.find? fun k => k.core == core && k.handle == handle
def Dev.putColl (d : Dev) (k : Coll) : Dev :=
  { d with fabric := { d.fabric with colls := d.fabric.colls.map fun x => if x.core = k.core ∧ x.handle = k.handle then k else x } }
def Dev.dropColl (d : Dev) (k : Coll) : Dev :=
  { d with fabric := { d.fabric with colls := d.fabric.colls.filter fun x => !(x.core == k.core && x.handle == k.handle) } }
def Dev.collOf (d : Dev) (slot seq : Nat) : Option Coll := d.fabric.colls.find? fun k => k.slot == slot && k.seq == seq

/-- Ids rising, as the ranks of a view take them. -/
def insertId (x : Nat) : List Nat → List Nat
  | [] => [x]
  | y :: ys => if x ≤ y then x :: y :: ys else y :: insertId x ys

def sortIds (l : List Nat) : List Nat := l.foldr insertId []

/-- Rank of a member: members with a lower id (R319). -/
def rankIn (members : List Nat) (id : Nat) : Nat := (members.filter fun m => decide (m < id)).length

/-- Words of the descriptor as fields (R325). -/
def Coll.word (k : Coll) (i : Nat) : Nat := (k.desc.getD i 0).toNat
def Coll.src (k : Coll) : Nat := k.word 0 % 2 ^ 57
def Coll.dst (k : Coll) : Nat := k.word 1 % 2 ^ 57
def Coll.stageAt (k : Coll) : Nat := k.word 2 % 2 ^ 57
def Coll.count (k : Coll) : Nat := k.word 3 % 2 ^ 32
def Coll.root (k : Coll) : Nat := k.word 4 / 2 ^ 32 % 2 ^ 18
def Coll.pol (k : Coll) : Nat := k.word 4 / 2 ^ 10 % 2
def Coll.red (k : Coll) : Nat := k.word 4 / 2 ^ 8 % 4
def Coll.ty (k : Coll) : Nat := k.word 4 / 2 ^ 6 % 4
def Coll.op (k : Coll) : Nat := k.word 4 / 2 ^ 4 % 4
def Coll.cadd (k : Coll) : Nat := k.word 5 / 2 ^ 32
def Coll.cctr (k : Coll) : Nat := k.word 5 % 4096
/-- Element size. -/
def Coll.e (k : Coll) : Nat := if k.ty = 1 then 2 else 4

/-- Bytes of input that a member reads, and of output (R325). -/
def Coll.inBytes (k : Coll) (self : Nat) : Nat := if k.op = 3 && k.root != self then 0 else k.count * k.e
def Coll.outBytes (k : Coll) : Nat :=
  if k.op = 1 then k.count * k.e / k.n0 else if k.op = 2 then k.n0 * k.count * k.e else k.count * k.e

/-- The staged output stands behind the input bytes, which the area has at every member (R325). -/
def Coll.outAt (k : Coll) : Nat := k.stageAt + k.count * k.e

/-- The content checks of R326 that end an instance BADDESC. -/
def Coll.bad (k : Coll) : Bool :=
  k.word 0 / 2 ^ 57 != 0 || k.word 1 / 2 ^ 57 != 0 || k.word 2 / 2 ^ 57 != 0 || k.word 3 / 2 ^ 32 != 0 || k.word 4 / 2 ^ 50 != 0 ||
  k.word 4 / 2 ^ 11 % 2 ^ 21 != 0 || k.word 5 / 2 ^ 12 % 2 ^ 20 != 0 || k.word 6 / 2 ^ 57 != 0 || k.word 7 != 0 || k.ty == 3 ||
  k.src % 64 != 0 || k.dst % 64 != 0 || k.stageAt % 64 != 0 || k.word 6 % 32 != 0 || k.count == 0 || decide (2 ^ 28 < k.count) ||
  (k.op == 1 && k.count % k.n0 != 0) || (k.op == 3 && !k.members0.contains k.root)

/-- Members at issue that the view still holds. -/
def Coll.survivors (k : Coll) (v : View) : List Nat := k.members0.filter v.members.contains

/-! ### Arithmetic (R330, R333) -/

/-- x·a/b, exact but for what lies below a sticky bit. -/
def ratioNum (x : Num) (a b : Nat) : Num :=
  match x with
  | .fin s m e t => .fin s (m * a * 2 ^ 160 / b) (e - 160) (t || m * a * 2 ^ 160 % b != 0)
  | x => x

/-- a/b to nearest, ties to even. -/
def divRne (a : Int) (b : Nat) : Int :=
  let q := a / (b : Int)
  let r := 2 * (a % (b : Int))
  if r < b then q else if (b : Int) < r then q + 1 else if q % 2 = 0 then q else q + 1

/-- Sums f32 codes by pairs with rne32, in the order that `pick` draws. -/
def sumTree (pick : Nat → Nat) : Nat → Nat → List Nat → Nat
  | 0, _, xs => xs.headD 0
  | f + 1, k, xs =>
    match xs with
    | [] => 0
    | [x] => x
    | _ =>
      let i := pick k % xs.length
      let ys := xs.eraseIdx i
      let j := pick (k + 1) % ys.length
      sumTree pick f (k + 2) (rne32 (addNum false (fmtF32.dec (xs.getD i 0)) (fmtF32.dec (ys.getD j 0))).1 :: ys.eraseIdx j)

def anyNan (f : Fmt) (xs : List Nat) : Bool := xs.any fun x => f.dec x == .nan

/-- One element of a reduction, of N_new = `n` and N_old = `n0`; `red` 0 sum, 1 max, 2 min, 3 avg. -/
def collElem (ty red n n0 : Nat) (chg : Bool) (pick : Nat → Nat) (xs : List Nat) : Nat :=
  if ty = 2 then
    let zs := xs.map fun x => sxN x 32
    let s := zs.foldl (· + ·) 0
    if red = 0 then (if chg then truncI (satInt true 32 (divRne (s * n0) n)) 32 else truncI s 32)
    else if red = 1 then truncI (zs.foldl max (zs.headD 0)) 32
    else if red = 2 then truncI (zs.foldl min (zs.headD 0)) 32
    else truncI (divRne s n) 32
  else
    let f := if ty = 1 then fmtBf16 else fmtF32
    if red = 1 || red = 2 then
      if anyNan f xs then f.nan else xs.foldl (minMax f (red == 1)) (xs.headD 0)
    else
      let s := fmtF32.dec (sumTree pick xs.length 0 (if ty = 1 then xs.map (· * 2 ^ 16) else xs))
      let x := if red = 3 then ratioNum s 1 n else if chg then ratioNum s n0 n else s
      (roundTo f x .rn false).1

/-- Elements of `e` bytes. -/
def elemsOf (e : Nat) : Nat → List Byte → List Nat
  | 0, _ => []
  | n + 1, bs => leBytes (bs.take e) :: elemsOf e n (bs.drop e)

/-- The reduced elements [lo, lo + n) of the survivors' inputs. -/
def collReduce (k : Coll) (n : Nat) (pick : Nat → Nat → Nat) (inputs : List (List Nat)) (lo cnt : Nat) : List Byte :=
  (List.range cnt).flatMap fun i =>
    natBytes (collElem k.ty k.red n k.n0 k.chg (pick (lo + i)) (inputs.map fun l => l.getD (lo + i) 0)) k.e

def Coll.part (k : Coll) (m : Nat) : List Byte := ((k.parts.find? (·.src == m)).map (·.data)).getD []

/-- The whole output, from the staged inputs of the survivors: shards and blocks keep the layout of the issue. After a change the divisor is
the member count of the new view, joiners included (R333). -/
def Coll.output (k : Coll) (v : View) (pick : Nat → Nat → Nat) : List Byte :=
  let live := k.survivors v
  let n := if k.chg then v.members.length else k.n0
  let inputs := live.map fun m => elemsOf k.e k.count (k.part m)
  if k.op = 0 then collReduce k n pick inputs 0 k.count
  else if k.op = 1 then
    let c := k.count / k.n0
    collReduce k n pick inputs (rankIn k.members0 v.self * c) c
  else if k.op = 2 then
    k.members0.flatMap fun m => if live.contains m then k.part m else List.replicate (k.count * k.e) 0
  else k.part k.root

/-! ### Messages (R327, R328) -/

/-- What every member must issue alike: COUNT, and OP, TYPE, RED, POL and ROOT. They head each partial of the model. -/
def Coll.params (k : Coll) : List Byte :=
  natBytes k.count 8 ++ natBytes (k.root * 2 ^ 32 + k.word 4 / 16 % 128 * 16) 8

def Coll.others (k : Coll) (v : View) : List Nat := (k.survivors v).filter (· != v.self)

def Coll.partMsgs (k : Coll) (v : View) (data : List Byte) : List FabMsg :=
  (k.others v).map fun m => FabMsg.collPart k.slot k.seq m v.t (k.params ++ data)

def Coll.readyMsgs (k : Coll) (v : View) : List FabMsg := (k.others v).map fun m => FabMsg.collReady k.slot k.seq m v.t

def Coll.badMsgs (k : Coll) (v : View) : List FabMsg := (k.others v).map fun m => FabMsg.collMismatch k.slot k.seq m

/-! ### Endings (R328, R329, R335) -/

/-- Proposes a member set as coordinator (R323, R324); defined with the view steps' own pieces here because an ending can admit a
joiner (R336). -/
def View.coordinator (v : View) : Option Nat := (v.members.filter fun m => !v.suspects.contains m).min?

def proposalMsgs (slot : Nat) (v : View) (tag : BitVec 32) (set : List Nat) : List FabMsg :=
  (set.filter (· != v.self)).map fun m => FabMsg.proposal slot m tag set

/-- A proposal, or the loss of the view when the survivors are not more than half of it. -/
def Dev.propose (d : Dev) (slot : Nat) : Dev :=
  let v := d.view slot
  let keep := v.members.filter fun m => !v.suspects.contains m
  if 2 * keep.length ≤ v.members.length then
    let v' : View := { v with state := .lost, proposal := none, acks := [] }
    (d.putView slot v').sendAll slot ((keep.filter (· != v.self)).map fun m => FabMsg.lost slot m)
  else
    let set := sortIds (keep ++ v.joiners.filter fun m => !keep.contains m)
    let tag := v.maxTag + 1
    let v' : View :=
      { v with state := .agree, proposal := some set, proposalTag := BitVec.ofNat 32 tag, maxTag := tag, acked := tag,
               acks := [{ member := v.self, seq := v.doneTop }] }
    (d.putView slot v').sendAll slot (proposalMsgs slot v (BitVec.ofNat 32 tag) set)

/-- A coordinator proposes when it holds suspicions of members, or joiners while no instance of the slot is active. -/
def Dev.tryPropose (d : Dev) (slot : Nat) : Dev :=
  let v := d.view slot
  let calm := !d.fabric.colls.any (·.slot == slot)
  if (v.state = .live || v.state = .agree) && v.proposal.isNone && v.coordinator == some v.self &&
      (v.suspects.any v.members.contains || (!v.joiners.isEmpty && calm)) then d.propose slot
  else d

/-- Parks the weft of an instance. While the weft is swapped out the instance only holds, and tries again at its restoration. -/
def Dev.parkColl (d : Dev) (regs : Regs) (k : Coll) (cause sub va : Nat) : Dev :=
  match d.placeOf k.core k.bolt k.widx with
  | none => d
  | some ref =>
    (d.enginePark regs ref cause sub va (engAux k.handle 0) (some k.handle) (d.clockOf ref) (d.pickLanes ref)).putColl { k with parked := true }

/-- The ending of an instance: its record, the counter addition of every ending but ABORTED, the decrements, the release of DST. -/
def Dev.endColl (d : Dev) (regs : Regs) (k : Coll) (status : Nat) : Dev :=
  let v := d.view k.slot
  let k : Coll := { k with stage := .ending, status := status }
  let d := d.putColl k
  match d.writeWords regs k.core k.space k.rrec (collRecord v k status) with
  | (some (c, va), d) => d.parkColl regs k c 2 va
  | (none, d) =>
    let d := if status = 1 then d
      else ((d.promoteFor (ctrMark k.cctr) (pairOf k.core)).releaseEng k.core k.bolt k.race (.counter k.cctr)).ctrAdd k.cctr (BitVec.ofNat 64 k.cadd) true
    let d := (d.dropColl k).disown (.coll k.core k.handle)
    let d := k.counts.foldl (fun d c => d.countDown regs k.core c.1 c.2.1 c.2.2) d
    let d := if status = 0 then d.putView k.slot { v with doneTop := some (max k.seq (v.doneTop.getD 0)) } else d
    d.tryPropose k.slot

/-! ### The steps of an instance -/

def Coll.by_ (k : Coll) : EngBy :=
  { eng := .coll k.core k.handle, race := k.race, space := k.space,
    at_ := { ref := k.ref, bolt := k.bolt, pc := k.pc, idx := k.idx, depth := k.depth } }

/-- Step 3: every member of the view is ready. -/
def Dev.completeColl (d : Dev) (regs : Regs) (k : Coll) : Dev :=
  match d.writeSpan regs k.by_ k.dst k.out with
  | (.ok _, d) => d.endColl regs k 0
  | (.stop c s va, d) => d.parkColl regs k c s va
  | (.hold, d) => d

/-- Whether an instance has reached step 3 of R328: an abort does not touch it any more (R335). -/
def Coll.reached (k : Coll) (v : View) : Bool :=
  k.stage == .ending || (k.stage == .ready && (k.sure || (k.survivors v).all k.ready.contains))

def Dev.checkReady (d : Dev) (regs : Regs) (k : Coll) : Dev :=
  if k.stage = .ready && k.reached (d.view k.slot) then d.completeColl regs k else d

/-- Step 2: with every partial the output is formed behind the staged input, and "ready" is sent. -/
def Dev.combine (d : Dev) (regs : Regs) (k : Coll) : Dev :=
  let v := d.view k.slot
  if k.stage ≠ .exchange || !(k.survivors v).all (fun m => k.parts.any (·.src == m)) then d
  else
    let (n, d) := d.draw
    let out := k.output v fun i j => Config.sumOrder n (i * 2 ^ 20 + j)
    match d.writeSpan regs k.by_ k.outAt out with
    | (.stop c s va, d) => d.parkColl regs k c s va
    | (.hold, d) => d
    | (.ok _, d) =>
      let k : Coll := { k with out := out, stage := .ready, ready := if k.ready.contains v.self then k.ready else k.ready ++ [v.self] }
      ((d.putColl k).sendAll k.slot (k.readyMsgs v)).checkReady regs k

/-- Step 1: DST is owned as far as it was not, SRC is read into STAGE, and the partials leave. -/
def Dev.stageColl (d : Dev) (regs : Regs) (k : Coll) : Dev :=
  let v := d.view k.slot
  match d.ownSpan regs k.by_ 0 (cutsOf k.dst k.outBytes) with
  | (.stop c s va, d) => d.parkColl regs k c s va
  | (.hold, d) => d
  | (.ok _, d) =>
    match d.readSpan regs k.by_ (cutsOf k.src (k.inBytes v.self)) with
    | (.stop c s va, d) => d.parkColl regs k c s va
    | (.hold, d) => d
    | (.ok bs, d) =>
      match d.writeSpan regs k.by_ k.stageAt bs with
      | (.stop c s va, d) => d.parkColl regs k c s va
      | (.hold, d) => d
      | (.ok _, d) =>
        let k : Coll := { k with stage := .exchange, parts := { src := v.self, data := bs } :: k.parts.filter fun p => p.src != v.self }
        ((d.putColl k).sendAll k.slot (k.partMsgs v bs)).combine regs k

/-- What an instance does once nothing parks it (R335). -/
def Dev.advanceColl (d : Dev) (regs : Regs) (core handle : Nat) : Dev :=
  match d.coll? core handle with
  | none => d
  | some k =>
    if k.parked then d
    else match k.stage with
      | .staging => d.stageColl regs k
      | .exchange => d.combine regs k
      | .ready => d.checkReady regs k
      | .ending => d.endColl regs k k.status

/-! ### COLL (R389) and CABORT (R386) -/

/-- What one half's COLL comes to. -/
inductive CollIssue where
  | wait
  | trap (cause sub addr : Nat) (d : Dev)
  | started (k : Coll) (d : Dev)

/-- The lowest handle free on a core. -/
def Dev.freeColl (d : Dev) (core : Nat) : Option Nat :=
  (List.range 64).find? fun h => (d.coll? core h).isNone

def Ctx.collStart (c : Ctx) (d : Dev) (half addr : Nat) : CollIssue :=
  if addr % 64 ≠ 0 then .trap 0x03 0 (addr % 2 ^ 57) d
  else match d.readWords c.regs c.core c.w.space true addr 8 with
    | (.error (0, _, _), _) => .wait
    | (.error (k, sub, va), d) => .trap k sub va d
    | (.ok desc, d) =>
      let cctr := (desc.getD 5 0).toNat % 4096
      let slot := (desc.getD 4 0).toNat % 16
      let v := d.view slot
      if !c.w.sup && (d.counter cctr).ctx != some c.w.ctx then .trap causeProt 0 (64 * cctr) d
      else if v.state = .lost then .trap 0x14 2 0 d
      else if v.state ≠ .live && v.state ≠ .agree then .trap 0x14 3 0 d
      else if !nbit (desc.getD 4 0).toNat 10 && v.t != v.ta then .trap 0x14 1 0 d
      else if v.state = .agree then .wait
      else if 8 ≤ (d.fabric.colls.filter (·.slot == slot)).length then .wait
      else match d.freeColl c.core with
        | none => .wait
        | some handle =>
          let k : Coll :=
            { core := c.core, handle := handle, ref := c.run.ref, bolt := if c.w.sup then 0 else c.w.bolt, widx := c.w.widx, ctx := c.w.ctx,
              asid := c.w.asid, ptRoot := c.w.space.root, slot := slot, seq := v.nextSeq, desc := desc, stage := .staging, status := 0, tag0 := v.t,
              n0 := v.members.length, members0 := v.members, chg := false, stale := 0, lowx := 0x3FFFF, parts := [], ready := [],
              out := [], parked := false, counts := [], stamp := d.nextOp, race := d.raceIdOf c.w (lowLane (c.actOf half)), pc := c.run.pc, idx := c.run.idx, depth := c.run.depth }
          let keys := c.flagKeys true [half]
          let k : Coll := { k with counts := [(k.bolt, k.widx, keys)] }
          let d := d.putView slot { v with nextSeq := v.nextSeq + 1 }
          let d : Dev := { d with nextOp := d.nextOp + 1, fabric := { d.fabric with colls := d.fabric.colls ++ [k] } }
          .started k (d.modW c.run.ref fun w => w.addFlags keys)

/-- After its start an instance owns DST, or ends at once for a bad descriptor, of which it tells the others. -/
def Dev.launchColl (d : Dev) (regs : Regs) (k : Coll) : Dev :=
  if k.bad then (d.sendAll k.slot (k.badMsgs (d.view k.slot))).endColl regs k 2
  else match d.ownSpan regs k.by_ 0 (cutsOf k.dst k.outBytes) with
    | (.stop c s va, d) => d.parkColl regs k c s va
    | (_, d) => d

def Ctx.collHalves (c : Ctx) (dst a : Operand) : List Nat → Dev → List Trap → Tab Nat → Option (Dev × List Trap × Tab Nat)
  | [], d, ts, vs => some (d, ts, vs)
  | h :: hs, d, ts, vs =>
    match c.collStart d h (c.uget h .i64 a) with
    | .wait => none
    | .trap cause sub addr d => c.collHalves dst a hs d (ts ++ trapsAt (lanesOf (c.actOf h)) cause sub addr .here) vs
    | .started k d =>
      let d := d.modW c.run.ref fun w => w.write h 0 dst true .full k.handle
      c.collHalves dst a hs (d.launchColl c.regs k) ts (Tab.put (Tab.put vs h k.handle) (8 + h) (k.slot + 16 * k.seq))

/-- The secondary twin copy takes the primary's handles, and counts on the instances that still run. -/
def Ctx.collShared (c : Ctx) (d : Dev) (dst : Operand) (vs : Tab Nat) : Dev :=
  c.onHalves.foldl (fun d h =>
    match Tab.find? vs h, Tab.find? vs (8 + h) with
    | some hd, some at_ =>
      let d := d.modW c.run.ref fun w => w.write h 0 dst true .full hd
      match d.collOf (at_ % 16) (at_ / 16) with
      | none => d
      | some k =>
        let keys := c.flagKeys true [h]
        (d.modW c.run.ref fun w => w.addFlags keys).putColl { k with counts := k.counts ++ [(c.w.bolt, c.w.widx, keys)] }
    | _, _ => d) d

def execColl (h : Hdr) (d a : Operand) (s : State) : Host.Outcome State Fault Refusal :=
  runWord (.coll h d a) s fun c dev =>
    if c.onHalves.isEmpty then .done dev 1 [] []
    else if dev.fencing c.run.ref || dev.beforeOpen c.run.ref dev.nextOp then .wait 15
    else if c.w.flagsFull (c.flagKeys true c.onHalves) then .wait 15
    else match c.gate dev false with
      | .hold dev => .suspend dev
      | .deliver vals => .done ((c.collShared (dev.passGate c) d vals).publish c.run.ref c.w.picks c.run.idx vals) 1 [] []
      | .go =>
        match c.collHalves d a c.onHalves (dev.passGate c) [] [] with
        | none => .wait 14
        | some (dev, ts, vs) =>
          let dev := dev.publish c.run.ref c.w.picks c.run.idx vs
          .done (if vs.isEmpty then dev else dev.passBank c.w) 1 ts []

/-- An abort reaches every member; an instance that has reached step 3 completes normally (R335). -/
def Dev.abortColl (d : Dev) (regs : Regs) (core handle : Nat) (mine : Coll → Bool) : Dev :=
  match d.coll? core handle with
  | none => d
  | some k =>
    if k.reached (d.view k.slot) || !mine k then d
    else (d.sendAll k.slot (collAbortMsgs (d.view k.slot) k)).endColl regs { k with parked := false } 1

def execCabort (h : Hdr) (a : Operand) (s : State) : Host.Outcome State Fault Refusal :=
  runWord (.cabort h a) s fun c d =>
    .done (c.onHalves.foldl (fun d hf =>
      d.abortColl c.regs c.core (c.uget hf .i32 a % 64) fun k => c.w.sup || (k.bolt == c.w.bolt && k.widx == c.w.widx)) d)
      1 [] []

/-! ### The engine's own steps -/

/-- COLL_STAGE_READ_COMPLETE. -/
def execCollStageReadComplete (core handle : Nat) (s : State) : Host.Outcome State Fault Refusal :=
  match s.dev.coll? core handle with
  | none => .next s
  | some k => if k.stage = .staging && !k.parked then .next { s with dev := s.dev.stageColl s.regs k } else .next s

/-- COLL_PARTIAL_RECEIVE: a stale tag is counted; parameters that differ end the instance MISMATCH (R327, R331). An instance already
ending takes nothing more. -/
def execCollPartialReceive (slot seq src : Nat) (tag : BitVec 32) (data : List Byte) (s : State) : Host.Outcome State Fault Refusal :=
  let d := s.dev
  match d.collOf slot seq with
  | none => .next s
  | some k =>
    let v := d.view slot
    if tag ≠ v.t then .next { s with dev := d.putColl { k with stale := k.stale + 1 } }
    else if k.stage = .ending || k.stage = .ready then .next s
    else if data.take 16 ≠ k.params || (data.drop 16).length ≠ k.inBytes src then
      .next { s with dev := (d.sendAll slot (k.badMsgs v)).endColl s.regs { k with parked := false } 3 }
    else
      let k : Coll := { k with parts := { src := src, data := data.drop 16 } :: k.parts.filter fun p => p.src != src }
      let d := d.putColl k
      .next { s with dev := if k.parked then d else d.combine s.regs k }

/-- COLL_READY_RECEIVE. -/
def execCollReadyReceive (slot seq src : Nat) (tag : BitVec 32) (s : State) : Host.Outcome State Fault Refusal :=
  let d := s.dev
  match d.collOf slot seq with
  | none => .next s
  | some k =>
    if k.stage = .ending || tag ≠ (d.view slot).t then .next s
    else
      let k : Coll := { k with ready := if k.ready.contains src then k.ready else k.ready ++ [src] }
      let d := d.putColl k
      .next { s with dev := if k.parked then d else d.checkReady s.regs k }

/-- COLL_ABORT_RECEIVE. -/
def execCollAbortReceive (slot seq : Nat) (s : State) : Host.Outcome State Fault Refusal :=
  match s.dev.collOf slot seq with
  | none => .next s
  | some k =>
    if k.reached (s.dev.view slot) then .next s else .next { s with dev := s.dev.endColl s.regs { k with parked := false } 1 }

end Sys2Proof.Machine
end

