-- ==== Sys2Proof/Machine/Cipher.lean ====
section
/-! DEFINITION. AES-256 and GHASH as the confidential copy-in uses them (R242, NIST SP 800-38D), and SHA-256 (R315, FIPS 180-4). A block of 16 bytes is a number whose
most significant byte is the block's first. -/

namespace Sys2Proof.Machine

/-- Multiplication in GF(2^8) modulo x^8 + x^4 + x^3 + x + 1. -/
def gfMul : Nat → Nat → Nat → Nat
  | 0, _, _ => 0
  | n + 1, a, b =>
    let r := gfMul n (let x := 2 * a; if 256 ≤ x then (x - 256) ^^^ 0x1B else x) (b / 2)
    if b % 2 = 1 then a ^^^ r else r

def gf (a b : Nat) : Nat := gfMul 8 a b

/-- The inverse in GF(2^8), as the 254th power; 0 for 0. -/
def gfInv (a : Nat) : Nat :=
  let a2 := gf a a
  let a4 := gf a2 a2
  let a8 := gf a4 a4
  let a16 := gf a8 a8
  let a32 := gf a16 a16
  let a64 := gf a32 a32
  let a128 := gf a64 a64
  gf a2 (gf a4 (gf a8 (gf a16 (gf a32 (gf a64 a128)))))

def rotl8 (x k : Nat) : Nat := (x * 2 ^ k % 256) ||| (x / 2 ^ (8 - k))

/-- The substitution of AES. -/
def sbox (a : Nat) : Nat :=
  let x := gfInv a
  x ^^^ rotl8 x 1 ^^^ rotl8 x 2 ^^^ rotl8 x 3 ^^^ rotl8 x 4 ^^^ 0x63

/-! ### AES-256 -/

abbrev Bytes4 := List Nat

def xorB (a b : List Nat) : List Nat := List.zipWith (· ^^^ ·) a b

/-- The 60 words of the key schedule: each from the one before and the one eight places back, held newest first. -/
def keyWords : Nat → Nat → List Bytes4 → List Bytes4
  | 0, _, ws => ws
  | n + 1, i, ws =>
    let prev := ws.headD []
    let back := ws.getD 7 []
    let t :=
      if i % 8 = 0 then
        let r := (prev.drop 1 ++ prev.take 1).map sbox
        xorB r [2 ^ (i / 8 - 1), 0, 0, 0]
      else if i % 8 = 4 then prev.map sbox
      else prev
    keyWords n (i + 1) (xorB back t :: ws)

/-- Bytes of a number, most significant first. -/
def beBytes (v : Nat) : Nat → List Nat
  | 0 => []
  | n + 1 => v / 256 ^ n % 256 :: beBytes v n

def beNat (bs : List Nat) : Nat := bs.foldl (fun n b => 256 * n + b) 0

/-- The first eight key words, oldest first. -/
def splitKey : Nat → List Nat → List Bytes4
  | 0, _ => []
  | n + 1, bs => bs.take 4 :: splitKey n (bs.drop 4)

/-- Round keys 0 to 14, as lists of 16 bytes. -/
def roundKeys (key : Nat) : List (List Nat) :=
  let ws := (keyWords 52 8 (splitKey 8 (beBytes key 32)).reverse).reverse
  (List.range 15).map fun r => (List.range 4).flatMap fun j => ws.getD (4 * r + j) []

/-- ShiftRows on a state held column by column. -/
def shiftRows (s : List Nat) : List Nat := (List.range 16).map fun i => s.getD ((i + 4 * (i % 4)) % 16) 0

def mixColumn (a b c d : Nat) : List Nat :=
  [gf a 2 ^^^ gf b 3 ^^^ c ^^^ d, a ^^^ gf b 2 ^^^ gf c 3 ^^^ d, a ^^^ b ^^^ gf c 2 ^^^ gf d 3, gf a 3 ^^^ b ^^^ c ^^^ gf d 2]

def mixColumns (s : List Nat) : List Nat :=
  (List.range 4).flatMap fun c => mixColumn (s.getD (4 * c) 0) (s.getD (4 * c + 1) 0) (s.getD (4 * c + 2) 0) (s.getD (4 * c + 3) 0)

/-- AES-256 on one block. -/
def aes256 (key block : Nat) : Nat :=
  let ks := roundKeys key
  let s := xorB (beBytes block 16) (ks.getD 0 [])
  let s := (List.range 13).foldl (fun s r => xorB (mixColumns (shiftRows (s.map sbox))) (ks.getD (r + 1) [])) s
  beNat (xorB (shiftRows (s.map sbox)) (ks.getD 14 []))

/-! ### GCM -/

/-- Multiplication in GF(2^128) with the bit order of GCM: the most significant bit of a block is the coefficient of 1. -/
def ghashMul : Nat → Nat → Nat → Nat
  | 0, _, _ => 0
  | n + 1, x, v =>
    let r := ghashMul n x (if v % 2 = 1 then (v / 2) ^^^ (0xE1 * 2 ^ 120) else v / 2)
    if x / 2 ^ n % 2 = 1 then v ^^^ r else r

/-- The counter block of keystream block `j`; block 0 masks the tag. -/
def gcmCounter (iv j : Nat) : Nat := iv % 2 ^ 96 * 2 ^ 32 + (j + 1) % 2 ^ 32

/-- Bytes of one keystream block, first byte first. -/
def gcmBlock (key iv j : Nat) : List Nat := beBytes (aes256 key (gcmCounter iv j)) 16

/-- GHASH over whole blocks of ciphertext and the length block of empty additional data. -/
def ghash (h : Nat) (blocks : List Nat) (bits : Nat) : Nat :=
  let y := blocks.foldl (fun y b => ghashMul 128 (y ^^^ b) h) 0
  ghashMul 128 (y ^^^ (bits % 2 ^ 64)) h

def gcmTag (key iv : Nat) (blocks : List Nat) (bits : Nat) : Nat :=
  ghash (aes256 key 0) blocks bits ^^^ aes256 key (gcmCounter iv 0)

/-! ### SHA-256 -/

/-- The greatest r with r^k ≤ n, bit by bit from `b` bits on. -/
def rootOf (k n : Nat) : Nat → Nat → Nat
  | 0, r => r
  | b + 1, r => rootOf k n b (if (r + 2 ^ b) ^ k ≤ n then r + 2 ^ b else r)

/-- The first 32 bits of the fractional part of the k-th root of `p`. -/
def rootFrac (k p : Nat) : Nat := rootOf k (p * 2 ^ (32 * k)) 38 0 % 2 ^ 32

/-- The first 64 primes. -/
def shaPrimes : List Nat := (List.range 312).filter fun p => decide (2 ≤ p) && (List.range p).all fun q => decide (q < 2) || p % q != 0

def rotr32 (x n : Nat) : Nat := (x / 2 ^ n) ||| (x * 2 ^ (32 - n) % 2 ^ 32)

/-- The message schedule of a block, newest word first. -/
def shaSchedule : Nat → List Nat → List Nat
  | 0, ws => ws
  | n + 1, ws =>
    let g (i : Nat) : Nat := ws.getD (i - 1) 0
    let s0 := rotr32 (g 15) 7 ^^^ rotr32 (g 15) 18 ^^^ g 15 / 2 ^ 3
    let s1 := rotr32 (g 2) 17 ^^^ rotr32 (g 2) 19 ^^^ g 2 / 2 ^ 10
    shaSchedule n ((s1 + g 7 + s0 + g 16) % 2 ^ 32 :: ws)

/-- One round on the eight working words. -/
def shaRound (v : List Nat) (kw : Nat) : List Nat :=
  match v with
  | [a, b, c, d, e, f, g, h] =>
    let t1 := h + (rotr32 e 6 ^^^ rotr32 e 11 ^^^ rotr32 e 25) + ((e &&& f) ^^^ ((2 ^ 32 - 1 - e) &&& g)) + kw
    let t2 := (rotr32 a 2 ^^^ rotr32 a 13 ^^^ rotr32 a 22) + ((a &&& b) ^^^ (a &&& c) ^^^ (b &&& c))
    [(t1 + t2) % 2 ^ 32, a, b, c, (d + t1) % 2 ^ 32, e, f, g]
  | v => v

/-- The hash value after a block of 16 words. -/
def shaBlock (h block : List Nat) : List Nat :=
  let ws := (shaSchedule 48 block.reverse).reverse
  let ks := shaPrimes.map (rootFrac 3)
  List.zipWith (fun a b => (a + b) % 2 ^ 32) h ((List.zipWith (· + ·) ks ws).foldl shaRound h)

/-- Big-endian words of a sequence of bytes, `n` of them. -/
def beWords : Nat → List Nat → List Nat
  | 0, _ => []
  | n + 1, bs => beNat (bs.take 4) :: beWords n (bs.drop 4)

/-- SHA-256 of a sequence of bytes: 32 bytes. -/
def sha256 (bs : List Nat) : List Nat :=
  let zeros := (119 - bs.length % 64) % 64
  let m := bs ++ [0x80] ++ List.replicate zeros 0 ++ beBytes (8 * bs.length) 8
  let h := (List.range (m.length / 64)).foldl (fun h i => shaBlock h (beWords 16 (m.drop (64 * i)))) ((shaPrimes.take 8).map (rootFrac 2))
  h.flatMap fun x => beBytes x 4

end Sys2Proof.Machine
end

