-- ==== Sys2Proof/Machine/Views.lean ====
section
/-! DEFINITION. Membership views (R318 to R324, R331, R332, R334, R336, R466, R481): VIEWQ, VIEWACK and VJOIN, and the messages and
timeouts of the fabric. -/

namespace Sys2Proof.Machine

/-! ### VIEWQ, VIEWACK and VJOIN -/

def VState.code : VState → Nat
  | .empty => 0
  | .live => 1
  | .agree => 2
  | .lost => 3
  | .joining => 4
  | .excluded => 5

/-- The words of VIEWQ (R321). -/
def View.word (v : View) (one : Bool) : Nat :=
  if one then v.t.toNat % 2 ^ 27 * 2 ^ 37 + rankIn v.members v.self % 2 ^ 18 * 2 ^ 19 + v.members.length % 2 ^ 19
  else v.state.code * 2 ^ 53 + (if v.t != v.ta then 2 ^ 52 else 0) + (if v.state = .empty then 0x3FFFF else v.self % 2 ^ 18) * 2 ^ 32 + v.t.toNat

def execViewq (h : Hdr) (dst a : Operand) (s : State) : Host.Outcome State Fault Refusal :=
  runWord (.viewq h dst a) s fun c d =>
    .done (c.onHalves.foldl (fun d hf =>
      let x := c.uget hf .i64 a
      d.modW c.run.ref fun w => w.write hf 0 dst true .full ((d.view (x % 16)).word (x / 16 % 2 == 1))) d) 1 [] []

/-- VIEWACK of a LIVE slot: the tag is acknowledged and the slot's fences go (R334). -/
def Dev.viewAck (d : Dev) (slot : Nat) : Dev :=
  let v := d.view slot
  let d := d.putView slot { v with ta := v.t }
  { d with counters := d.counters.map fun p => (p.1, { p.2 with fences := p.2.fences.filter (· != slot) }) }

def execViewack (h : Hdr) (a : Operand) (s : State) : Host.Outcome State Fault Refusal :=
  runWord (.viewack h a) s fun c d =>
    let slotOf (hf : Nat) : Nat := c.uget hf .i32 a % 16
    if c.onHalves.any fun hf => (d.view (slotOf hf)).state == .agree then .wait 14
    else
      let r := c.onHalves.foldl (fun (x : Dev × List Trap) hf =>
        match (x.1.view (slotOf hf)).state with
        | .live => (x.1.viewAck (slotOf hf), x.2)
        | .lost => (x.1, x.2 ++ trapsAt (lanesOf (c.actOf hf)) 0x14 2 0 .here)
        | _ => (x.1, x.2 ++ trapsAt (lanesOf (c.actOf hf)) 0x14 3 0 .here)) (d, [])
      .done r.1 1 r.2 []

/-- Members of a bitmap, by its words (R320). -/
def bitmapIds : Nat → List DWord → List Nat
  | _, [] => []
  | n, w :: ws => ((List.range 64).filter fun b => w.getLsbD b).map (n + ·) ++ bitmapIds (n + 64) ws

/-- Fields of a slot record that both forms of VJOIN take. -/
def View.ofRecord (v : View) (r : List DWord) : View :=
  let word (i : Nat) : Nat := (r.getD i 0).toNat
  { v with self := word 0 % 2 ^ 18, contact := word 0 / 2 ^ 32 % 2 ^ 18,
           kathr := if word 3 % 2 ^ 32 = 0 then 100000 else word 3 % 2 ^ 32,
           ethr := if word 4 % 2 ^ 32 = 0 then 1000 else word 4 % 2 ^ 32, addrMap := r.getD 5 0 }

/-- VJOIN of a slot (R336): the slot record of R320, and the bitmap where the view is installed directly. What cannot be read is PAGE 0 (R466);
an error of cause 0 is a page that a migration has frozen, for which the word waits (R298). -/
def Dev.vjoin (d : Dev) (regs : Regs) (core slot : Nat) : Except (Nat × Nat) Dev × Dev :=
  let v := d.view slot
  match d.readWords regs core d.space0 false ((regs.area 0 + 0x800000 + 64 * slot) % 2 ^ 57) 8 with
  | (.error (cause, _, va), d) => (.error (if cause = 0 then 0 else 0x10, va), d)
  | (.ok r, d) =>
    if v.state = .live || v.state = .agree || v.state = .joining then (.ok d, d)
    else if nbit (r.getD 0 0).toNat 50 then
      match d.readWords regs core d.space0 false ((r.getD 2 0).toNat % 2 ^ 57 / 64 * 64) 4096 with
      | (.error (cause, _, va), d) => (.error (if cause = 0 then 0 else 0x10, va), d)
      | (.ok m, d) =>
        let t : BitVec 32 := (r.getD 1 0).truncate 32
        let v : View := v.ofRecord r
        let v : View := { v with t := t, ta := t, members := bitmapIds 0 m, state := .live, suspects := [], joiners := [],
                                 maxTag := max v.maxTag t.toNat, proposal := none, acks := [], nextSeq := 0, doneTop := none }
        (.ok (d.putView slot v), d)
    else
      let v : View := v.ofRecord r
      let v : View := { v with state := .joining, members := [], suspects := [], joiners := [], proposal := none, acks := [] }
      (.ok ((d.putView slot v).sendAll slot [FabMsg.join slot v.contact v.self]), d)

/-- VJOIN for each half in turn; none when one of them waits. -/
def Ctx.vjoins (c : Ctx) (a : Operand) : List Nat → Dev → List Trap → Option (Dev × List Trap)
  | [], d, ts => some (d, ts)
  | hf :: hs, d, ts =>
    match d.vjoin c.regs c.core (c.uget hf .i32 a % 16) with
    | (.ok d, _) => c.vjoins a hs d ts
    | (.error (cause, va), d) => if cause = 0 then none else c.vjoins a hs d (ts ++ trapsAt (lanesOf (c.actOf hf)) cause 0 va .here)

def execVjoin (h : Hdr) (a : Operand) (s : State) : Host.Outcome State Fault Refusal :=
  runWord (.vjoin h a) s fun c d =>
    match c.vjoins a c.onHalves d [] with
    | none => .wait 7
    | some (d, ts) => .done d 1 ts []

/-! ### A commit (R323, R331, R332, R333, R481) -/

/-- Threads that wait on a counter leave ECW, or the pick whose end would take them there, with VIEW CHANGED at their ECWAIT. -/
def Dev.trapWait (d : Dev) (regs : Regs) (ref : WRef) (w : Weft) (x : Wait) : Dev :=
  let dests := (match w.ending with | some e => e.dests | none => []) ++ (match d.runOf? ref false with | some (_, r) => r.dests | none => [])
  let here := w.entries.filter fun e => e.state == .ecw && e.aux == BitVec.ofNat 32 x.num
  let lanes := here.foldl (fun m e => m ||| e.mask) 0 |||
    maskOf ((dests.filter fun y => y.act == .ecwait x.num).map (·.lane))
  let depth := match here, w.ending, d.runOf? ref false with
    | e :: _, _, _ => e.depth
    | [], some e, _ => e.depth
    | [], none, some (_, r) => r.depth
    | [], none, none => 0
  let d := d.putW ref { w with waits := w.waits.filter (·.num != x.num) }
  d.lateTrapAt regs { ref := ref, pc := x.pc, depth := depth, words := [], idx := x.resume, head := x.resume, len := 1, handler := false }
    lanes 0x14 1 0 .here

/-- The same of a weft that has been swapped out: its traps stand pending until it is restored. -/
def Weft.trapSaved (w : Weft) (cctr : Nat) : Weft :=
  (w.waits.filter (·.counter == cctr)).foldl (fun w x =>
    let here (e : Entry) : Bool := e.state == .ecw && e.aux == BitVec.ofNat 32 x.num
    let ts := (w.entries.filter here).flatMap fun e => (lanesOf e.mask).map fun l =>
      let b : Restart := { lane := l, depth := e.depth, pc := x.pc, resume := x.resume }
      ({ lane := l, cause := 0x14, sub := 1, addr := 0, word := x.pc + 8 + BitVec.ofNat 32 (8 * x.resume), back := b, here := b } : LaneTrap)
    { w with waits := w.waits.filter (·.num != x.num), entries := w.entries.filter (fun e => !here e), trapPend := w.trapPend ++ ts }) w

/-- Steps 1 and 2 of R481 for one counter of a context. -/
def Dev.fenceCtr (d : Dev) (regs : Regs) (slot cctr : Nat) (ctx : BitVec 16) : Dev :=
  let d := d.modCtr cctr fun c => { c with fences := if c.fences.contains slot then c.fences else c.fences ++ [slot] }
  let d := d.wefts.foldl (fun d p =>
    if p.2.ctx != ctx then d
    else (p.2.waits.filter (·.counter == cctr)).foldl (fun d x =>
      match d.weft? (refOfKey p.1) with
      | some w => d.trapWait regs (refOfKey p.1) w x
      | none => d) d) d
  { d with bolts := d.bolts.map fun b => { b with saved := b.saved.map fun w => if w.ctx = ctx then w.trapSaved cctr else w } }

/-- Whether an instance completes with the output it holds because some survivor has completed it (R331). -/
def Coll.completesAt (k : Coll) (top : Option Nat) : Bool :=
  k.stage == .ready && (k.sure || match top with | some t => decide (k.seq ≤ t) | none => false)

/-- What a commit does to one active instance that is not restarted. -/
def Dev.collCommit (d : Dev) (regs : Regs) (v : View) (top : Option Nat) (k : Coll) : Dev :=
  let gone := k.members0.filter fun m => !v.members.contains m
  let lowx := (gone.min?).getD 0x3FFFF
  if k.completesAt top then
    let k : Coll := { k with sure := true, lowx := lowx }
    let d := d.putColl k
    if k.parked then d else d.completeColl regs k
  else if k.pol = 0 then d
  else
    if k.op = 3 && !v.members.contains k.root then d.endColl regs { k with lowx := lowx, chg := false, parked := false } 4
    else
      let mine := k.parts.filter (·.src == v.self)
      let k : Coll := { k with chg := true, lowx := lowx, parts := mine, ready := [], out := [],
                               stage := if k.stage = .ready then .exchange else k.stage }
      let d := d.putColl k
      if k.stage = .staging then d
      else
        let d := d.sendAll k.slot (k.partMsgs v (k.part v.self))
        if k.parked then d else d.combine regs k

/-- INSTALLING A COMMIT: the new view, then the instances by policy. -/
def Dev.installView (d : Dev) (regs : Regs) (slot : Nat) (tag : BitVec 32) (members : List Nat) (top : Option Nat) : Dev :=
  let v := d.view slot
  let joins := v.state = .joining
  let v' : View :=
    { v with t := tag, ta := if joins then tag else v.ta, members := sortIds members, state := .live, maxTag := max v.maxTag tag.toNat,
             proposal := none, acks := [], suspects := v.suspects.filter members.contains, joiners := v.joiners.filter fun m => !members.contains m,
             nextSeq := if joins then (match top with | some t => t + 1 | none => 0) else v.nextSeq }
  let d := d.putView slot v'
  let acts := d.fabric.colls.filter fun k => k.slot == slot && k.stage != .ending
  let restart := acts.filter fun k => k.pol == 0 && !k.completesAt top
  let d := acts.foldl (fun d k => match d.coll? k.core k.handle with
    | some k => if k.slot = slot then d.collCommit regs v' top k else d
    | none => d) d
  let d := restart.foldl (fun d k => d.fenceCtr regs slot k.cctr k.ctx) d
  let lowx (k : Coll) : Nat := ((k.members0.filter fun m => !members.contains m).min?).getD 0x3FFFF
  let d := restart.foldl (fun d k => match d.coll? k.core k.handle with
    | some x => if x.slot = slot ∧ x.seq = k.seq then d.endColl regs { x with lowx := lowx x, parts := [], ready := [], parked := false } 5 else d
    | none => d) d
  d.tryPropose slot

/-! ### Suspicion and agreement (R322 to R324) -/

/-- A device that suspects members proposes as coordinator, or tells the coordinator. -/
def Dev.suspect (d : Dev) (slot : Nat) (ms : List Nat) : Dev :=
  let v := d.view slot
  let new := ms.filter fun m => v.members.contains m && m != v.self && !v.suspects.contains m
  if (v.state ≠ .live && v.state ≠ .agree) || new.isEmpty then d
  else
    let v' : View := { v with suspects := v.suspects ++ new }
    let d := d.putView slot v'
    match v'.coordinator with
    | some c => if c = v.self then d.tryPropose slot else d.sendAll slot [FabMsg.suspicion slot c v'.suspects]
    | none => d

def execKeepaliveSend (ethernet : Bool) (member : Nat) (s : State) : Host.Outcome State Fault Refusal :=
  let f := s.dev.fabric
  .next { s with dev := { s.dev with fabric := { f with outbox := f.outbox ++ [.keepalive ethernet member] } } }

def execSuspicionTimeout (slot member : Nat) (s : State) : Host.Outcome State Fault Refusal := .next { s with dev := s.dev.suspect slot [member] }

def execSuspicionReceive (slot : Nat) (members : List Nat) (s : State) : Host.Outcome State Fault Refusal :=
  .next { s with dev := s.dev.suspect slot members }

/-- A message is sent again up to 8 times in all; then its receiver is suspected. -/
def execRetransmitTimeout (msg : Nat) (s : State) : Host.Outcome State Fault Refusal :=
  let f := s.dev.fabric
  match f.unacked.find? (·.id == msg) with
  | none => .next s
  | some u =>
    if u.attempts < 8 then
      .next { s with dev := { s.dev with fabric := { f with
        outbox := f.outbox ++ [u.msg], unacked := f.unacked.map fun x => if x.id = msg then { x with attempts := x.attempts + 1 } else x } } }
    else
      let d : Dev := { s.dev with fabric := { f with unacked := f.unacked.filter (·.id != msg) } }
      .next { s with dev := d.suspect u.slot [u.member] }

/-- A proposal: the slot of a member enters AGREE, and one tag is acknowledged once. -/
def execViewProposalReceive (slot src : Nat) (tag : BitVec 32) (members : List Nat) (s : State) : Host.Outcome State Fault Refusal :=
  let d := s.dev
  let v := d.view slot
  let member := v.state == .live || v.state == .agree
  if !(member || (v.state == .joining && members.contains v.self)) || tag.toNat ≤ v.t.toNat then .next s
  else
    let v1 : View := { v with state := if member then .agree else v.state }
    if tag.toNat ≤ v.acked then .next { s with dev := d.putView slot v1 }
    else
      let v2 : View := { v1 with acked := tag.toNat, maxTag := max v.maxTag tag.toNat }
      .next { s with dev := (d.putView slot v2).sendAll slot [FabMsg.ack slot src tag v.doneTop] }

/-- The greatest number of a completed instance that the acknowledgements carry. -/
def topOf (as : List VAck) : Option Nat :=
  as.foldl (fun t a => match t, a.seq with
    | none, x => x
    | some t, none => some t
    | some t, some x => some (max t x)) none

/-- An acknowledgement of the proposal in progress; with the last one the view commits. -/
def execViewAckReceive (slot src : Nat) (tag : BitVec 32) (seq : Option Nat) (s : State) : Host.Outcome State Fault Refusal :=
  let d := s.dev
  let v := d.view slot
  match v.proposal with
  | none => .next s
  | some set =>
    if tag ≠ v.proposalTag || !set.contains src then .next s
    else
      let acks := { member := src, seq := seq } :: v.acks.filter fun a => a.member != src
      let d := d.putView slot { v with acks := acks }
      if set.all fun m => acks.any (·.member == m) then
        let top := topOf acks
        let told := (set ++ v.members.filter fun m => !set.contains m).filter (· != v.self)
        let d := d.sendAll slot (told.map fun m => FabMsg.commit slot m tag set top)
        .next { s with dev := d.installView s.regs slot tag set top }
      else .next { s with dev := d }

/-- A proposal without every acknowledgement is dropped, and a new one with a higher tag follows at once: the members and joiners that did
not answer are left out of it (R323). -/
def execViewProposalTimeout (slot : Nat) (s : State) : Host.Outcome State Fault Refusal :=
  let d := s.dev
  let v := d.view slot
  match v.proposal with
  | none => .next s
  | some set =>
    let silent := set.filter fun m => !v.acks.any (·.member == m)
    let v' : View :=
      { v with proposal := none, acks := [], joiners := v.joiners.filter fun m => !silent.contains m,
               suspects := v.suspects ++ silent.filter fun m => v.members.contains m && !v.suspects.contains m }
    .next { s with dev := (d.putView slot v').propose slot }

/-- A commit: a member installs it, one whose id it omits is EXCLUDED. -/
def execViewCommitReceive (slot : Nat) (tag : BitVec 32) (members : List Nat) (top : Option Nat) (s : State) :
    Host.Outcome State Fault Refusal :=
  let d := s.dev
  let v := d.view slot
  if (v.state ≠ .live && v.state ≠ .agree && v.state ≠ .joining) || (tag.toNat ≤ v.t.toNat && v.state ≠ .joining) then .next s
  else if members.contains v.self then .next { s with dev := d.installView s.regs slot tag members top }
  else if v.state = .joining then .next s
  else .next { s with dev := d.putView slot { v with state := .excluded, proposal := none, acks := [] } }

def execViewLostReceive (slot : Nat) (s : State) : Host.Outcome State Fault Refusal :=
  let v := s.dev.view slot
  if v.state = .live || v.state = .agree then .next { s with dev := s.dev.putView slot { v with state := .lost, proposal := none, acks := [] } }
  else .next s

/-- A joiner's request: the coordinator keeps it for the next change, another member passes it on. -/
def execJoinRequestReceive (slot member : Nat) (s : State) : Host.Outcome State Fault Refusal :=
  let d := s.dev
  let v := d.view slot
  if (v.state ≠ .live && v.state ≠ .agree) || v.members.contains member || v.joiners.contains member then .next s
  else match v.coordinator with
    | none => .next s
    | some c =>
      if c = v.self then .next { s with dev := (d.putView slot { v with joiners := v.joiners ++ [member] }).tryPropose slot }
      else .next { s with dev := d.sendAll slot [FabMsg.join slot c member] }

def execJoinRetry (slot : Nat) (s : State) : Host.Outcome State Fault Refusal :=
  let v := s.dev.view slot
  if v.state = .joining then .next { s with dev := s.dev.sendAll slot [FabMsg.join slot v.contact v.self] } else .next s

end Sys2Proof.Machine
end

