-- ==== Sys2Proof/Machine/Copy.lean ====
section
/-! DEFINITION. The tensor copy engine (R225 to R244, R453, R454): descriptors, the walk with its conversions, the steps of a command,
and TCOPY, TCSTAT and TCABORT. -/

namespace Sys2Proof.Machine

/-! ### The descriptor (R228, R229) -/

def Cmd.word (x : Cmd) (i : Nat) : Nat := ((x.desc.getD []).getD i 0).toNat
def Cmd.srck (x : Cmd) : Nat := nfld (x.word 2) 2 2
def Cmd.dstk (x : Cmd) : Nat := nfld (x.word 2) 4 2
def Cmd.target (x : Cmd) : Nat := nfld (x.word 2) 16 2
def Cmd.canon (x : Cmd) : Nat := nfld (x.word 2) 18 2
def Cmd.sfmt (x : Cmd) : Nat := nfld (x.word 2) 20 4
def Cmd.ext (x : Cmd) : Bool := nbit (x.word 2) 26
def Cmd.uns (x : Cmd) : Bool := nbit (x.word 2) 27
def Cmd.p (x : Cmd) : Nat := nfld (x.word 2) 28 4
def Cmd.mx (x : Cmd) : Nat := nfld (x.word 2) 38 2
def Cmd.gcm (x : Cmd) : Bool := nbit (x.word 2) 43
def Cmd.kslot (x : Cmd) : Nat := nfld (x.word 2) 44 4
def Cmd.rows (x : Cmd) : Nat := nfld (x.word 3) 0 16
def Cmd.cols (x : Cmd) : Nat := nfld (x.word 3) 16 16
def Cmd.sstride (x : Cmd) : Nat := nfld (x.word 4) 0 32
def Cmd.dstride (x : Cmd) : Nat := nfld (x.word 4) 32 32
def Cmd.ivpre (x : Cmd) : Nat := nfld (x.word 6) 32 32
def Cmd.gctr (x : Cmd) : Nat := x.word 7

/-- Half-bytes of an element. -/
def Cmd.z2 (x : Cmd) : Nat :=
  match x.sfmt with
  | 1 => 8
  | 2 | 3 => 4
  | 5 => 1
  | _ => 2

/-- Row size in half-bytes, and in bytes. -/
def Cmd.row2 (x : Cmd) : Nat := x.cols * x.z2
def Cmd.row (x : Cmd) : Nat := x.row2 / 2
def Cmd.total (x : Cmd) : Nat := x.rows * x.row

/-- Elements per scale block, K and the chunk stride of the canonical target (R147, R150). -/
def Cmd.block (x : Cmd) : Nat := if x.mx = 2 then 16 else 32
def Cmd.fmt (x : Cmd) : MmaFmt :=
  match x.canon with
  | 0 => .c16b
  | 1 => .c16h
  | 2 => .c8
  | _ => .c4
def Cmd.chunks (x : Cmd) : Nat := x.cols / x.fmt.k

/-- An address or offset as its kind takes it: global, scratch offset, tile number. -/
def Cmd.place (kind v : Nat) : Nat := if kind = 0 then v else if kind = 1 then v % 2 ^ 32 else v % 128
def Cmd.srcAt (x : Cmd) : Nat := Cmd.place x.srck (x.word 0)
def Cmd.dstAt (x : Cmd) : Nat := Cmd.place x.dstk (x.word 1)
def Cmd.scaleAt (x : Cmd) : Nat := Cmd.place x.srck (x.word 5)

/-- Bytes of the destination from its start to its end. -/
def Cmd.dstExtent (x : Cmd) : Nat :=
  if x.target = 0 then (x.rows - 1) * x.dstride + x.row else x.chunks * MmaFmt.stride x.fmt

/-- The checks of R238 made when the descriptor has been read: the first subcode that applies. -/
def Cmd.check (x : Cmd) (w : Weft) (keyed : Bool) : Option Nat :=
  let w2 := x.word 2
  let off64 (kind v : Nat) : Bool := kind != 2 && v % 64 != 0
  let past (at_ n : Nat) : Bool := decide (w.hdr.scratch < at_ + n)
  if nfld w2 48 16 != 0 || nfld w2 40 3 != 0 || nfld w2 32 6 != 0 || nfld w2 24 2 != 0 || nfld w2 6 10 != 0 || nfld w2 0 2 != 0 ||
      nfld (x.word 3) 32 32 != 0 || nfld (x.word 6) 0 32 != 0 || x.srck == 3 || x.dstk == 3 || x.target == 3 || decide (6 ≤ x.sfmt) ||
      x.mx == 3 || (!x.gcm && (x.kslot != 0 || x.ivpre != 0 || x.gctr != 0)) then some 1
  else if (if x.sfmt = 4 then x.p == 0 || decide (8 ≤ x.p) else x.p != 0 || x.uns || x.ext) then some 2
  else if
    (if x.target = 0 then
      (if x.srck != 2 && x.dstk != 2 then x.sfmt != 0 else (x.srck == 2 && x.dstk == 2) || x.sfmt != 1)
     else x.srck == 2 || x.dstk != 1 || x.sfmt == 0) then some 3
  else if off64 x.srck x.srcAt || off64 x.dstk x.dstAt || x.sstride % 64 != 0 || x.dstride % 64 != 0 || x.row2 % 128 != 0 then some 4
  else if x.rows == 0 || x.cols == 0 || decide (x.sstride < x.row) ||
      (if x.target != 0 then
        x.rows != 16 || x.cols % x.fmt.k != 0 || decide (64 < x.chunks) || x.dstride != 0
       else if x.dstk == 2 then x.rows != 16 || x.cols != 16 || x.dstride != 0
       else if x.srck == 2 then x.rows != 16 || x.cols != 16 || x.sstride != 64 || decide (x.dstride < 64)
       else decide (x.dstride < x.cols)) ||
      (x.srck == 1 && past x.srcAt ((x.rows - 1) * x.sstride + x.row)) || (x.dstk == 1 && past x.dstAt x.dstExtent) ||
      (x.srck == 1 && x.mx != 0 && past x.scaleAt (x.rows * x.cols / x.block)) ||
      (x.srck == 2 && decide (w.hdr.acc ≤ x.srcAt)) || (x.dstk == 2 && decide (w.hdr.acc ≤ x.dstAt)) then some 5
  else if (if x.mx != 0 then (x.sfmt != 4 && x.sfmt != 5) || x.word 5 == 0 || x.cols % x.block != 0 else x.word 5 != 0) then some 6
  else if x.gcm && (!keyed || x.srck != 0 || x.sstride != x.row) then some 7
  else none

/-! ### The walk (R230, R231) -/

/-- Source address of walk offset `o`, and the destination of a raw copy. -/
def Cmd.srcOf (x : Cmd) (o : Nat) : Nat := x.srcAt + o / x.row * x.sstride + o % x.row
def Cmd.rawDst (x : Cmd) (o : Nat) : Nat := x.dstAt + o / x.row * x.dstride + o % x.row

/-- Whether scales are computed from blocks of 32 values rather than carried over or absent (R232). -/
def Cmd.carried (x : Cmd) : Bool :=
  x.mx == 1 && ((x.canon == 2 && x.sfmt == 4 && x.p == 4 && !x.uns && x.ext) || (x.canon == 3 && x.sfmt == 5))
def Cmd.computed (x : Cmd) : Bool := x.target != 0 && decide (2 ≤ x.canon) && !x.carried

/-- The restart offset of a fault at granule `o` (R236). -/
def Cmd.restart (x : Cmd) (o : Nat) : Nat :=
  if x.computed then
    let r := o / x.row
    let k := o % x.row * 2 / x.z2
    r * x.row + k / 32 * 32 * x.z2 / 2 / 64 * 64
  else o

/-- A destination line: its offset from DST, and the walk offset after which its bytes stand. `none` in a chunk is the line of scales. -/
structure DLine where
  at_ : Nat
  last : Nat
  chunk : Nat
  row : Option Nat
  deriving Repr

/-- The walk offset of the granule that brings the last element of row `r` of chunk `c`. -/
def Cmd.lastOf (x : Cmd) (c r : Nat) : Nat := r * x.row + ((c + 1) * x.fmt.k * x.z2 / 2 - 1) / 64 * 64

/-- Every destination line of the command, with the walk offset from which it is written whole. -/
def Cmd.lines (x : Cmd) : List DLine :=
  if x.target = 0 then
    (List.range (x.total / 64)).map fun g => { at_ := x.rawDst (64 * g) - x.dstAt, last := 64 * g, chunk := 0, row := some g }
  else
    (List.range x.chunks).flatMap fun c =>
      ((List.range 16).map fun r => { at_ := c * MmaFmt.stride x.fmt + 64 * r, last := x.lastOf c r, chunk := c, row := some r }) ++
      (if 2 ≤ x.canon then [{ at_ := c * MmaFmt.stride x.fmt + 1024, last := x.lastOf c 15, chunk := c, row := none }] else [])

/-! ### The conversions (R148, R149, R232) -/

def srcByte (x : Cmd) (o : Nat) : Nat := (Cells.get x.src o).toNat

/-- Place of the scale byte of block `b` of row `r` among the bytes read. -/
def scaleKey (x : Cmd) (r b : Nat) : Nat := 2 ^ 48 + r * (x.cols / x.block) + b

/-- Element (r, k) as its code. -/
def Cmd.code (x : Cmd) (r k : Nat) : Nat :=
  let o := r * x.row + k * x.z2 / 2
  match x.z2 with
  | 1 => srcByte x o / 16 ^ (k % 2) % 16
  | 2 => srcByte x o
  | 4 => srcByte x o + 256 * srcByte x (o + 1)
  | _ => srcByte x o + 256 * srcByte x (o + 1) + 65536 * srcByte x (o + 2) + 16777216 * srcByte x (o + 3)

/-- The exact value v of an element. -/
def Cmd.val (x : Cmd) (r k : Nat) : Num :=
  let c := x.code r k
  let v := match x.sfmt with
    | 1 => fmtF32.dec c
    | 2 => fmtF16.dec c
    | 3 => fmtBf16.dec c
    | 4 => (fmtB8 x.p x.uns x.ext).dec c
    | _ => fmtE2m1.dec c
  if x.mx = 0 then v
  else match scaleNum (srcByte x (scaleKey x r (k / x.block))) with
    | .nan => .nan
    | s => (mulNum v s).1

/-- ⌊log2⌋ of the largest magnitude among the finite non-zero values. -/
def topOfBlock (vs : List Num) : Option Int :=
  vs.foldl (fun t v => match v with
    | .fin _ m e _ => if m = 0 then t else some (match t with | some t => max t (topBit m e) | none => topBit m e)
    | _ => t) none

def clampScale (t : Option Int) (sub : Int) : Int :=
  match t with
  | none => -127
  | some t => max (-127) (min 127 (t - sub))

def Num.shift (v : Num) (s : Int) : Num :=
  match v with
  | .fin n m e t => .fin n m (e - s) t
  | v => v

/-- Block `b` of row `r` of a canonical target with computed scales: the scale code and the 32 element codes. -/
def Cmd.convert (x : Cmd) (r b : Nat) : Nat × List Nat :=
  let vs := (List.range 32).map fun j => x.val r (32 * b + j)
  if x.canon = 2 then
    let s := clampScale (topOfBlock vs) 7
    ((s + 127).toNat, vs.map fun v => match v with
      | .nan => 0x80
      | .inf n => if n then 0xFF else 0x7F
      | v => (roundTo (fmtB8 4 false true) (v.shift s) .rn true).1)
  else if vs.any fun v => match v with | .fin _ _ _ _ => false | _ => true then (0xFF, List.replicate 32 0)
  else
    let s := clampScale (topOfBlock vs) 2
    ((s + 127).toNat, vs.map fun v => (roundTo fmtE2m1 (v.shift s) .rn true).1)

/-- The scale of 32-element block `b` of row `r`, and the element codes. -/
def Cmd.blockOf (x : Cmd) (r b : Nat) : Nat × List Nat :=
  if x.carried then (srcByte x (scaleKey x r b), (List.range 32).map fun j => x.code r (32 * b + j)) else x.convert r b

/-- Two E2M1 codes to a byte, the lower column in the low nibble. -/
def nibbles : List Nat → List Byte
  | a :: b :: rest => BitVec.ofNat 8 (a % 16 + b % 16 * 16) :: nibbles rest
  | [a] => [BitVec.ofNat 8 (a % 16)]
  | [] => []

/-- The bytes of a destination line of a raw copy, a chunk row, or a chunk's scales. -/
def Cmd.lineBytes (x : Cmd) (l : DLine) : List Byte :=
  if x.target = 0 then (List.range 64).map fun j => Cells.get x.src (l.last + j)
  else
    let k0 := l.chunk * x.fmt.k
    let nb := x.fmt.k / 32
    match l.row with
    | some r =>
      if x.canon < 2 then
        (List.range 32).flatMap fun j =>
          natBytes (roundTo (if x.canon = 0 then fmtBf16 else fmtF16) (x.val r (k0 + j)) .rn false).1 2
      else
        let codes := (List.range nb).flatMap fun b => (x.blockOf r (l.chunk * nb + b)).2
        if x.canon = 2 then codes.map (BitVec.ofNat 8) else nibbles codes
    | none =>
      (List.range 64).map fun j =>
        let r := j / nb
        if r < 16 then BitVec.ofNat 8 (x.blockOf r (l.chunk * nb + j % nb)).1 else 0

/-! ### Commands as the device holds them -/

def Dev.cmd? (d : Dev) (core handle : Nat) : Option Cmd := d.cmds.find? fun x => x.core == core && x.handle == handle
def Dev.putCmd (d : Dev) (x : Cmd) : Dev :=
  { d with cmds := d.cmds.map fun y => if y.core = x.core ∧ y.handle = x.handle then x else y }

/-- The ACTIVE commands of a core, of which there are at most eight (R226). -/
def Dev.activeOf (d : Dev) (core : Nat) : List Cmd := d.cmds.filter fun x => x.core == core && x.status == .active

def Cmd.eng (x : Cmd) : EngId := .tcopy x.core x.handle
def Cmd.at_ (x : Cmd) : EngAt := { ref := x.ref, bolt := x.bolt, pc := x.pc, idx := x.idx, depth := x.depth }
def Cmd.by_ (x : Cmd) : EngBy := { eng := x.eng, race := x.race, at_ := x.at_, space := x.space }

/-- The lowest free handle of a core (R225). -/
def Dev.freeHandle (d : Dev) (core : Nat) : Option Nat :=
  (List.range 64).find? fun h => match d.cmd? core h with | none => true | some x => x.status.final && !x.held

def Dev.queueHalted (d : Dev) (core : Nat) : Bool := d.cmds.any fun x => x.core == core && x.held

/-- The weft of a command while its bolt runs. -/
def Dev.engWeft (d : Dev) (core bolt widx : Nat) : Option (WRef × Weft) :=
  match d.placeOf core bolt widx with
  | none => none
  | some r =>
    if bolt ≠ 0 && (match d.bolt? bolt with | some b => b.st != .resident | none => true) then none
    else (d.weft? r).map fun w => (r, w)

/-- Lines or the tile that a destination line stands for, if it can be named now; a fault where its page does not translate. -/
inductive DstLoc where
  | loc (l : Loc) (w : Option Where)
  | free (w : Where)
  | stop (cause va : Nat)
  | hold

def Dev.dstLoc (d : Dev) (regs : Regs) (x : Cmd) (w : Weft) (k : AKind) (off : Nat) : DstLoc × Dev :=
  if x.dstk = 2 then (.loc (.tile (w.tileRef x.core) (tileNo x.half x.dstAt)) none, d)
  else if x.dstk = 1 then (.loc (.scr w.bolt (lineOf (w.scratchAt x.core (x.dstAt + off)))) none, d)
  else match d.place regs x.core x.space (x.dstAt + off) k with
    | (.ok p, d) => if p.region = 3 then (.free p, d) else (.loc (.line (lineOf p.pa)) (some p), d)
    | (.fault c, d) => (.stop c (x.dstAt + off), d)
    | (.hold, d) => (.hold, d)

/-- Ownership of one location of the destination, with the copies of its line dropped (R192). -/
def Dev.takeLoc (d : Dev) (x : Cmd) (l : DLine) (k : Loc) (p : Option Where) : Dev :=
  let d := match p with | some p => d.pairDrop x.core (lineOf p.pa) | none => d
  d.own x.eng k (if x.dstk = 2 then 960 else l.last)

/-- Ownership of the destination lines that the command does not own yet (R234). A line whose page does not translate can be named by no
access; it is taken as soon as its page has a translation: at a granule of the command, at its resumption or at the end of a table walk. -/
def Dev.ownDst (d : Dev) (regs : Regs) (x : Cmd) (w : Weft) : Cmd × Dev :=
  let ls := x.lines.filter fun l => x.unowned.contains l.at_
  let (d, left) := ls.foldl (fun (p : Dev × List Nat) l =>
    match p.1.dstLoc regs x w .own l.at_ with
    | (.loc k q, d) => (d.takeLoc x l k q, p.2)
    | (.free _, d) => (d, p.2)
    | (_, d) => (d, p.2 ++ [l.at_])) (d, [])
  let x : Cmd := { x with unowned := left }
  (x, d.putCmd x)

/-- The same for every command that has its descriptor and still lacks lines. -/
def Dev.ownAll (d : Dev) (regs : Regs) : Dev :=
  d.cmds.foldl (fun d x =>
    if x.unowned.isEmpty || x.status.final then d
    else match d.engWeft x.core x.bolt x.widx with
      | some (_, w) => (d.ownDst regs x w).2
      | none => d) d

/-! ### Endings (R235, R239 to R241) -/

def CStat.code : CStat → Nat
  | .queued => 1
  | .active => 2
  | .parked => 3
  | .done => 4
  | .aborted => 5
  | .baddesc => 6
  | .ctrstale => 7
  | .tagfail => 8
  | .poison => 9

/-- The status word of R227. -/
def Cmd.statusWord (x : Cmd) : Nat :=
  x.off % 2 ^ 32 * 2 ^ 32 + x.off / 2 ^ 32 % 256 * 2 ^ 24 + (if x.status = .baddesc then x.sub % 256 else 0) * 65536 + x.status.code

/-- Whether a tile destination ends invalid: whenever the command had taken its ownership and has not written all of it. -/
def Dev.settleTile (d : Dev) (x : Cmd) (whole : Bool) : Dev :=
  if x.desc.isNone || x.failed.isSome || x.dstk ≠ 2 then d
  else
    let no := tileNo x.half x.dstAt
    match d.placeOf x.core x.bolt x.widx with
    | none => d
    | some r => d.modW r fun w =>
        { w with badTiles := if whole then w.badTiles.filter (· != no) else if w.badTiles.contains no then w.badTiles else w.badTiles ++ [no] }

/-- The end of a command: its status, the release of everything it owns, the decrement of its flag. -/
def Dev.endCmd (d : Dev) (regs : Regs) (x : Cmd) (status : CStat) (sub : Nat) : Dev :=
  let d := if status = .ctrstale then d
    else d.settleTile x (status = .done || status = .tagfail || (x.desc.isSome && x.off = x.total))
  let d := (d.putCmd { x with status := status, sub := sub, src := [], held := status = .baddesc }).disown x.eng
  d.countDown regs x.core x.bolt x.widx x.flags

/-- The record of R240 in the context's engine error area; its time is that of the detection. -/
def Dev.engRecord (d : Dev) (regs : Regs) (x : Cmd) (w : Weft) (status : CStat) (sub : Nat) : Dev :=
  let base := (w.crec.getD 3 0).toNat % 2 ^ 57
  if base = 0 then d
  else
    let ws : List Nat :=
      [x.daddr.toNat % 2 ^ 57, x.off % 2 ^ 32 * 2 ^ 32 + x.off / 2 ^ 32 % 256 * 2 ^ 24 + sub % 256 * 65536 + status.code,
       x.ctx.toNat * 2 ^ 48 + x.core % 1024 * 2 ^ 22 + x.ref.shuttle % 4 * 2 ^ 20 + x.ref.slot % 16 * 65536 + x.handle % 64,
       (if x.failed.isSome then x.failedAt else d.clockOf x.ref).toNat]
    (d.writeWords regs x.core x.space ((base + 2048 * x.core + 32 * x.handle) % 2 ^ 57) (ws.map (BitVec.ofNat 64))).2

/-- Parks every thread of the command's weft (R237). -/
def Dev.parkEng (d : Dev) (regs : Regs) (core bolt widx cause sub va aux : Nat) (handle : Option Nat) : Dev :=
  match d.placeOf core bolt widx with
  | none => d
  | some r => d.enginePark regs r cause sub va aux handle (d.clockOf r) (d.pickLanes r)

/-- A BADDESC or POISON ending: the record of the park carries the descriptor's address, or that of the line (R237, R239, R241). -/
def Dev.failCmd (d : Dev) (regs : Regs) (x : Cmd) (w : Weft) (status : CStat) (sub : Nat) (va : Nat := 0) : Dev :=
  let d := (d.endCmd regs x status sub).engRecord regs x w status sub
  if status = .poison then d.parkEng regs x.core x.bolt x.widx 0x13 2 (va % 2 ^ 57) (engAux x.handle x.off) none
  else d.parkEng regs x.core x.bolt x.widx 0x15 sub (x.daddr.toNat % 2 ^ 57) (engAux x.handle x.off) none

/-- A translation fault parks the command at its restart offset; lines written from lower offsets alone are released already, and any
other that a restart would not write again goes now (R236). -/
def Dev.parkCmd (d : Dev) (regs : Regs) (x : Cmd) (o cause va : Nat) : Dev :=
  let d := d.putCmd { x with status := .parked, off := o }
  d.parkEng regs x.core x.bolt x.widx cause 2 va (engAux x.handle o) (some x.handle)

/-! ### Granules (R226, R236) -/

inductive Grain where
  | ok (bs : List Byte)
  | stop (cause va : Nat)
  | poison (va : Nat)
  | bad
  | hold

/-- The bytes of a scratch line or of part of it. -/
def Dev.scratchBytes (d : Dev) (w : Weft) (core o n : Nat) : List Byte :=
  natBytes (d.scratchRd w (w.scratchAt core o) n) n

/-- Reads `n` bytes of the source's space for a command; the copies' held writes show in a twin (R346). -/
def Dev.readSrc (d : Dev) (regs : Regs) (x : Cmd) (w : Weft) (at_ n : Nat) : Grain × Dev :=
  if x.srck = 1 then
    let pa := w.scratchAt x.core at_
    if d.scratchBad w pa n true then (.poison at_, d)
    else (.ok (d.scratchBytes w x.core at_ n), d.engCheck regs x.race x.at_ true false false (lineOf pa) at_)
  else match d.place regs x.core x.space at_ .rd with
    | (.fault c, d) => (.stop c at_, d)
    | (.hold, d) => (.hold, d)
    | (.ok p, d) =>
      if d.poisoned p.pa then (.poison at_, d)
      else
        let v := leBytes (d.engBytes x.core p n)
        let v := match d.bolt? w.bolt with | some b => heldOver b.held p.pa n v | none => v
        (.ok (natBytes v n), d.engCheck regs x.race x.at_ false p.rt false (lineOf p.pa) at_)

/-- The 64 source bytes of walk offset `o`. -/
def Dev.granule (d : Dev) (regs : Regs) (x : Cmd) (w : Weft) (o : Nat) : Grain × Dev :=
  if x.srck = 2 then
    let no := tileNo x.half x.srcAt
    if w.badTiles.contains no then (.bad, d)
    else if w.badWords.contains (badTile no) then (.poison 0, d)
    else (.ok ((List.range 16).flatMap fun n => natBytes (w.tile x.half x.srcAt (o / 64) n).toNat 4), d)
  else d.readSrc regs x w (x.srcOf o) 64

/-- The blocks whose scales granule `o` is the first to need. -/
def Cmd.scalesAt (x : Cmd) (o : Nat) : List (Nat × Nat) :=
  if x.mx = 0 then []
  else
    let r := o / x.row
    let k0 := o % x.row * 2 / x.z2
    ((List.range (128 / x.z2)).map fun j => (r, (k0 + j) / x.block)).eraseDups

/-- Reads scale bytes into the command's copy. -/
def Dev.readScales (d : Dev) (regs : Regs) (x : Cmd) (w : Weft) : List (Nat × Nat) → Cells 8 → Grain × Cells 8 × Dev
  | [], src => (.ok [], src, d)
  | (r, b) :: rest, src =>
    match d.readSrc regs x w (x.scaleAt + r * (x.cols / x.block) + b) 1 with
    | (.ok bs, d) => d.readScales regs x w rest (Cells.putList src (scaleKey x r b) bs)
    | (g, d) => (g, src, d)

/-- Whether a destination line can be written now: no other command or operation owns it before this one (R234). -/
def Dev.mayWrite (d : Dev) (x : Cmd) (l : Loc) : Bool :=
  match d.ownerOf l with
  | some o => o.eng == x.eng
  | none => true

/-- Bytes to one destination line; a signed write of a twin copy waits in its hold buffer (R345). A line of a plain command is released
once it is written. -/
def Dev.putLine (d : Dev) (regs : Regs) (x : Cmd) (r : WRef) (w : Weft) (l : DLine) (loc : DstLoc) (bs : List Byte) : Dev :=
  let at_ := x.dstAt + l.at_
  let free (d : Dev) : Dev := match loc with
    | .loc k _ => if x.gcm || x.dstk = 2 then d else d.disownLoc x.eng k
    | _ => d
  let global (p : Where) : Dev :=
    let d := d.engCheck regs x.race x.at_ false p.rt true (lineOf p.pa) at_
    if d.isTwin w then
      d.hold w.bolt { va := BitVec.ofNat 64 at_, pa := p.pa, size := 64, data := leBytes bs, widx := w.widx, region := p.region }
    else (d.promoteFor (lineOf p.pa) (pairOf x.core)).engWrite x.core p bs
  match loc with
  | .loc (.scr _ line) _ => free ((d.engCheck regs x.race x.at_ true false true line at_).scratchWr r w (64 * line) 64 (leBytes bs))
  | .loc (.tile _ _) _ =>
    d.modW r fun w =>
      { w with tiles := (List.range 16).foldl (fun t n =>
          Cells.set t (tileNo x.half x.dstAt * 256 + 16 * (l.last / 64) + n) (BitVec.ofNat 32 (leBytes ((bs.drop (4 * n)).take 4)))) w.tiles,
               badWords := w.badWords.filter (· != badTile (tileNo x.half x.dstAt)) }
  | .loc (.line _) (some p) => free (global p)
  | .free p => global p
  | _ => d

/-- The destination lines that are whole after granule `o`. -/
def Cmd.due (x : Cmd) (o : Nat) : List DLine := x.lines.filter fun l => l.last == o

/-- What the places of lines come to before any is written. -/
inductive Dests where
  | ok (ls : List (DLine × DstLoc))
  | stop (cause va : Nat)
  | bad
  | hold

/-- Places of destination lines; a host or peer page under .gcm is subcode 7. -/
def Dev.dests (d : Dev) (regs : Regs) (x : Cmd) (r : WRef) (w : Weft) : List DLine → Dests × Dev
  | [] => (.ok [], d)
  | l :: ls =>
    match d.dstLoc regs x w .wr l.at_ with
    | (.stop c va, d) => (.stop c va, d)
    | (.hold, d) => (.hold, d)
    | (k, d) =>
      let far := match k with
        | .loc _ (some p) => p.target == 1 || p.target == 2
        | .free p => p.target == 1 || p.target == 2
        | _ => false
      let busy := match k with | .loc q _ => !d.mayWrite x q | _ => false
      let d := match k with | .loc q p => d.takeLoc x l q p | _ => d
      if x.gcm && far then (.bad, d)
      else if busy then (.hold, d)
      else match d.dests regs x r w ls with
        | (.ok rest, d) => (.ok ((l, k) :: rest), d)
        | e => e

/-- A twin copy whose hold buffer cannot take the lines waits (R346). -/
def Dev.holdFull (d : Dev) (w : Weft) (n : Nat) : Bool :=
  d.isTwin w && decide (holdLimit < ((d.bolt? w.bolt).map (·.heldBytes)).getD 0 + n)

/-- Plaintext of a granule: walk offset `o` is keystream block o/16 + 1 on (R242). -/
def decryptGrain (key iv o : Nat) (bs : List Byte) : List Byte :=
  let ks := (List.range 4).flatMap fun j => gcmBlock key iv (o / 16 + 1 + j)
  (bs.zip ks).map fun p => p.1 ^^^ BitVec.ofNat 8 p.2

def Cmd.iv (x : Cmd) : Nat := x.ivpre * 2 ^ 64 + x.gctr

/-- Ciphertext of a .gcm command is kept for its tag under these keys. -/
def cipherKey (o : Nat) : Nat := 2 ^ 49 + o

/-- Virtual addresses of global memory that granule `o` reads and writes (R300). -/
def Cmd.touches (x : Cmd) (o : Nat) : List Nat :=
  (if x.srck = 0 then x.srcOf o :: (x.scalesAt o).map fun p => x.scaleAt + p.1 * (x.cols / x.block) + p.2 else []) ++
  (if x.dstk = 0 then (x.due o).map fun l => x.dstAt + l.at_ else [])

/-- One granule of an ACTIVE command. A granule that has to wait is read again when it is served again; its accesses are checked for races
and counted for the hint ranges when it is done. -/
def Dev.walkGranule (d : Dev) (regs : Regs) (key : Nat) (x : Cmd) (r : WRef) (w : Weft) : Dev :=
  let (x, d) := if x.unowned.isEmpty then (x, d) else d.ownDst regs x w
  let d0 := d
  let o := x.off
  if x.total ≤ o then d
  else match d.granule regs x w o with
    | (.hold, _) => d
    | (.poison va, d) => d.failCmd regs x w .poison 0 va
    | (.bad, d) => d.failCmd regs x w .baddesc 8
    | (.stop c va, d) => d.parkCmd regs x (x.restart o) c va
    | (.ok bs, d) =>
      match d.readScales regs x w (x.scalesAt o) x.src with
      | (.hold, _, _) => d
      | (.poison va, _, d) => d.failCmd regs x w .poison 0 va
      | (.bad, _, d) => d
      | (.stop c va, _, d) => d.parkCmd regs x (x.restart o) c va
      | (.ok _, src, d) =>
        let plain := if x.gcm then decryptGrain key x.iv o bs else bs
        let src := Cells.putList src o plain
        let src := if x.gcm then Cells.putList src (cipherKey o) bs else src
        let y : Cmd := { x with src := src }
        match d.dests regs y r w (y.due o) with
        | (.hold, _) => d0
        | (.bad, d) => d.failCmd regs x w .baddesc 7
        | (.stop c va, d) => d.parkCmd regs x (x.restart o) c va
        | (.ok ls, d) =>
          if d.holdFull w (if x.dstk = 0 then 64 * ls.length else 0) then d0
          else match (if x.dstk = 0 then ls.findSome? fun l => d0.captureWaits w.bolt (x.dstAt + l.1.at_) else none) with
          | some d => d
          | none =>
            let d := d.countHints w.bolt (x.touches o)
            let d := ls.foldl (fun d l => d.putLine regs y r w l.1 l.2 (y.lineBytes l.1)) d
            d.putCmd { y with off := o + 64 }

/-! ### The steps of a command -/

/-- Key slots of a context (R243, R314). -/
def keyAt (ctx : BitVec 16) (slot : Nat) : Nat := ctx.toNat * 16 + slot

/-- Whether the descriptor read of a command waits: for the accesses that its weft made before it (R179, R226), or for the reads of earlier
commands of the core, which complete in issue order where they do not fault (R234). -/
def Dev.descWaits (d : Dev) (x : Cmd) : Bool :=
  d.beforeOpen x.ref x.seq ||
    d.cmds.any fun y => y.core == x.core && decide (y.seq < x.seq) && y.status == .queued && y.desc.isNone &&
      (d.engWeft y.core y.bolt y.widx).isSome

/-- DESCRIPTOR_READ_COMPLETE: the copy, the checks, the ownership (R234, R238). -/
def execDescriptorReadComplete (core handle : Nat) (s : State) : Host.Outcome State Fault Refusal :=
  let d := s.dev
  match d.cmd? core handle with
  | none => .next s
  | some x =>
    match d.engWeft x.core x.bolt x.widx with
    | none => .next s
    | some (r, w) =>
      if x.status ≠ .queued || x.desc.isSome || d.descWaits x then .next s
      else match d.readWords s.regs core x.space true x.daddr.toNat 8 with
        | (.error (0, _, _), _) => .next s
        | (.error (0x13, _, va), d) => .next { s with dev := d.failCmd s.regs x w .poison 0 va }
        | (.error (c, _, va), d) => .next { s with dev := d.parkCmd s.regs x 0 c va }
        | (.ok ws, d) =>
          let x : Cmd := { x with desc := some ws }
          let x : Cmd := { x with failed := x.check w (Tab.find? s.dev.keys (keyAt x.ctx x.kslot)).isSome, failedAt := d.clockOf x.ref }
          let d := if x.failed.isSome then d.putCmd x else (d.ownDst s.regs { x with unowned := x.lines.map (·.at_) } w).2
          -- a release of the weft may have waited for this (R234)
          .next { s with dev := d.tryEnding s.regs r }

/-- TCOPY_COMMAND_START: the oldest QUEUED command with its descriptor, while fewer than eight are ACTIVE and the queue is not halted. -/
def execTcopyCommandStart (core : Nat) (s : State) : Host.Outcome State Fault Refusal :=
  let d := s.dev
  let mine := d.cmds.filter fun x => x.core == core
  let ready := mine.filter fun x => x.status == .queued && x.desc.isSome && (d.engWeft x.core x.bolt x.widx).isSome
  let first := ready.foldl (fun (b : Option Cmd) x => match b with | none => some x | some y => if x.seq < y.seq then some x else some y) none
  if d.queueHalted core || decide (8 ≤ (d.activeOf core).length) then .next s
  else match first with
    | none => .next s
    | some x =>
      match d.engWeft x.core x.bolt x.widx with
      | none => .next s
      | some (_, w) =>
        match x.failed with
        | some sub => .next { s with dev := d.failCmd s.regs x w .baddesc sub }
        | none =>
          if x.gcm && !x.started then
            let k := keyAt x.ctx x.kslot
            match Tab.find? s.dev.keys k with
            | none => .next { s with dev := d.failCmd s.regs x w .baddesc 7 }
            | some slot =>
              if x.gctr ≤ slot.last.toNat then .next { s with dev := d.endCmd s.regs x .ctrstale 0 }
              else
                .next { s with dev := { d.putCmd { x with status := .active, started := true } with
                                   keys := Tab.put d.keys k { slot with last := BitVec.ofNat 64 x.gctr } } }
          else .next { s with dev := d.putCmd { x with status := .active, started := true } }

def Dev.keyOf (d : Dev) (x : Cmd) : Nat := ((Tab.find? d.keys (keyAt x.ctx x.kslot)).map (·.key.toNat)).getD 0

/-- Whether an ACTIVE command has a granule to be served. -/
def Dev.hasGrain (d : Dev) (core : Nat) (x : Cmd) : Bool :=
  x.core == core && x.status == .active && decide (x.off < x.total) && (d.engWeft x.core x.bolt x.widx).isSome

/-- Whether the round over the issue order comes to `y` before `x`, the command of place `turn` having been served last (R226). -/
def goesBefore (turn : Nat) (y x : Cmd) : Bool :=
  if turn < x.seq then decide (turn < y.seq) && decide (y.seq < x.seq) else decide (turn < y.seq) || decide (y.seq < x.seq)

/-- Whether the next granule of a command has to wait: served, it would change nothing but the count of free values. -/
def Dev.grainWaits (d : Dev) (regs : Regs) (x : Cmd) : Bool :=
  match d.engWeft x.core x.bolt x.widx with
  | some (r, w) => decide ({ d.walkGranule regs (d.keyOf x) x r w with fresh := d.fresh } = d)
  | none => true

/-- TCOPY_GRANULE: the granule of the command whose turn it is, which passes over commands that have to wait. -/
def execTcopyGranule (core handle : Nat) (s : State) : Host.Outcome State Fault Refusal :=
  match s.dev.cmd? core handle with
  | none => .next s
  | some x =>
    match s.dev.engWeft x.core x.bolt x.widx with
    | none => .next s
    | some (r, w) =>
      let turn := (s.dev.core core).turn
      if s.dev.hasGrain core x && !(s.dev.cmds.any fun y => s.dev.hasGrain core y && goesBefore turn y x && !s.dev.grainWaits s.regs y) then
        let d := s.dev.modCore core fun c => { c with turn := x.seq }
        .next { s with dev := d.walkGranule s.regs (d.keyOf x) x r w }
      else .next s

/-- Ciphertext as GHASH takes it: blocks of 16 bytes. -/
def Cmd.cipherBlocks (x : Cmd) : List Nat :=
  (List.range (x.total / 16)).map fun b => beNat ((List.range 16).map fun j => srcByte x (cipherKey (16 * b + j)))

/-- Zeros over every destination line of a command whose tag fails (R235, R244): the command ends when all of them can be written. A line
that waits makes it wait, and one whose page no longer translates parks it (R236). -/
def Dev.zeroDst (d : Dev) (regs : Regs) (x : Cmd) (r : WRef) (w : Weft) : Dev :=
  match d.dests regs x r w x.lines with
  | (.hold, _) => d
  | (.bad, e) => e.failCmd regs x w .baddesc 7
  | (.stop c va, e) => e.parkCmd regs x x.off c va
  | (.ok ls, e) =>
    match (if x.dstk = 0 then ls.findSome? fun l => d.captureWaits w.bolt (x.dstAt + l.1.at_) else none) with
    | some d => d
    | none =>
      let e := if x.dstk = 0 then e.countHints w.bolt (ls.map fun l => x.dstAt + l.1.at_) else e
      (ls.foldl (fun e l => e.putLine regs x r w l.1 l.2 (List.replicate 64 0)) e).endCmd regs x .tagfail 0

/-- TCOPY_COMMAND_END, once the last granule has been written: DONE, or the tag's verdict. -/
def execTcopyCommandEnd (core handle : Nat) (s : State) : Host.Outcome State Fault Refusal :=
  let d := s.dev
  match d.cmd? core handle with
  | none => .next s
  | some x =>
    match d.engWeft x.core x.bolt x.widx with
    | none => .next s
    | some (r, w) =>
      if x.status ≠ .active || x.off ≠ x.total then .next s
      else if !x.gcm then .next { s with dev := d.endCmd s.regs x .done 0 }
      else match d.readSrc s.regs x w (x.srcAt + x.total) 16 with
        | (.hold, _) => .next s
        | (.poison va, d) => .next { s with dev := d.failCmd s.regs x w .poison 0 va }
        | (.bad, d) => .next { s with dev := d.failCmd s.regs x w .poison 0 }
        | (.stop c va, d) => .next { s with dev := d.parkCmd s.regs x x.off c va }
        | (.ok tag, d) =>
          if gcmTag (s.dev.keyOf x) x.iv x.cipherBlocks (8 * x.total) = beNat (tag.map (·.toNat)) then
            .next { s with dev := d.endCmd s.regs x .done 0 }
          else .next { s with dev := d.zeroDst s.regs x r w }

/-! ### TCOPY, TCSTAT and TCABORT (R225, R453, R454) -/

/-- One half's TCOPY under a handle that is free. -/
def Ctx.issueCopy (c : Ctx) (d : Dev) (half handle addr : Nat) : Dev :=
  let keys := c.flagKeys true [half]
  let x : Cmd :=
    { core := c.core, handle := handle, ref := c.run.ref, bolt := if c.w.sup then 0 else c.w.bolt, widx := c.w.widx, half := half,
      ctx := c.w.ctx, asid := c.w.asid, root := c.w.space.root, daddr := BitVec.ofNat 64 addr, desc := none, status := .queued, sub := 0, off := 0, seq := d.nextOp,
      failed := none, started := false, held := false, flags := keys, src := [], race := d.raceIdOf c.w (lowLane (c.actOf half)),
      pc := c.run.pc, idx := c.run.idx, depth := c.run.depth }
  let d : Dev :=
    { d with cmds := (d.cmds.filter fun y => !(y.core == c.core && y.handle == handle)) ++ [x], nextOp := d.nextOp + 1 }
  d.modW c.run.ref fun w => w.addFlags keys

def Ctx.copyHalves (c : Ctx) (dst a : Operand) : List Nat → Dev → List Trap → Option (Dev × List Trap)
  | [], d, ts => some (d, ts)
  | h :: hs, d, ts =>
    let addr := c.uget h .i64 a
    if addr % 64 ≠ 0 then c.copyHalves dst a hs d (ts ++ trapsAt (lanesOf (c.actOf h)) 0x03 0 (addr % 2 ^ 57) .here)
    else match d.freeHandle c.core with
      | none => none
      | some k =>
        let d := (c.issueCopy d h k addr).modW c.run.ref fun w => w.write h 0 dst true .full k
        c.copyHalves dst a hs d ts

def execTcopy (h : Hdr) (d a : Operand) (s : State) : Host.Outcome State Fault Refusal :=
  runWord (.tcopy h d a) s fun c dev =>
    if dev.fencing c.run.ref then .wait 15
    else if c.w.flagsFull (c.flagKeys true c.onHalves) then .wait 15
    else match c.copyHalves d a c.onHalves dev [] with
      | none => .wait 15
      | some (dev, ts) => .done dev 1 ts []

/-- Whether a command is one that the weft may name (R227). -/
def Ctx.mayName (c : Ctx) (x : Cmd) : Bool := c.w.sup || (x.bolt == c.w.bolt && x.widx == c.w.widx)

def execTcstat (h : Hdr) (d a : Operand) (s : State) : Host.Outcome State Fault Refusal :=
  runWord (.tcstat h d a) s fun c dev =>
    .done (c.onHalves.foldl (fun dev hf =>
      let v := match dev.cmd? c.core (c.uget hf .i32 a % 64) with
        | some x => if c.mayName x then x.statusWord else 0
        | none => 0
      dev.modW c.run.ref fun w => w.write hf 0 d true .full v) dev) 1 [] []

/-- TCABORT on one command. -/
def Dev.abortCmd (d : Dev) (regs : Regs) (sup : Bool) (x : Cmd) : Dev :=
  match x.status with
  | .queued | .parked => d.endCmd regs x .aborted 0
  | .active => if x.off = x.total then d else d.endCmd regs x .aborted 0
  | .baddesc => if sup then d.putCmd { x with held := false } else d
  | _ => d

def execTcabort (h : Hdr) (a : Operand) (s : State) : Host.Outcome State Fault Refusal :=
  runWord (.tcabort h a) s fun c d =>
    .done (c.onHalves.foldl (fun d hf =>
      match d.cmd? c.core (c.uget hf .i32 a % 64) with
      | some x => if c.mayName x then d.abortCmd c.regs c.w.sup x else d
      | none => d) d) 1 [] []

end Sys2Proof.Machine
end

