-- ==== Sys2Proof/Machine/Gather.lean ====
section
/-! DEFINITION. GATHER, SCATTER and SLOP (R408 to R410, R446 to R452) and the steps of their units. -/

namespace Sys2Proof.Machine

/-! ### GATHER and SCATTER as they issue (R408, R446) -/

/-- The tests of R408, in their order. -/
def gatherTest (w : Weft) (z base d0 l0 cnt : Nat) : Option (Nat × Nat) :=
  if base % z ≠ 0 then some (0x03, base)
  else if d0 % z ≠ 0 then some (0x03, d0)
  else if l0 % 4 ≠ 0 then some (0x03, l0)
  else if 65536 < cnt || w.hdr.scratch < l0 + 4 * cnt then some (0x05, l0 + 4 * min cnt 65536)
  else if w.hdr.scratch < d0 + z * cnt then some (0x05, d0 + z * cnt)
  else none

/-- Scratch lines of elements: the line of each element and, as its offset, the last element that lies in it. -/
def gatherLines (w : Weft) (core d0 z cnt : Nat) : List (Nat × Nat) :=
  (List.range cnt).foldl (fun ls i =>
    let l := lineOf (w.scratchAt core (d0 + z * i))
    match ls with
    | (m, _) :: rest => if m = l then (l, i) :: rest else (l, i) :: ls
    | [] => [(l, i)]) []

def Ctx.gatherHalf (c : Ctx) (scatter : Bool) (z : Nat) (dst a b n : Operand) (h : Nat) (x : Dev × List Trap) : Dev × List Trap :=
  let d := x.1
  let d0 := c.uget h .i32 dst
  let base := c.uget h .i64 a
  let l0 := c.uget h .i32 b
  let cnt := c.uget h .i32 n
  match gatherTest c.w z base d0 l0 cnt with
  | some (cause, addr) => (d, x.2 ++ trapsAt (lanesOf (c.actOf h)) cause 0 (addr % 2 ^ 57) .here)
  | none =>
    if cnt = 0 then x
    else
      let keys := c.flagKeys true [h]
      let bolt := if c.w.sup then 0 else c.w.bolt
      let g : Gath :=
        { id := d.nextOp, scatter := scatter, ref := c.run.ref, bolt := bolt, widx := c.w.widx, half := h, ctx := c.w.ctx, asid := c.w.asid, root := c.w.space.root,
          base := BitVec.ofNat 64 base, list := l0, scr := d0, count := cnt, size := z, next := 0, parked := false, flags := keys,
          race := d.raceIdOf c.w (lowLane (c.actOf h)), act := c.actOf h, pc := c.run.pc, idx := c.run.idx, depth := c.run.depth }
      let d : Dev := { d with gathers := d.gathers ++ [g], nextOp := d.nextOp + 1 }
      let d := d.modW c.run.ref fun w => w.addFlags keys
      let d := if scatter then d
        else (gatherLines c.w c.core d0 z cnt).foldl (fun d l => d.own (.gather g.id) (.scr c.w.bolt l.1) l.2) d
      (d, x.2)

/-- What GATHER and SCATTER share as they issue. -/
def gatherWord (i : Instr) (s : State) (scatter : Bool) (z : Nat) (dst a b n : Operand) : Host.Outcome State Fault Refusal :=
  runWord i s fun c d =>
    if d.fencing c.run.ref then .wait 15
    else if c.w.flagsFull (c.flagKeys true c.onHalves) then .wait 15
    else
      let r := c.onHalves.foldl (fun x h => c.gatherHalf scatter z dst a b n h x) (d, [])
      .done r.1 1 r.2 []

def execGather (h : Hdr) (size : Size) (d a b c : Operand) (s : State) : Host.Outcome State Fault Refusal :=
  gatherWord (.gather h size d a b c) s false size.bytes d a b c

def execScatter (h : Hdr) (size : Size) (d a b c : Operand) (s : State) : Host.Outcome State Fault Refusal :=
  gatherWord (.scatter h size d a b c) s true size.bytes d a b c

/-! ### Elements (R409, R410, R446, R447) -/

def Dev.gath? (d : Dev) (id : Nat) : Option Gath := d.gathers.find? (·.id == id)
def Dev.putGath (d : Dev) (g : Gath) : Dev := { d with gathers := d.gathers.map fun x => if x.id = g.id then g else x }
def Gath.at_ (g : Gath) : EngAt := { ref := g.ref, bolt := g.bolt, pc := g.pc, idx := g.idx, depth := g.depth }

/-- The command stops at element e: $pidx, the parks of its weft, the lines released (R410, R447). -/
def Dev.stopGath (d : Dev) (regs : Regs) (g : Gath) (r : WRef) (cause sub va : Nat) : Dev :=
  let d := d.putGath { g with parked := true }
  let d := d.modW r fun w => { w with pidx := Cells.set w.pidx g.half (BitVec.ofNat 16 g.next) }
  let d := d.modMem fun m => { m with owned := m.owned.filter fun o => !(o.eng == .gather g.id && (g.scatter || decide (o.off < g.next))) }
  d.parkEng regs g.ref.core g.bolt g.widx cause sub va g.next none

/-- After the last element the command completes. $pidx is 0 since its issue or its resumption (R84). -/
def Dev.nextGath (d : Dev) (regs : Regs) (g : Gath) : Dev :=
  if g.next + 1 < g.count then d.putGath { g with next := g.next + 1 }
  else
    let d : Dev := { d with gathers := d.gathers.filter (·.id != g.id) }
    (d.disown (.gather g.id)).countDown regs g.ref.core g.bolt g.widx g.flags

/-- The race check of a scratch access of the unit. -/
def Dev.gathCheck (d : Dev) (regs : Regs) (g : Gath) (w : Weft) (writes : Bool) (o : Nat) : Dev :=
  d.engCheck regs g.race g.at_ true false writes (lineOf (w.scratchAt g.ref.core o)) o

/-- The address of element `next` by its index in the list. -/
def Dev.gathAddr (d : Dev) (g : Gath) (w : Weft) : Nat :=
  (g.base.toNat + d.scratchRd w (w.scratchAt g.ref.core (g.list + 4 * g.next)) 4 * g.size) % 2 ^ 64

/-- Whether the element waits: for the accesses that the weft made before the command (R179), or for a scratch line that another engine operation
owns (R192). -/
def Dev.gathWaits (d : Dev) (g : Gath) (w : Weft) (o : Nat) : Bool :=
  d.beforeOpen g.ref g.id ||
    match d.ownerOf (.scr w.bolt (lineOf (w.scratchAt g.ref.core o))) with | some x => x.eng != .gather g.id | none => false

def Dev.gatherOne (d : Dev) (regs : Regs) (g : Gath) (r : WRef) (w : Weft) : Dev :=
  let core := g.ref.core
  let a := d.gathAddr g w
  let at_ := g.scr + g.size * g.next
  let pa := w.scratchAt core at_
  if d.gathWaits g w at_ then d
  else if d.scratchBad w (w.scratchAt core (g.list + 4 * g.next)) 4 true then d.loseBolt regs w.bolt
  else match d.place regs core g.space a .rd with
    | (.hold, _) => d
    | (.fault c, d) => d.stopGath regs g r c 0 (a % 2 ^ 57)
    | (.ok p, d) =>
      if p.region = 3 then d.stopGath regs g r causeProt 0 a
      else if d.poisoned p.pa then d.stopGath regs g r 0x13 1 a
      else
        let v := leBytes (d.engBytes core p g.size)
        let v := match d.bolt? w.bolt with | some b => heldOver b.held p.pa g.size v | none => v
        let d := (d.gathCheck regs g w false (g.list + 4 * g.next)).engCheck regs g.race g.at_ false p.rt false (lineOf p.pa) a
        let d := (d.gathCheck regs g w true at_).countHint w.bolt a
        (d.scratchWr r w pa g.size v).nextGath regs g

def Dev.scatterOne (d : Dev) (regs : Regs) (g : Gath) (r : WRef) (w : Weft) : Dev :=
  let core := g.ref.core
  let a := d.gathAddr g w
  let src := w.scratchAt core (g.scr + g.size * g.next)
  if d.beforeOpen g.ref g.id then d
  else if d.scratchBad w (w.scratchAt core (g.list + 4 * g.next)) 4 true || d.scratchBad w src g.size true then d.loseBolt regs w.bolt
  else match d.place regs core g.space a .wr with
    | (.hold, _) => d
    | (.fault c, d) => d.stopGath regs g r c 0 (a % 2 ^ 57)
    | (.ok p, d) =>
      let line := lineOf p.pa
      if p.region = 3 then d.stopGath regs g r causeProt 0 a
      else if d.poisoned p.pa then d.stopGath regs g r 0x13 1 a
      else
        let fresh := !d.mem.owned.any fun o => o.eng == .gather g.id && o.loc == .line line
        let d := if fresh then (d.pairDrop core line).own (.gather g.id) (.line line) g.next else d
        let mine := match d.ownerOf (.line line) with | some o => o.eng == .gather g.id | none => true
        if !mine || d.holdFull w g.size then d
        else match d.captureWaits w.bolt a with
        | some d => d
        | none =>
          let v := d.scratchRd w src g.size
          let d := (d.gathCheck regs g w false (g.list + 4 * g.next)).gathCheck regs g w false (g.scr + g.size * g.next)
          let d := d.countHint w.bolt a
          let d := d.engCheck regs g.race g.at_ false p.rt true line a
          let d :=
            if d.isTwin w then
              d.hold w.bolt { va := BitVec.ofNat 64 a, pa := p.pa, size := g.size, data := v, widx := w.widx, region := p.region }
            else (d.promoteFor line (pairOf core)).engWrite core p (natBytes v g.size)
          d.nextGath regs g

/-- One element of a command whose weft is in place. -/
def gatherStep (s : State) (id : Nat) (scatter : Bool) : State :=
  match s.dev.gath? id with
  | none => s
  | some g =>
    match s.dev.engWeft g.ref.core g.bolt g.widx with
    | none => s
    | some (r, w) =>
      if g.parked || g.scatter != scatter then s
      else { s with dev := if scatter then s.dev.scatterOne s.regs g r w else s.dev.gatherOne s.regs g r w }

def execGatherElement (id : Nat) (s : State) : Host.Outcome State Fault Refusal := .next (gatherStep s id false)

def execScatterElement (id : Nat) (s : State) : Host.Outcome State Fault Refusal := .next (gatherStep s id true)

/-! ### SLOP (R448 to R452) -/

def Slop.word (x : Slop) (i : Nat) : Nat := (x.desc.getD i 0).toNat
def Slop.dst (x : Slop) : Nat := x.word 0 % 2 ^ 57
def Slop.src (x : Slop) : Nat := x.word 1 % 2 ^ 57
def Slop.at_ (x : Slop) : EngAt := { ref := x.ref, bolt := x.bolt, pc := x.pc, idx := x.idx, depth := x.depth }

/-- The checks of R451. -/
def slopCheck (ws : List DWord) : Option Nat :=
  let w (i : Nat) : Nat := (ws.getD i 0).toNat
  let op := w 4 % 16
  let ty := w 4 / 16 % 4
  let imm := nbit (w 4) 6
  if w 0 / 2 ^ 57 != 0 || w 1 / 2 ^ 57 != 0 || w 2 / 2 ^ 32 != 0 || w 3 / 2 ^ 25 != 0 || w 4 / 2 ^ 7 != 0 || w 5 != 0 || w 6 != 0 ||
      w 7 != 0 || decide (8 ≤ op) || (decide (3 ≤ op) && decide (op ≤ 5) && decide (2 ≤ ty)) then some 0x11
  else if w 0 % 64 != 0 || w 1 % 64 != 0 || (imm && w 1 != 0) then some 0x12
  else if w 3 == 0 || decide (2 ^ 24 < w 3) then some 0x13
  else none

/-- f(d, s) of R450 on one 32-bit element. -/
def slopVal (ty op d s : Nat) : Nat :=
  let add (f : Fmt) (x y : Nat) : Nat := (roundTo f (addNum false (f.dec x) (f.dec y)).1 .rn false).1
  let mul (f : Fmt) (x y : Nat) : Nat := (roundTo f (mulNum (f.dec x) (f.dec y)).1 .rn false).1
  if op = 7 then s
  else if ty = 3 then
    let two (f : Nat → Nat → Nat) : Nat := pack16 (f (lo16 d) (lo16 s)) (f (hi16 d) (hi16 s))
    match op with
    | 0 => two (add fmtBf16)
    | 1 => two (minMax fmtBf16 false)
    | 2 => two (minMax fmtBf16 true)
    | _ => two (mul fmtBf16)
  else if ty = 2 then
    match op with
    | 0 => add fmtF32 d s
    | 1 => minMax fmtF32 false d s
    | 2 => minMax fmtF32 true d s
    | _ => mul fmtF32 d s
  else
    let less (a b : Nat) : Bool := if ty = 0 then decide (sxN a 32 < sxN b 32) else decide (a < b)
    match op with
    | 0 => (d + s) % 2 ^ 32
    | 1 => if less s d then s else d
    | 2 => if less d s then s else d
    | 3 => d &&& s
    | 4 => d ||| s
    | 5 => d ^^^ s
    | _ => d * s % 2 ^ 32

/-- The lowest slot of the core's unit that is free. -/
def Dev.freeUnit (d : Dev) (core : Nat) : Option Nat :=
  (List.range 16).find? fun u => !d.slops.any fun x => x.core == core && x.unit == u

inductive SlopIssue where
  | wait
  | trap (cause sub addr : Nat) (d : Dev)
  | placed (d : Dev)

/-- Ownership of the destination lines that translate, from line `l` on. -/
def Dev.ownLines (d : Dev) (regs : Regs) (x : Slop) : Dev :=
  (List.range x.lines).foldl (fun d l =>
    match d.place regs x.core x.space (x.dst + 64 * l) .own with
    | (.ok p, d) => if p.region = 3 then d else (d.pairDrop x.core (lineOf p.pa)).own (.slop x.id) (.line (lineOf p.pa)) l
    | (_, d) => d) d

def Ctx.slopHalf (c : Ctx) (d : Dev) (h addr : Nat) : SlopIssue :=
  if addr % 64 ≠ 0 then .trap 0x03 0 (addr % 2 ^ 57) d
  else match d.freeUnit c.core with
    | none => .wait
    | some u =>
      match d.readWords c.regs c.core c.w.space true addr 8 with
      | (.error (0, _, _), _) => .wait
      | (.error (k, sub, va), d) => .trap k sub va d
      | (.ok ws, d) =>
        let bolt := if c.w.sup then 0 else c.w.bolt
        match slopCheck ws with
        | some sub => .placed (d.parkEng c.regs c.core bolt c.w.widx 0x15 sub addr addr none)
        | none =>
          let keys := c.flagKeys true [h]
          let x : Slop :=
            { id := d.nextOp, core := c.core, unit := u, ref := c.run.ref, bolt := bolt, widx := c.w.widx, ctx := c.w.ctx, asid := c.w.asid, root := c.w.space.root,
              daddr := BitVec.ofNat 64 addr, desc := ws, lines := (ws.getD 3 0).toNat % 2 ^ 25, next := 0, parked := false,
              counts := [(bolt, c.w.widx, keys)], race := d.raceIdOf c.w (lowLane (c.actOf h)), pc := c.run.pc, idx := c.run.idx,
              depth := c.run.depth }
          let d : Dev := { d with slops := d.slops ++ [x], nextOp := d.nextOp + 1 }
          .placed ((d.modW c.run.ref fun w => w.addFlags keys).ownLines c.regs x)

def Ctx.slopHalves (c : Ctx) (a : Operand) : List Nat → Dev → List Trap → Tab Nat → Option (Dev × List Trap × Tab Nat)
  | [], d, ts, vs => some (d, ts, vs)
  | h :: hs, d, ts, vs =>
    match c.slopHalf d h (c.uget h .i64 a) with
    | .wait => none
    | .trap k sub addr d => c.slopHalves a hs d (ts ++ trapsAt (lanesOf (c.actOf h)) k sub addr .here) vs
    | .placed e => c.slopHalves a hs e ts (Tab.put vs h d.nextOp)

/-- The secondary twin copy counts on the commands of the primary that still run. -/
def Ctx.slopShared (c : Ctx) (d : Dev) (vs : Tab Nat) : Dev :=
  c.onHalves.foldl (fun d h =>
    match Tab.find? vs h with
    | none => d
    | some id =>
      if d.slops.any (·.id == id) then
        let keys := c.flagKeys true [h]
        let d := d.modW c.run.ref fun w => w.addFlags keys
        { d with slops := d.slops.map fun x => if x.id = id then { x with counts := x.counts ++ [(c.w.bolt, c.w.widx, keys)] } else x }
      else d) d

def execSlop (h : Hdr) (a : Operand) (s : State) : Host.Outcome State Fault Refusal :=
  runWord (.slop h a) s fun c d =>
    if c.onHalves.isEmpty then .done d 1 [] []
    else if d.fencing c.run.ref || d.beforeOpen c.run.ref d.nextOp then .wait 15
    else if c.w.flagsFull (c.flagKeys true c.onHalves) then .wait 15
    else match c.gate d false with
      | .hold d => .suspend d
      | .deliver vals => .done ((c.slopShared (d.passGate c) vals).publish c.run.ref c.w.picks c.run.idx vals) 1 [] []
      | .go =>
        match c.slopHalves a c.onHalves (d.passGate c) [] [] with
        | none => .wait 15
        | some (d, ts, vs) =>
          let d := d.publish c.run.ref c.w.picks c.run.idx vs
          .done (if vs.isEmpty then d else d.passBank c.w) 1 ts []

/-- AUX of a slice-operation park: the unit slot, bit 57 and the offset 64·l (R452). -/
def slopAux (x : Slop) : Nat := x.unit % 16 * 2 ^ 58 + 2 ^ 57 + 64 * x.next

def Dev.putSlop (d : Dev) (x : Slop) : Dev := { d with slops := d.slops.map fun y => if y.id = x.id then x else y }

def Dev.stopSlop (d : Dev) (regs : Regs) (x : Slop) (cause sub va : Nat) : Dev :=
  (d.putSlop { x with parked := true }).parkEng regs x.core x.bolt x.widx cause sub va (slopAux x) none

/-- The place of a line that a slice operation reads or writes: HBM or chip scratch, outside the device region (R452). -/
def slopPlace (p : Where) : Bool := (p.target == 0 || p.target == 3) && p.region != 3

/-- One SAU operation on one line. -/
def Dev.slopOne (d : Dev) (regs : Regs) (x : Slop) : Dev :=
  let dva := x.dst + 64 * x.next
  let sva := x.src + 64 * x.next
  let imm := nbit (x.word 4) 6
  match d.place regs x.core x.space dva .wr with
  | (.hold, _) => d
  | (.fault c, d) => d.stopSlop regs x c 2 dva
  | (.ok p, d) =>
    if !slopPlace p then d.stopSlop regs x causeProt 2 dva
    else if d.poisoned p.pa then d.stopSlop regs x 0x13 1 dva
    else
      let line := lineOf p.pa
      let d := (d.pairDrop x.core line).own (.slop x.id) (.line line) x.next
      if (match d.ownerOf (.line line) with | some o => o.eng != EngId.slop x.id | none => false) then d
      else match d.captureWaits x.bolt dva with
      | some d => d
      | none =>
        let src : Option (Except (Nat × Nat) (List Byte)) × Dev :=
          if imm then (some (.ok []), d)
          else match d.place regs x.core x.space sva .rd with
            | (.hold, d) => (none, d)
            | (.fault c, d) => (some (.error (c, 2)), d)
            | (.ok q, d) =>
              if !slopPlace q then (some (.error (causeProt, 2)), d)
              else if d.poisoned q.pa then (some (.error (0x13, 1)), d)
              else (some (.ok (d.engBytes x.core q 64)), d.engCheck regs x.race x.at_ false q.rt false (lineOf q.pa) sva)
        match src with
        | (none, _) => d
        | (some (.error (c, sub)), d) => d.stopSlop regs x c sub sva
        | (some (Except.ok bs), d) =>
          let ty := x.word 4 / 16 % 4
          let op := x.word 4 % 16
          let d := d.countHints x.bolt (if imm then [dva] else [sva, dva])
          let d := (d.engCheck regs x.race x.at_ false p.rt true line dva).promoteFor line (pairOf x.core)
          let out := (List.range 16).flatMap fun i =>
            let s := if imm then x.word 2 % 2 ^ 32 else leBytes ((bs.drop (4 * i)).take 4)
            natBytes (slopVal ty op (d.homeRd (64 * line + 4 * i) 4) s) 4
          let d := (d.engWrite x.core p out).disownLoc (.slop x.id) (.line line)
          if x.next + 1 < x.lines then d.putSlop { x with next := x.next + 1 }
          else
            let d : Dev := { d with slops := d.slops.filter (·.id != x.id) }
            x.counts.foldl (fun (d : Dev) c => d.countDown regs x.core c.1 c.2.1 c.2.2) (d.disown (.slop x.id))

/-- SLOP_LINE: the next line of the command in a slot of the core's unit. -/
def execSlopLine (core unit : Nat) (s : State) : Host.Outcome State Fault Refusal :=
  match s.dev.slops.find? fun x => x.core == core && x.unit == unit with
  | none => .next s
  | some x => if x.parked then .next s else .next { s with dev := s.dev.slopOne s.regs x }

end Sys2Proof.Machine
end

