-- ==== Sys2Proof/Machine/Supervisor.lean ====
section
/-! DEFINITION. The supervisor's words on the weft of $tgtw: TRET, LXRD, LXWR, PARK, RESUME and SIGNAL (R267, R268, R275, R277, R422,
R423, R463, R464), with TLBINV, TLBSYNC (R293, R294) and TMARK (R462). -/

namespace Sys2Proof.Machine

/-! ### The target -/

/-- The weft named by $tgtw, if its slot holds one. -/
def Ctx.target? (c : Ctx) (d : Dev) : Option (WRef × Weft) :=
  let t := (d.core c.core).tgtw.toNat
  if t / 64 = 0 then none
  else
    let r : WRef := { core := c.core, shuttle := t / 16 % 4, slot := t % 16 }
    (d.weft? r).map fun w => (r, w)

/-- The weft whose registers LXRD and LXWR reach: a handler's own, or the supervisor's target. -/
def Ctx.lxWeft (c : Ctx) (d : Dev) : Option (WRef × Weft) := if c.w.sup then c.target? d else some (c.run.ref, c.w)

/-! ### LXRD and LXWR -/

/-- Whether a register code names v0 to v(min(R + D, 640) − 1) of a weft, or p0 to p6 (R267). -/
def Weft.hasReg (w : Weft) (code : Nat) : Bool :=
  decide (code < min (w.hdr.vregs + w.hdr.depth) 640) || (decide (896 ≤ code) && decide (code ≤ 902))

def Weft.regAt (w : Weft) (code lane : Nat) : Nat :=
  if code < 640 then (w.v lane code).toNat else (w.p lane (code - 896)).toNat

def Weft.setRegAt (w : Weft) (code lane v : Nat) : Weft :=
  if code < 640 then w.setV lane code (BitVec.ofNat 32 v) else w.setP lane (code - 896) (v % 2 == 1)

/-- What one LX word meets before it acts. -/
inductive LxRes where
  | wait
  | bad
  | ok (t : Option (WRef × Weft))

/-- The target of an LX word over its lane operands: a code or a lane that the target lacks, or a pending write of the register. -/
def Ctx.lx (c : Ctx) (d : Dev) (code : Nat) (lanes : List Nat) : LxRes :=
  match c.lxWeft d with
  | none => .ok none
  | some (r, w) =>
    if lanes.isEmpty then .ok (some (r, w))
    else if !w.hasReg code || lanes.any fun l => decide (w.hdr.w ≤ l) then .bad
    else if code < 640 && w.pendingReg (code, 1) then .wait
    else .ok (some (r, w))

/-- Lanes of an executing word whose lane operand or register code its target lacks: all when the code is bad. -/
def Ctx.lxBad (c : Ctx) (d : Dev) (code : Nat) (pairs : List (Nat × Nat)) : List Nat :=
  match c.lxWeft d with
  | none => []
  | some (_, w) => (pairs.filter fun p => !w.hasReg code || decide (w.hdr.w ≤ p.2)).map (·.1)

/-- Lane operands of the executing threads, or of a uniform word once for each half. -/
def Ctx.lxPairs (c : Ctx) (a : Operand) (uniform : Bool) : List (Nat × Nat) :=
  if uniform then c.onHalves.map fun h => (h, c.uget h .i32 a % 64)
  else c.on.map fun l => (l, c.get l .i32 a % 64)

def Ctx.lxLanes (c : Ctx) (bad : List Nat) (uniform : Bool) : List Nat :=
  if uniform then bad.flatMap fun h => lanesOf (c.actOf h) else bad

def execLxrd (h : Hdr) (d a : Operand) (reg : BitVec 10) (s : State) : Host.Outcome State Fault Refusal :=
  runWord (.lxrd h d a reg) s fun c dev =>
    let uni := d.makesUniform
    let pairs := c.lxPairs a uni
    let bad := c.lxBad dev reg.toNat pairs
    let good := pairs.filter fun p => !bad.contains p.1
    match c.lx dev reg.toNat (good.map (·.2)) with
    | .wait => .wait 2
    | .bad => c.trapAll dev 0x01 2 0
    | .ok t =>
      let val (l : Nat) : Nat := match t with | some (_, w) => w.regAt reg.toNat l | none => 0
      let w := good.foldl (fun w p => w.write (if uni then p.1 else c.w.halfOf p.1) (if uni then 0 else p.1) d false .zx32 (val p.2)) c.w
      .done (dev.putW c.run.ref w) (c.cycles uni 16) (trapsAt (c.lxLanes bad uni) 0x01 2 0 .here) []

/-- Whether LXWR of the supervisor takes effect on a lane: parked, held by its handler, stopped by debug, or exited (R423). -/
def Weft.lxOpen (w : Weft) (running : Lanes) (lane : Nat) : Bool :=
  w.stopped || w.parked.getLsbD lane || w.handler.isSome || !(w.alive ||| running).getLsbD lane

def execLxwr (h : Hdr) (a b : Operand) (reg : BitVec 10) (s : State) : Host.Outcome State Fault Refusal :=
  runWord (.lxwr h a b reg) s fun c dev =>
    let pairs := c.lxPairs a false
    let bad := c.lxBad dev reg.toNat pairs
    let good := pairs.filter fun p => !bad.contains p.1
    match c.lx dev reg.toNat (good.map (·.2)) with
    | .wait => .wait 2
    | .bad => c.trapAll dev 0x01 2 0
    | .ok none => .done dev (c.cycles false 16) [] []
    | .ok (some (r, w)) =>
      let open_ (l : Nat) : Bool := !c.w.sup || w.lxOpen (dev.pickLanes r) l
      let w := good.foldl (fun w p => if open_ p.2 then w.setRegAt reg.toNat p.2 (c.get p.1 .i32 b) else w) w
      .done (dev.putW r w) (c.cycles false 16) (trapsAt bad 0x01 2 0 .here) []

/-! ### TRET, PARK, RESUME, SIGNAL -/

/-- A weft word of the supervisor on its target; none resident, it has no effect. -/
def onTarget (i : Instr) (s : State) (f : Ctx → Dev → WRef → Weft → Dev) : Host.Outcome State Fault Refusal :=
  runWord i s fun c d =>
    if c.onHalves.isEmpty then .done d 1 [] []
    else match c.target? d with
      | none => .done d 1 [] []
      | some (r, w) => .done (f c d r w) 1 [] []

/-- A handler's pick in progress is given up. -/
def Dev.dropHandlerRun (d : Dev) (r : WRef) : Dev :=
  match d.runOf? r true with
  | some (k, _) => d.modSh k fun s => { s with run := none }
  | none => d

def execTret (h : Hdr) (s : State) : Host.Outcome State Fault Refusal :=
  onTarget (.tret h) s fun _ d r w => if w.handler.isNone then d else ((d.dropHandlerRun r).putW r w.endHandler.cleanParks).evalWaits r

/-- PARK: a park without a record, reached at the lanes' next pick boundary. -/
def Dev.parkLanes (d : Dev) (r : WRef) (w : Weft) (mask : Lanes) : Dev :=
  let lanes := mask &&& w.full &&& (w.alive ||| d.pickLanes r) &&& ~~~ w.parked
  if lanes = 0 then d
  else
    let n := w.nextPark
    let p : Park := { num := n, posted := false, cause := 0, sub := 0, lanes := lanes, addr := 0, aux := 0, token := none, handle := none }
    let w : Weft := { w with nextPark := n + 1, parks := w.parks ++ [p], divert := w.divert ++ [{ lanes := lanes, num := n }] }
    (d.putW r (if (d.runOf? r true).isSome then w.settle else w.settle.settleHandler)).rouse r

def execPark (h : Hdr) (a : Operand) (s : State) : Host.Outcome State Fault Refusal :=
  onTarget (.park h a) s fun c d r w => d.parkLanes r w (BitVec.ofNat 64 (c.uget 0 .i64 a))

/-- Parked engine work of a weft goes on: commands to ACTIVE at their offset, gathers and scatters at $pidx, slice operations and
collectives where they stood (R237, R270, R335, R447, R452). A command that finds eight ACTIVE waits QUEUED for its turn (DESIGN CHOICE,
notes/assumptions/68.md). -/
def Dev.resumeEngines (d : Dev) (regs : Regs) (r : WRef) (w : Weft) : Dev :=
  let bolt := if w.sup then 0 else w.bolt
  let mine (core b k : Nat) : Bool := b == bolt && k == w.widx && (b != 0 || core == r.core)
  let colls := (d.fabric.colls.filter fun k => k.parked && mine k.core k.bolt k.widx).map fun k => (k.core, k.handle)
  let again (g : Gath) : Gath :=
    let alone := (d.gathers.filter fun x => x.parked && x.half == g.half && mine x.ref.core x.bolt x.widx).length == 1
    { g with parked := false, next := if alone then (Cells.get w.pidx g.half).toNat else g.next }
  -- the resumption takes $pidx, which returns to zero (R84)
  let taken := (d.gathers.filter fun g => g.parked && mine g.ref.core g.bolt g.widx).map (·.half)
  let d := d.modW r fun w => { w with pidx := taken.foldl (fun p h => Cells.set p h 0) w.pidx }
  -- at most eight commands of a core are ACTIVE: one that finds no place waits for its turn (R226)
  let again? (d : Dev) (x : Cmd) : Dev :=
    if x.status = .parked && mine x.core x.bolt x.widx then
      d.putCmd { x with status := if x.started && decide ((d.activeOf x.core).length < 8) then .active else .queued }
    else d
  let d := d.cmds.foldl again? d
  let all := d.fabric.colls.map fun k => if mine k.core k.bolt k.widx then { k with parked := false } else k
  let d : Dev :=
    { d with
      gathers := d.gathers.map fun g =>
        if g.parked && mine g.ref.core g.bolt g.widx then again g else g,
      slops := d.slops.map fun x => if mine x.core x.bolt x.widx then { x with parked := false } else x,
      fabric := { d.fabric with colls := all } }
  colls.foldl (fun d k => d.advanceColl regs k.1 k.2) (d.ownAll regs)

/-- Results of a twin's calls, for the lanes that a RESUME returns; they are whole when no lane of the word is still parked. -/
def Dev.publishCalls (d : Dev) (r : WRef) (w : Weft) (mask : Lanes) : Dev :=
  let lanesOfPark (p : Park) : Lanes :=
    (w.entries.filter fun e => e.state == .park && e.aux == BitVec.ofNat 32 p.num).foldl (fun m e => m ||| e.mask) 0
  let calls := ((w.parks.filterMap (·.res))).eraseDups
  calls.foldl (fun d c =>
    let ps := w.parks.filter fun p => p.res == some c
    let all := ps.foldl (fun m p => m ||| lanesOfPark p) 0
    let back := all &&& mask
    if back = 0 then d
    else d.publishPart r c.1 c.2 ((lanesOf back).map fun l => (l, (w.v l 0).toNat)) (decide (all &&& ~~~ mask = 0))) d

/-- A call whose threads have all returned waits for no answer (R305). -/
def Dev.dropCalls (d : Dev) : Dev :=
  let live := d.host.calls.filter fun k =>
    match d.weft? k.ref with
    | some w => w.parks.any fun p => p.token == some k.token
    | none => false
  { d with host := { d.host with calls := live } }

/-- RESUME: the weft's engine work first, then its lanes. -/
def Dev.resumeWeft (d : Dev) (regs : Regs) (r : WRef) (w : Weft) (mask : Lanes) : Dev :=
  let m := mask &&& w.full
  let d := (d.resumeEngines regs r w).publishCalls r w m
  (d.modW r fun w => w.resumeLanes m).dropCalls

def execResume (h : Hdr) (a : Operand) (s : State) : Host.Outcome State Fault Refusal :=
  onTarget (.resume h a) s fun c d r w => d.resumeWeft c.regs r w (BitVec.ofNat 64 (c.uget 0 .i64 a))

/-- SIGNAL: each lane holds one pending number; a pending 0 is never replaced (R277). -/
def Weft.signalLanes (w : Weft) (n : BitVec 8) (mask : Lanes) : Weft :=
  { w with signals := (lanesOf mask).foldl (fun t l => if Tab.find? t l = some 0 then t else Tab.put t l n) w.signals }

def execSignal (h : Hdr) (a b : Operand) (s : State) : Host.Outcome State Fault Refusal :=
  onTarget (.signal h a b) s fun c d r w =>
    d.putW r (w.signalLanes (BitVec.ofNat 8 (c.uget 0 .i32 a)) (BitVec.ofNat 64 (c.uget 0 .i64 b) &&& w.full &&& (w.alive ||| d.pickLanes r)))

/-! ### TLBINV and TLBSYNC -/

/-- The release of TLBINV at .dev, then the invalidation, which stays open until the accesses under it are performed. -/
def Dev.startInv (d : Dev) (ref : Option WRef) (scope : InvScope) (va asid : Nat) (reply : Option (Nat × DWord)) : Dev :=
  let v : Inv := { id := d.nextOp, ref := ref, scope := scope, va := BitVec.ofNat 57 va, asid := BitVec.ofNat 16 asid, reply := reply }
  let d : Dev := { d with nextOp := d.nextOp + 1 }
  (d.modMem fun m => { m with invs := m.invs ++ [v] }).invalidate v

/-- One TLBINV of the supervisor weft, once its earlier accesses have been performed. -/
def tlbWord (i : Instr) (s : State) (scope : InvScope) (a b : Operand) : Host.Outcome State Fault Refusal :=
  runWord i s fun c d =>
    if c.onHalves.isEmpty then .done d 1 [] []
    else if d.weftBusy c.run.ref then .wait 2
    else .done ((d.launchRelease c).startInv (some c.run.ref) scope (c.uget 0 .i64 a) (c.uget 0 .i32 b) none) 1 [] []

def execTlbinvPage (h : Hdr) (a b : Operand) (s : State) : Host.Outcome State Fault Refusal :=
  tlbWord (.tlbinvPage h a b) s .page a b

def execTlbinvAsid (h : Hdr) (a b : Operand) (s : State) : Host.Outcome State Fault Refusal :=
  tlbWord (.tlbinvAsid h a b) s .asid a b

def execTlbinvAll (h : Hdr) (a b : Operand) (s : State) : Host.Outcome State Fault Refusal :=
  tlbWord (.tlbinvAll h a b) s .all a b

/-- TLBSYNC waits for the weft's earlier TLBINV. -/
def execTlbsync (h : Hdr) (s : State) : Host.Outcome State Fault Refusal :=
  runWord (.tlbsync h) s fun c d =>
    if c.onHalves.isEmpty then .done d 1 [] []
    else if d.mem.invs.any fun v => v.ref == some c.run.ref then .wait 15
    else .done d 1 [] []

/-- Whether an access translated before an invalidation, through an entry it covers, is still to be performed; an invalidation by page
waits for every such access of its address space. -/
def Dev.invWaits (d : Dev) (v : Inv) : Bool :=
  d.ops.any fun o => decide (o.id < v.id) && (o.space == .generic || o.space == .const) && o.open_ &&
    (v.scope == .all || match d.weft? o.ref with | some w => w.asid == v.asid | none => false)

/-- What the host interface held goes on in the order in which it arrived (R303, R317). -/
def State.releaseHeld (s : State) : State :=
  { s with agenda := s.dev.host.held.map Move.event ++ s.agenda, dev := { s.dev with host := { s.dev.host with held := [] } } }

/-- The held writes of twin copies that an invalidation covers go on under a translation made afresh (R294, R346). No rule says what becomes
of one whose page is no longer mapped; the model drops it (DESIGN CHOICE, notes/assumptions/68.md). -/
def Dev.reheld (d : Dev) (regs : Regs) (v : Inv) : Dev :=
  d.bolts.foldl (fun d b =>
    match (d.launchOf? b.id) with
    | none => d
    | some l =>
      if b.held.isEmpty || !(v.scope == .all || l.asid == v.asid) then d
      else
        let r := b.held.foldl (fun (r : List Held × Dev) h =>
          match r.2.place regs b.core l.space h.va.toNat .wr with
          | (.ok p, d) => (r.1 ++ [{ h with pa := p.pa, region := p.region }], d)
          | (.fault _, d) => (r.1, d)
          | (.hold, d) => (r.1 ++ [h], d)) ([], d)
        r.2.modBolt b.id fun b => { b with held := r.1 }) d

/-- TLBINV_COMPLETE: what the accesses in flight brought back under a covered translation goes too; a host's request is answered. -/
def execTlbinvComplete (id : Nat) (s : State) : Host.Outcome State Fault Refusal :=
  match s.dev.mem.invs.find? (·.id == id) with
  | none => .next s
  | some v =>
    if s.dev.invWaits v then .next s
    else
      let d := ((s.dev.invalidate v).reheld s.regs v).modMem fun m => { m with invs := m.invs.filter (·.id != id) }
      let d : Dev := match v.reply with
        | some (fn, tag) => { d with host := { d.host with out := d.host.out ++ [HostMsg.response fn tag 0 []] } }
        | none => d
      let s : State := { s with dev := d }
      .next (if v.reply.isSome && !s.sec.switching then s.releaseHeld else s)

/-! ### TMARK -/

/-- TMARK: its trace record and conditions are those of the cycle it issues in (R358, R359). -/
def execTmark (h : Hdr) (a : Operand) (s : State) : Host.Outcome State Fault Refusal :=
  runWord (.tmark h a) s fun _ d => .done d 1 [] []

end Sys2Proof.Machine
end

