-- ==== Sys2Proof/Machine/Picks.lean ====
section
/-! DEFINITION. The steps that bring picks to issue and take wefts in and out of it: arbitration (R50 to R57), the fetch of picks (R55,
R125), table walks (R264, R290), the energy gate (R36), WAITL deadlines (R64), the delivery of user traps and signals (R265, R277), the
supervisor weft (R272, R273), and the finish of a weft (R38, R39, R250). -/

namespace Sys2Proof.Machine

/-! ### Kernels and fresh wefts (R25, R85 to R88) -/

/-- The kernel header as words 0 to 2 give it; the native width is 32 in compatibility mode (R26). -/
def KHdr.ofWords (w0 w1 w2 : DWord) : KHdr :=
  let a := w0.toNat
  let b := w1.toNat
  let c16 := nbit a 41
  { w := if c16 then 32 else 16 * 2 ^ nfld a 42 2, c16 := c16, race := BitVec.ofNat 2 (nfld a 39 2), twin := nbit a 38, bank := nbit a 37,
    eclass := nfld a 34 3, depth := nfld a 29 5, vregs := nfld a 19 10, sregs := (if nbit a 3 then 128 else 0) + nfld a 12 7,
    acc := nfld a 4 8, scratch := 64 * nfld b 44 20, threads := nfld b 32 12, entry := BitVec.ofNat 32 b, ewrap := nbit w2.toNat 32,
    handler := w2.truncate 32, w0 := w0, w1 := w1, w2 := w2 }

/-- A weft at its start: `lanes` live at the kernel's entry, every register zero, every tile valid. -/
def Weft.start (hdr : KHdr) (kbase args : BitVec 57) (ctx asid : BitVec 16) (crec : List DWord) (lanes : Lanes) : Weft :=
  { serial := 0, crec := crec, bolt := 0, widx := 0, hdr := hdr, ctx := ctx, asid := asid, kbase := kbase, args := args, sup := false,
    entries := insertEntry [] { depth := 0, pc := hdr.entry, resume := 0, mask := lanes, state := .run, aux := 0 },
    waits := [], parks := [], divert := [], nextWait := 0, nextPark := 0, vregs := [], preds := [], sregs := [],
    qs := [], flags := [], tiles := [], waitPd := [], badTiles := [], badWords := [], skip := 0, signals := [], fpst := [],
    pidx := [], pidxPend := [], trapcause := 0, trappc := 0, trapmask := 0, trapaddr := 0, handler := none, trapPend := [],
    ending := none, sb := [], fetch := none, walks := [], starve := 0, skips := [], serve := none, prio := 0, age := 0, rclk := 0,
    frontier := [], hbsat := false, mirror := [], bars := [], twinAt := none, relPend := [], lastRead := [], scratch := [],
    picks := 0, gated := false, stopped := false }

/-! ### PICK_ISSUE -/

/-- The threads of the weft's head leave their entry for a pick on shuttle `k`; a handler keeps its entry while it runs (R265). -/
def Dev.beginPick (d : Dev) (k : Nat) (ref : WRef) (w : Weft) : Dev :=
  match w.headNow, w.fetch with
  | some e, some f =>
    let run : PickRun :=
      { ref := ref, pc := e.pc, depth := e.depth, header := f.header, words := f.words, idx := e.resume, start := e.resume,
        act0 := e.mask, act := e.mask, handler := w.handler.isSome, dests := [], traps := [] }
    let w : Weft := if w.handler.isSome then w else { w.unyieldIfNone with entries := pullLanes w.unyieldIfNone.entries e.mask }
    (d.putW ref { w with starve := 0 }).modSh k fun s => { s with run := some run }
  | _, _ => d

/-- The winner among the eligible user wefts (R56). -/
def pickWinner (ws : List (WRef × Weft)) : Option (WRef × Weft) :=
  match oldestOf (ws.filter fun p => decide (256 ≤ p.2.starve)) with
  | some p => some p
  | none =>
    let best := ws.foldl (fun m p => min m p.2.prio) 24
    oldestOf (ws.filter fun p => p.2.prio == best)

/-- Each eligible weft that loses counts it (R57). -/
def Dev.starveAll (d : Dev) (losers : List WRef) : Dev :=
  losers.foldl (fun d r => d.modW r fun w => { w with starve := w.starve + 1 }) d

/-- An arbitration of a shuttle that has no pick in progress: the supervisor weft first, else the winner of R56, else an idle cycle
charged to the oldest resident weft. -/
def execPickIssue (sh : Nat) (s : State) : Host.Outcome State Fault Refusal :=
  let d := s.dev
  if 4 * coreCount ≤ sh || (d.sh sh).run.isSome then .next s
  else
    let able := (d.residents sh).filter fun p => d.eligible p.1 p.2
    let sup := supRef (sh / 4)
    let first := match d.weft? sup with
      | some w => if d.eligible sup w then some (sup, w) else pickWinner able
      | none => pickWinner able
    match first with
    | some (r, w) => .next { s with dev := (d.starveAll ((able.map (·.1)).filter (· != r))).beginPick sh r w }
    | none =>
      let reason := match oldestOf (d.residents sh) with
        | some (r, w) => d.stallReason r w
        | none => 0
      .next { s with dev := d.waitCycle sh reason }

/-! ### PICK_FETCH -/

/-- What the fetch of a pick gives. -/
inductive FetchRes where
  | ok (f : Fetched)
  | trap (cause sub addr : Nat)
  | hold

/-- One code word; the words of Hareel's own kernel lie outside the memory (R271). -/
def Dev.codeWord (d : Dev) (regs : Regs) (core : Nat) (w : Weft) (off : Nat) : Except (Option (Nat × Nat × Nat)) DWord × Dev :=
  match w.image with
  | some g => (.ok (Config.hareelWord g (off / 8)), d)
  | none =>
    let va := (w.kbase.toNat + off) % 2 ^ 57
    match d.place regs core w.space va .ex with
    | (.ok p, d) => if d.poisoned p.pa then (.error (some (0x13, 1, va)), d) else (.ok (BitVec.ofNat 64 (d.homeRd p.pa 8)), d)
    | (.fault c, d) => (.error (some (c, 3, va)), d)
    | (.hold, d) => (.error none, d)

def Dev.codeWords (d : Dev) (regs : Regs) (core : Nat) (w : Weft) (off : Nat) :
    Nat → Except (Option (Nat × Nat × Nat)) (List DWord) × Dev
  | 0 => (.ok [], d)
  | n + 1 =>
    match d.codeWord regs core w off with
    | (.error e, d) => (.error e, d)
    | (.ok x, d) =>
      match d.codeWords regs core w (off + 8) n with
      | (.ok xs, d) => (.ok (x :: xs), d)
      | (.error e, d) => (.error e, d)

/-- The pick whose header stands at `pc`. -/
def Dev.fetchAt (d : Dev) (regs : Regs) (core : Nat) (w : Weft) (pc : BitVec 32) : FetchRes × Dev :=
  if pc.toNat % 8 ≠ 0 || pc.toNat < 0x20 then (.trap 0x01 5 0, d)
  else match d.codeWord regs core w pc.toNat with
    | (.error (some (c, sub, va)), d) => (.trap c sub va, d)
    | (.error none, d) => (.hold, d)
    | (.ok h, d) =>
      match pickHdrOf h with
      | .error e => (.trap 0x01 e 0, d)
      | .ok p =>
        match d.codeWords regs core w (pc.toNat + 8) (p.len + 1) with
        | (.error (some (c, sub, va)), d) => (.trap c sub va, d)
        | (.error none, d) => (.hold, d)
        | (.ok ws, d) => (.ok { pc := pc, header := h, words := ws }, d)

/-- The threads of a head whose pick cannot be fetched trap at its header. -/
def Dev.fetchTrap (d : Dev) (regs : Regs) (ref : WRef) (w : Weft) (e : Entry) (cause sub addr : Nat) : Dev :=
  let site : Site := { ref := ref, pc := e.pc, depth := e.depth, words := [], idx := e.resume, head := 0, len := 0, handler := w.handler.isSome }
  let w' : Weft := if w.handler.isSome then w else { w.unyieldIfNone with entries := pullLanes w.unyieldIfNone.entries e.mask }
  let d := (d.putW ref w').trace regs (ref.core * 4 + ref.shuttle) w { pick := none, tag := none, trap := some (cause, e.pc) }
  (d.takeTraps regs site (d.clockOf ref) (trapsAt (lanesOf e.mask) cause sub addr .here)).1.rouse ref

/-- PICK_FETCH: the head pick of a weft that has none fetched; a weft whose last pick has not ended ends it first, if it can (R54). -/
def execPickFetch (ref : WRef) (s : State) : Host.Outcome State Fault Refusal :=
  let d := s.dev
  match d.weft? ref with
  | none => .next s
  | some w =>
    if w.ending.isSome then .next { s with dev := d.tryEnding s.regs ref }
    else if d.isRunning ref || (!w.trapPend.isEmpty && w.trapFor == 0) || w.stopped then .next s
    else match w.headNow with
      | none => .next s
      | some e =>
        if (match w.fetch with | some f => f.pc == e.pc | none => false) then .next s
        else match d.fetchAt s.regs ref.core w e.pc with
          | (.ok f, d) => .next { s with dev := d.modW ref fun w => { w with fetch := some f } }
          | (.trap c sub va, d) => .next { s with dev := d.fetchTrap s.regs ref w e c sub va }
          | (.hold, _) => .next s

/-! ### TABLE_WALK_COMPLETE -/

/-- The walk of one translation that a weft waits for; `cached` says whether it starts from a cached walk entry. It waits while the leaf
is frozen by a migration (R298). -/
def execTableWalkComplete (ref : WRef) (va : BitVec 57) (cached : Bool) (s : State) : Host.Outcome State Fault Refusal :=
  let d := s.dev
  match d.weft? ref with
  | none => .next s
  | some w =>
    match w.walks.find? fun k => !k.done && k.va == va with
    | none => .next s
    | some k =>
      let close (d : Dev) (cause : Nat) : Dev := d.modW ref fun w =>
        { w with walks := w.walks.map fun x => if x = k then { x with done := true, cause := BitVec.ofNat 16 cause } else x }
      match d.walkFill s.regs ref.core w.space va.toNat (if k.write then .wr else .rd) cached with
      | (.ok _ _ _ _, d) => .next { s with dev := (close d 0).ownAll s.regs }
      | (.fault c, d) => .next { s with dev := close d c }
      | (.hold, _) => .next s

/-! ### ENERGY_GATE_ROTATION (R36) -/

def insertByAge (p : WRef × Weft) : List (WRef × Weft) → List (WRef × Weft)
  | [] => [p]
  | q :: qs => if p.2.older q.2 then p :: q :: qs else q :: insertByAge p qs

/-- The wefts of a core in age order, beginning after the one added last to the previous set. -/
def Dev.gateRing (d : Dev) (core : Nat) : List (WRef × Weft) :=
  let ring := (d.coreWefts core).foldl (fun l p => insertByAge p l) []
  match (d.core core).gateLast with
  | none => ring
  | some (age, widx, bolt) =>
    let past (p : WRef × Weft) : Bool := decide (age < p.2.age) ||
      (p.2.age == age && (decide (widx < p.2.widx) || (p.2.widx == widx && decide (bolt < p.2.bolt))))
    ring.filter past ++ ring.filter fun p => !past p

/-- One set: each weft in turn that fits the budget still unused. -/
def gateSet (budget : Nat) : Nat → List (WRef × Weft) → List (WRef × Weft)
  | _, [] => []
  | used, p :: ps =>
    if used + p.2.weight ≤ budget then p :: gateSet budget (used + p.2.weight) ps else gateSet budget used ps

/-- Chooses the set of a core that the gate admits. -/
def Dev.chooseGate (d : Dev) (core : Nat) : Dev :=
  let set := gateSet d.disp.budget 0 (d.gateRing core)
  let d := (d.coreWefts core).foldl (fun d p => d.putW p.1 { p.2 with gated := !set.any fun q => q.1 == p.1 }) d
  match set.getLast? with
  | some p => d.modCore core fun c => { c with gateLast := some (p.2.age, p.2.widx, p.2.bolt) }
  | none => d

/-- ENERGY_GATE_ROTATION: the set of a gated core is chosen afresh, as it is every 1,024 cycles. -/
def execEnergyGateRotation (core : Nat) (s : State) : Host.Outcome State Fault Refusal :=
  .next (if s.dev.gateOn core then { s with dev := s.dev.chooseGate core } else s)

/-! ### WAITL_TIMEOUT -/

/-- Waiters whose deadline has run down are released, unless they have arrived together (R64, R65). -/
def execWaitlTimeout (ref : WRef) (s : State) : Host.Outcome State Fault Refusal :=
  match s.dev.weft? ref with
  | none => .next s
  | some w => .next (if w.stopped then s else { s with dev := s.dev.putW ref (w.evalWaitl (s.dev.runningLanes ref) true) })

/-! ### USER_TRAP_DELIVERY and SIGNAL_DELIVERY -/

/-- User traps with no handler to take them park like others, one record for each cause, subcode and restart point. -/
def Dev.parkPending (d : Dev) (regs : Regs) (ref : WRef) (ts : List LaneTrap) : Dev :=
  let key (t : LaneTrap) := (t.cause, t.sub, t.back.pc, t.back.resume, t.back.depth)
  let d := d.modW ref fun w => { w with trapPend := [] }
  ((ts.map key).eraseDups).foldl (fun d k =>
    let mine := ts.filter fun t => key t == k
    match mine with
    | t :: _ =>
      let aux := if t.cause = 0x1B then t.sub.toNat else 0
      d.parkWith regs ref false t.back (maskOf (mine.map (·.lane))) t.cause.toNat t.sub.toNat t.addr.toNat aux (d.clockOf ref)
    | [] => d) d

/-- USER_TRAP_DELIVERY, once the pick has ended for every thread that did not trap; a stopped weft waits (R265, R282). -/
def execUserTrapDelivery (ref : WRef) (s : State) : Host.Outcome State Fault Refusal :=
  let d := s.dev
  match d.weft? ref with
  | none => .next s
  | some w =>
    if w.trapPend.isEmpty || w.trapFor != 0 || w.stopped || w.handler.isSome || d.isRunning ref || w.ending.isSome || d.openChecks ref w || d.boltHolds w then .next s
    else if w.hdr.handler = 0 then .next { s with dev := d.parkPending s.regs ref w.trapPend }
    else .next { s with dev := d.putW ref w.deliver }

/-- SIGNAL_DELIVERY: signal 0 ends its lanes; else the signalled lanes of the lowest such lane's entry trap with that lane's number. -/
def execSignalDelivery (ref : WRef) (s : State) : Host.Outcome State Fault Refusal :=
  let d := s.dev
  match d.weft? ref with
  | none => .next s
  | some w =>
    let due := w.signalDue
    if due = 0 || d.isRunning ref || w.ending.isSome || !w.trapPend.isEmpty || w.stopped then .next s
    else
      let num (l : Nat) : BitVec 8 := Tab.getD 0 w.signals l
      let gone := maskOf ((lanesOf due).filter fun l => num l == 0)
      if gone ≠ 0 then .next { s with dev := ((d.putW ref (w.exitLanes gone)).barsAfterExit ref).evalWaits ref }
      else
        let n := num (lowLane due)
        match w.entries.find? fun e => (e.state == .run || e.state == .yld) && e.mask.getLsbD (lowLane due) with
        | none => .next s
        | some e =>
          let ls := (lanesOf (e.mask &&& due)).filter fun l => num l == n
          let m := maskOf ls
          let ts : List LaneTrap := ls.map fun l =>
            let b : Restart := { lane := l, depth := e.depth, pc := e.pc, resume := e.resume }
            { lane := l, cause := 0x1B, sub := n.zeroExtend 16, addr := 0, word := e.pc, back := b, here := b }
          let w : Weft := { w with signals := w.signals.filter (fun p => !m.getLsbD p.1), entries := pullLanes w.entries m, sigNow := w.sigNow &&& ~~~ m }
          if w.hdr.handler = 0 then .next { s with dev := ((d.putW ref w).parkPending s.regs ref ts).rouse ref }
          else .next { s with dev := (d.putW ref { w with trapPend := ts }).rouse ref }

/-! ### The supervisor weft (R272, R273) -/

def execReplayOverflowDrain (core : Nat) (s : State) : Host.Outcome State Fault Refusal :=
  .next (if core < coreCount then { s with dev := s.dev.drain s.regs core } else s)

/-- Starts the supervisor weft of a core: 16 threads at its kernel's ENTRY in ASID 0; a kernel whose header cannot be read freezes it. -/
def Dev.startSup (d : Dev) (regs : Regs) (core : Nat) : Dev :=
  let base := regs.sventry.toNat % 2 ^ 57
  let shape (h : KHdr) : KHdr := { h with w := 16, c16 := false, race := 0, twin := false, bank := false, handler := 0 }
  let crec : List DWord := [0, BitVec.ofNat 64 (d.root 0 * 4096)]
  let weft (h : KHdr) : Weft := { Weft.start (shape h) (BitVec.ofNat 57 base) 0 0 0 crec 0xFFFF with sup := true }
  if base = 0 then
    let g := d.host.image
    d.putW (supRef core)
      { weft (KHdr.ofWords (Config.hareelWord g 0) (Config.hareelWord g 1) (Config.hareelWord g 2)) with image := some g }
  else match d.readWords regs core d.space0 false base 3 with
    | (.ok [w0, w1, w2], d) => d.putW (supRef core) (weft (KHdr.ofWords w0 w1 w2))
    | (.error (0, _, _), d) => d
    | (_, d) =>
      ((d.putW (supRef core) { weft KHdr.none with stopped := true }).modCore core fun c => { c with frozen := true }).event 1 core 0

/-- SUPERVISOR_WEFT_START: the ring holds a record at or beyond CONS and the weft is not running. -/
def execSupervisorWeftStart (core : Nat) (s : State) : Host.Outcome State Fault Refusal :=
  let d := s.dev
  if coreCount ≤ core || (d.weft? (supRef core)).isSome || (d.core core).frozen then .next s
  else match d.readVa s.regs core d.space0 (s.regs.area core + 8) 8 false with
    | (.ok cons, d) =>
      if cons < (d.core core).nextSeq then .next { s with dev := d.startSup s.regs core } else .next s
    | _ => .next s

/-! ### WEFT_FINISH -/

/-- Whether everything a weft issued is complete and its threads have ended (R38). -/
def Dev.finishes (d : Dev) (ref : WRef) (w : Weft) : Bool :=
  let bolt := if w.sup then 0 else w.bolt
  let mine (core b k : Nat) : Bool := b == bolt && k == w.widx && (b != 0 || core == ref.core)
  w.alive == 0 && !d.isRunning ref && w.ending.isNone && w.handler.isNone && w.flags.isEmpty && w.sb.isEmpty && !d.weftBusy ref &&
    !(d.cmds.any fun x => mine x.core x.bolt x.widx && !x.status.final) &&
    !(d.gathers.any fun g => mine g.ref.core g.bolt g.widx) &&
    !(d.slops.any fun x => mine x.core x.bolt x.widx || x.counts.any fun c => mine x.core c.1 c.2.1) &&
    !(d.fabric.colls.any fun k => mine k.core k.bolt k.widx || k.counts.any fun c => mine k.core c.1 c.2.1)

/-- A retired bolt leaves the device with its scratch (R39); after the last of its launch the launch completes (R250). -/
def Dev.retireBolt (d : Dev) (regs : Regs) (b : Bolt) : Dev :=
  let d : Dev := { d with bolts := d.bolts.filter (·.id != b.id) }
  let d := d.dropBolts [b.id]
  match d.disp.launches.find? (·.serial == b.serial) with
  | none => d
  | some l =>
    let l : Launch := { l with retired := l.retired + 1 }
    let d : Dev := { d with disp := { d.disp with launches := d.disp.launches.map fun x => if x.serial = l.serial then l else x } }
    if l.retired = l.total then d.completeLaunch regs l else d

/-- WEFT_FINISH: the release at .sys, the weft's place, and the retirement of its bolt. A twin copy waits, finished, for its interval to
settle (R45, R344). -/
def execWeftFinish (ref : WRef) (s : State) : Host.Outcome State Fault Refusal :=
  let d := s.dev
  match d.weft? ref with
  | none => .next s
  | some w =>
    if !d.finishes ref w then .next s
    else
      let d := (d.release ref.core .sys).passBank w
      let d := d.dropW ref
      if w.sup then .next { s with dev := d }
      else match d.bolt? w.bolt with
        | none => .next { s with dev := d }
        | some b =>
          let b : Bolt := { b with left := b.left - 1, atEnd := b.atEnd || b.left ≤ 1 }
          let d := d.modBolt b.id fun _ => b
          if b.left ≠ 0 || (d.twinOf b).isSome then .next { s with dev := d }
          else .next { s with dev := d.retireBolt s.regs b }

end Sys2Proof.Machine
end

