-- ==== Sys2Proof/Machine/Launch.lean ====
section
/-! DEFINITION. From record to dispatch (R245 to R251, R26 to R31, R33 to R35, R205, R310): the launch chain, the steps of acceptance, the
tests of R29 with the admission of bolts to cores and pairs, and the wait of a launch on its counter. -/

namespace Sys2Proof.Machine

/-! ### What the host may do (R302, R313, R317) -/

/-- Whether a function's queues operate: its driver has been accepted, and a VF bound as a TDI is in RUN. -/
def State.fnOn (s : State) (fn : Nat) : Bool :=
  Tab.getD false s.dev.host.features fn && s.dev.fnLive fn

/-- A chain or command of a function; one that arrives while firmware switches is held and served afterwards. -/
def hostMove (i : Instr) (fn : Nat) (s : State) (f : State → State) : Host.Outcome State Fault Refusal :=
  if !s.fnOn fn then .next s
  else if s.sec.switching then .next { s with dev := { s.dev with host := { s.dev.host with held := s.dev.host.held ++ [i] } } }
  else .next (f s)

def Dev.say (d : Dev) (m : HostMsg) : Dev := { d with host := { d.host with out := d.host.out ++ [m] } }

/-! ### Admission (R30 to R36) -/

/-- Vector registers that a weft is charged, and its tiles. -/
def KHdr.regCharge (h : KHdr) : Nat := h.w * (8 * ((h.vregs + h.depth + 7) / 8))
def KHdr.tileCharge (h : KHdr) : Nat := if h.c16 then 2 * h.acc else h.acc
def KHdr.weight (h : KHdr) : Nat := [1, 2, 3, 4, 6, 8, 12, 16].getD h.eclass 16
def KHdr.spans (h : KHdr) : Bool := decide (1024 < h.threads)

/-- KiB of scratch that a bolt takes on each core it occupies. -/
def KHdr.scratchKiB (h : KHdr) : Nat := ((if h.spans then h.scratch / 2 else h.scratch) + 1023) / 1024

/-- What a core carries: the start pointer, registers, tiles and slots of each shuttle, shuttles closed to placement, scratch in KiB,
energy weight, and whether it admits bolts at all. -/
structure Load where
  sp : Nat
  regs : List Nat
  tiles : List Nat
  slots : List Nat
  closed : List Bool
  scratch : Nat
  weight : Nat
  able : Bool
  deriving Repr

/-- A core's share of a bolt: its start shuttle and the wefts [first, first + count). -/
structure Part where
  core : Nat
  s0 : Nat
  first : Nat
  count : Nat
  deriving DecidableEq, Repr

/-- A place for a bolt. -/
structure Spot where
  pair : Nat
  parts : List Part
  deriving DecidableEq, Repr

/-- Wefts of a share of `k` on shuttle `j` under start shuttle `s0` (R31). -/
def shareOn (s0 k j : Nat) : Nat := (k + 3 - (j + 4 - s0) % 4) / 4

def Load.add (l : Load) (h : KHdr) (p : Part) : Load :=
  let n (j : Nat) : Nat := shareOn p.s0 p.count j
  { l with
    sp := (p.s0 + p.count) % 4,
    regs := (List.range 4).map fun j => l.regs.getD j 0 + n j * h.regCharge,
    tiles := (List.range 4).map fun j => l.tiles.getD j 0 + n j * h.tileCharge,
    slots := (List.range 4).map fun j => l.slots.getD j 0 + n j,
    scratch := l.scratch + h.scratchKiB,
    weight := l.weight + p.count * h.weight }

/-- Whether a core's load is within every limit (R33, R35). -/
def Load.fits (l : Load) (budget : Nat) : Bool :=
  l.regs.all (decide <| · ≤ 32768) && l.tiles.all (decide <| · ≤ 128) && l.slots.all (decide <| · ≤ 16) && decide (l.scratch ≤ 512) &&
    decide (l.weight ≤ budget)

/-- The first start shuttle under which a core takes its share. -/
def Load.takes (l : Load) (h : KHdr) (budget core first count : Nat) : Option Part :=
  if !l.able then none
  else
    ((List.range 4).map fun i => ({ core := core, s0 := (l.sp + i) % 4, first := first, count := count } : Part)).find? fun p =>
      ((List.range 4).all fun j => shareOn p.s0 count j == 0 || !l.closed.getD j false) && (l.add h p).fits budget

/-- A pair's place for a bolt: its even core, else its odd core, or both for a bolt that spans (R30). -/
def admitPair (load : Nat → Load) (h : KHdr) (budget pair : Nat) (free : Part → Bool) : Option Spot :=
  let n := h.nwefts
  if h.spans then
    let m := (n + 1) / 2
    match (load (2 * pair)).takes h budget (2 * pair) 0 m, (load (2 * pair + 1)).takes h budget (2 * pair + 1) m (n - m) with
    | some a, some b => if free a && free b then some { pair := pair, parts := [a, b] } else none
    | _, _ => none
  else
    [2 * pair, 2 * pair + 1].findSome? fun c =>
      match (load c).takes h budget c 0 n with
      | some p => if free p then some { pair := pair, parts := [p] } else none
      | none => none

/-- An empty core. -/
def Load.empty (sp : Nat) : Load :=
  { sp := sp, regs := [0, 0, 0, 0], tiles := [0, 0, 0, 0], slots := [0, 0, 0, 0], closed := [], scratch := 0, weight := 0, able := true }

/-- Loads of the cores with the shares of some spots added. -/
def withSpots (base : Nat → Load) (spots : List (KHdr × Spot)) (core : Nat) : Load :=
  spots.foldl (fun l s => s.2.parts.foldl (fun l p => if p.core = core then l.add s.1 p else l) l) (base core)

/-- Pairs that the logical core map exposes, from the one after `last` (R30). -/
def pairsFrom (removed : List Nat) (last : Nat) : List Nat :=
  ((List.range 512).map fun i => (last + 1 + i) % 512).filter fun p => !removed.contains p

/-! ### The tests of R29 -/

def Launch.word (l : Launch) (i : Nat) : Nat := (l.record.getD i 0).toNat
def Launch.cor (l : Launch) : Bool := nbit (l.word 10) 0
def Launch.twin (l : Launch) : Bool := nbit (l.word 10) 2 || l.hdr.twin
def Launch.gx (l : Launch) : Nat := l.word 1 % 2 ^ 32
def Launch.gy (l : Launch) : Nat := l.word 1 / 2 ^ 32
def Launch.gz (l : Launch) : Nat := l.word 2 % 2 ^ 32

/-- BADHDR. -/
def badHdr (w0 w1 w2 w3 : DWord) : Bool :=
  let a := w0.toNat
  let rev := nfld a 44 4
  let width := nfld a 42 2
  let h := KHdr.ofWords w0 w1 w2
  nfld a 48 16 != 0x7A3B || !(rev == 1 || rev == 2) || width == 3 || (rev == 1 && width != 0) || (nbit a 41 && rev == 2) ||
    nfld a 39 2 == 3 || h.vregs == 0 || decide (640 < h.vregs) || decide (128 < h.sregs) || decide (128 < h.acc) || decide (31 < h.depth) ||
    h.threads == 0 || decide (2048 < h.threads) ||
    (if h.spans then h.scratch % 128 != 0 || decide (512 * 1024 < h.scratch / 2) else decide (512 * 1024 < h.scratch)) ||
    a % 8 != 0 || w2.toNat / 2 ^ 33 != 0 || w3 != 0

/-- BADSHAPE. -/
def Launch.badShape (l : Launch) : Bool :=
  let big (n : Nat) : Bool := n == 0 || decide (2 ^ 24 < n)
  big l.gx || big l.gy || big l.gz || decide (2 ^ 40 < l.gx * l.gy * l.gz) || nfld (l.word 2) 32 12 != l.hdr.threads

/-- NOFIT: no empty core, or pair, takes one bolt with 128 units. -/
def KHdr.noFit (h : KHdr) : Bool := (admitPair (fun _ => Load.empty 0) h 128 0 fun _ => true).isNone

/-- Places of `n` copies on pairs that hold none of the others. -/
def trialCopies (base : Nat → Load) (h : KHdr) (budget : Nat) (pairs : List Nat) :
    Nat → List (KHdr × Spot) → List Nat → Option (List (KHdr × Spot))
  | 0, spots, _ => some spots
  | n + 1, spots, used =>
    match pairs.findSome? fun p => if used.contains p then none else admitPair (withSpots base spots) h budget p fun _ => true with
    | none => none
    | some s => trialCopies base h budget pairs n (spots ++ [(h, s)]) (s.pair :: used)

/-- Whether a grid of `n` bolts fits empty pairs at once; no device holds more than 65,536 wefts. -/
def gridFits (base : Nat → Load) (h : KHdr) (budget copies : Nat) (removed : List Nat) :
    Nat → Nat → List (KHdr × Spot) → Bool
  | 0, _, _ => true
  | n + 1, last, spots =>
    match trialCopies base h budget (pairsFrom removed last) copies spots [] with
    | none => false
    | some spots => gridFits base h budget copies removed n ((spots.getLast?.map (·.2.pair)).getD last) spots

/-- COFIT. -/
def Dev.coFit (d : Dev) (l : Launch) : Bool :=
  let n := l.gx * l.gy * l.gz
  if !l.cor then false
  else if 65536 < n then true
  else !gridFits (fun c => Load.empty (d.core c).sp.toNat) l.hdr d.disp.budget (if l.twin then 2 else 1) d.disp.removed n d.disp.lastPair []

/-! ### Kernel tags (R205) -/

/-- The first free tag after the one given last. -/
def Tags.next (t : Tags) : Option Nat :=
  ((List.range 255).map fun i => (t.last + i) % 255 + 1).find? fun k => !(t.live.contains k || t.retiring.contains k || t.sweeping.contains k)

def Dev.putLaunch (d : Dev) (l : Launch) : Dev :=
  { d with disp := { d.disp with launches := d.disp.launches.map fun x => if x.serial = l.serial then l else x } }

/-- A launch enters dispatch (R254), with a kernel tag when its race mode is on, for which it may have to wait. -/
def Dev.enterDispatch (d : Dev) (l : Launch) : Dev :=
  let l : Launch := { l with order := d.disp.nextOrder, stage := .dispatch }
  let next (d : Dev) : Dev := { d with disp := { d.disp with nextOrder := d.disp.nextOrder + 1 } }
  if l.hdr.race = 0 then next (d.putLaunch l)
  else match d.disp.tags.next with
    | none => d.putLaunch { l with stage := .tagwait }
    | some k =>
      let t := d.disp.tags
      next ({ d with disp := { d.disp with tags := { t with last := k, live := t.live ++ [k] } } }.putLaunch { l with ktag := BitVec.ofNat 8 k })

/-! ### Acceptance (R249) -/

/-- Whether bits that the record's layout does not list are set, or a field breaks its rule (step 1). -/
def Launch.badRec (l : Launch) : Bool :=
  let w := l.word
  let high57 (i : Nat) : Bool := w i / 2 ^ 57 != 0
  let enable (i : Nat) : Bool := w i / 2 ^ 12 % 2 ^ 51 != 0
  high57 0 || high57 3 || high57 8 || high57 11 || high57 12 || w 2 / 2 ^ 44 != 0 || enable 4 || enable 6 ||
    w 10 / 2 ^ 21 != 0 || nfld (w 10) 12 4 != 0 || nfld (w 10) 4 4 != 0 || w 13 != 0 || w 14 != 0 || w 15 != 0 ||
    decide (6 ≤ nfld (w 10) 8 3) || w 0 % 64 != 0 || w 8 % 8 != 0 || (!l.fromHost && w 12 % 32 != 0) || decide (16 < nfld (w 10) 16 5)

/-- A context's record as read now; the root of a valid one is the last that its ASID names (R278). -/
def Dev.readCtx (d : Dev) (regs : Regs) (ctx : BitVec 16) : Except (Nat × Nat × Nat) (List DWord) × Dev :=
  let base := regs.ctxtab.toNat % 2 ^ 57 / 64 * 64
  match d.readWords regs dispCore d.space0 false ((base + 64 * ctx.toNat) % 2 ^ 57) 8 with
  | (.ok ws, d) =>
    let asid := nfld (ws.getD 0 0).toNat 16 16
    (.ok ws, if nbit (ws.getD 0 0).toNat 0 then d.modMem fun m => { m with roots := Tab.put m.roots asid (ptRoot ws) } else d)
  | e => e

/-- One entry of the hint list (R299). -/
def hintOf (a b : DWord) : Option Hint :=
  let base := a.toNat
  let n := b.toNat
  if base / 2 ^ 57 != 0 || base % 64 != 0 || n / 2 ^ 40 != 0 || nfld n 2 38 == 0 then none
  else some { base := base, lines := nfld n 2 38, cls := n % 4, accesses := 0, misses := 0 }

def hintsOf : List DWord → List (Option Hint)
  | a :: b :: rest => hintOf a b :: hintsOf rest
  | _ => []

/-- The condition of step 5. -/
def condHolds (cop : Nat) (w64 : Bool) (v c : Nat) : Bool :=
  let n := if w64 then 64 else 32
  let v := v % 2 ^ n
  let c := c % 2 ^ n
  match cop with
  | 0 => v == c
  | 1 => v != c
  | 2 => decide (sxN v n < sxN c n)
  | 3 => decide (sxN c n ≤ sxN v n)
  | 4 => decide (v < c)
  | _ => decide (c ≤ v)

/-- Step 6: dispatch, with what a captured launch leaves in its capture area (R361). The constant caches of every core are emptied here: no rule
says when their copies go, and R161 has a kernel's constants not change while it runs (DESIGN CHOICE, notes/assumptions/67.md). -/
def Dev.dispatchLaunch (d : Dev) (l : Launch) : Dev :=
  let total := l.gx * l.gy * l.gz
  let d := d.modMem fun m => { m with ccache := [] }
  match Tab.find? d.debug l.ctx.toNat with
  | some g =>
    let take := nbit (l.word 10) 1 && g.unlocked && g.areaLen != 0
    let words := l.record ++ [l.hdr.w0, l.hdr.w1, l.hdr.w2, 0]
    let busy := d.disp.launches.any fun x => x.captured && x.ctx == l.ctx
    let g : Debug := if take && !busy then { g with pages := [], due := [] } else g
    let g : Debug := { g with launched := true, captured := if take then g.captured ++ [words] else g.captured,
                              areaUsed := if take then g.areaUsed + 8 * words.length else g.areaUsed }
    ({ d with debug := Tab.put d.debug l.ctx.toNat g } : Dev).enterDispatch { l with total := total, captured := take }
  | none =>
    ({ d with debug := Tab.put d.debug l.ctx.toNat { Debug.reset with launched := true } } : Dev).enterDispatch { l with total := total }

/-- Steps 3 to 6: the header, the hint list, the tests, the condition. A read that waits for a migration leaves the launch as it was. -/
def Dev.acceptLaunch (d : Dev) (regs : Regs) (l : Launch) : Dev :=
  let fail (d : Dev) (l : Launch) (st : Nat) : Dev := d.writeCompletion regs l st
  let d0 := d.putLaunch { l with stage := .waiting }
  match d0.readWords regs dispCore l.space false (l.word 0) 4 with
  | (.error (0, _, _), _) => d0
  | (.error _, d) => fail d l 0x11
  | (.ok ws, d) =>
    match d.readWords regs dispCore l.space false (l.word 11) (2 * nfld (l.word 10) 16 5) with
    | (.error (0, _, _), _) => d0
    | (.error _, d) => fail d l 0x11
    | (.ok hs, d) =>
      let w (i : Nat) := ws.getD i 0
      let l : Launch := { l with hdr := KHdr.ofWords (w 0) (w 1) (w 2), hints := hintsOf hs }
      if badHdr (w 0) (w 1) (w 2) (w 3) then fail d l 0x12
      else if l.badShape then fail d l 0x13
      else if l.hdr.noFit then fail d l 0x14
      else if d.coFit l then fail d l 0x15
      else if l.word 8 = 0 then d.dispatchLaunch l
      else
        let w64 := nbit (l.word 10) 11
        match d.place regs dispCore l.space (l.word 8) .rd with
        | (.hold, _) => d0
        | (.fault _, d) => fail d l 0x11
        | (.ok p, d) =>
          if d.poisoned p.pa then fail d l 0x11
          else if !condHolds (nfld (l.word 10) 8 3) w64 (d.homeRd p.pa (if w64 then 8 else 4)) (l.word 9) then fail (d.launchSignal l false) l 0x01
          else
            let flags := if p.rt && regs.tracked (lineOf p.pa) then some (Rec.ofWord (d.rmetaOf regs (lineOf p.pa))).flags else none
            let f := d.sideFronts (.line (lineOf p.pa)) flags
            d.dispatchLaunch { l with parent := l.parent ++ f.1, parentSat := l.parentSat || f.2 }

/-- Steps 2 to 6 of a launch whose record has been read. -/
def Dev.passWait (d : Dev) (regs : Regs) (l : Launch) : Dev :=
  let w := l.word 4
  if w / 2 ^ 63 = 0 then d.acceptLaunch regs l
  else
    let id := w % 4096
    let c := d.counter id
    if !signedGe c.value (l.record.getD 5 0) then d.putLaunch { l with stage := .waiting }
    else
      let f := d.sideFronts (.counter id) (some c.flags.toNat)
      d.acceptLaunch regs { l with parent := l.parent ++ f.1, parentSat := l.parentSat || f.2 }

/-- The next record of a queue that R247 makes eligible. -/
def Dev.nextRecord (d : Dev) (queue : Nat) : Option Launch :=
  let mine := d.disp.launches.filter (·.queue == queue)
  let before := mine.takeWhile (·.stage != .pending)
  match mine.drop before.length with
  | [] => none
  | l :: _ =>
    match before.getLast? with
    | none => some l
    | some p => if nbit (p.word 10) 3 && p.stage == .running then some l else none

/-- The arrival of a launch aborts every scan when its level is high enough; a pair that was queued is queued again (R352). -/
def State.abortScans (s : State) (level : Nat) : State :=
  if s.plat.scanLevel < level then s
  else
    let back := (s.plat.scans.filter (·.queued)).map (·.pair)
    { s with plat := { s.plat with scans := [] }, dev := { s.dev with disp := { s.dev.disp with scanQueue := s.dev.disp.scanQueue ++ back } } }

/-- BADREC where the context's record gives no address space: a completion record for a device-owned queue has none to lie in, and is not
written (DESIGN CHOICE, notes/assumptions/68.md). -/
def Dev.failRecord (d : Dev) (regs : Regs) (l : Launch) : Dev := if l.fromHost then d.writeCompletion regs l 0x10 else d.dropLaunch l

/-- LAUNCH_ACCEPTANCE: the queue takes its next record, with a credit where it is gated, and carries it as far as it goes. -/
def execLaunchAcceptance (queue : Nat) (s : State) : Host.Outcome State Fault Refusal :=
  let d := s.dev
  let q := Tab.getD Queue.reset d.disp.queues queue
  if q.gate && q.credits = 0 then .next s
  else match d.nextRecord queue with
    | none => .next s
    | some l =>
      if !(s.fnOn q.fn) then .next s
      else
        let d : Dev := if q.gate then { d with disp := { d.disp with queues := Tab.put d.disp.queues queue { q with credits := q.credits - 1 } } } else d
        let t := ({ s with dev := d } : State).abortScans q.level
        match t.dev.readCtx s.regs l.ctx with
        | (.error (0, _, _), _) => .next s
        | (.error _, d) => .next { t with dev := d.failRecord s.regs l }
        | (.ok ws, d) =>
          if !nbit (ws.getD 0 0).toNat 0 then .next { t with dev := d.failRecord s.regs l }
          else
            let l : Launch := { l with asid := BitVec.ofNat 16 (nfld (ws.getD 0 0).toNat 16 16), root := ptRoot ws }
            .next { t with dev := if l.badRec then d.writeCompletion s.regs l 0x10 else d.passWait s.regs l }

/-- LAUNCH_WAIT_RELEASE: the counter of a waiting launch has met its threshold. -/
def execLaunchWaitRelease (queue : Nat) (s : State) : Host.Outcome State Fault Refusal :=
  match s.dev.disp.launches.find? fun l => l.queue == queue && l.stage == .waiting with
  | none => .next s
  | some l => .next (if s.dev.fnLive l.fn then { s with dev := s.dev.passWait s.regs l } else s)

/-! ### The metadata sweep (R205) -/

/-- Metadata of retired tags reads "no writer": that held with the lines and that in the carve-out. -/
def Dev.sweepTags (d : Dev) (regs : Regs) (tags : List Nat) : Dev :=
  let dead (w : Nat) : Bool := tags.contains (w / 2 ^ 56)
  let cut := regs.cbase
  let keys := ((d.mem.cells.filter fun p => decide (p.1 / 2 ^ 64 = 0) && regs.inCarve p.1).map fun p => cut + (p.1 - cut) / 8 * 8).eraseDups
  let d := d.modMem fun m => { m with rmeta := m.rmeta.map fun p => if dead p.2.toNat then (p.1, 0) else p }
  keys.foldl (fun d k => if dead (d.homeRd k 8) then d.modMem fun m => { m with cells := Cells.putBytes m.cells k 8 0 } else d) d

/-- KERNEL_TAG_SWEEP_PASS: the end of one pass and the start of the next; launches that wait for a tag take what is free. -/
def execKernelTagSweepPass (s : State) : Host.Outcome State Fault Refusal :=
  let t := s.dev.disp.tags
  let d := s.dev.sweepTags s.regs t.sweeping
  let d : Dev := { d with disp := { d.disp with tags := { t with sweeping := t.retiring, retiring := [] } } }
  .next { s with dev := (d.disp.launches.filter (·.stage == .tagwait)).foldl (fun d l => d.enterDispatch l) d }

end Sys2Proof.Machine
end

