-- ==== Sys2Proof/Machine/Placement.lean ====
section
/-! DEFINITION. The placement of bolts (R30 to R45, R254, R255, R261, R278), their pre-emption, swap-out and restoration (R257, R258, R176,
R279 to R281), and the power controller (R256, R259, R260). -/

namespace Sys2Proof.Machine

/-! ### Levels and loads -/

/-- The level of a launch: that of its queue now (R261). -/
def Dev.levelOf (d : Dev) (l : Launch) : Nat := (Tab.getD Queue.reset d.disp.queues l.queue).level

def Dev.boltLevel (d : Dev) (b : Bolt) : Nat :=
  match d.disp.launches.find? (·.serial == b.serial) with
  | some l => d.levelOf l
  | none => 23

/-- Whether a bolt has scratch and wefts on a core. -/
def Dev.boltOn (d : Dev) (b : Bolt) (core : Nat) : Bool :=
  let wide := match d.launchOf? b.id with | some l => l.hdr.spans | none => false
  if wide then b.pair == core / 2 else b.core == core

/-- What a core carries once the bolts that `gone` names have left it. A frozen core, a pair that is queued for scan or scanned, and every
core while the L2 carve changes or after a thermal trip admit nothing (R169, R272, R352, R363). -/
def State.load (s : State) (gone : List Nat) (core : Nat) : Load :=
  let d := s.dev
  let ws := (d.coreWefts core).filter fun p => !gone.contains p.2.bolt
  let sum (f : KHdr → Nat) : List Nat :=
    (List.range 4).map fun j => ((ws.filter fun p => p.1.shuttle == j).map fun p => f p.2.hdr).sum
  let bs := d.bolts.filter fun b => b.st != .swapped && !gone.contains b.id && d.boltOn b core
  { sp := (d.core core).sp.toNat, regs := sum KHdr.regCharge, tiles := sum KHdr.tileCharge, slots := sum fun _ => 1,
    closed := (List.range 4).map fun j => (d.sh (core * 4 + j)).closed,
    scratch := (bs.map fun b => match d.launchOf? b.id with | some l => l.hdr.scratchKiB | none => 0).sum,
    weight := (ws.map fun p => p.2.weight).sum,
    able := !(d.core core).frozen && !d.disp.scanQueue.contains (core / 2) && !s.plat.scans.any (·.pair == core / 2) &&
      s.regs.carveNew.isNone && !s.plat.tripped }

/-! ### Units of placement -/

/-- One bolt to be placed: the copy `copy` of a fresh bolt, or a swapped one. -/
structure Item where
  serial : Nat
  idx : Nat
  copy : Nat
  hdr : KHdr
  bolt : Option Bolt

/-- Bolts that are placed together (R42, R43, R45), with the place of their launch in its level's turn. -/
structure Batch where
  items : List Item
  launch : Option Launch

/-- Whether the handles that a swapped bolt's commands and collectives hold are free on a core of its place (R225, R279, R325). -/
def Dev.handlesFree (d : Dev) (b : Bolt) (wide : Bool) (core : Nat) : Bool :=
  (b.savedCmds.all fun x => x.status.final || (wide && x.core % 2 != core % 2) ||
    !d.cmds.any fun y => y.core == core && y.handle == x.handle && (!y.status.final || y.held)) &&
  (d.fabric.colls.all fun k => k.bolt != b.id || (wide && k.core % 2 != core % 2) ||
    !d.fabric.colls.any fun y => y.core == core && y.handle == k.handle && y.bolt != b.id)

/-- The pairs that hold another copy of an item's bolt. -/
def Dev.copyPairs (d : Dev) (it : Item) (done : List (Item × Spot)) : List Nat :=
  ((d.bolts.filter fun b => b.serial == it.serial && b.idx == it.idx && b.st != .swapped).map (·.pair)) ++
    ((done.filter fun x => x.1.serial == it.serial && x.1.idx == it.idx).map (·.2.pair))

def State.loadWith (s : State) (gone : List Nat) (done : List (Item × Spot)) : Nat → Load :=
  withSpots (s.load gone) (done.map fun x => (x.1.hdr, x.2))

/-- A pair's place for an item, with the bolts `gone` away and the places `done` taken. A bolt that is restored is charged for all the wefts of
its kernel (registers, slots, weight and the advance of sp), those that had finished before it was swapped out among them: R41 does not say
whether they still count (DESIGN CHOICE, notes/assumptions/67.md). -/
def State.admitAt (s : State) (gone : List Nat) (done : List (Item × Spot)) (it : Item) (pair : Nat) : Option Spot :=
  if (s.dev.copyPairs it done).contains pair then none
  else admitPair (s.loadWith gone done) it.hdr s.dev.disp.budget pair fun p =>
    match it.bolt with | some b => s.dev.handlesFree b it.hdr.spans p.core | none => true

def State.findSpot (s : State) (gone : List Nat) (done : List (Item × Spot)) (last : Nat) (it : Item) : Option Spot :=
  (pairsFrom s.dev.disp.removed last).findSome? fun p => s.admitAt gone done it p

/-- Places of all items at once, each offered to the pair after the one before it (R30). -/
def State.findAll (s : State) (gone : List Nat) : List Item → Nat → List (Item × Spot) → Option (List (Item × Spot))
  | [], _, done => some done
  | it :: rest, last, done =>
    match s.findSpot gone done last it with
    | none => none
    | some p => s.findAll gone rest p.pair (done ++ [(it, p)])

def Bolt.item (b : Bolt) (h : KHdr) : Item := { serial := b.serial, idx := b.idx, copy := b.copy, hdr := h, bolt := some b }

/-- The swapped bolts of a level with those restored beside them, in the order in which they were placed first; a bolt waits while a
companion is still being swapped out. -/
def Dev.swappedBatches (d : Dev) (level : Nat) : List Batch :=
  let mates (b : Bolt) (l : Launch) : List Bolt := d.bolts.filter fun x => x.serial == b.serial && (l.cor || x.idx == b.idx)
  d.bolts.filterMap fun b =>
    match d.disp.launches.find? (·.serial == b.serial) with
    | none => none
    | some l =>
      let ms := mates b l
      let out := ms.filter fun x => x.st == .swapped
      if b.st ≠ .swapped || d.levelOf l ≠ level || ms.any (fun x => x.st == .swapping) || out.head?.map (·.id) ≠ some b.id then none
      else some { items := out.map fun x => x.item l.hdr, launch := none }

/-- What a launch in dispatch offers next: its next bolt in each of its copies, or its whole grid. -/
def Launch.batch (l : Launch) : Batch :=
  let one (i : Nat) : List Item :=
    (List.range (if l.twin then 2 else 1)).map fun c => { serial := l.serial, idx := i, copy := c, hdr := l.hdr, bolt := none }
  { items := if l.cor then (List.range l.total).flatMap one else one l.nextB, launch := some l }

/-- The launches in dispatch at a level, beginning after the one served last (R254). -/
def Dev.launchBatches (d : Dev) (level : Nat) : List Batch :=
  let ls := d.disp.launches.filter fun l => l.stage == .dispatch && d.levelOf l == level
  let byOrder := ls.foldl (fun (acc : List Launch) l =>
    acc.filter (fun x => decide (x.order < l.order)) ++ [l] ++ acc.filter (fun x => decide (l.order ≤ x.order))) []
  let past (l : Launch) : Bool := match Tab.find? d.disp.rr level with | some n => decide (n < l.order) | none => true
  (byOrder.filter past ++ byOrder.filter fun l => !past l).map Launch.batch

def Dev.batches (d : Dev) (level : Nat) : List Batch := d.swappedBatches level ++ d.launchBatches level

/-! ### Victims (R257, R258, R280, R281) -/

/-- Whether a thread of a bolt is parked, or a command of it. -/
def Dev.boltParked (d : Dev) (b : Bolt) : Bool :=
  (d.boltWefts b.id).any (fun p => p.2.parked != 0) ||
    d.cmds.any (fun x => x.bolt == b.id && x.status == .parked) || d.gathers.any (fun g => g.bolt == b.id && g.parked) ||
    d.slops.any (fun x => x.bolt == b.id && x.parked) || d.fabric.colls.any fun k => k.bolt == b.id && k.parked

def Dev.saveSize (d : Dev) (b : Bolt) : Nat :=
  match d.launchOf? b.id with
  | some l => Config.saveBytes l.hdr.w0 l.hdr.w1
  | none => 0

/-- Bytes of saved state in the context partition. -/
def Dev.savedBytes (d : Dev) : Nat := ((d.bolts.filter fun b => b.st == .swapped && !b.spilled).map d.saveSize).sum

/-- Whether the spill area of a bolt's context has room for the bolt's state; without a spill area it has none (R278). A context with no
room has no candidate victims (R281). -/
def Dev.roomFor (d : Dev) (b : Bolt) : Bool :=
  let crec := match (d.boltWefts b.id).head? with
    | some p => p.2.crec
    | none => (b.saved.head?.map Weft.crec).getD []
  match d.launchOf? b.id with
  | none => false
  | some l =>
    let mine := d.bolts.filter fun x => x.spilled && (match d.launchOf? x.id with | some k => k.ctx == l.ctx | none => false)
    let room := if nfld (crec.getD 5 0).toNat 12 40 = 0 then 0 else nfld (crec.getD 6 0).toNat 0 32 * mib
    decide ((mine.map d.saveSize).sum + d.saveSize b ≤ room)

/-- The bolts that leave with a bolt: its co-resident launch, and its twin (R43, R45). -/
def Dev.withMates (d : Dev) (b : Bolt) : List Bolt :=
  let cor := match d.launchOf? b.id with | some l => l.cor | none => false
  d.bolts.filter fun x => x.serial == b.serial && (cor || x.idx == b.idx) && x.st == .resident

/-- Whether a bolt, apart from its level, may be a victim. -/
def Dev.maySwap (d : Dev) (b : Bolt) : Bool :=
  b.st == .resident && !d.boltParked b && !(d.boltWefts b.id).any (fun p => p.2.stopped) && d.roomFor b

/-- Whether a bolt is a candidate victim of a pending bolt at level `level`. -/
def Dev.candidate (d : Dev) (level : Nat) (b : Bolt) : Bool :=
  let m := d.boltLevel b
  (decide (level + d.disp.gap ≤ m) || (m == 23 && decide (level < 23))) &&
    (m == 23 || decide (b.since + 100 ≤ d.host.us)) && (d.withMates b).all d.maySwap

/-- Candidates by level, highest number first, then most recently placed first. -/
def Dev.victims (d : Dev) (level : Nat) : List Bolt :=
  let before (a b : Bolt) : Bool :=
    if d.boltLevel a ≠ d.boltLevel b then decide (d.boltLevel b < d.boltLevel a) else decide (b.placed < a.placed)
  (d.bolts.filter (d.candidate level)).foldl (fun acc b => acc.filter (fun x => before x b) ++ [b] ++ acc.filter fun x => !before x b) []

/-- Steps 1 to 3 of R257 for one item: the victims that let a pair admit it, and its place there. -/
def State.walkVictims (s : State) (level : Nat) (gone : List Nat) (done : List (Item × Spot)) (it : Item) : Option (List Nat × Spot) :=
  let cs := (s.dev.victims level).filter fun b => !gone.contains b.id
  (List.range cs.length).findSome? fun i =>
    match cs[i]? with
    | none => none
    | some c =>
      let here := ((cs.take (i + 1)).filter fun b => b.pair == c.pair).flatMap fun b => (s.dev.withMates b).map (·.id)
      if s.dev.disp.removed.contains c.pair then none
      else (s.admitAt (gone ++ here) done it c.pair).map fun p => (here, p)

/-- The victims of a batch that no pair admits: none when some item finds no pair (R257). -/
def State.preempts (s : State) (level : Nat) : List Item → Nat → List Nat → List (Item × Spot) → Option (List Nat)
  | [], _, gone, _ => some gone
  | it :: rest, last, gone, done =>
    match s.findSpot gone done last it with
    | some p => s.preempts level rest p.pair gone (done ++ [(it, p)])
    | none => match s.walkVictims level gone done it with
      | none => none
      | some (more, p) => s.preempts level rest p.pair (gone ++ more) (done ++ [(it, p)])

/-- A bolt chosen for swap-out: it stops issuing at the end of its picks in progress (R279). -/
def Dev.swapOut (d : Dev) (ids : List Nat) : Dev :=
  { d with bolts := d.bolts.map fun b => if ids.contains b.id && b.st == .resident then { b with st := .swapping } else b }

def Dev.swapping (d : Dev) : List Nat := (d.bolts.filter fun b => b.st == .swapping).map (·.id)

/-! ### Placing (R24, R25, R30, R31, R41, R176, R206, R278) -/

/-- The lowest free thread-table slot of a shuttle. -/
def Dev.freeSlot (d : Dev) (core sh : Nat) : Nat :=
  ((List.range 16).find? fun k => (d.weft? { core := core, shuttle := sh, slot := k }).isNone).getD 0

/-- Live lanes of weft `widx` at the start of its bolt. -/
def KHdr.lanesOf (h : KHdr) (widx : Nat) : Lanes :=
  let n := min h.w (h.threads - widx * h.w)
  if n = 64 then BitVec.allOnes 64 else BitVec.ofNat 64 (2 ^ n - 1)

/-- Weft indexes of a place with the place of each. -/
def Spot.refs (p : Spot) : List (Nat × Nat × Nat) :=
  p.parts.flatMap fun q => (List.range q.count).map fun j => (q.first + j, q.core, (q.s0 + j) % 4)

/-- Puts wefts, by their index, on the shuttles of a place. -/
def Dev.putWefts (d : Dev) (p : Spot) (weft : Nat → Option Weft) : Dev :=
  p.refs.foldl (fun d r =>
    match weft r.1 with
    | none => d
    | some w => d.putW { core := r.2.1, shuttle := r.2.2, slot := d.freeSlot r.2.1 r.2.2 } w) d

/-- The cores of a place take its start pointers, and their wefts acquire at .dev (R31, R176, R253). -/
def Dev.takeSpot (d : Dev) (p : Spot) : Dev :=
  let d := p.parts.foldl (fun d q => (d.modCore q.core fun c => { c with sp := BitVec.ofNat 2 (q.s0 + q.count) }).acquire q.core .dev) d
  { d with disp := { d.disp with lastPair := p.pair } }

/-- The context record as placement reads it: fields of one that cannot be read are zero. -/
def Dev.boltRec (d : Dev) (regs : Regs) (l : Launch) : List DWord × BitVec 16 × Dev :=
  match d.readCtx regs l.ctx with
  | (.ok ws, d) => (ws, BitVec.ofNat 16 (nfld (ws.getD 0 0).toNat 16 16), d)
  | (.error _, d) => ([], l.asid, d)

/-- A fresh bolt in its place; the wefts of one batch are of one age (R56). -/
def Dev.placeFresh (d : Dev) (regs : Regs) (l : Launch) (age : Nat) (it : Item) (p : Spot) : Dev :=
  let (crec, asid, d) := d.boltRec regs l
  let id := d.disp.nextBolt + 1
  let weft (widx : Nat) : Weft :=
    let w := Weft.start l.hdr (BitVec.ofNat 57 (l.word 0)) (BitVec.ofNat 57 (l.word 3)) l.ctx asid crec (l.hdr.lanesOf widx)
    let w : Weft := { w with serial := l.serial, bolt := id, widx := widx, prio := d.levelOf l, age := age }
    if l.hdr.race = 0 then w else w.mergeAll d.tagLive l.parent l.parentSat
  let ws := (List.range l.hdr.nwefts).map weft
  let bank : Bank := { wefts := ws, scratch := [], smeta := [], bars := [], epoch := 0, side := [], sig := 0, held := [], heldBytes := 0 }
  let b : Bolt :=
    { id := id, serial := l.serial, idx := it.idx, copy := it.copy, st := .resident, pair := p.pair,
      core := (p.parts.head?.map (·.core)).getD (2 * p.pair), placed := d.nextOp, since := d.host.us, spilled := false,
      scratch := [], smeta := [], badScratch := [], bars := [], epoch := 0, left := l.hdr.nwefts, saved := [], savedCmds := [],
      savedSide := [], bank := if l.twin then some bank else none, bankDue := false, barDue := false, sinceBank := false, sig := 0,
      held := [], heldBytes := 0, atEnd := false, results := [], intervalNo := 0 }
  let d : Dev := { d with bolts := d.bolts ++ [b], nextOp := d.nextOp + 1, disp := { d.disp with nextBolt := id } }
  (d.putWefts p fun k => ws[k]?).takeSpot p

/-- The engine commands of a restored bolt under their handles on its new cores. DESIGN CHOICE (log 68): the status of a final one goes
with the bolt where nothing stands under its handle, besides staying readable on the core where it ended (R227). -/
def Dev.restoreCmds (d : Dev) (b : Bolt) (p : Spot) : Dev :=
  let coreFor (k : Nat) : Nat := match p.parts with
    | [q] => q.core
    | _ => 2 * p.pair + k % 2
  let refOf (widx old : Nat) : WRef := (d.placeOf (coreFor old) b.id widx).getD { core := coreFor old, shuttle := 0, slot := 0 }
  let back := b.savedCmds.filterMap fun x =>
    if x.status.final && (d.cmds.any fun y => y.core == coreFor x.core && y.handle == x.handle) then none
    else some { x with core := coreFor x.core, ref := refOf x.widx x.core }
  let taken (y : Cmd) : Bool := back.any fun x => x.core == y.core && x.handle == y.handle
  let mine := d.fabric.colls.filter fun k => k.bolt == b.id
  let owns (o : Own) : Own := match o.eng with
    | .tcopy c h => if decide (2048 ≤ c) && (c - 2048) / 2 == b.id then { o with eng := .tcopy (coreFor c) h } else o
    | .coll c h => if mine.any (fun k => k.core == c && k.handle == h) then { o with eng := .coll (coreFor c) h } else o
    | _ => o
  { d with
    cmds := d.cmds.filter (fun y => !taken y) ++ back,
    gathers := d.gathers.map fun g => if g.bolt = b.id then { g with ref := refOf g.widx g.ref.core } else g,
    slops := d.slops.map fun x => if x.bolt = b.id then { x with ref := refOf x.widx x.ref.core } else x,
    fabric := { d.fabric with colls := d.fabric.colls.map fun k =>
      if k.bolt = b.id then { k with core := coreFor k.core, ref := refOf k.widx k.core } else k },
    mem := { d.mem with owned := d.mem.owned.map owns } }

/-- A swapped bolt in its new place, under its launch's level as issue priority (R41, R261). -/
def Dev.placeSaved (d : Dev) (regs : Regs) (l : Launch) (age : Nat) (b : Bolt) (p : Spot) : Dev :=
  let (crec, asid, d) := d.boltRec regs l
  let weft (k : Nat) : Option Weft :=
    (b.saved.find? (·.widx == k)).map fun w =>
      let w : Weft := { w with crec := crec, asid := asid, prio := d.levelOf l, age := age, gated := false, bolt := b.id }
      w
  let nb : Bolt :=
    { b with st := .resident, pair := p.pair, core := (p.parts.head?.map (·.core)).getD (2 * p.pair), placed := d.nextOp, since := d.host.us,
             spilled := false, saved := [], savedCmds := [], savedSide := [] }
  let d : Dev := { d with bolts := d.bolts.map fun x => if x.id = b.id then nb else x, nextOp := d.nextOp + 1 }
  let d := (d.putWefts p weft).restoreCmds b p
  let side := if l.hdr.spans then b.savedSide else b.savedSide.map fun x => (nb.core % 2, x.2)
  let d := (d.restoreSide nb side).takeSpot p
  -- a collective that met a fault while its weft was away meets it again, and parks the weft (R335)
  (d.fabric.colls.filter fun k => k.bolt == b.id).foldl (fun d k => d.advanceColl regs k.core k.handle) d

def Dev.placeItem (d : Dev) (regs : Regs) (age : Nat) (it : Item) (p : Spot) : Dev :=
  match d.disp.launches.find? (·.serial == it.serial) with
  | none => d
  | some l => match it.bolt with
    | some b => d.placeSaved regs l age b p
    | none => d.placeFresh regs l age it p

/-- Twin copies by their pairs: the copy on the lower-numbered pair is the primary (R344). -/
def Dev.numberCopies (d : Dev) (serial idx : Nat) : Dev :=
  let twins := d.bolts.filter fun b => b.serial == serial && b.idx == idx
  { d with bolts := d.bolts.map fun b =>
      if b.serial = serial ∧ b.idx = idx then { b with copy := (twins.filter fun x => decide (x.pair < b.pair)).length } else b }

/-- A batch placed: its launch advances, and its turn and its hold end. -/
def Dev.placeBatch (d : Dev) (regs : Regs) (level : Nat) (u : Batch) (spots : List (Item × Spot)) : Dev :=
  let age := d.nextOp
  let d := spots.foldl (fun d x => d.placeItem regs age x.1 x.2) d
  match u.launch with
  | none => d
  | some l =>
    let d := if l.twin then ((u.items.map (·.idx)).eraseDups).foldl (fun d i => d.numberCopies l.serial i) d else d
    let nextB := if l.cor then l.total else l.nextB + 1
    let l : Launch := { l with nextB := nextB, stage := if nextB = l.total then .running else .dispatch }
    let d := d.putLaunch l
    { d with disp := { d.disp with rr := Tab.put d.disp.rr level l.order, holds := d.disp.holds.filter (· != l.serial) } }

/-! ### The placement decision (R254, R255, R257) -/

/-- The batch of a launch in dispatch. -/
def Dev.batchOf (d : Dev) (serial : Nat) : Option (Nat × Batch) :=
  (d.disp.launches.find? fun l => l.serial == serial && l.stage == .dispatch).map fun l => (d.levelOf l, l.batch)

/-- Whether the next bolt of a launch in dispatch finds no place. -/
def State.unplaceable (s : State) (serial : Nat) : Bool :=
  match s.dev.batchOf serial with
  | none => false
  | some (_, u) => (s.findAll [] u.items s.dev.disp.lastPair []).isNone

/-- Whether a hold goes on: its bolt is yet to be placed, and it fits, or a pre-emption that it caused is under way or one that it can cause
is left (R255). -/
def State.holdLasts (s : State) (serial : Nat) : Bool :=
  match s.dev.batchOf serial with
  | none => false
  | some (level, u) =>
    !s.unplaceable serial || s.dev.disp.victims.any (fun v => v.1 == serial && s.dev.swapping.contains v.2) ||
      (s.preempts level u.items s.dev.disp.lastPair [] []).isSome

def State.pruneHolds (s : State) : State :=
  let keep := s.dev.disp.holds.filter s.holdLasts
  { s with dev := { s.dev with disp := { s.dev.disp with holds := keep } } }

/-- The lowest level that a hold keeps open: levels below it in urgency place nothing. -/
def Dev.heldLevel (d : Dev) : Nat :=
  d.disp.holds.foldl (fun m k => match d.batchOf k with | some (l, _) => min m l | none => m) 23

/-- Whether the context record that governs a batch cannot be read at the moment: its page is being migrated (R278, R298). -/
def Dev.recHeld (d : Dev) (regs : Regs) (u : Batch) : Bool :=
  u.items.any fun it => match d.disp.launches.find? (·.serial == it.serial) with
    | none => false
    | some l => match d.readCtx regs l.ctx with
      | (.error (0, _, _), _) => true
      | _ => false

/-- One batch in its turn: it is placed, or it pre-empts where nothing under way makes room for it; none when it does neither. -/
def State.tryBatch (s : State) (level : Nat) (u : Batch) : Option State :=
  let last := s.dev.disp.lastPair
  match s.findAll [] u.items last [] with
  | some spots => if s.dev.recHeld s.regs u then none else some { s with dev := s.dev.placeBatch s.regs level u spots }
  | none =>
    let leaving := s.dev.swapping
    if !leaving.isEmpty && (s.findAll leaving u.items last []).isSome then none
    else match s.preempts level u.items last leaving [] with
      | some ids =>
        let new := ids.filter fun i => !leaving.contains i
        let by_ := (u.items.head?.map (·.serial)).getD 0
        if new.isEmpty then none
        else
          let d := s.dev.swapOut new
          some { s with dev := { d with disp := { d.disp with victims := d.disp.victims ++ new.map fun i => (by_, i) } } }
      | none => none

/-- BOLT_PLACEMENT: one decision, level by level from 0; the smoulder level is served only while the power controller asks for it. -/
def execBoltPlacement (s : State) : Host.Outcome State Fault Refusal :=
  let s := s.pruneHolds
  let top := s.dev.heldLevel
  let open_ (level : Nat) : Bool := decide (level ≤ top) && (level != 23 || s.dev.disp.smoulder)
  .next ((((List.range 24).filter open_).findSome? fun level => (s.dev.batches level).findSome? fun u => s.tryBatch level u).getD s)

/-- DISPATCH_HOLD_TIMEOUT: the next bolt of a launch has been unplaceable for 20 µs (R255). -/
def execDispatchHoldTimeout (serial : Nat) (s : State) : Host.Outcome State Fault Refusal :=
  if s.unplaceable serial && s.holdLasts serial && !s.dev.disp.holds.contains serial then
    .next { s with dev := { s.dev with disp := { s.dev.disp with holds := s.dev.disp.holds ++ [serial] } } }
  else .next s.pruneHolds

/-! ### Swap-out (R176, R224, R279, R281) -/

/-- Commands as they are saved: an ACTIVE one starts again in its order, and what they own stays owned. The status of a final one stays
readable under its handle (R227). -/
def Dev.saveCmds (d : Dev) (b : Bolt) : Dev :=
  let mine := d.cmds.filter fun x => x.bolt == b.id && !x.held
  let owns (o : Own) : Own := match o.eng with
    | .tcopy c h => if mine.any (fun x => x.core == c && x.handle == h) then { o with eng := .tcopy (savedCore b.id c) h } else o
    | _ => o
  let saved := mine.map fun x => { x with core := savedCore b.id x.core, status := if x.status = .active then .queued else x.status }
  { d.modBolt b.id (fun x => { x with savedCmds := saved }) with
      cmds := d.cmds.filter fun x => x.bolt != b.id || x.status.final, mem := { d.mem with owned := d.mem.owned.map owns } }

/-- Spills the least recently saved states, of contexts whose spill areas have room for them, while the context partition is over its size;
`n` bounds the bolts. -/
def Dev.spill (regs : Regs) : Nat → Dev → Dev
  | 0, d => d
  | n + 1, d =>
    if d.savedBytes ≤ regs.carve.toNat / 2 ^ 16 % 256 * mib then d
    else
      let ins := d.bolts.filter fun b => b.st == .swapped && !b.spilled && d.roomFor b
      match ins.foldl (fun (o : Option Bolt) b => match o with | none => some b | some x => if b.placed < x.placed then some b else some x) none with
      | none => d
      | some b => Dev.spill regs n (d.modBolt b.id fun b => { b with spilled := true })

/-- Whether everything that a bolt being swapped out issued is complete, and nothing of it is parked. -/
def Dev.quiet (d : Dev) (b : Bolt) : Bool :=
  let ws := d.boltWefts b.id
  !ws.any (fun p => d.isRunning p.1) && !d.ops.any (fun o => ws.any fun p => p.1 == o.ref)

/-- Steps 3 to 5 of R279 for one bolt that is quiet: the release at .dev, the saved state, the resources released. -/
def Dev.swapAway (d : Dev) (b : Bolt) : Dev :=
  let ws := d.boltWefts b.id
  let cores := (ws.map fun p => p.1.core).eraseDups
  let d := cores.foldl (fun d c => d.release c .dev) d
  let side := d.sideOf b
  let d := d.saveCmds b
  let d : Dev := { d with cores := d.cores.map fun p => (p.1, { p.2 with sside := p.2.sside.filter fun x => x.bolt != b.id }),
                          wefts := d.wefts.filter fun p => p.2.sup || p.2.bolt != b.id, nextOp := d.nextOp + 1,
                          disp := { d.disp with victims := d.disp.victims.filter fun v => v.2 != b.id } }
  let saved := ws.map fun p => let w : Weft := { p.2 with fetch := none, gated := false }; w
  d.modBolt b.id fun x => { x with st := .swapped, saved := saved, savedSide := side, placed := d.nextOp - 1, sinceBank := true }

/-- The bolts that leave in one step with a bolt being swapped out: its co-resident launch, its twin (R43, R45). -/
def Dev.leaving (d : Dev) (b : Bolt) : List Bolt :=
  let cor := match d.launchOf? b.id with | some l => l.cor | none => false
  d.bolts.filter fun x => x.serial == b.serial && (cor || x.idx == b.idx) && x.st == .swapping

/-- SWAP_OUT_COMPLETE: a bolt and those that leave with it, once all of them are quiet. -/
def execSwapOutComplete (bolt : Nat) (s : State) : Host.Outcome State Fault Refusal :=
  let d := s.dev
  match d.bolt? bolt with
  | none => .next s
  | some b =>
    let all := d.leaving b
    if b.st ≠ .swapping || all.any (fun x => !d.quiet x || d.boltParked x) then .next s
    else
      let d := all.foldl Dev.swapAway d
      .next { s with dev := Dev.spill s.regs d.bolts.length d }

/-! ### The power controller (R36, R256, R259, R260) -/

def Regs.smen (r : Regs) : Bool := r.power.getLsbD 31
def Regs.setw (r : Regs) : Nat := min 11500 (r.power.toNat % 65536)
def Regs.gap (r : Regs) : Nat := r.power.toNat / 2 ^ 24 % 32
def Regs.budget (r : Regs) : Nat := max 16 (min 128 (r.power.toNat / 2 ^ 16 % 256))

/-- Smoulder bolts, most recently placed first, until what they weigh covers the excess; a bolt takes its companions with it. -/
def Dev.shed (d : Dev) (need : Nat → Bool) : List Bolt → Nat → List Nat → List Nat
  | [], _, out => out
  | b :: bs, got, out =>
    if need got then out
    else if out.contains b.id then d.shed need bs got out
    else
      let ms := d.withMates b
      let w := (ms.map fun x => ((d.boltWefts x.id).map fun p => p.2.weight).sum).sum
      d.shed need bs (got + w) (out ++ ms.map (·.id))

/-- The core energy gates after a change of the budget: a core now over it chooses its first set from the oldest weft. DEDUCED (log 68): a
core that was over the budget before keeps its set until its rotation, unless the set no longer fits the budget (R36). -/
def Dev.regate (d : Dev) (old : Nat) : Dev :=
  let overs := ((d.wefts.map fun p => (refOfKey p.1).core).eraseDups).filter d.gateOn
  overs.foldl (fun d c =>
    if d.coreWeight c ≤ old then (d.modCore c fun k => { k with gateLast := none }).chooseGate c
    else if d.disp.budget < (((d.coreWefts c).filter fun p => !p.2.gated).map fun p => p.2.weight).sum then d.chooseGate c
    else d) d

/-- POWER_EVALUATION with the measured power. -/
def execPowerEvaluation (measw : BitVec 16) (s : State) : Host.Outcome State Fault Refusal :=
  let r := s.regs
  let regs : Regs := { r with power := r.power &&& 0xFFFF0000FFFFFFFF ||| (measw.zeroExtend 64 <<< 32) }
  let d := s.dev
  let m := measw.toNat
  let set := r.setw
  let on := r.smen && set != 0
  let d : Dev := { d with disp := { d.disp with budget := r.budget, gap := r.gap, smoulder := on && decide (1000 * m < 985 * set) } }
  let d := d.regate s.dev.disp.budget
  let low := (d.bolts.filter fun b => b.st == .resident && d.boltLevel b == 23).foldl (fun acc b =>
    acc.filter (fun x => decide (b.placed < x.placed)) ++ [b] ++ acc.filter (fun x => decide (x.placed ≤ b.placed))) []
  let total := ((d.wefts.filter fun p => !p.2.sup).map fun p => p.2.weight).sum
  let d :=
    if !on then d.swapOut (low.flatMap fun b => (d.withMates b).map (·.id))
    else if 1015 * set < 1000 * m then d.swapOut (d.shed (fun got => decide (total * (m - set) ≤ got * m)) low 0 [])
    else d
  .next { s with regs := regs, dev := d }

end Sys2Proof.Machine
end

