-- ==== Sys2Proof/Machine/Host.lean ====
section
/-! DEFINITION. The host interface (spec/14, spec/17): feature negotiation, the control commands of R303 but for migration, the registers
that REGWR writes (R169, R204, R259, R271, R272, R304), calls and events (R305, R306), the counter slots (R307 to R309) and the firmware
switch (R316, R317). -/

namespace Sys2Proof.Machine

/-! ### Functions and their things (R302, R303, R308, R313) -/

/-- The function to which a context has been assigned: PF0 when no command assigns it another. -/
def Sec.fnOf (s : Sec) (ctx : Nat) : Nat := Tab.getD 0 s.ctxFn ctx

/-- Whether a function is a VF whose TDI is in RUN. -/
def Dev.runs (d : Dev) (fn : Nat) : Bool := Tab.find? d.host.tdi fn == some .run

/-- Whether some TDI is in RUN. -/
def Dev.someRun (d : Dev) : Bool := d.host.tdi.any fun p => p.2 == .run

/-- Whether a function may act on a context: PF0, or the VF to which it is assigned. -/
def Sec.owns (s : Sec) (fn ctx : Nat) : Bool := fn == 0 || s.fnOf ctx == fn

/-- DRIVER_FEATURE_NEGOTIATION: a driver that does not accept all three features is declined. -/
def execDriverFeatureNegotiation (fn : Nat) (version1 packed platform : Bool) (s : State) : Host.Outcome State Fault Refusal :=
  if 16 < fn then .next s
  else
    let ok := version1 && packed && platform
    let d : Dev := { s.dev with host := { s.dev.host with features := Tab.put s.dev.host.features fn ok } }
    .next { s with dev := d.say (if ok then .accepted fn else .declined fn) }

/-! ### Control commands (R303) -/

/-- Whether a control command of the function is still being carried out: its TLBINV has not completed. -/
def Dev.ctrlBusy (d : Dev) (fn : Nat) : Bool :=
  d.mem.invs.any fun v => match v.reply with | some (f, _) => f == fn | none => false

/-- A control command of a function, after the one before it has completed; one that arrives while firmware switches is held. -/
def ctrlMove (i : Instr) (fn : Nat) (s : State) (f : State → State) : Host.Outcome State Fault Refusal :=
  if !s.fnOn fn then .next s
  else if s.sec.switching || s.dev.ctrlBusy fn then
    .next { s with dev := { s.dev with host := { s.dev.host with held := s.dev.host.held ++ [i] } } }
  else .next (f s)

/-- Statuses of a response. -/
def stOk : Nat := 0
def stBadCmd : Nat := 1
def stDenied : Nat := 2
def stBusy : Nat := 3
def stFault : Nat := 4

def State.reply (s : State) (fn : Nat) (tag : DWord) (status : Nat) (result : List DWord := []) : State :=
  { s with dev := s.dev.say (.response fn tag status result) }

/-! ### REGWR and REGRD (R169, R204, R259, R271, R304) -/

/-- STATUS codes of a register. -/
def regBadSize : Nat := 1
def regBusy : Nat := 2
def regPending : Nat := 3

def status32 (x : BitVec 32) (st : Nat) : BitVec 32 := x &&& 0x3FFFFFFF ||| BitVec.ofNat 32 (st * 2 ^ 30)
def status64 (x : DWord) (st : Nat) : DWord := x &&& 0x3FFFFFFFFFFFFFFF ||| BitVec.ofNat 64 (st * 2 ^ 62)

/-- A REGWR of PF0 to a register whose STATUS does not read pending; `tdi` says that a TDI in RUN depends on it (R313). -/
def regwrMove (i : Instr) (fn : Nat) (tag : DWord) (tdi : Bool) (pending : Regs → Bool) (s : State) (f : State → State) :
    Host.Outcome State Fault Refusal :=
  ctrlMove i fn s fun s =>
    if fn ≠ 0 || (tdi && s.dev.someRun) then s.reply fn tag stDenied
    else if pending s.regs then s.reply fn tag stBusy
    else (f s).reply fn tag stOk

/-- Whether any launch has been accepted and is not complete. -/
def Dev.launchLive (d : Dev) : Bool := d.disp.launches.any Launch.accepted

/-- The limits of R15 on chip scratch and context partition, in MiB. -/
def carveOk (chip ctx : Nat) : Bool := decide (chip ≤ 256) && decide (32 ≤ ctx) && decide (ctx ≤ 128) && decide (chip + ctx ≤ 320)

/-- The L2 carve register after a write of `value`. -/
def Regs.writeCarve (r : Regs) (value : DWord) (busy : Bool) : Regs :=
  let v : BitVec 32 := value.truncate 32 &&& 0x00FF01FF
  if !carveOk (v.toNat % 512) (v.toNat / 2 ^ 16) then { r with carve := status32 r.carve regBadSize }
  else if busy then { r with carve := status32 r.carve regBusy }
  else { r with carve := status32 r.carve regPending, carveNew := some v }

def execRegwrL2Carve (fn : Nat) (tag value : DWord) (s : State) : Host.Outcome State Fault Refusal :=
  regwrMove (.regwrL2Carve fn tag value) fn tag true (fun r => r.carveNew.isSome) s fun s =>
    { s with regs := s.regs.writeCarve value (!s.dev.bolts.isEmpty || s.dev.launchLive) }

/-- Chip scratch from byte `keep` on is lost, with what the device holds of its lines. -/
def Mem.cutChip (m : Mem) (keep : Nat) : Mem :=
  let lo := pkey 3 keep
  let gone (line : Nat) : Bool := decide (lineOf lo ≤ line)  && decide (line < lineOf (pkey 4 0))
  { m with
    cells := m.cells.filter fun p => !(decide (lo ≤ p.1) && decide (p.1 < pkey 4 0)),
    poison := m.poison.filter fun l => !gone l,
    rmeta := m.rmeta.filter fun p => !gone p.1,
    marks := m.marks.filter fun k => !gone k.line,
    l1 := (m.l1.map fun p => (p.1, p.2.filter fun l => !gone l.line)).filter fun p => !p.2.isEmpty }

/-- A new carve in effect: contents below the smaller of the old and new sizes are kept. -/
def State.applyCarve (s : State) (v : BitVec 32) : State :=
  let keep := min (s.regs.carve.toNat % 512) (v.toNat % 512) * mib
  { s with regs := { s.regs with carve := v, carveNew := none }, dev := s.dev.modMem fun m => m.cutChip keep }

def execL2CarveApplied (s : State) : Host.Outcome State Fault Refusal :=
  match s.regs.carveNew with
  | none => .next s
  | some v => .next (s.applyCarve v)

/-- Whether a window of `size` GiB at `base` GiB and its carve-out at `cut`, in 128 MiB units, break R204. -/
def windowBad (base size cut : Nat) : Bool :=
  size != 0 && (decide (512 < size) || decide (576 < base + size) || decide (576 * 8 < cut + size) ||
    (decide (cut < 8 * (base + size)) && decide (8 * base < cut + size)))

/-- The race window register after a write of `value`. -/
def Regs.writeWindow (r : Regs) (value : DWord) (busy : Bool) : Regs :=
  let v := value &&& 0x00001FFF03FF03FF
  let n := v.toNat
  if windowBad (n % 1024) (n / 2 ^ 16 % 1024) (n / 2 ^ 32) then { r with racewin := status64 r.racewin regBadSize }
  else if busy then { r with racewin := status64 r.racewin regBusy }
  else { r with racewin := status64 r.racewin regPending, racewinNew := some v }

def execRegwrRaceWindow (fn : Nat) (tag value : DWord) (s : State) : Host.Outcome State Fault Refusal :=
  regwrMove (.regwrRaceWindow fn tag value) fn tag true (fun r => r.racewinNew.isSome) s fun s =>
    { s with regs := s.regs.writeWindow value (s.dev.disp.launches.any fun l => l.accepted && l.hdr.race != 0) }

/-- The new window in effect; metadata of HBM lines that the L2 holds, none of a live kernel, goes. -/
def State.applyWindow (s : State) (v : DWord) : State :=
  { s with regs := { s.regs with racewin := v, racewinNew := none },
           dev := s.dev.modMem fun m => { m with rmeta := m.rmeta.filter fun p => decide (lineOf (pkey 1 0) ≤ p.1) } }

def execRaceWindowApplied (s : State) : Host.Outcome State Fault Refusal :=
  match s.regs.racewinNew with
  | none => .next s
  | some v => .next (s.applyWindow v)

/-- GAP as a write stores it: 0 leaves it unchanged, 24 to 31 store 23. -/
def gapStored (old new : Nat) : Nat := if new = 0 then old else min new 23

/-- The power setpoint register after a write of `value`; MEASW stays. -/
def Regs.writePower (r : Regs) (value : DWord) : Regs :=
  let gap := gapStored (r.power.toNat / 2 ^ 24 % 32) (value.toNat / 2 ^ 24 % 32)
  { r with power := (r.power &&& 0x0000FFFF00000000) ||| (value &&& 0x0000000080FFFFFF) ||| BitVec.ofNat 64 (gap % 32 * 2 ^ 24) }

def execRegwrPowerSetpoint (fn : Nat) (tag value : DWord) (s : State) : Host.Outcome State Fault Refusal :=
  regwrMove (.regwrPowerSetpoint fn tag value) fn tag false (fun _ => false) s fun s => { s with regs := s.regs.writePower value }

def maskSventry : DWord := 0x01FFFFFFFFFFFFFF
def maskSvbase : DWord := 0x01FFFFFFFFFFE000
def maskCtxtab : DWord := 0x01FFFFFFFFFFFFC0

/-- SVENTRY may also be written while the supervisor weft of some core is frozen (R271, R272). -/
def execRegwrSventry (fn : Nat) (tag value : DWord) (s : State) : Host.Outcome State Fault Refusal :=
  regwrMove (.regwrSventry fn tag value) fn tag true (fun r => r.sventryNew.isSome) s fun s =>
    let r := s.regs
    if !s.dev.bolts.isEmpty && !s.dev.cores.any (·.2.frozen) then { s with regs := { r with sventry := status64 r.sventry regBusy } }
    else { s with regs := { r with sventry := status64 r.sventry regPending, sventryNew := some (value &&& maskSventry) } }

def execRegwrSvbase (fn : Nat) (tag value : DWord) (s : State) : Host.Outcome State Fault Refusal :=
  regwrMove (.regwrSvbase fn tag value) fn tag true (fun r => r.svbaseNew.isSome) s fun s =>
    let r := s.regs
    if !s.dev.bolts.isEmpty then { s with regs := { r with svbase := status64 r.svbase regBusy } }
    else { s with regs := { r with svbase := status64 r.svbase regPending, svbaseNew := some (value &&& maskSvbase) } }

def execRegwrCtxtab (fn : Nat) (tag value : DWord) (s : State) : Host.Outcome State Fault Refusal :=
  regwrMove (.regwrCtxtab fn tag value) fn tag true (fun r => r.ctxtabNew.isSome) s fun s =>
    let r := s.regs
    if !s.dev.bolts.isEmpty then { s with regs := { r with ctxtab := status64 r.ctxtab regBusy } }
    else { s with regs := { r with ctxtab := status64 r.ctxtab regPending, ctxtabNew := some (value &&& maskCtxtab) } }

/-- The parked entries of a weft whose park carries a record, with that park (R272). -/
def Weft.recorded (w : Weft) : List (Entry × Park) :=
  let all := w.entries ++ (match w.handler with | some h => [h.entry] | none => [])
  all.filterMap fun e =>
    if e.state = .park then (w.parks.find? fun p => p.posted && BitVec.ofNat 32 p.num == e.aux).map fun p => (e, p) else none

/-- The steps of R272 on a core whose supervisor weft is frozen. -/
def Dev.restartSup (d : Dev) (regs : Regs) (core : Nat) : Dev :=
  let d := (d.dropWefts fun r => r == supRef core).abortColls regs fun k => k.bolt == 0 && k.core == core
  let d := (d.writeVa regs core d.space0 (regs.area core + 8) 8 (d.core core).nextSeq).2.modCore core fun c => { c with overflow := [] }
  let d := (d.writeVa regs core d.space0 (regs.area core + 0x10) 8 0).2
  let users := (List.range 64).filterMap fun k =>
    let r : WRef := { core := core, shuttle := k / 16, slot := k % 16 }
    (d.weft? r).map fun w => (r, w)
  let d := users.foldl (fun d x => x.2.recorded.foldl (fun d y =>
    let rep : Report :=
      { ref := x.1, ctx := x.2.ctx, asid := x.2.asid, cause := y.2.cause.toNat, sub := y.2.sub.toNat, lanes := y.2.lanes, pc := y.1.pc,
        resume := y.1.resume, depth := y.1.depth, addr := y.2.addr.toNat, aux := y.2.aux.toNat, time := d.clockOf x.1 }
    d.post regs core rep.words) d) d
  (d.modCore core fun c => { c with frozen := false }).startSup regs core

/-- SUPERVISOR_REGISTER_APPLIED: every pending write of SVENTRY, SVBASE and CTXTAB. A change applies only while no bolt is resident or swapped,
but for a write of SVENTRY while a supervisor weft is frozen (R271, R272). -/
def execSupervisorRegisterApplied (s : State) : Host.Outcome State Fault Refusal :=
  let r := s.regs
  let still := s.dev.bolts.isEmpty
  let entry := still || s.dev.cores.any (·.2.frozen)
  let take (ok : Bool) (old : DWord) (new : Option DWord) : DWord × Option DWord := if ok then (new.getD old, none) else (old, new)
  let a := take entry r.sventry r.sventryNew
  let b := take still r.svbase r.svbaseNew
  let c := take still r.ctxtab r.ctxtabNew
  let regs : Regs := { r with sventry := a.1, sventryNew := a.2, svbase := b.1, svbaseNew := b.2, ctxtab := c.1, ctxtabNew := c.2 }
  let frozen := if r.sventryNew.isSome then (s.dev.cores.filter (·.2.frozen)).map (·.1) else []
  .next { s with regs := regs, dev := frozen.foldl (fun d c => d.restartSup regs c) s.dev }

/-- The register that REGRD names. -/
def Regs.byId (r : Regs) (id : Nat) : Option DWord :=
  match id with
  | 1 => some (r.carve.zeroExtend 64)
  | 2 => some r.racewin
  | 3 => some r.power
  | 4 => some r.sventry
  | 5 => some r.svbase
  | 6 => some r.ctxtab
  | _ => none

def execRegrd (fn : Nat) (tag id : DWord) (s : State) : Host.Outcome State Fault Refusal :=
  ctrlMove (.regrd fn tag id) fn s fun s =>
    if fn ≠ 0 then s.reply fn tag stDenied
    else match s.regs.byId id.toNat with
      | some v => s.reply fn tag stOk [v]
      | none => s.reply fn tag stBadCmd

/-! ### Queues, counters, contexts -/

/-- Whether PF0 is kept from a thing of a VF's TDI in RUN (R313). -/
def Dev.guarded (d : Dev) (fn owner : Nat) : Bool := fn == 0 && d.runs owner

def execQconf (fn : Nat) (tag : DWord) (queue ctx level dev gate : Nat) (s : State) : Host.Outcome State Fault Refusal :=
  ctrlMove (.qconf fn tag queue ctx level dev gate) fn s fun s =>
    let q := Tab.getD Queue.reset s.dev.disp.queues queue
    let sec := s.sec
    if !(fn == 0 || q.fn == fn && sec.owns fn ctx) || s.dev.guarded fn q.fn || s.dev.guarded fn (sec.fnOf ctx) then s.reply fn tag stDenied
    else if queue = 0 || 1024 < queue || 65536 ≤ ctx || 23 < level || 1 < dev || 1 < gate then s.reply fn tag stBadCmd
    else
      let q : Queue :=
        { owner := BitVec.ofNat 16 ctx, fn := sec.fnOf ctx, level := level, dev := dev == 1, gate := gate == 1,
          credits := if gate = 1 ∧ q.gate then q.credits else 0 }
      let s : State := { s with dev := { s.dev with disp := { s.dev.disp with queues := Tab.put s.dev.disp.queues queue q } } }
      s.reply fn tag stOk

/-- CTRASSIGN: the counters of the blocks, and with them the context and its queues, go to a function. -/
def execCtrassign (fn : Nat) (tag : DWord) (first blocks ctx target : Nat) (s : State) : Host.Outcome State Fault Refusal :=
  ctrlMove (.ctrassign fn tag first blocks ctx target) fn s fun s =>
    let ids := (List.range (64 * blocks)).map (first + ·)
    let sec := s.sec
    if fn ≠ 0 then s.reply fn tag stDenied
    else if first % 64 ≠ 0 || 4096 < first + 64 * blocks || 65536 ≤ ctx || 16 < target then s.reply fn tag stBadCmd
    else if s.dev.runs target || s.dev.runs (sec.fnOf ctx) || ids.any fun i => s.dev.runs (s.dev.counter i).fn then s.reply fn tag stDenied
    else
      let c : BitVec 16 := BitVec.ofNat 16 ctx
      let d := ids.foldl (fun d i => d.modCtr i fun k => { k with ctx := some c, fn := target }) s.dev
      let queues := d.disp.queues.map fun p => if p.2.owner = c then (p.1, { p.2 with fn := target }) else p
      let s : State :=
        { s with sec := { sec with ctxFn := Tab.put sec.ctxFn ctx target }, dev := { d with disp := { d.disp with queues := queues } } }
      s.reply fn tag stOk

/-- Whether a function may act on a counter. -/
def Dev.ownsCtr (d : Dev) (fn id : Nat) : Bool := fn == 0 || (d.counter id).fn == fn

def execCtrset (fn : Nat) (tag : DWord) (id : Nat) (value : DWord) (s : State) : Host.Outcome State Fault Refusal :=
  ctrlMove (.ctrset fn tag id value) fn s fun s =>
    if !s.dev.ownsCtr fn id then s.reply fn tag stDenied
    else if 4096 ≤ id then s.reply fn tag stBadCmd
    else
      let f := s.dev.atomFlags 0 (.counter id) false
      let s : State := { s with dev := s.dev.ctrOp id fun c => { c with value := value, flags := BitVec.ofNat 2 f } }
      s.reply fn tag stOk

def execCtrlKill (fn : Nat) (tag : DWord) (ctx : Nat) (s : State) : Host.Outcome State Fault Refusal :=
  ctrlMove (.ctrlKill fn tag ctx) fn s fun s =>
    if !s.sec.owns fn ctx then s.reply fn tag stDenied
    else if 65536 ≤ ctx then s.reply fn tag stBadCmd
    else
      let s : State := { s with dev := s.dev.killCtx s.regs (BitVec.ofNat 16 ctx) (Config.killCause 0) }
      s.reply fn tag stOk

/-- Wefts of a context, by place. -/
def Dev.ctxWefts (d : Dev) (ctx : BitVec 16) : List (WRef × Weft) :=
  d.wefts.filterMap fun p => if !p.2.sup && p.2.ctx == ctx then some (refOfKey p.1, p.2) else none

/-- SIGNAL from the host: a record in the ring of each core that holds wefts of the context (R277). -/
def Dev.signalCtx (d : Dev) (regs : Regs) (ctx : BitVec 16) (num : Nat) : Dev :=
  let ws := d.ctxWefts ctx
  ((ws.map fun p => p.1.core).eraseDups).foldl (fun d core =>
    let asid := ((ws.find? fun p => p.1.core == core).map fun p => p.2.asid).getD 0
    let ref : WRef := { core := core, shuttle := 0, slot := 0 }
    let rep : Report :=
      { ref := ref, ctx := ctx, asid := asid, cause := 0x1B, sub := num, lanes := 0, pc := 0, resume := 0, depth := 0, addr := 0, aux := num,
        time := d.clockOf ref }
    d.post regs core rep.words) d

def execCtrlSignal (fn : Nat) (tag : DWord) (ctx num : Nat) (s : State) : Host.Outcome State Fault Refusal :=
  ctrlMove (.ctrlSignal fn tag ctx num) fn s fun s =>
    if !s.sec.owns fn ctx then s.reply fn tag stDenied
    else if 65536 ≤ ctx then s.reply fn tag stBadCmd
    else
      let s : State := { s with dev := s.dev.signalCtx s.regs (BitVec.ofNat 16 ctx) num }
      s.reply fn tag stOk

/-- Whether a function may act on an address space: PF0, or the VF of a context whose record names it. -/
def State.ownsAsid (s : State) (fn asid : Nat) : Bool :=
  fn == 0 || s.sec.ctxFn.any fun p => p.2 == fn &&
    match s.dev.readCtx s.regs (BitVec.ofNat 16 p.1) with
    | (.ok ws, _) => nfld (ws.getD 0 0).toNat 16 16 == asid
    | (.error _, _) => false

/-- TLBINV from the host; the response follows at TLBINV_COMPLETE (R295). -/
def execCtrlTlbinv (fn : Nat) (tag : DWord) (scope : InvScope) (va : DWord) (asid : Nat) (s : State) : Host.Outcome State Fault Refusal :=
  ctrlMove (.ctrlTlbinv fn tag scope va asid) fn s fun s =>
    if fn ≠ 0 && (scope == .all || !s.ownsAsid fn asid) then s.reply fn tag stDenied
    else if 65536 ≤ asid then s.reply fn tag stBadCmd
    else { s with dev := s.dev.startInv none scope (va.toNat % 2 ^ 57) asid (some (fn, tag)) }

/-- KEYLOAD from a VF whose TDI is in RUN, for one of its own contexts (R314). -/
def execKeyload (fn : Nat) (tag : DWord) (ctx slot : Nat) (key : BitVec 256) (s : State) : Host.Outcome State Fault Refusal :=
  ctrlMove (.keyload fn tag ctx slot key) fn s fun s =>
    if fn = 0 || !s.dev.runs fn || s.sec.fnOf ctx ≠ fn then s.reply fn tag stDenied
    else if 65536 ≤ ctx || 16 ≤ slot then s.reply fn tag stBadCmd
    else
      let s : State := { s with dev := { s.dev with keys := Tab.put s.dev.keys (16 * ctx + slot) { key := key, last := 0 } } }
      s.reply fn tag stOk

/-! ### Calls and events (R276, R296, R305, R306, R317) -/

/-- Lanes that stand in PARK under a park number. -/
def Weft.lanesUnder (w : Weft) (num : Nat) : Lanes :=
  let here (e : Entry) : Bool := e.state == .park && e.aux == BitVec.ofNat 32 num
  ((w.entries ++ (match w.handler with | some h => [h.entry] | none => [])).filter here).foldl (fun m e => m ||| e.mask) 0

/-- Results of a call in v0 of its lanes, which then resume; a forwarded page fault has none to write. -/
def Dev.answerPark (d : Dev) (regs : Regs) (ref : WRef) (p : Park) (lanes : Lanes) (results : List Word) : Dev :=
  match d.weft? ref with
  | none => d
  | some w =>
    let w := if p.cause = 0x1A then ((lanesOf lanes).zip results).foldl (fun w x => w.setV x.1 0 x.2) w else w
    (d.putW ref w).resumeWeft regs ref w lanes

/-- SYSCALL_FORWARD: a request in a buffer of queue 1,025, for a call or page fault that the supervisor has not forwarded yet. -/
def execSyscallForward (core : Nat) (ref : WRef) (parkNo : Nat) (s : State) : Host.Outcome State Fault Refusal :=
  let d := s.dev
  match d.weft? ref with
  | none => .next s
  | some w =>
    match w.parks.find? fun p => p.num == parkNo && p.posted && p.token.isNone && (p.cause == 0x1A || p.cause == 0x10) with
    | none => .next s
    | some p =>
      let lanes := w.lanesUnder parkNo
      if ref.core ≠ core || w.sup || lanes = 0 || !d.fnLive (s.sec.fnOf w.ctx.toNat) then .next s
      else
        let t := d.host.nextToken
        let (k, d) := d.draw
        let service := if p.cause = 0x1A then p.aux.toNat % 2 ^ 32 else (Config.freeValue k).toNat % 2 ^ 32
        let words : List DWord := [BitVec.ofNat 64 t, BitVec.ofNat 64 (w.ctx.toNat * 2 ^ 48 + service), lanes, 0]
        let args := (lanesOf lanes).flatMap fun l => (List.range 6).map fun j => w.v l j
        let w : Weft := { w with parks := w.parks.map fun x => if x.num = parkNo then { x with token := some t } else x }
        let d := (d.putW ref w).say (.syscall words args)
        .next { s with dev := { d with host := { d.host with
          nextToken := t + 1, calls := d.host.calls ++ [{ token := t, core := core, ref := ref, park := parkNo, lanes := lanes }] } } }

/-- SYSREPLY: the results of a waiting call, one for each of its lanes. -/
def execSysreply (fn : Nat) (tag token : DWord) (results : List Word) (s : State) : Host.Outcome State Fault Refusal :=
  ctrlMove (.sysreply fn tag token results) fn s fun s =>
    let d := s.dev
    match d.host.calls.find? (·.token == token.toNat) with
    | none => s.reply fn tag stBadCmd
    | some k =>
      match d.weft? k.ref with
      | none => s.reply fn tag stBadCmd
      | some w =>
        match w.parks.find? (·.num == k.park) with
        | none => s.reply fn tag stBadCmd
        | some p =>
          if !s.sec.owns fn w.ctx.toNat then s.reply fn tag stDenied
          else if results.length ≠ (lanesOf k.lanes).length then s.reply fn tag stBadCmd
          else
            let d : Dev := { d with host := { d.host with calls := d.host.calls.filter (·.token != k.token) } }
            let s : State := { s with dev := d.answerPark s.regs k.ref p k.lanes results }
            s.reply fn tag stOk

/-- EVENT_POST: the count of dropped records first, then the oldest that waits. -/
def execEventPost (s : State) : Host.Outcome State Fault Refusal :=
  let h := s.dev.host
  if h.dropped ≠ 0 then
    let w : List DWord := [6, BitVec.ofNat 64 h.us, BitVec.ofNat 64 h.dropped, 0]
    .next { s with dev := { s.dev with host := { h with dropped := 0, out := h.out ++ [.event w] } } }
  else match h.waiting with
    | [] => .next s
    | w :: ws => .next { s with dev := { s.dev with host := { h with waiting := ws, out := h.out ++ [.event w] } } }

/-! ### Counter slots (R307 to R309) and other registers -/

/-- Whether a function's region shows a counter's slot, and its accesses are served. -/
def State.showsCtr (s : State) (fn id : Nat) : Bool :=
  decide (id < 4096) && decide (fn ≤ 16) && s.dev.ownsCtr fn id && s.dev.ctrLive id

def execCounterAddWrite (fn id : Nat) (value : DWord) (s : State) : Host.Outcome State Fault Refusal :=
  .next (if s.showsCtr fn id then { s with dev := s.dev.ctrAdd id value false } else s)

def execTriggerControlWrite (fn id : Nat) (value : DWord) (s : State) : Host.Outcome State Fault Refusal :=
  .next (if s.showsCtr fn id then { s with dev := s.dev.ctrControl id value false } else s)

/-- What a host read of `size` bytes at an offset of shared memory region 0 of a function returns (R4, R307, R308): the registers of a slot that
the region shows, by aligned accesses of 8 bytes; ADD is write-only, and it, the reserved words, other accesses and other slots read zero. -/
def State.hostRead (s : State) (fn offset size : Nat) : DWord :=
  let c := s.dev.counter (offset / 64)
  if size ≠ 8 || !s.showsCtr fn (offset / 64) then 0
  else match offset % 64 with
    | 0x00 => c.value
    | 0x10 => c.tthr
    | 0x18 => c.controlWord
    | _ => 0

/-- A write of a slot: TTHR is stored, ADD and the trigger word act as their own writes do, the rest is read-only; an access that is no aligned
access of 8 bytes is dropped (R307). -/
def State.writeSlot (s : State) (fn id offset size : Nat) (value : DWord) : State :=
  if size ≠ 8 || !s.showsCtr fn id then s
  else match offset with
    | 0x08 => { s with dev := s.dev.ctrAdd id value false }
    | 0x10 => { s with dev := s.dev.modCtr id fun c => { c with tthr := value } }
    | 0x18 => { s with dev := s.dev.ctrControl id value false }
    | _ => s

/-- What is pending of a function goes out as far as it is unmasked (R309). -/
def Dev.flushMsix (d : Dev) (fn : Nat) : Dev :=
  (d.host.msixPend.filter fun p => p.1 == fn).foldl (fun d p => d.sendMsix p.1 p.2) d

/-- The mask bit of a vector of a function, and the mask of a function: bit [0] of the value written, as PCI Express has them (R309; PRESUMED,
notes/assumptions/69.md). -/
def Dev.maskVector (d : Dev) (fn vector : Nat) (mask : Bool) : Dev :=
  let others := d.host.msixOpen.filter (· != (fn, vector))
  ({ d with host := { d.host with msixOpen := if mask then others else others ++ [(fn, vector)] } } : Dev).flushMsix fn

def Dev.maskFunction (d : Dev) (fn : Nat) (mask : Bool) : Dev :=
  let others := d.host.msixOff.filter (· != fn)
  ({ d with host := { d.host with msixOff := if mask then others ++ [fn] else others } } : Dev).flushMsix fn

/-- Bit [0] of 1 binds a VF as a TDI in CONFIG_UNLOCKED; 0 takes back the binding of one that is in CONFIG_UNLOCKED or ERROR (R313). That a
host register binds it is PRESUMED (notes/assumptions/69.md). -/
def Dev.bindTdi (d : Dev) (vf : Nat) (bind : Bool) : Dev :=
  match Tab.find? d.host.tdi vf, bind with
  | none, true => { d with host := { d.host with tdi := Tab.put d.host.tdi vf .unlocked } }
  | some .unlocked, false | some .error, false => { d with host := { d.host with tdi := Tab.del d.host.tdi vf } }
  | _, _ => d

/-- REGISTER_WRITE (R4). -/
def execRegisterWrite (fn : Nat) (reg : HostReg) (size : Nat) (value : DWord) (s : State) : Host.Outcome State Fault Refusal :=
  .next <| match reg with
    | .slot id offset => s.writeSlot fn id offset size value
    | .msixVector v => if fn ≤ 16 ∧ v < msixVectors fn then { s with dev := s.dev.maskVector fn v (value.getLsbD 0) } else s
    | .msixFunction => if fn ≤ 16 then { s with dev := s.dev.maskFunction fn (value.getLsbD 0) } else s
    | .tdiBind vf => if fn = 0 ∧ 1 ≤ vf ∧ vf ≤ 16 then { s with dev := s.dev.bindTdi vf (value.getLsbD 0) } else s

/-- OBSERVATION_CLEAR of a core's block or a shuttle's (R355). -/
def execObservationClear (ofCore : Bool) (id : Nat) (s : State) : Host.Outcome State Fault Refusal :=
  .next { s with dev := if (if ofCore then coreCount else 4 * coreCount) ≤ id then s.dev
                        else if ofCore then s.dev.modCore id fun c => { c with fills := [] }
                        else s.dev.modSh id fun x => { x with bins := [], stalls := [] } }

/-! ### Firmware (R316, R317) -/

/-- FWSTAGE: an image in host memory whose signature holds and whose version is not below the roll-back counter. -/
def execFwstage (fn : Nat) (tag addr : DWord) (len : Nat) (s : State) : Host.Outcome State Fault Refusal :=
  ctrlMove (.fwstage fn tag addr len) fn s fun s =>
    let lo := pkey 1 addr.toNat
    if fn ≠ 0 then s.reply fn tag stDenied
    else if 2 ^ 52 < addr.toNat + len || s.dev.mem.poison.any fun l => decide (lo < 64 * l + 64) && decide (64 * l < lo + len) then
      s.reply fn tag stFault
    else
      let image := s.dev.homeBytes lo len
      if !Config.imageSigned image || Config.imageVersion image < s.sec.rollback then s.reply fn tag stFault
      else ({ s with sec := { s.sec with staged := some image } } : State).reply fn tag stOk

/-- FWSWITCH: the switch begins; with no image staged it fails. -/
def execFwswitch (fn : Nat) (tag : DWord) (s : State) : Host.Outcome State Fault Refusal :=
  ctrlMove (.fwswitch fn tag) fn s fun s =>
    if fn ≠ 0 then s.reply fn tag stDenied
    else if s.sec.staged.isNone then s.reply fn tag stFault
    else ({ s with sec := { s.sec with switching := true } } : State).reply fn tag stOk

/-- FW_CALL_DEADLINE: a call that the service cores are serving returns AGAIN. -/
def execFwCallDeadline (core : Nat) (ref : WRef) (parkNo : Nat) (s : State) : Host.Outcome State Fault Refusal :=
  match s.dev.weft? ref with
  | none => .next s
  | some w =>
    match w.parks.find? fun p => p.num == parkNo && p.posted && p.token.isNone && p.cause == 0x1A with
    | none => .next s
    | some p =>
      let lanes := w.lanesUnder parkNo
      if !s.sec.switching || ref.core ≠ core || lanes = 0 then .next s
      else .next { s with dev := s.dev.answerPark s.regs ref p lanes ((lanesOf lanes).map fun _ => 0xFFFFFFF5) }

/-- FWSWITCH_COMPLETE: event 2 with the versions, the roll-back counter, and what was held, served in arrival order. -/
def execFwswitchComplete (ok : Bool) (s : State) : Host.Outcome State Fault Refusal :=
  if !s.sec.switching then .next s
  else
    let old := s.sec.version
    match s.sec.staged, ok with
    | some image, true =>
      let new := Config.imageVersion image
      let d := s.dev.event 2 old new
      let sec : Sec := { s.sec with switching := false, staged := none, running := some image, version := new, rollback := max s.sec.rollback new }
      .next ({ s with sec := sec, dev := { d with host := { d.host with image := d.host.image + 1 } } } : State).releaseHeld
    | _, _ => .next ({ s with sec := { s.sec with switching := false }, dev := s.dev.event 2 old old } : State).releaseHeld

/-! ### Chains of the queues (R246, R302, R303, R356) -/

/-- Bytes of two words as a 128-bit value, and of four as a key. -/
def wide2 (a b : DWord) : BitVec 128 := BitVec.ofNat 128 (a.toNat + 2 ^ 64 * b.toNat)
def wide4 (a b c d : DWord) : BitVec 256 := BitVec.ofNat 256 (a.toNat + 2 ^ 64 * b.toNat + 2 ^ 128 * c.toNat + 2 ^ 192 * d.toNat)

/-- The first `n` 32-bit words of a list of 64-bit words. -/
def halvesOf (n : Nat) (ws : List DWord) : List Word :=
  (ws.flatMap fun w => [BitVec.ofNat 32 w.toNat, BitVec.ofNat 32 (w.toNat / 2 ^ 32)]).take n

/-- The control command of OP `op` with a payload of `len` bytes, none for an unknown OP or a payload of another form (R303). PRESUMED (log 69):
the payload holds the fields of the table in their order, 8 bytes each. -/
def ctrlRequest (fn op len : Nat) (tag : DWord) (p : List DWord) : Option Instr :=
  let n (i : Nat) : Nat := (p.getD i 0).toNat
  match op, p, len with
  | 0x01, [id, v], 16 =>
    match id.toNat with
    | 1 => some (.regwrL2Carve fn tag v)
    | 2 => some (.regwrRaceWindow fn tag v)
    | 3 => some (.regwrPowerSetpoint fn tag v)
    | 4 => some (.regwrSventry fn tag v)
    | 5 => some (.regwrSvbase fn tag v)
    | 6 => some (.regwrCtxtab fn tag v)
    | _ => none
  | 0x02, [id], 8 => some (.regrd fn tag id)
  | 0x03, [_, _, _, _, _], 40 => some (.qconf fn tag (n 0) (n 1) (n 2) (n 3) (n 4))
  | 0x04, [_, _, _, _], 32 => some (.ctrassign fn tag (n 0) (n 1) (n 2) (n 3))
  | 0x05, [_, v], 16 => some (.ctrset fn tag (n 0) v)
  | 0x06, [_], 8 => some (.ctrlKill fn tag (n 0))
  | 0x07, [_, _], 16 => some (.ctrlSignal fn tag (n 0) (n 1))
  | 0x08, [_, va, _], 24 =>
    match n 0 with
    | 0 => some (.ctrlTlbinv fn tag .page va (n 2))
    | 1 => some (.ctrlTlbinv fn tag .asid va (n 2))
    | 2 => some (.ctrlTlbinv fn tag .all va (n 2))
    | _ => none
  | 0x09, [a], 8 => some (.migrate fn tag a)
  | 0x0A, [_, _, a, b, c, d], 48 => some (.keyload fn tag (n 0) (n 1) (wide4 a b c d))
  | 0x0B, token :: rest, len =>
    if 8 ≤ len ∧ len % 4 = 0 ∧ rest.length = (len - 8 + 7) / 8 then some (.sysreply fn tag token (halvesOf ((len - 8) / 4) rest)) else none
  | 0x0C, [a, _], 16 => some (.fwstage fn tag a (n 1))
  | 0x0D, [], 0 => some (.fwswitch fn tag)
  | _, _, _ => none

/-- The same for the debug commands of queue 1,027 (R356); the payload of OP 0x05 begins with the context and with 0 STOP, 1 RUN, 2 DUMP. -/
def debugRequest (fn op len : Nat) (tag : DWord) (p : List DWord) : Option Instr :=
  let n (i : Nat) : Nat := (p.getD i 0).toNat
  match op, p, len with
  | 0x01, [_, a, b], 24 => some (.token fn tag (n 0) (wide2 a b))
  | 0x02, [_, a, b], 24 => some (.unlock fn tag (n 0) (wide2 a b))
  | 0x03, [_], 8 => some (.lock fn tag (n 0))
  | 0x04, [_, ring, _, start, stop], 40 => some (.trace fn tag (n 0) ring (n 2) start stop)
  | 0x05, [_, _, _, _, buf, _], 48 =>
    match n 1 with
    | 0 => some (.debugStop fn tag (n 0) (n 2) (n 3))
    | 1 => some (.debugRun fn tag (n 0) (n 2) (n 3))
    | 2 => some (.debugDump fn tag (n 0) (n 2) (n 3) buf (n 5))
    | _ => none
  | 0x06, [_, _, _], 24 => some (.obsrd fn tag (n 0) (n 1) (n 2))
  | 0x07, [_, area, _], 24 => some (.capture fn tag (n 0) area (n 2))
  | _, _, _ => none

/-- A request of a queue of commands: one that it knows is the next thing done, any other is answered BADCMD (R303). -/
def State.request (s : State) (fn : Nat) (read : Nat → Nat → Nat → DWord → List DWord → Option Instr) (words : List DWord) : State :=
  let head := (words.getD 0 0).toNat
  match read fn (head % 65536) (head / 2 ^ 32) (words.getD 1 0) (words.drop 2) with
  | some i => { s with agenda := .event i :: s.agenda }
  | none => s.reply fn (words.getD 1 0) stBadCmd

/-- Whether a chain of `n` readable words and `writable` bytes has the shape that its queue asks for (R246, R302, R356). -/
def chainFits (queue n writable : Nat) : Bool :=
  if queue = 0 then decide (2 ≤ n) && decide (16 ≤ writable)
  else if queue ≤ 1024 then n == 16 && decide (32 ≤ writable)
  else if queue = 1025 then n == 0 && decide (1568 ≤ writable)
  else if queue = 1026 then n == 0 && decide (32 ≤ writable)
  else if n = 0 then decide (32 ≤ writable) else decide (2 ≤ n) && decide (16 ≤ writable)

/-- The greatest size of a function's queue: 0 where it has none (R302). -/
def State.queueSize (s : State) (fn queue : Nat) : Nat :=
  if 1027 < queue || (decide (1 ≤ queue) && decide (queue ≤ 1024) && (Tab.getD Queue.reset s.dev.disp.queues queue).fn ≠ fn) then 0 else 32768

/-- LAUNCH_CHAIN: a chain of another shape than its queue's, or on a device-owned queue, is marked used with length 0. One on a work queue is a
launch record (R246), one on the control or debug queue a request; a buffer of the queues of calls and events waits for its use. -/
def execLaunchChain (fn queue : Nat) (record : List DWord) (writable : Nat) (s : State) : Host.Outcome State Fault Refusal :=
  hostMove (.launchChain fn queue record writable) fn s fun s =>
    let q := Tab.getD Queue.reset s.dev.disp.queues queue
    if s.queueSize fn queue = 0 then s
    else if !chainFits queue record.length writable || (decide (1 ≤ queue) && decide (queue ≤ 1024) && q.dev) then
      { s with dev := s.dev.say (.used fn queue 0) }
    else if queue = 0 then s.request fn ctrlRequest record
    else if queue ≤ 1024 then { s with dev := s.dev.enqueue queue fn true record writable q.owner [] false }
    else if queue = 1027 && !record.isEmpty then s.request fn debugRequest record
    else s

end Sys2Proof.Machine
end

