-- ==== Sys2Proof/Machine/Debug.lean ====
section
/-! DEFINITION. The command block of a supervisor area and the dump of a shuttle (R282 to R284), the kernel debug queue with its session,
trace and capture (R356 to R361), and the unlocking of the firmware debug domain (R362). -/

namespace Sys2Proof.Machine

/-! ### The records of a dump (R283) -/

def wordsBytes (ws : List Nat) : List Byte := ws.flatMap fun w => natBytes w 8

/-- One record: type, slot, its length with these 16 bytes, and the body (notes/assumptions/38.md). -/
def dumpRec (type slot : Nat) (body : List Byte) : List Byte :=
  wordsBytes [type + slot * 2 ^ 16 + (16 + body.length) * 2 ^ 32, 0] ++ body

def EState.code : EState → Nat
  | .run => 0
  | .yld => 1
  | .wtl => 2
  | .barw => 3
  | .ecw => 4
  | .park => 5

/-- The halves of which a weft keeps banks (R67). -/
def Weft.banks (w : Weft) : List Nat := if w.hdr.c16 then [0, 1] else [0]

/-- Type 2: identity, header, flags, counts, race state, trap registers, progress index, and the special registers of R71 that no record
holds otherwise (R91; notes/assumptions/38.md). -/
def Dev.dumpState (d : Dev) (w : Weft) : List Byte :=
  let b := d.bolt? w.bolt
  let raced := w.hdr.race != 0
  let race := if raced then [w.rclk.toNat, (b.map (·.epoch)).getD 0 % 4096] ++
      ((List.range 8).map fun k => ((w.frontier[k]?.join).map fun f => f.word.toNat).getD 0) ++ [if w.hbsat then 1 else 0]
    else (List.range 11).map fun _ => 0
  wordsBytes ([w.ctx.toNat, (b.map (·.idx)).getD 0, w.widx, w.hdr.w0.toNat, w.hdr.w1.toNat, w.hdr.w2.toNat] ++
    (w.banks.flatMap fun h => (List.range 12).map fun f => (Cells.get w.flags (16 * h + f)).toNat) ++ [w.starve] ++
    (if w.hdr.c16 then w.banks.map fun h => (Cells.get w.skips h).toNat else []) ++ race ++
    [w.trapcause.toNat, w.trappc.toNat, w.trapmask.toNat, w.trapaddr.toNat] ++ (w.banks.map fun h => (Cells.get w.pidx h).toNat) ++
    (w.banks.map fun h => (Cells.get w.fpst h).toNat) ++ [w.kbase.toNat, w.args.toNat, w.asid.toNat])

/-- Type 3: the entries, a running handler's among them, then skip bit and pending signal of each lane. -/
def Weft.dumpTable (w : Weft) : List Byte :=
  let es := w.entries ++ (match w.handler with | some h => [h.entry] | none => [])
  wordsBytes ((es.flatMap fun e =>
      [e.depth + e.resume * 2 ^ 8 + e.state.code * 2 ^ 16 + e.aux.toNat * 2 ^ 32, e.pc.toNat, e.mask.toNat]) ++
    (List.range w.hdr.w).map fun l =>
      (if w.skip.getLsbD l then 1 else 0) + (match Tab.find? w.signals l with | some n => 2 + n.toNat * 2 ^ 8 | none => 0))

/-- Type 4. -/
def Weft.dumpPending (w : Weft) : List Byte := wordsBytes (w.sb.flatMap fun e => [e.first + e.count * 2 ^ 16, e.pc.toNat])

/-- Type 5. -/
def Weft.dumpScalars (w : Weft) : List Byte :=
  wordsBytes (w.banks.flatMap fun h =>
    ((List.range w.hdr.sregs).map fun k => (w.s h k).toNat) ++
      [((List.range 8).map fun k => if w.q h k then 2 ^ k else 0).sum])

/-- Type 6. -/
def Weft.dumpVectors (w : Weft) : List Byte :=
  (List.range w.hdr.w).flatMap fun l =>
    ((List.range (w.hdr.vregs + w.hdr.depth)).flatMap fun r => natBytes (w.v l r).toNat 4) ++
      natBytes ((List.range 8).map fun k => if w.p l k then 2 ^ k else 0).sum 1

/-- Type 7. -/
def Weft.dumpTiles (w : Weft) : List Byte :=
  w.banks.flatMap fun h => (List.range w.hdr.acc).flatMap fun a =>
    ((List.range 256).flatMap fun j => natBytes (w.tile h a (j / 16) (j % 16)).toNat 4) ++
      natBytes (if w.badTiles.contains (tileNo h a) then 0 else 1) 8

/-- The records of a stopped shuttle, the last of which gives the total. -/
def Dev.dumpRecords (d : Dev) (k : Nat) : List (List Byte) :=
  let ws := (List.range 16).filterMap fun j =>
    let r : WRef := { core := k / 4, shuttle := k % 4, slot := j }
    (d.weft? r).map fun w => (r, w)
  let first := dumpRec 1 0 (wordsBytes [k / 4, k % 4, (d.sh k).stopAt.toNat])
  let wefts := ws.flatMap fun x =>
    [dumpRec 2 x.1.slot (d.dumpState x.2), dumpRec 3 x.1.slot x.2.dumpTable, dumpRec 4 x.1.slot x.2.dumpPending,
     dumpRec 5 x.1.slot x.2.dumpScalars, dumpRec 6 x.1.slot x.2.dumpVectors, dumpRec 7 x.1.slot x.2.dumpTiles]
  let cmds := d.cmds.filter fun c => c.core == k / 4 && ws.any fun x => x.2.bolt == c.bolt && x.2.widx == c.widx
  let engine := cmds.map fun c =>
    dumpRec 8 (((ws.find? fun x => x.2.bolt == c.bolt && x.2.widx == c.widx).map fun x => x.1.slot).getD 0)
      (wordsBytes ([c.handle, c.statusWord] ++ (c.desc.getD []).map BitVec.toNat))
  let all := first :: wefts ++ engine
  all ++ [dumpRec 0xFF 0 (wordsBytes [(all.map List.length).sum + 24])]

/-- The whole records that fit in `room` bytes. -/
def fitRecs : Nat → List (List Byte) → List (List Byte)
  | _, [] => []
  | room, r :: rs => if r.length ≤ room then r :: fitRecs (room - r.length) rs else []

/-- Writes bytes until one faults: the offset of that byte, if any. -/
def Dev.writeBytes (d : Dev) (regs : Regs) (core : Nat) (as : ASpace) (va : Nat) : Nat → List Byte → Option Nat × Dev
  | _, [] => (none, d)
  | k, b :: bs =>
    match d.writeVa regs core as ((va + k) % 2 ^ 57) 1 b.toNat with
    | (none, d) => d.writeBytes regs core as va (k + 1) bs
    | (some _, d) => (some k, d)

/-- Whether a byte offset ends whole records only: the bytes of whole records before it. -/
def wholeBytes : Nat → List (List Byte) → Nat
  | _, [] => 0
  | n, r :: rs => if r.length ≤ n then r.length + wholeBytes (n - r.length) rs else 0

/-- DUMP of a shuttle to `buf`: the records, then the header of R284. True when a write faulted. -/
def Dev.dumpTo (d : Dev) (regs : Regs) (k : Nat) (as : ASpace) (buf len : Nat) : Bool × Dev :=
  let recs := d.dumpRecords k
  let need := 64 + (recs.map List.length).sum
  let fit := fitRecs (len - 64) recs
  let stop := (d.sh k).stopAt
  let (bad, d) := d.writeBytes regs (k / 4) as buf 64 fit.flatten
  let done := match bad with | none => (fit.map List.length).sum | some o => wholeBytes (o - 64) fit
  let flags := (if bad.isNone && fit.length = recs.length then 1 else 0) + (if bad.isNone && fit.length < recs.length then 2 else 0) + (if bad.isSome then 4 else 0)
  let hdr : List Nat :=
    [0xD09E * 2 ^ 48 + k / 4 % 1024 * 2 ^ 30 + k % 4 * 2 ^ 28 + flags, done, need, (match bad with | some o => (buf + o) % 2 ^ 57 | none => 0),
     bad.getD 0, stop.toNat, 0, 0]
  let (bad2, d) := d.writeBytes regs (k / 4) as buf 0 (wordsBytes hdr)
  (bad.isSome || bad2.isSome, d)

/-! ### Stopping a shuttle (R282) -/

/-- STOP: the pick in progress of a user weft is suspended at its next word, and every resident weft of the shuttle freezes. -/
def Dev.stopShuttle (d : Dev) (k : Nat) : Dev :=
  let d := match (d.sh k).run with
    | some run => if run.ref.slot < 16 then d.suspend k run else d
    | none => d
  let d := d.modSh k fun s => { s with stopped := true, stopAt := s.clock }
  { d with wefts := d.wefts.map fun p => if refOnShuttle k (refOfKey p.1) then (p.1, { p.2 with stopped := true }) else p }

/-- The command block as written: OP, ARG, BUF and LEN. -/
structure CmdBlock where
  op : Nat
  arg : Nat
  buf : Nat
  len : Nat

def State.cmdBlock? (s : State) (core : Nat) : Option CmdBlock :=
  match s.dev.readWords s.regs core s.dev.space0 false (s.regs.area core + 0x40) 4 with
  | (.ok [a, b, c, e], _) => some { op := a.toNat, arg := b.toNat, buf := c.toNat, len := e.toNat }
  | _ => none

/-- The end of a command: STATUS, then OP back to 0. -/
def State.cmdEnd (s : State) (core status : Nat) : State :=
  let at_ := s.regs.area core + 0x40
  let d := (s.dev.writeVa s.regs core s.dev.space0 (at_ + 0x20) 1 status).2
  { s with dev := (d.writeVa s.regs core d.space0 at_ 8 0).2 }

/-- A reserved OP or a reserved field set. -/
def CmdBlock.bad (b : CmdBlock) : Bool :=
  decide (4 < b.op) || b.arg / 2 ^ 16 != 0 || (b.op != 4 && b.arg / 4 != 0) ||
    (b.op == 3 && (b.buf % 64 != 0 || b.buf / 2 ^ 57 != 0 || b.len / 2 ^ 32 != 0))

/-- The device acts on a write of OP: on `code` by `f`, which answers the STATUS; a reserved OP or field ends at once. -/
def cmdMove (core code : Nat) (s : State) (f : CmdBlock → Dev → Nat × Dev) : Host.Outcome State Fault Refusal :=
  match s.cmdBlock? core with
  | none => .next s
  | some b =>
    if b.op = 0 || coreCount ≤ core then .next s
    else if b.bad then .next (s.cmdEnd core 2)
    else if b.op ≠ code then .next s
    else
      let (st, d) := f b s.dev
      .next (({ s with dev := d } : State).cmdEnd core st)

def execKillCommand (core : Nat) (s : State) : Host.Outcome State Fault Refusal :=
  cmdMove core 4 s fun b d => (1, d.killCtx s.regs (BitVec.ofNat 16 b.arg) (Config.killCause 0))

def execShuttleStop (core : Nat) (s : State) : Host.Outcome State Fault Refusal :=
  cmdMove core 1 s fun b d => (1, d.stopShuttle (core * 4 + b.arg))

def execShuttleRun (core : Nat) (s : State) : Host.Outcome State Fault Refusal :=
  cmdMove core 2 s fun b d =>
    let k := core * 4 + b.arg
    if (d.sh k).stopped then (1, d.runShuttle k) else (3, d)

def execShuttleDump (core : Nat) (s : State) : Host.Outcome State Fault Refusal :=
  cmdMove core 3 s fun b d =>
    let k := core * 4 + b.arg
    if !(d.sh k).stopped then (3, d)
    else if b.len < 64 then (4, d)
    else
      let (bad, d) := d.dumpTo s.regs k d.space0 b.buf b.len
      (if bad then 5 else 1, d)

/-! ### The kernel debug queue (R356) -/

def Dev.debugOf (d : Dev) (ctx : Nat) : Debug := Tab.getD Debug.reset d.debug ctx
def Dev.putDebug (d : Dev) (ctx : Nat) (g : Debug) : Dev := { d with debug := Tab.put d.debug ctx g }

/-- A debug command of a function on one of its own contexts. -/
def debugMove (i : Instr) (fn : Nat) (tag : DWord) (ctx : Nat) (s : State) (f : State → Debug → State) :
    Host.Outcome State Fault Refusal :=
  hostMove i fn s fun s =>
    if 65536 ≤ ctx then s.reply fn tag stBadCmd
    else if s.sec.fnOf ctx ≠ fn then s.reply fn tag stDenied
    else f s (s.dev.debugOf ctx)

/-- One that needs an unlocked session. -/
def sessionMove (i : Instr) (fn : Nat) (tag : DWord) (ctx : Nat) (s : State) (f : State → Debug → State) :
    Host.Outcome State Fault Refusal :=
  debugMove i fn tag ctx s fun s g => if g.unlocked then f s g else s.reply fn tag stDenied

def execToken (fn : Nat) (tag : DWord) (ctx : Nat) (value : BitVec 128) (s : State) : Host.Outcome State Fault Refusal :=
  debugMove (.token fn tag ctx value) fn tag ctx s fun s g =>
    if g.token.isSome || g.launched then s.reply fn tag stDenied
    else ({ s with dev := s.dev.putDebug ctx { g with token := some value } } : State).reply fn tag stOk

def execUnlock (fn : Nat) (tag : DWord) (ctx : Nat) (value : BitVec 128) (s : State) : Host.Outcome State Fault Refusal :=
  debugMove (.unlock fn tag ctx value) fn tag ctx s fun s g =>
    if s.dev.runs fn || g.token ≠ some value then s.reply fn tag stDenied
    else ({ s with dev := s.dev.putDebug ctx { g with unlocked := true } } : State).reply fn tag stOk

def execLock (fn : Nat) (tag : DWord) (ctx : Nat) (s : State) : Host.Outcome State Fault Refusal :=
  debugMove (.lock fn tag ctx) fn tag ctx s fun s _ =>
    ({ s with dev := s.dev.endSession (BitVec.ofNat 16 ctx) } : State).reply fn tag stOk

/-- TRACE sets the ring and arms the trigger on every shuttle. -/
def execTrace (fn : Nat) (tag : DWord) (ctx : Nat) (ring : DWord) (logn : Nat) (start stop : DWord) (s : State) :
    Host.Outcome State Fault Refusal :=
  sessionMove (.trace fn tag ctx ring logn start stop) fn tag ctx s fun s g =>
    if logn < 4 || 20 < logn || ring.toNat % 64 ≠ 0 || 2 ^ 57 ≤ ring.toNat then s.reply fn tag stBadCmd
    else
      let d := s.dev.putDebug ctx { g with armed := true, ring := ring, logn := logn, start := start, stop := stop }
      let d : Dev := { d with shuttles := d.shuttles.map fun p =>
        (p.1, { p.2 with capOn := p.2.capOn.filter (· != ctx), capOff := p.2.capOff.filter (· != ctx) }) }
      ({ s with dev := d } : State).reply fn tag stOk

/-- Whether a shuttle holds wefts of a context and no others. -/
def Dev.holdsOnly (d : Dev) (k ctx : Nat) : Bool :=
  let cs := d.shuttleCtxs k
  !cs.isEmpty && cs.all fun c => c.toNat == ctx

/-- A command on a shuttle that holds only the session's wefts. -/
def shuttleMove (i : Instr) (fn : Nat) (tag : DWord) (ctx core shuttle : Nat) (s : State) (f : State → Nat → State) :
    Host.Outcome State Fault Refusal :=
  sessionMove i fn tag ctx s fun s _ =>
    if 1024 ≤ core || 4 ≤ shuttle then s.reply fn tag stBadCmd
    else if !s.dev.holdsOnly (core * 4 + shuttle) ctx then s.reply fn tag stDenied
    else f s (core * 4 + shuttle)

def execDebugStop (fn : Nat) (tag : DWord) (ctx core shuttle : Nat) (s : State) : Host.Outcome State Fault Refusal :=
  shuttleMove (.debugStop fn tag ctx core shuttle) fn tag ctx core shuttle s fun s k =>
    ({ s with dev := s.dev.stopShuttle k } : State).reply fn tag stOk

/-- RUN: the breaking lanes go on past their BREAK, whose word their skip bits pass over (R357). -/
def execDebugRun (fn : Nat) (tag : DWord) (ctx core shuttle : Nat) (s : State) : Host.Outcome State Fault Refusal :=
  shuttleMove (.debugRun fn tag ctx core shuttle) fn tag ctx core shuttle s fun s k =>
    if !(s.dev.sh k).stopped then s.reply fn tag stBusy
    else ({ s with dev := s.dev.runShuttle k } : State).reply fn tag stOk

def execDebugDump (fn : Nat) (tag : DWord) (ctx core shuttle : Nat) (buf : DWord) (len : Nat) (s : State) :
    Host.Outcome State Fault Refusal :=
  shuttleMove (.debugDump fn tag ctx core shuttle buf len) fn tag ctx core shuttle s fun s k =>
    if !(s.dev.sh k).stopped then s.reply fn tag stBusy
    else if len < 64 || buf.toNat % 64 ≠ 0 || 2 ^ 57 ≤ buf.toNat then s.reply fn tag stBadCmd
    else
      let as := ((s.dev.residents k).head?.map fun p => p.2.space).getD s.dev.space0
      let (bad, d) := s.dev.dumpTo s.regs k as buf.toNat len
      ({ s with dev := d } : State).reply fn tag (if bad then stFault else stOk)

/-- OBSRD: the block of the shuttle, then that of the core (R355). -/
def Dev.obsWords (d : Dev) (core shuttle : Nat) : List DWord :=
  let x := d.sh (core * 4 + shuttle)
  let f := (d.core core).fills
  ((List.range 17).map fun k => (Cells.get x.bins k).zeroExtend 64) ++ ((List.range 16).map fun k => (Cells.get x.stalls k).zeroExtend 64) ++
    [0] ++ ((List.range 8).map fun k => (Cells.get f k).zeroExtend 64) ++ [0]

def execObsrd (fn : Nat) (tag : DWord) (ctx core shuttle : Nat) (s : State) : Host.Outcome State Fault Refusal :=
  sessionMove (.obsrd fn tag ctx core shuttle) fn tag ctx s fun s _ =>
    if 1024 ≤ core || 4 ≤ shuttle then s.reply fn tag stBadCmd
    else s.reply fn tag stOk (s.dev.obsWords core shuttle)

def execCapture (fn : Nat) (tag : DWord) (ctx : Nat) (area : DWord) (len : Nat) (s : State) : Host.Outcome State Fault Refusal :=
  sessionMove (.capture fn tag ctx area len) fn tag ctx s fun s g =>
    let g : Debug := { g with area := area, areaLen := len, areaUsed := 0, capStopped := false, pages := [], due := [], captured := [], copies := [] }
    ({ s with dev := s.dev.putDebug ctx g } : State).reply fn tag stOk

/-! ### The capture of a page (R361) -/

/-- The address space of a context, as its launch in capture uses it. -/
def Dev.captureSpace (d : Dev) (ctx : Nat) : ASpace :=
  ((d.disp.launches.find? fun l => l.captured && l.ctx.toNat == ctx).map (·.space)).getD d.space0

/-- CAPTURE_PAGE_COPY: the contents of a page whose first write waits; a full area stops the capture with a record of kind 4. -/
def execCapturePageCopy (ctx : Nat) (page : Nat) (s : State) : Host.Outcome State Fault Refusal :=
  let d := s.dev
  match Tab.find? d.debug ctx with
  | none => .next s
  | some g =>
    if !g.due.contains page then .next s
    else
      let again (d : Dev) : Dev := d.fabric.colls.foldl (fun d k => d.advanceColl s.regs k.core k.handle) d
      if g.areaLen < g.areaUsed + 4096 then
        let d := d.putDebug ctx { g with capStopped := true, due := [] }
        let ev : List DWord := [BitVec.ofNat 64 (4 * 2 ^ 48 + 5120 * 2 ^ 32), BitVec.ofNat 64 d.host.us, 0, 0]
        .next { s with dev := again (d.say (.debugEvent ev)) }
      else
        match d.place s.regs dispCore (d.captureSpace ctx) (page * 4096) .rd with
        | (.hold, _) => .next s
        | (.fault _, d) =>
          .next { s with dev := again (d.putDebug ctx { g with pages := g.pages ++ [page], due := g.due.filter (· != page) }) }
        | (.ok p, d) =>
          let g : Debug := { g with pages := g.pages ++ [page], due := g.due.filter (· != page), areaUsed := g.areaUsed + 4096,
                                    copies := g.copies ++ [(page, d.homeBytes p.pa 4096)] }
          .next { s with dev := again (d.putDebug ctx g) }

/-! ### The firmware debug domain (R362) -/

/-- FW_DEBUG_UNLOCK: a signed message bound to the SPDM session in progress. -/
def execFwDebugUnlock (signed bound : Bool) (s : State) : Host.Outcome State Fault Refusal :=
  .next (if signed && bound && s.sec.spdm == .session then { s with sec := { s.sec with fwDebug := true } } else s)

end Sys2Proof.Machine
end

