-- ==== Sys2Proof/Machine/Migrate.lean ====
section
/-! DEFINITION. Page migration (R297, R298): the command, the start with round 1, the later rounds, the freeze. -/

namespace Sys2Proof.Machine

/-- MIGRATE: the record at a host address is taken into the waiting list. -/
def execMigrate (fn : Nat) (tag : DWord) (addr : DWord) (s : State) : Host.Outcome State Fault Refusal :=
  ctrlMove (.migrate fn tag addr) fn s fun s =>
    let at_ := pkey 1 addr.toNat
    if 2 ^ 52 < addr.toNat + 32 || s.dev.poisoned at_ || s.dev.poisoned (at_ + 31) then s.reply fn tag stFault
    else
      let w (k : Nat) : Nat := s.dev.homeRd (at_ + 8 * k) 8
      let asid := w 1 % 65536
      if !s.ownsAsid fn asid then s.reply fn tag stDenied
      else
        let g : Mig :=
          { id := s.dev.nextOp, record := at_, va := BitVec.ofNat 57 (w 0 % 2 ^ 57 / 4096 * 4096), asid := BitVec.ofNat 16 asid,
            newTarget := BitVec.ofNat 4 (pteTarget (w 2)), newFrame := pteFrame (w 2), stage := .waiting, leafAt := 0, leaf := 0, size := 0,
            oldPa := 0, newPa := 0, rounds := 0, bits := [] }
        let d : Dev := { s.dev with nextOp := s.dev.nextOp + 1 }
        let s : State := { s with dev := d.modMem fun m => { m with migs := m.migs ++ [g] } }
        s.reply fn tag stOk

/-- The end of a migration: its record's last word, STATUS included. -/
def Dev.endMig (d : Dev) (g : Mig) (status rounds lines freeze : Nat) : Dev :=
  let d := d.modMem fun m => { m with migs := m.migs.filter fun x => x.id != g.id }
  d.homeWr (g.record + 0x18) 8 (freeze % 2 ^ 32 * 2 ^ 32 + lines % 65536 * 65536 + rounds % 256 * 256 + status)

/-- Copies one line of the old frame, with its poison and race metadata. -/
def Dev.copyLine (d : Dev) (regs : Regs) (g : Mig) (k : Nat) : Dev :=
  let a := g.oldPa + 64 * k
  let b := g.newPa + 64 * k
  let d := d.homeWrList b (d.homeBytes a 64)
  let d := if d.poisoned a then d.modMem (fun m => { m with poison := if m.poison.contains (lineOf b) then m.poison else m.poison ++ [lineOf b] })
    else d.clearPoison (lineOf b)
  if regs.tracked (lineOf b) then d.setRmeta (lineOf b) (if regs.tracked (lineOf a) then d.rmetaOf regs (lineOf a) else 0) else d

def Dev.copyLines (d : Dev) (regs : Regs) (g : Mig) (ks : List Nat) : Dev := ks.foldl (fun d k => d.copyLine regs g k) d

def Dev.putMig (d : Dev) (g : Mig) : Dev := d.modMem fun m => { m with migs := m.migs.map fun x => if x.id = g.id then g else x }

def Dev.putMigStage (d : Dev) (id : Nat) (st : MigStage) : Dev :=
  d.modMem fun m => { m with migs := m.migs.map fun x => if x.id = id then { x with stage := st } else x }

/-- Why a request ends at once: its conditions of R297 and R288. -/
def migBad (r : Regs) (g : Mig) (x : Xlate) (vpn pages : Nat) : Bool :=
  let target := g.newTarget.toNat
  let base := g.newFrame * 4096
  let last := base + 4096 * pages - 64
  g.va.toNat / 4096 != vpn || !(x.target == 0 || x.target == 3) || !(target == 0 || target == 3) || g.newFrame % pages != 0 ||
    !physOk r target base || !physOk r target last ||
    decide (target = 0 ∧ base < r.cbase + r.wsize * (128 * mib) ∧ r.cbase < base + 4096 * pages)

/-- MIGRATION_START: the first waiting migration takes one of 16 slots, its leaf is read and round 1 begins. A leaf that another migration
has frozen is waited for. -/
def execMigrationStart (s : State) : Host.Outcome State Fault Refusal :=
  let d := s.dev
  match d.mem.migs.find? fun g => g.stage == .waiting with
  | none => .next s
  | some g =>
    if 16 ≤ (d.mem.migs.filter fun g => g.stage != .waiting).length then .next s
    else match d.walk s.regs (d.spaceOf g.asid) g.va.toNat false with
      | .hold => .next s
      | .fault _ =>
        -- a leaf that is valid but reserves its target breaks a condition of the request; without a valid leaf the page is not mapped
        let bad := match rawLeaf s.regs d g.va.toNat 5 (d.spaceOf g.asid).root with | some e => decide (3 < pteTarget e) | none => false
        .next { s with dev := d.endMig g (if bad then 2 else 4) 0 0 0 }
      | .ok x vpn pages leafAt =>
        if migBad s.regs g x vpn pages then .next { s with dev := d.endMig g 2 0 0 0 }
        else
          let g : Mig :=
            { g with stage := .round, leafAt := leafAt, leaf := BitVec.ofNat 64 (d.homeRd (pkey 0 leafAt) 8), size := 4096 * pages,
                     oldPa := pkey x.target.toNat x.page, newPa := pkey g.newTarget.toNat (g.newFrame * 4096), rounds := 1, bits := [] }
          .next { s with dev := (d.putMig g).copyLines s.regs g (List.range (g.size / 64)) }

/-- What waits for an old-frame address goes on at the new one: accesses translated and not performed, held writes, owned lines, sidecar
entries. -/
def Dev.retarget (d : Dev) (g : Mig) : Dev :=
  let pa (a : Nat) : Nat := if g.oldPa ≤ a ∧ a < g.oldPa + g.size then a - g.oldPa + g.newPa else a
  let line (l : Nat) : Nat := lineOf (pa (64 * l))
  let key (k : SideKey) : SideKey := match k with | .line l => .line (line l) | k => k
  let held (h : Held) : Held := { h with pa := pa h.pa }
  { d with
    ops := d.ops.map fun o =>
      if o.space == .generic || o.space == .const then
        { o with accs := o.accs.map fun a => if pa a.pa = a.pa then a else { a with pa := pa a.pa, target := g.newTarget } }
      else o,
    bolts := d.bolts.map fun b =>
      { b with held := b.held.map held, bank := b.bank.map fun (k : Bank) => { k with held := k.held.map held } },
    wefts := d.wefts.map fun p => (p.1, { p.2 with lastRead := p.2.lastRead.map fun x => (x.1, { x.2 with key := key x.2.key }) }),
    mem := { d.mem with
      owned := d.mem.owned.map (fun o => match o.loc with | .line l => { o with loc := .line (line l) } | _ => o),
      sidecar := d.mem.sidecar.map fun e => { e with key := key e.key } } }

/-- The length of a freeze of `lines` lines, within its bound (R298). -/
def freezeNs (k lines : Nat) : Nat := (Config.freeValue k).toNat % (2001 + (lines - 4) / 4)

/-- The freeze begins (R298 step 4): CHANGED when the leaf is no longer what it was, ACCESSED and DIRTY apart; else MIG is set, the page
invalidated, and its copies written back. From here on an access that translates through the leaf waits. -/
def Dev.freezeMig (d : Dev) (g : Mig) : Dev :=
  let (k, d) := d.draw
  let keep : DWord := ~~~ 0x180
  let now : DWord := BitVec.ofNat 64 (d.homeRd (pkey 0 g.leafAt) 8)
  if now &&& keep ≠ g.leaf &&& keep then d.endMig g 3 g.rounds 0 (freezeNs k 0)
  else
    let d := (d.homeWr (pkey 0 g.leafAt) 8 (now ||| 0x800).toNat).putMigStage g.id .frozen
    let d := d.invalidate { id := 0, ref := none, scope := .page, va := g.va, asid := g.asid, reply := none }
    let mine (line : Nat) : Bool := decide (g.oldPa ≤ 64 * line) && decide (64 * line < g.oldPa + g.size)
    let d := d.mem.marks.foldl (fun d m => if mine m.line then d.promote m.line else d) d
    d.mem.l1.foldl (fun d p => p.2.foldl (fun d l => if mine l.line then d.wbDrop p.1 l.line else d) d) d

/-- The freeze ends (R298 steps 4 and 5): the lines set since are copied, and the leaf is rewritten with MIG clear. -/
def Dev.thawMig (d : Dev) (regs : Regs) (g : Mig) : Dev :=
  let (k, d) := d.draw
  let d := d.copyLines regs g g.bits
  let now : DWord := BitVec.ofNat 64 (d.homeRd (pkey 0 g.leafAt) 8)
  let leaf := (now &&& 0xFF000000000007FF) ||| BitVec.ofNat 64 (g.newTarget.toNat * 2 ^ 52 + g.newFrame % 2 ^ 40 * 4096)
  let d := (d.homeWr (pkey 0 g.leafAt) 8 leaf.toNat).retarget g
  d.endMig g 1 g.rounds g.bits.length (freezeNs k g.bits.length)

/-- MIGRATION_ROUND: a round has finished; another follows while more than four bits are set and fewer than eight have been performed, and
the freeze after the last. A freeze that has begun ends. -/
def execMigrationRound (id : Nat) (s : State) : Host.Outcome State Fault Refusal :=
  match s.dev.mem.migs.find? fun g => g.id == id && g.stage != .waiting with
  | none => .next s
  | some g =>
    if g.stage = .frozen then
      let d := (s.dev.thawMig s.regs g).retryCompletions s.regs
      .next { s with dev := d.fabric.colls.foldl (fun d k => d.advanceColl s.regs k.core k.handle) d }
    else if 4 < g.bits.length ∧ g.rounds < 8 then
      let d := s.dev.putMig { g with rounds := g.rounds + 1, bits := [] }
      .next { s with dev := d.copyLines s.regs g g.bits }
    else
      .next { s with dev := s.dev.freezeMig g }

end Sys2Proof.Machine
end

