-- ==== Sys2Proof/Machine/Settle.lean ====
section
/-! DEFINITION. Intervals of twin copies and their settlement (R344 to R348), and banks (R349). -/

namespace Sys2Proof.Machine

/-! ### The ends of an interval (R344, R346) -/

/-- Where a copy stands at the end of its interval: at barrier 0 or its finish, at a word that both copies must reach, or with a full
hold buffer. -/
inductive IntEnd where
  | whole
  | word (widx pick idx : Nat)
  | full
  deriving DecidableEq, Repr

/-- Whether an engine command of a copy waits for room in its hold buffer. -/
def Dev.engineFull (d : Dev) (b : Bolt) : Bool :=
  d.cmds.any (fun x => x.bolt == b.id && x.status == .active && x.dstk == 0 &&
    decide (holdLimit < b.heldBytes + 64 * (x.due x.off).length)) ||
  d.gathers.any fun g => g.bolt == b.id && g.scatter && decide (holdLimit < b.heldBytes + g.size)

def Dev.endsOf (d : Dev) (b : Bolt) : List IntEnd :=
  (if b.atEnd then [.whole] else []) ++ (if d.engineFull b then [.full] else []) ++
    (d.boltWefts b.id).filterMap fun p => match p.2.twinAt with
      | some t => if t.settled then none else some (if t.full then .full else .word p.2.widx t.pick t.idx)
      | none => none

/-- Whether no weft of a copy can issue before its interval settles. -/
def Dev.stuck (d : Dev) (b : Bolt) : Bool :=
  (d.boltWefts b.id).all fun p => p.2.headNow.isNone || p.2.twinAt.any (!·.settled)

/-- Whether an engine command, GATHER or SCATTER of a bolt is in flight. -/
def Dev.enginesBusy (d : Dev) (b : Bolt) : Bool :=
  d.cmds.any (fun x => x.bolt == b.id && !x.status.final) || d.gathers.any (·.bolt == b.id)

/-- Whether the copies of a bolt have reached the end of their interval together, with every write of it gathered. -/
def Dev.intervalOver (d : Dev) (cs : List Bolt) : Bool :=
  let ends := cs.map d.endsOf
  let common := match ends with
    | e :: es => e.any fun x => es.all (·.contains x)
    | [] => false
  cs.all (fun b => b.st == .resident && !b.bankDue || b.atEnd && b.st == .resident) && ends.all (!·.isEmpty) &&
    cs.all d.quiet && cs.all (fun b => !d.enginesBusy b || d.engineFull b) &&
    (common || ends.any (·.contains .full) || cs.all d.stuck)

/-! ### Settlement (R347) -/

/-- The held writes of a copy performed in its order; the pairs of the copies drop their own copies of each line. -/
def Dev.performHeld (d : Dev) (b : Bolt) (asid : BitVec 16) (pairs : List Nat) : Dev :=
  b.held.foldl (fun d h =>
    let line := lineOf h.pa
    let p : Where := { pa := h.pa, va := h.va.truncate 57, asid := asid, region := h.region, rt := false,
                       target := BitVec.ofNat 4 (h.pa / 2 ^ 64) }
    let d := pairs.foldl (fun d k => d.pairDrop (2 * k) line) d
    let d := (d.promoteFor line b.pair).engWrite b.core p (natBytes h.data h.size)
    -- the home slice is told of a release at .bolt or .pair as the write reaches it (R184, R188)
    match h.rel with
    | some s => if scopeWide s then d else d.markLine line b.pair
    | none => d) d

/-- A copy goes on into its next interval, with a bank due. -/
def Dev.nextInterval (d : Dev) (bolt : Nat) : Dev :=
  let d := d.modBolt bolt fun b =>
    { b with sig := 0, held := [], heldBytes := 0, atEnd := b.left == 0, intervalNo := b.intervalNo + 1, bankDue := b.left != 0 }
  (d.boltWefts bolt).foldl (fun d p => d.modW p.1 fun w => { w with twinAt := w.twinAt.map fun t => { t with settled := true } }) d

/-- A copy that disagrees leaves the device, and its pair is queued for scan; what it performed for both passes to the others. -/
def Dev.discardCopy (d : Dev) (b : Bolt) : Dev :=
  let d := (d.dropBoltWefts b.id).dropBolts [b.id]
  let d : Dev := { d with bolts := (d.bolts.filter (·.id != b.id)).map fun x =>
    if x.serial = b.serial ∧ x.idx = b.idx then { x with results := x.results ++ b.results } else x }
  d.queueScan b.pair

/-- The copies `cs` agree: the writes of `win` are performed, and the copies retire or go on. -/
def Dev.agree (d : Dev) (regs : Regs) (win : Bolt) (cs : List Bolt) : Dev :=
  let asid := ((d.launchOf? win.id).map (·.asid)).getD 0
  let d := d.performHeld win asid (cs.map (·.pair))
  if cs.all (·.left == 0) then
    let others := (cs.filter (·.id != win.id)).map (·.id)
    ({ d.dropBolts others with bolts := d.bolts.filter fun b => !others.contains b.id } : Dev).retireBolt regs win
  else (cs.foldl (fun d b => d.nextInterval b.id) d).numberCopies win.serial win.idx

/-- A third copy of a bolt, to be placed from its bank like a swapped bolt. -/
def Dev.addThird (d : Dev) (p : Bolt) (k : Bank) : Dev :=
  let id := d.disp.nextBolt + 1
  let b : Bolt :=
    { p.fromBank k with id := id, copy := 2, st := .swapped, saved := k.wefts, savedCmds := [], savedSide := k.side, placed := d.nextOp,
                        spilled := false, sinceBank := false, results := [] }
  { d with bolts := d.bolts ++ [b], nextOp := d.nextOp + 1, disp := { d.disp with nextBolt := id } }

/-- The copies of a bolt, the primary first. -/
def Dev.copiesOf (d : Dev) (b : Bolt) : List Bolt :=
  let cs := d.bolts.filter fun x => x.serial == b.serial && x.idx == b.idx
  cs.foldl (fun acc x => acc.filter (fun y => decide (y.copy < x.copy)) ++ [x] ++ acc.filter fun y => decide (x.copy ≤ y.copy)) []

def Dev.settle (d : Dev) (regs : Regs) (b : Bolt) : Dev :=
  match d.copiesOf b with
  | [p, q] =>
    if p.sig = q.sig then d.agree regs p [p, q]
    else match p.bank with
      | some k => d.addThird p k
      | none => d
  | [p, q, t] =>
    if p.sig = q.sig then (d.discardCopy t).agree regs p [p, q]
    else if p.sig = t.sig then (d.discardCopy q).agree regs p [p, t]
    else if q.sig = t.sig then (d.discardCopy p).agree regs t [q, t]
    else
      let ctx := ((d.launchOf? p.id).map (·.ctx)).getD 0
      ((d.killCtx regs ctx (Config.killCause 1)).queueScan p.pair |>.queueScan q.pair).queueScan t.pair
  | _ => d

/-- TWIN_INTERVAL_SETTLE of the bolt of which `bolt` is a copy. -/
def execTwinIntervalSettle (bolt : Nat) (s : State) : Host.Outcome State Fault Refusal :=
  match s.dev.bolt? bolt with
  | none => .next s
  | some b =>
    let cs := s.dev.copiesOf b
    if cs.length < 2 || !s.dev.intervalOver cs then .next s else .next { s with dev := s.dev.settle s.regs b }

/-! ### Banks (R349) -/

/-- Results that a copy may still take. -/
def Dev.liveResults (d : Dev) (b : Bolt) : List TwinRes :=
  b.results.filter fun r => d.wefts.any fun p => !p.2.sup && p.2.widx == r.widx && decide (p.2.picks ≤ r.pick) &&
    (match d.bolt? p.2.bolt with | some x => x.serial == b.serial && x.idx == b.idx | none => false)

/-- BANK_TAKE, once every flag reads zero and no engine command, GATHER or SCATTER is in flight: the waiters of barrier 0 are released, and
the bolt goes on. -/
def execBankTake (bolt : Nat) (s : State) : Host.Outcome State Fault Refusal :=
  let d := s.dev
  match d.bolt? bolt with
  | none => .next s
  | some b =>
    let ws := d.boltWefts bolt
    if !b.bankDue || b.st ≠ .resident || ((d.twinOf b).isSome && b.atEnd) || !d.quiet b || ws.any (fun p => !p.2.flags.isEmpty) ||
        d.enginesBusy b then .next s
    else
      let d := if b.barDue then d.releaseBar ws 0 else d
      let bank : Bank :=
        { wefts := (d.boltWefts bolt).map (·.2), scratch := b.scratch, smeta := b.smeta, bars := b.bars, epoch := b.epoch, side := d.sideOf b,
          sig := b.sig, held := b.held, heldBytes := b.heldBytes }
      let d := d.modBolt bolt fun x =>
        { x with bank := some bank, bankDue := false, barDue := false, atEnd := false, sinceBank := false, results := d.liveResults b }
      .next { s with dev := ws.foldl (fun d p => d.tryEnding s.regs p.1) d }

end Sys2Proof.Machine
end

