-- ==== Sys2Proof/Machine/Platform.lean ====
section
/-! DEFINITION. Reliability and platform (R11, R337 to R343, R352, R363, R364): HBM errors with their log and repair, in-field scans, thermal
evaluation, and what reaches memory from the host, from peers and from evictions (R168, R173, R202, R318). -/

namespace Sys2Proof.Machine

/-- An event whose arguments the specification does not give: they are free values. -/
def Dev.eventFree (d : Dev) (type : Nat) : Dev :=
  let (a, d) := d.draw
  let (b, d) := d.draw
  d.event type (Config.freeValue a).toNat (Config.freeValue b).toNat

/-! ### HBM correction, log and repair (R338 to R343) -/

def Plat.stack (p : Plat) (k : Nat) : Stack := Tab.getD Stack.reset p.stackRows k

/-- A log record; the ring keeps the last 4,096. -/
def Plat.logRec (p : Plat) (us : Nat) (r : HbmRead) (pin kind nsym : Nat) : Plat :=
  let w := BitVec.ofNat 64 (r.row % 2 ^ 32 * 2 ^ 32 + pin % 128 * 2 ^ 25 + r.pch % 64 * 2 ^ 19 + r.stack % 16 * 2 ^ 15 + kind * 2 ^ 12 + nsym % 16 * 256)
  let l := p.log ++ [(w, BitVec.ofNat 64 us)]
  { p with log := l.drop (l.length - 4096) }

/-- The bits of a row in the Bloom filter. -/
def bloomBits (pch row : Nat) : List Nat := (List.finRange 4).map fun k => (Config.bloomHash k (pch * 2 ^ 32 + row)).val

/-- The tracker after a repeat on a row with errors on `pins`. -/
def trackRow (ts : List Track) (pch row : Nat) (pins : List Nat) : List Track :=
  if ts.any fun t => t.pch == pch && t.row == row then
    ts.map fun t => if t.pch = pch ∧ t.row = row then { t with count := t.count + 1, pins := (t.pins ++ pins).eraseDups } else t
  else
    let new : Track := { pch := pch, row := row, count := 1, pins := pins }
    if ts.length < 64 then ts ++ [new]
    else
      let low := ts.foldl (fun m t => min m t.count) 1000000
      match ts.findIdx? fun t => t.count == low with
      | some i => ts.eraseIdx i ++ [new]
      | none => ts ++ [new]

/-- Repair of a row that has reached the threshold (R342): an erasure, one of the bank's two spare rows, or neither. -/
def Plat.repair (p : Plat) (us : Nat) (r : HbmRead) (t : Track) (pin nsym : Nat) : Plat :=
  let s := p.stack r.stack
  let others := s.tracker.filter fun x => !(x.pch == t.pch && x.row == t.row)
  let s : Stack := { s with tracker := others }
  let gone := Tab.getD [] s.erased t.pch
  let lone := match t.pins with | [x] => if others.any (fun o => o.pch == t.pch && o.pins.contains x) then some x else none | _ => none
  let put (s : Stack) : Plat := { p with stackRows := Tab.put p.stackRows r.stack s }
  let bank := Config.rowBank (t.pch * 2 ^ 32 + t.row)
  let used := Tab.getD 0 s.spares bank
  let remap : Plat :=
    if used < 2 then (put { s with spares := Tab.put s.spares bank (used + 1) }).logRec us r pin 1 nsym
    else (put s).logRec us r pin 3 nsym
  match lone with
  | some x => if gone.length < 4 then (put { s with erased := Tab.put s.erased t.pch (gone ++ [x]) }).logRec us r pin 2 nsym else remap
  | none => remap

/-- A corrected error of a row (R341). -/
def Plat.corrected (p : Plat) (us : Nat) (r : HbmRead) (errs : List Nat) : Plat :=
  let s := p.stack r.stack
  let bits := bloomBits r.pch r.row
  let pin := errs.headD 0
  if !bits.all s.bloom.contains then
    ({ p with stackRows := Tab.put p.stackRows r.stack { s with bloom := s.bloom ++ bits.filter fun b => !s.bloom.contains b } } : Plat).logRec us r
      pin 0 errs.length
  else
    let ts := trackRow s.tracker r.pch r.row errs
    let p : Plat := { p with stackRows := Tab.put p.stackRows r.stack { s with tracker := ts } }
    match ts.find? fun t => t.pch == r.pch && t.row == r.row with
    | some t => if p.threshold ≤ t.count then p.repair us r t pin errs.length else p
    | none => p

/-- PATROL_SCRUB_READ: a read of an HBM line finds symbols in error; those at erased positions cost one each, others two. -/
def execPatrolScrubRead (r : HbmRead) (s : State) : Host.Outcome State Fault Refusal :=
  let gone := Tab.getD [] (s.plat.stack r.stack).erased r.pch
  let errs := ((r.errors.filter fun e => decide (e < 72) && !gone.contains e).eraseDups)
  if errs.isEmpty || 12 ≤ r.stack || hbmBytes ≤ 64 * r.line then .next s
  else if 2 * errs.length + gone.length ≤ 8 then .next { s with plat := s.plat.corrected s.dev.host.us r errs }
  else
    let d := s.dev.modMem fun m => { m with poison := if m.poison.contains r.line then m.poison else m.poison ++ [r.line] }
    .next { s with dev := d }

/-- SCRUB_PASS_END: the Bloom filters are cleared. -/
def execScrubPassEnd (s : State) : Host.Outcome State Fault Refusal :=
  .next { s with plat := { s.plat with stackRows := s.plat.stackRows.map fun p => (p.1, { p.2 with bloom := [] }) } }

/-! ### In-field scan (R11, R352) -/

/-- Whether a pair holds no bolt. -/
def Dev.pairIdle (d : Dev) (pair : Nat) : Bool := !d.bolts.any fun b => b.pair == pair && b.st != .swapped

/-- Whether a scan of the pair may begin: a queued pair in its order, else the idle pair scanned longest ago. -/
def State.scanNext (s : State) (pair : Nat) : Bool :=
  let d := s.dev
  let p := s.plat
  let free (k : Nat) : Bool := d.pairIdle k && !p.scans.any (·.pair == k)
  match d.disp.scanQueue.filter free with
  | k :: _ => k == pair
  | [] =>
    decide (pair < 512) && !d.disp.removed.contains pair && free pair &&
      (List.range 512).all fun k => d.disp.removed.contains k || !free k ||
        decide (Tab.getD 0 p.lastScan pair < Tab.getD 0 p.lastScan k) ||
        (Tab.getD 0 p.lastScan pair == Tab.getD 0 p.lastScan k && decide (pair ≤ k))

/-- SCAN_START: a queued pair that still holds bolts is drained; one that may be scanned begins its pattern. -/
def execScanStart (pair : Nat) (s : State) : Host.Outcome State Fault Refusal :=
  let d := s.dev
  if d.disp.scanQueue.contains pair && !d.pairIdle pair then
    .next { s with dev := d.swapOut ((d.bolts.filter fun b => b.pair == pair).flatMap fun b => (d.withMates b).map (·.id)) }
  else if s.scanNext pair && decide (s.plat.scans.length < 8) then
    let q := d.disp.scanQueue.contains pair
    .next { s with plat := { s.plat with scans := s.plat.scans ++ [{ pair := pair, queued := q }] },
                   dev := { d with disp := { d.disp with scanQueue := d.disp.scanQueue.filter (· != pair) } } }
  else .next s

/-- The shuttles of a substituted pair start with a clear self-test state. -/
def Dev.freshPair (d : Dev) (pair : Nat) : Dev :=
  (List.range 8).foldl (fun d j => d.modSh (pair * 8 + j) fun x => { x with closed := false, fencedSub := [], mmas := 0, selfTest := false }) d

/-- SCAN_COMPLETE: the pair returns to service, or a spare takes its number, or it is removed. -/
def execScanComplete (pair : Nat) (pass : Bool) (s : State) : Host.Outcome State Fault Refusal :=
  if !s.plat.scans.any (·.pair == pair) then .next s
  else
    let p : Plat := { s.plat with scans := s.plat.scans.filter (·.pair != pair), lastScan := Tab.put s.plat.lastScan pair s.dev.host.us }
    if pass then .next { s with plat := p }
    else
      match p.spares with
      | [] =>
        let d := s.dev.eventFree 3
        .next { s with plat := p, dev := { d with disp := { d.disp with removed := d.disp.removed ++ [pair] } } }
      | phys :: rest =>
        .next { s with plat := { p with coreMap := Tab.put p.coreMap pair phys, spares := rest }, dev := (s.dev.freshPair pair).eventFree 3 }

/-- The physical pair that a logical pair is bound to, none where the map no longer exposes the pair (R11). -/
def State.physPair (s : State) (pair : Nat) : Option Nat :=
  if s.dev.disp.removed.contains pair || decide (512 ≤ pair) then none else some (Tab.getD pair s.plat.coreMap pair)

/-- Logical pairs that the map exposes; their count is what the management interface reads (R11). -/
def State.exposedPairs (s : State) : Nat := ((List.range 512).filter fun k => (s.physPair k).isSome).length

/-! ### Temperature (R363, R364): sensors in eighths of a degree -/

/-- Rows of R364 by the temperature of a stack, and the row after one evaluation. -/
def refreshRow (t : Int) : Nat := if t ≤ 680 then 0 else if t ≤ 760 then 1 else if t ≤ 840 then 2 else 3
def nextRefresh (row : Nat) (t : Int) : Nat :=
  let want := refreshRow t
  if row ≤ want then want
  else
    let low : Int := match row with | 1 => 680 | 2 => 760 | _ => 840
    if t ≤ low - 16 then row - 1 else row

def Plat.refresh (p : Plat) (temps : List Int) : Plat :=
  { p with stackRows := ((List.range 12).zip temps).foldl (fun ss x =>
      let s := Tab.getD Stack.reset ss x.1
      Tab.put ss x.1 { s with valid := true, temp := x.2, refresh := nextRefresh s.refresh x.2 }) p.stackRows }

/-- Contexts that hold anything on the device. -/
def Dev.contexts (d : Dev) : List Nat :=
  ((d.disp.launches.map fun (l : Launch) => l.ctx.toNat) ++ ((d.debug).map fun (p : Nat × Debug) => p.1) ++
    (d.keys.map fun (p : Nat × KeySlot) => p.1 / 16)).eraseDups

def Dev.killAll (d : Dev) (regs : Regs) (cause : Nat) : Dev :=
  d.contexts.foldl (fun d c => d.killCtx regs (BitVec.ofNat 16 c) cause) d

/-- A record of the firmware debug domain while it is unlocked; the buffer holds 131,072 (R362). -/
def Sec.fwRecord (s : Sec) (kind us : Nat) : Sec :=
  if !s.fwDebug then s
  else
    let w : List DWord := [BitVec.ofNat 64 (kind * 2 ^ 48 + 5120 * 2 ^ 32 + s.fwSeq % 2 ^ 32), BitVec.ofNat 64 us, 0, 0]
    let l := s.fwTrace ++ [w]
    { s with fwTrace := l.drop (l.length - 131072), fwSeq := s.fwSeq + 1 }

/-- A thermal event on queue 1,026, and its record in the firmware debug domain. -/
def State.thermalEvent (s : State) : State :=
  { s with dev := s.dev.eventFree 4, sec := s.sec.fwRecord 5 s.dev.host.us }

/-- THERMAL_EVALUATION, every 10 µs, with the sensors' readings. -/
def execThermalEvaluation (die stackRows : List Int) (s : State) : Host.Outcome State Fault Refusal :=
  let s : State := { s with dev := { s.dev with host := { s.dev.host with us := s.dev.host.us + 10 } },
                            plat := { s.plat.refresh stackRows with die := die } }
  match die with
  | [] => .next s
  | x :: xs =>
    let t := xs.foldl max x
    let p := s.plat
    let hot := decide (800 ≤ t) && !p.warned
    let duty := if 864 ≤ t then max 4 (p.duty - 1) else if t < 848 && p.duty < 16 then p.duty + 1 else p.duty
    let s : State := { s with plat := { p with warned := if 800 ≤ t then true else if t < 784 then false else p.warned, duty := duty } }
    let s := if hot then s.thermalEvent else s
    if 944 ≤ t && !p.tripped then
      let s : State := { s with dev := s.dev.killAll s.regs (Config.killCause 2) }
      .next ({ s with plat := { s.plat with tripped := true } } : State).thermalEvent
    else .next s

/-! ### Accesses from the host and from peers (R168, R202, R318) -/

/-- Lines of a span of physical memory. -/
def linesOf (pa n : Nat) : List Nat := if n = 0 then [] else (List.range ((pa + n - 1) / 64 - pa / 64 + 1)).map (· + pa / 64)

/-- A write that no weft makes: marks are promoted, the writer's record reads "no writer", a whole line loses its poison. -/
def Dev.busWrite (d : Dev) (regs : Regs) (pa : Nat) (data : List Byte) : Dev :=
  let ls := linesOf pa data.length
  let d := ls.foldl (fun d l => d.promote l) d
  let d := d.homeWrList pa data
  ls.foldl (fun d l =>
    let d := d.noteWrite regs none false l 0
    if decide (pa ≤ 64 * l) && decide (64 * l + 64 ≤ pa + data.length) then d.clearPoison l else d) d

/-- CXL_MEM_ACCESS: a host read takes the lines into the host's caches as the directory tracks them; a host write gives them up. -/
def execCxlMemAccess (addr : Nat) (op : BusOp) (s : State) : Host.Outcome State Fault Refusal :=
  let d := s.dev
  match op with
  | .read n =>
    if hbmBytes < addr + n then .next s
    else
      let d := d.modMem fun m => { m with hostHeld := (linesOf addr n).foldl (fun h l => if h.contains l then h else h ++ [l]) m.hostHeld }
      .next { s with dev := d.say (.readData (d.homeBytes addr n)) }
  | .write data =>
    if hbmBytes < addr + data.length then .next s
    else
      let ls := linesOf addr data.length
      let d := d.modMem fun m => { m with hostHeld := m.hostHeld.filter fun l => !ls.contains l }
      .next { s with dev := d.busWrite s.regs addr data }
  | .atomic _ _ _ _ => .next s

/-- CXL_CACHE_SNOOP: a host write to host memory that the device holds: its L2 copy takes the value or goes, and memory reads the
new value either way. -/
def execCxlCacheSnoop (addr : Nat) (data : List Byte) (_invalidate : Bool) (s : State) : Host.Outcome State Fault Refusal :=
  if 2 ^ 52 < addr + data.length then .next s
  else .next { s with dev := s.dev.homeWrList (pkey 1 addr) data }

/-- UALINK_PEER_ACCESS on this device's HBM outside the carve-out; a read or atomic answers the peer. -/
def execUalinkPeerAccess (src addr : Nat) (op : BusOp) (s : State) : Host.Outcome State Fault Refusal :=
  let d := s.dev
  let ok (n : Nat) : Bool := decide (addr + n ≤ hbmBytes) && (linesOf addr n).all fun l => !s.regs.inCarve (64 * l)
  let answer (d : Dev) (bs : List Byte) : Dev := { d with fabric := { d.fabric with outbox := d.fabric.outbox ++ [.peerData src bs] } }
  match op with
  | .read n => .next (if ok n then { s with dev := answer d (d.homeBytes addr n) } else s)
  | .write data => .next (if ok data.length then { s with dev := d.busWrite s.regs addr data } else s)
  | .atomic aop w64 b cmp =>
    let n := if w64 then 8 else 4
    if !ok n || addr % n ≠ 0 then .next s
    else
      let old := d.homeRd addr n
      let new := atomVal aop (8 * n) old (b.toNat % 2 ^ (8 * n)) (cmp.toNat % 2 ^ (8 * n))
      .next { s with dev := answer (d.busWrite s.regs addr (natBytes new n)) (natBytes old n) }

/-! ### Evictions (R173, R189, R207, R213) -/

/-- LINE_EVICTION from an L1, or from the L2: there the metadata goes to the carve-out, a mark is promoted and the sidecar entry dropped.
Lines of chip scratch are never evicted. -/
def execLineEviction (level2 : Bool) (core line : Nat) (s : State) : Host.Outcome State Fault Refusal :=
  let d := s.dev
  if !level2 then .next { s with dev := d.wbDrop core line }
  else if line / 2 ^ 58 = 3 then .next s
  else
    let d := (d.promote line).flushPeer (some line)
    let d := match Tab.find? d.mem.rmeta line with
      | some w =>
        let d := d.modMem fun m => { m with rmeta := Tab.del m.rmeta line }
        if line / 2 ^ 58 = 0 && s.regs.inWindow (64 * line) then d.homeWr (s.regs.metaAt line) 8 w.toNat else d
      | none => d
    .next { s with dev := d.modMem fun m => { m with sidecar := m.sidecar.filter fun e => e.key != .line line } }

end Sys2Proof.Machine
end

