-- ==== Sys2Proof/Machine/Security.lean ====
section
/-! DEFINITION. SPDM on the management paths (R315), the states of the TDIs (R313), and the resets (R365). -/

namespace Sys2Proof.Machine

/-! ### SPDM 1.2 (R315) -/

/-- `n` bytes that no rule gives, from a free value's number on. -/
def spdmFree (k n : Nat) : List Byte := (List.range n).map fun j => Config.spdmByte (k * 2 ^ 16 + j)

/-- Codes of the answers. -/
def spdmError : Nat := 0x7F

def State.answer (s : State) (kind : Nat) (data : List Byte) : State := { s with dev := s.dev.say (.spdm kind data) }

/-- An SPDM request in its place: elsewhere it is answered with an error and changes nothing. -/
def State.spdm (s : State) (ok : Bool) (f : State → Nat → State) : Host.Outcome State Fault Refusal :=
  let (k, d) := s.dev.draw
  let s : State := { s with dev := d }
  .next (if ok then f s k else s.answer spdmError [0x04])

def State.setSpdm (s : State) (st : SpdmState) : State := { s with sec := { s.sec with spdm := st } }

/-- Whether the algorithms have been agreed. -/
def SpdmState.agreed : SpdmState → Bool
  | .negotiated | .keyed | .session => true
  | _ => false

/-- GET_VERSION begins again; the one version is 1.2. -/
def execSpdmGetVersion (s : State) : Host.Outcome State Fault Refusal :=
  s.spdm true fun s _ => (s.setSpdm .versioned).answer 0x04 [0x12]

def execSpdmGetCapabilities (s : State) : Host.Outcome State Fault Refusal :=
  s.spdm (s.sec.spdm == .versioned) fun s k => (s.setSpdm .capable).answer 0x61 (spdmFree k 16)

/-- The algorithms offered: 1 RSASSA-3072, 2 SHA-256, 3 ffdhe3072, 4 AES-256-GCM (numbers of the model). -/
def spdmAlgs : List Nat := [1, 2, 3, 4]

/-- NEGOTIATE_ALGORITHMS settles on the four or fails. -/
def execSpdmNegotiateAlgorithms (offered : List Nat) (s : State) : Host.Outcome State Fault Refusal :=
  s.spdm (s.sec.spdm == .capable && spdmAlgs.all offered.contains) fun s _ =>
    (s.setSpdm .negotiated).answer 0x63 (spdmAlgs.map (BitVec.ofNat 8))

def wide (x : BitVec 256) : List Byte := natBytes x.toNat 32

def digest (bs : List Byte) : List Byte := (sha256 (bs.map (·.toNat))).map (BitVec.ofNat 8)

def execSpdmGetDigests (s : State) : Host.Outcome State Fault Refusal :=
  s.spdm s.sec.spdm.agreed fun s _ => s.answer 0x01 (digest Config.certificate)

def execSpdmGetCertificate (offset len : Nat) (s : State) : Host.Outcome State Fault Refusal :=
  s.spdm s.sec.spdm.agreed fun s _ => s.answer 0x02 ((Config.certificate.drop offset).take len)

/-- CHALLENGE: the certificate's digest, the nonce and a signature of 384 bytes. -/
def execSpdmChallenge (nonce : BitVec 256) (s : State) : Host.Outcome State Fault Refusal :=
  s.spdm s.sec.spdm.agreed fun s k => s.answer 0x03 (digest Config.certificate ++ wide nonce ++ spdmFree k 384)

/-- The bytes of the supervisor kernel that SVENTRY names, as they stand in ASID 0; no rule gives how far they reach. -/
def State.kernelBytes (s : State) (at_ : Nat) : List Byte :=
  match (s.dev.readWords s.regs dispCore s.dev.space0 false at_ (Config.kernelLen at_)).1 with
  | .ok ws => ws.flatMap fun w => natBytes w.toNat 8
  | .error _ => []

/-- The measurements of R315; index 3 also reports the firmware debug domain (R362). -/
def State.measurement (s : State) (index : Nat) : List Byte :=
  match index with
  | 1 => digest (s.sec.running.getD Config.firstImage)
  | 2 =>
    let at_ := s.regs.sventry.toNat % 2 ^ 57
    if at_ = 0 then wide 0 else digest (s.kernelBytes at_)
  | 3 => natBytes s.sec.rollback 8 ++ natBytes s.sec.version 8 ++ [if s.sec.fwDebug then 1 else 0]
  | 4 => digest (Config.coreMapBytes s.dev.disp.removed s.plat.coreMap)
  | _ => []

/-- GET_MEASUREMENTS: index 0 asks for their count, 255 for all. -/
def execSpdmGetMeasurements (index : Nat) (nonce : BitVec 256) (s : State) : Host.Outcome State Fault Refusal :=
  s.spdm (s.sec.spdm.agreed && (decide (index ≤ 4) || index == 255)) fun s k =>
    let blocks := if index = 255 then [1, 2, 3, 4].flatMap s.measurement else s.measurement index
    s.answer 0x60 ([BitVec.ofNat 8 4] ++ blocks ++ wide nonce ++ spdmFree k 384)

def execSpdmKeyExchange (_share : List Byte) (s : State) : Host.Outcome State Fault Refusal :=
  s.spdm (s.sec.spdm == .negotiated) fun s k => (s.setSpdm .keyed).answer 0x64 (spdmFree k 384)

/-- FINISH establishes the session when its verification value holds. -/
def execSpdmFinish (verify : BitVec 256) (s : State) : Host.Outcome State Fault Refusal :=
  s.spdm (s.sec.spdm == .keyed && verify == Config.finishValue s.dev.fresh) fun s k => (s.setSpdm .session).answer 0x65 (spdmFree k 32)

def execSpdmEndSession (s : State) : Host.Outcome State Fault Refusal :=
  s.spdm (s.sec.spdm == .session) fun s _ => (s.setSpdm .negotiated).answer 0x6C []

/-! ### TDISP (R313, R314) -/

def State.setTdi (s : State) (vf : Nat) (t : Tdi) : State :=
  { s with dev := { s.dev with host := { s.dev.host with tdi := Tab.put s.dev.host.tdi vf t } } }

/-- The contexts assigned to a function. -/
def Sec.ctxsOf (s : Sec) (fn : Nat) : List Nat := (s.ctxFn.filter fun p => p.2 == fn).map (·.1)

/-- Kills the contexts of a VF. -/
def State.killVf (s : State) (vf cause : Nat) : State :=
  { s with dev := (s.sec.ctxsOf vf).foldl (fun d c => d.killCtx s.regs (BitVec.ofNat 16 c) cause) s.dev }

/-- A bound TDI goes to ERROR and its contexts are killed, and with them their keys. -/
def State.failTdi (s : State) (vf : Nat) : State :=
  match Tab.find? s.dev.host.tdi vf with
  | none => s
  | some _ => (s.setTdi vf .error).killVf vf (Config.killCause 4)

def execTdispStop (vf : Nat) (s : State) : Host.Outcome State Fault Refusal := .next (s.failTdi vf)
def execIdeIntegrityFailure (vf : Nat) (s : State) : Host.Outcome State Fault Refusal := .next (s.failTdi vf)

/-- CONFIG_UNLOCKED to CONFIG_LOCKED; a VF without a TDI is bound as one. -/
def execTdispLockInterface (vf : Nat) (s : State) : Host.Outcome State Fault Refusal :=
  if vf = 0 || 16 < vf then .next s
  else match Tab.find? s.dev.host.tdi vf with
    | none | some .unlocked => .next (s.setTdi vf .locked)
    | _ => .next s

def execTdispStartInterface (vf : Nat) (s : State) : Host.Outcome State Fault Refusal :=
  match Tab.find? s.dev.host.tdi vf with
  | some .locked => .next (s.setTdi vf .run)
  | _ => .next s

/-! ### Resets (R365) -/

/-- What a cold reset keeps of memory: HBM with its errors, and memory that is not the device's. -/
def Mem.cold (m : Mem) : Mem :=
  { Mem.reset with
    cells := m.cells.filter fun p => decide (p.1 < pkey 3 0),
    poison := m.poison.filter fun l => decide (l < lineOf (pkey 3 0)) }

/-- COLD_RESET: everything but HBM, the logical core map, the fused counter with the firmware it guards, and the model's own fields. -/
def execColdReset (s : State) : Host.Outcome State Fault Refusal :=
  .next { State.reset with
    agenda := s.agenda, cur := s.cur,
    dev := { Dev.reset with
      fresh := s.dev.fresh, mem := s.dev.mem.cold, disp := { Disp.reset with removed := s.dev.disp.removed },
      host := { HostIf.reset with image := s.dev.host.image } },
    sec := { Sec.reset with version := s.sec.version, rollback := s.sec.rollback, running := s.sec.running },
    plat := { Plat.reset with coreMap := s.plat.coreMap, spares := s.plat.spares } }

/-- What is asked of a function's queues in waiting is gone with them. -/
def Dev.resetQueues (d : Dev) (mine : Nat → Bool) : Dev :=
  { d with
    disp := { d.disp with queues := d.disp.queues.filter fun p => !mine p.2.fn,
                          launches := d.disp.launches.filter fun l => !mine l.fn || (l.accepted && l.stage != .completing) },
    host := { d.host with features := d.host.features.filter fun p => !mine p.1, msixOpen := d.host.msixOpen.filter (fun p => !mine p.1),
                          msixOff := d.host.msixOff.filter (fun f => !mine f), msixPend := d.host.msixPend.filter fun p => !mine p.1 } }

/-- FLR_PF0: every context is killed, every queue, counter and register of R303 takes its reset value. -/
def execFlrPf0 (s : State) : Host.Outcome State Fault Refusal :=
  let d := s.dev.killAll s.regs (Config.killCause 3)
  let d := d.resetQueues fun _ => true
  let d : Dev := { d with counters := [], disp := { d.disp with lastPair := 511 },
                          host := { d.host with waiting := [], dropped := 0, calls := [], held := [] } }
  let s := ({ s with dev := d } : State).applyCarve Regs.reset.carve
  let s := s.applyWindow Regs.reset.racewin
  .next { s with regs := Regs.reset, sec := { s.sec with ctxFn := [] } }

/-- FLR_VF: a bound TDI goes to ERROR, its contexts are killed, its queues and counters take their reset values. -/
def execFlrVf (vf : Nat) (s : State) : Host.Outcome State Fault Refusal :=
  if vf = 0 || 16 < vf then .next s
  else
    let s := if (Tab.find? s.dev.host.tdi vf).isSome then s.setTdi vf .error else s
    let s := s.killVf vf (Config.killCause 3)
    let d := s.dev.resetQueues fun fn => fn == vf
    .next { s with dev := { d with counters := d.counters.filter fun p => p.2.fn != vf } }

end Sys2Proof.Machine
end

