-- ==== Sys2Proof/Machine/Dispatch.lean ====
section
/-! DEFINITION. One arm per constructor of `Instr`: the direct call of its meaning, or a refusal by name. -/

namespace Sys2Proof.Machine

def exec (i : Instr) (s : State) : Host.Outcome State Fault Refusal :=
  match i with
  | .pairWord x0 x1 x2 x3 => Sys2Proof.Machine.execPairWord x0 x1 x2 x3 s
  | .nop x0 => Sys2Proof.Machine.execNop x0 s
  | .bra x0 x1 => Sys2Proof.Machine.execBra x0 x1 s
  | .brx x0 x1 => Sys2Proof.Machine.execBrx x0 x1 s
  | .call x0 x1 => Sys2Proof.Machine.execCall x0 x1 s
  | .callx x0 x1 => Sys2Proof.Machine.execCallx x0 x1 s
  | .ret x0 => Sys2Proof.Machine.execRet x0 s
  | .exit x0 => Sys2Proof.Machine.execExit x0 s
  | .yield x0 => Sys2Proof.Machine.execYield x0 s
  | .waitl x0 x1 x2 => Sys2Proof.Machine.execWaitl x0 x1 x2 s
  | .bar x0 x1 x2 x3 => Sys2Proof.Machine.execBar x0 x1 x2 x3 s
  | .trap x0 x1 => Sys2Proof.Machine.execTrap x0 x1 s
  | .syscall x0 x1 => Sys2Proof.Machine.execSyscall x0 x1 s
  | .brk x0 x1 => Sys2Proof.Machine.execBrk x0 x1 s
  | .launch x0 x1 x2 x3 => Sys2Proof.Machine.execLaunch x0 x1 x2 x3 s
  | .iadd x0 x1 x2 x3 x4 => Sys2Proof.Machine.execIadd x0 x1 x2 x3 x4 s
  | .isub x0 x1 x2 x3 x4 => Sys2Proof.Machine.execIsub x0 x1 x2 x3 x4 s
  | .imul x0 x1 x2 x3 x4 => Sys2Proof.Machine.execImul x0 x1 x2 x3 x4 s
  | .imulh x0 x1 x2 x3 x4 => Sys2Proof.Machine.execImulh x0 x1 x2 x3 x4 s
  | .imad x0 x1 x2 x3 x4 x5 => Sys2Proof.Machine.execImad x0 x1 x2 x3 x4 x5 s
  | .imin x0 x1 x2 x3 x4 => Sys2Proof.Machine.execImin x0 x1 x2 x3 x4 s
  | .imax x0 x1 x2 x3 x4 => Sys2Proof.Machine.execImax x0 x1 x2 x3 x4 s
  | .iabs x0 x1 x2 x3 => Sys2Proof.Machine.execIabs x0 x1 x2 x3 s
  | .and x0 x1 x2 x3 x4 => Sys2Proof.Machine.execAnd x0 x1 x2 x3 x4 s
  | .or x0 x1 x2 x3 x4 => Sys2Proof.Machine.execOr x0 x1 x2 x3 x4 s
  | .xor x0 x1 x2 x3 x4 => Sys2Proof.Machine.execXor x0 x1 x2 x3 x4 s
  | .not x0 x1 x2 x3 => Sys2Proof.Machine.execNot x0 x1 x2 x3 s
  | .shl x0 x1 x2 x3 x4 => Sys2Proof.Machine.execShl x0 x1 x2 x3 x4 s
  | .shr x0 x1 x2 x3 x4 => Sys2Proof.Machine.execShr x0 x1 x2 x3 x4 s
  | .sar x0 x1 x2 x3 x4 => Sys2Proof.Machine.execSar x0 x1 x2 x3 x4 s
  | .bfx x0 x1 x2 x3 x4 x5 => Sys2Proof.Machine.execBfx x0 x1 x2 x3 x4 x5 s
  | .bfi x0 x1 x2 x3 x4 x5 => Sys2Proof.Machine.execBfi x0 x1 x2 x3 x4 x5 s
  | .popc x0 x1 x2 x3 => Sys2Proof.Machine.execPopc x0 x1 x2 x3 s
  | .clz x0 x1 x2 x3 => Sys2Proof.Machine.execClz x0 x1 x2 x3 s
  | .brev x0 x1 x2 x3 => Sys2Proof.Machine.execBrev x0 x1 x2 x3 s
  | .isetp x0 x1 x2 x3 x4 x5 => Sys2Proof.Machine.execIsetp x0 x1 x2 x3 x4 x5 s
  | .sel x0 x1 x2 x3 x4 x5 => Sys2Proof.Machine.execSel x0 x1 x2 x3 x4 x5 s
  | .mov x0 x1 x2 x3 => Sys2Proof.Machine.execMov x0 x1 x2 x3 s
  | .lea x0 x1 x2 x3 x4 x5 => Sys2Proof.Machine.execLea x0 x1 x2 x3 x4 x5 s
  | .swizb x0 x1 x2 x3 x4 x5 => Sys2Proof.Machine.execSwizb x0 x1 x2 x3 x4 x5 s
  | .plop x0 x1 x2 x3 x4 => Sys2Proof.Machine.execPlop x0 x1 x2 x3 x4 s
  | .p2v x0 x1 => Sys2Proof.Machine.execP2v x0 x1 s
  | .v2p x0 x1 x2 => Sys2Proof.Machine.execV2p x0 x1 x2 s
  | .fadd x0 x1 x2 x3 x4 => Sys2Proof.Machine.execFadd x0 x1 x2 x3 x4 s
  | .fsub x0 x1 x2 x3 x4 => Sys2Proof.Machine.execFsub x0 x1 x2 x3 x4 s
  | .fmul x0 x1 x2 x3 x4 => Sys2Proof.Machine.execFmul x0 x1 x2 x3 x4 s
  | .ffma x0 x1 x2 x3 x4 x5 => Sys2Proof.Machine.execFfma x0 x1 x2 x3 x4 x5 s
  | .fmin x0 x1 x2 x3 x4 x5 => Sys2Proof.Machine.execFmin x0 x1 x2 x3 x4 x5 s
  | .fmax x0 x1 x2 x3 x4 x5 => Sys2Proof.Machine.execFmax x0 x1 x2 x3 x4 x5 s
  | .fsetp x0 x1 x2 x3 x4 => Sys2Proof.Machine.execFsetp x0 x1 x2 x3 x4 s
  | .frcp x0 x1 x2 x3 x4 x5 => Sys2Proof.Machine.execFrcp x0 x1 x2 x3 x4 x5 s
  | .frsq x0 x1 x2 x3 x4 x5 => Sys2Proof.Machine.execFrsq x0 x1 x2 x3 x4 x5 s
  | .fex2 x0 x1 x2 x3 x4 x5 => Sys2Proof.Machine.execFex2 x0 x1 x2 x3 x4 x5 s
  | .flg2 x0 x1 x2 x3 x4 x5 => Sys2Proof.Machine.execFlg2 x0 x1 x2 x3 x4 x5 s
  | .fsin x0 x1 x2 x3 x4 x5 => Sys2Proof.Machine.execFsin x0 x1 x2 x3 x4 x5 s
  | .fcos x0 x1 x2 x3 x4 x5 => Sys2Proof.Machine.execFcos x0 x1 x2 x3 x4 x5 s
  | .frnd x0 x1 x2 x3 x4 x5 => Sys2Proof.Machine.execFrnd x0 x1 x2 x3 x4 x5 s
  | .fclass x0 x1 x2 => Sys2Proof.Machine.execFclass x0 x1 x2 s
  | .fscale x0 x1 x2 x3 x4 x5 x6 => Sys2Proof.Machine.execFscale x0 x1 x2 x3 x4 x5 x6 s
  | .vadd2 x0 x1 x2 x3 x4 => Sys2Proof.Machine.execVadd2 x0 x1 x2 x3 x4 s
  | .vsub2 x0 x1 x2 x3 x4 => Sys2Proof.Machine.execVsub2 x0 x1 x2 x3 x4 s
  | .vmin2 x0 x1 x2 x3 x4 => Sys2Proof.Machine.execVmin2 x0 x1 x2 x3 x4 s
  | .vmax2 x0 x1 x2 x3 x4 => Sys2Proof.Machine.execVmax2 x0 x1 x2 x3 x4 s
  | .vacs2 x0 x1 x2 x3 x4 x5 x6 => Sys2Proof.Machine.execVacs2 x0 x1 x2 x3 x4 x5 x6 s
  | .hadd2 x0 x1 x2 x3 x4 => Sys2Proof.Machine.execHadd2 x0 x1 x2 x3 x4 s
  | .hmul2 x0 x1 x2 x3 x4 => Sys2Proof.Machine.execHmul2 x0 x1 x2 x3 x4 s
  | .hfma2 x0 x1 x2 x3 x4 x5 => Sys2Proof.Machine.execHfma2 x0 x1 x2 x3 x4 x5 s
  | .cvt x0 x1 x2 x3 => Sys2Proof.Machine.execCvt x0 x1 x2 x3 s
  | .shfl x0 x1 x2 x3 x4 x5 => Sys2Proof.Machine.execShfl x0 x1 x2 x3 x4 x5 s
  | .vote x0 x1 x2 x3 => Sys2Proof.Machine.execVote x0 x1 x2 x3 s
  | .redux x0 x1 x2 x3 x4 => Sys2Proof.Machine.execRedux x0 x1 x2 x3 x4 s
  | .mates x0 x1 x2 x3 x4 => Sys2Proof.Machine.execMates x0 x1 x2 x3 x4 s
  | .rdfl x0 x1 x2 => Sys2Proof.Machine.execRdfl x0 x1 x2 s
  | .movs x0 x1 x2 x3 => Sys2Proof.Machine.execMovs x0 x1 x2 x3 s
  | .sets x0 x1 x2 => Sys2Proof.Machine.execSets x0 x1 x2 s
  | .ld x0 x1 x2 x3 x4 => Sys2Proof.Machine.execLd x0 x1 x2 x3 x4 s
  | .st x0 x1 x2 x3 x4 => Sys2Proof.Machine.execSt x0 x1 x2 x3 x4 s
  | .lds x0 x1 x2 x3 x4 => Sys2Proof.Machine.execLds x0 x1 x2 x3 x4 s
  | .sts x0 x1 x2 x3 x4 => Sys2Proof.Machine.execSts x0 x1 x2 x3 x4 s
  | .ldc x0 x1 x2 x3 x4 x5 => Sys2Proof.Machine.execLdc x0 x1 x2 x3 x4 x5 s
  | .atom x0 x1 x2 x3 x4 => Sys2Proof.Machine.execAtom x0 x1 x2 x3 x4 s
  | .atoms x0 x1 x2 x3 x4 => Sys2Proof.Machine.execAtoms x0 x1 x2 x3 x4 s
  | .red x0 x1 x2 x3 => Sys2Proof.Machine.execRed x0 x1 x2 x3 s
  | .fence x0 x1 => Sys2Proof.Machine.execFence x0 x1 s
  | .pref x0 x1 x2 x3 => Sys2Proof.Machine.execPref x0 x1 x2 x3 s
  | .cctl x0 x1 x2 x3 x4 => Sys2Proof.Machine.execCctl x0 x1 x2 x3 x4 s
  | .gather x0 x1 x2 x3 x4 x5 => Sys2Proof.Machine.execGather x0 x1 x2 x3 x4 x5 s
  | .scatter x0 x1 x2 x3 x4 x5 => Sys2Proof.Machine.execScatter x0 x1 x2 x3 x4 x5 s
  | .slop x0 x1 => Sys2Proof.Machine.execSlop x0 x1 s
  | .mma x0 x1 x2 x3 x4 x5 => Sys2Proof.Machine.execMma x0 x1 x2 x3 x4 x5 s
  | .accz x0 x1 => Sys2Proof.Machine.execAccz x0 x1 s
  | .accld x0 x1 x2 => Sys2Proof.Machine.execAccld x0 x1 x2 s
  | .accst x0 x1 x2 => Sys2Proof.Machine.execAccst x0 x1 x2 s
  | .accmvToRegs x0 x1 x2 => Sys2Proof.Machine.execAccmvToRegs x0 x1 x2 s
  | .accmvToTile x0 x1 x2 => Sys2Proof.Machine.execAccmvToTile x0 x1 x2 s
  | .accq x0 x1 x2 => Sys2Proof.Machine.execAccq x0 x1 x2 s
  | .tcopy x0 x1 x2 => Sys2Proof.Machine.execTcopy x0 x1 x2 s
  | .tcstat x0 x1 x2 => Sys2Proof.Machine.execTcstat x0 x1 x2 s
  | .tcabort x0 x1 => Sys2Proof.Machine.execTcabort x0 x1 s
  | .ecadd x0 x1 x2 x3 => Sys2Proof.Machine.execEcadd x0 x1 x2 x3 s
  | .ecwait x0 x1 x2 x3 => Sys2Proof.Machine.execEcwait x0 x1 x2 x3 s
  | .ecrd x0 x1 x2 x3 => Sys2Proof.Machine.execEcrd x0 x1 x2 x3 s
  | .ectrig x0 x1 x2 x3 => Sys2Proof.Machine.execEctrig x0 x1 x2 x3 s
  | .coll x0 x1 x2 => Sys2Proof.Machine.execColl x0 x1 x2 s
  | .cabort x0 x1 => Sys2Proof.Machine.execCabort x0 x1 s
  | .viewq x0 x1 x2 => Sys2Proof.Machine.execViewq x0 x1 x2 s
  | .viewack x0 x1 => Sys2Proof.Machine.execViewack x0 x1 s
  | .vjoin x0 x1 => Sys2Proof.Machine.execVjoin x0 x1 s
  | .tret x0 => Sys2Proof.Machine.execTret x0 s
  | .lxrd x0 x1 x2 x3 => Sys2Proof.Machine.execLxrd x0 x1 x2 x3 s
  | .lxwr x0 x1 x2 x3 => Sys2Proof.Machine.execLxwr x0 x1 x2 x3 s
  | .park x0 x1 => Sys2Proof.Machine.execPark x0 x1 s
  | .resume x0 x1 => Sys2Proof.Machine.execResume x0 x1 s
  | .tlbinvPage x0 x1 x2 => Sys2Proof.Machine.execTlbinvPage x0 x1 x2 s
  | .tlbinvAsid x0 x1 x2 => Sys2Proof.Machine.execTlbinvAsid x0 x1 x2 s
  | .tlbinvAll x0 x1 x2 => Sys2Proof.Machine.execTlbinvAll x0 x1 x2 s
  | .tlbsync x0 => Sys2Proof.Machine.execTlbsync x0 s
  | .signal x0 x1 x2 => Sys2Proof.Machine.execSignal x0 x1 x2 s
  | .tmark x0 x1 => Sys2Proof.Machine.execTmark x0 x1 s
  | .pickIssue x0 => Sys2Proof.Machine.execPickIssue x0 s
  | .pickFetch x0 => Sys2Proof.Machine.execPickFetch x0 s
  | .tableWalkComplete x0 x1 x2 => Sys2Proof.Machine.execTableWalkComplete x0 x1 x2 s
  | .energyGateRotation x0 => Sys2Proof.Machine.execEnergyGateRotation x0 s
  | .waitlTimeout x0 => Sys2Proof.Machine.execWaitlTimeout x0 s
  | .loadComplete x0 x1 => Sys2Proof.Machine.execLoadComplete x0 x1 s
  | .storePerformed x0 x1 => Sys2Proof.Machine.execStorePerformed x0 x1 s
  | .atomicPerformed x0 x1 => Sys2Proof.Machine.execAtomicPerformed x0 x1 s
  | .fenceComplete x0 => Sys2Proof.Machine.execFenceComplete x0 s
  | .mmaComplete x0 => Sys2Proof.Machine.execMmaComplete x0 s
  | .accumulatorTransferComplete x0 => Sys2Proof.Machine.execAccumulatorTransferComplete x0 s
  | .matrixSelfTest x0 x1 => Sys2Proof.Machine.execMatrixSelfTest x0 x1 s
  | .userTrapDelivery x0 => Sys2Proof.Machine.execUserTrapDelivery x0 s
  | .replayOverflowDrain x0 => Sys2Proof.Machine.execReplayOverflowDrain x0 s
  | .supervisorWeftStart x0 => Sys2Proof.Machine.execSupervisorWeftStart x0 s
  | .signalDelivery x0 => Sys2Proof.Machine.execSignalDelivery x0 s
  | .weftFinish x0 => Sys2Proof.Machine.execWeftFinish x0 s
  | .launchChain x0 x1 x2 x3 => Sys2Proof.Machine.execLaunchChain x0 x1 x2 x3 s
  | .launchAcceptance x0 => Sys2Proof.Machine.execLaunchAcceptance x0 s
  | .launchWaitRelease x0 => Sys2Proof.Machine.execLaunchWaitRelease x0 s
  | .boltPlacement => Sys2Proof.Machine.execBoltPlacement s
  | .swapOutComplete x0 => Sys2Proof.Machine.execSwapOutComplete x0 s
  | .dispatchHoldTimeout x0 => Sys2Proof.Machine.execDispatchHoldTimeout x0 s
  | .kernelTagSweepPass => Sys2Proof.Machine.execKernelTagSweepPass s
  | .powerEvaluation x0 => Sys2Proof.Machine.execPowerEvaluation x0 s
  | .thermalEvaluation x0 x1 => Sys2Proof.Machine.execThermalEvaluation x0 x1 s
  | .scrubPassEnd => Sys2Proof.Machine.execScrubPassEnd s
  | .bankTake x0 => Sys2Proof.Machine.execBankTake x0 s
  | .twinIntervalSettle x0 => Sys2Proof.Machine.execTwinIntervalSettle x0 s
  | .scanStart x0 => Sys2Proof.Machine.execScanStart x0 s
  | .scanComplete x0 x1 => Sys2Proof.Machine.execScanComplete x0 x1 s
  | .descriptorReadComplete x0 x1 => Sys2Proof.Machine.execDescriptorReadComplete x0 x1 s
  | .tcopyCommandStart x0 => Sys2Proof.Machine.execTcopyCommandStart x0 s
  | .tcopyGranule x0 x1 => Sys2Proof.Machine.execTcopyGranule x0 x1 s
  | .tcopyCommandEnd x0 x1 => Sys2Proof.Machine.execTcopyCommandEnd x0 x1 s
  | .gatherElement x0 => Sys2Proof.Machine.execGatherElement x0 s
  | .scatterElement x0 => Sys2Proof.Machine.execScatterElement x0 s
  | .slopLine x0 x1 => Sys2Proof.Machine.execSlopLine x0 x1 s
  | .tlbinvComplete x0 => Sys2Proof.Machine.execTlbinvComplete x0 s
  | .capturePageCopy x0 x1 => Sys2Proof.Machine.execCapturePageCopy x0 x1 s
  | .keepaliveSend x0 x1 => Sys2Proof.Machine.execKeepaliveSend x0 x1 s
  | .suspicionTimeout x0 x1 => Sys2Proof.Machine.execSuspicionTimeout x0 x1 s
  | .retransmitTimeout x0 => Sys2Proof.Machine.execRetransmitTimeout x0 s
  | .suspicionReceive x0 x1 => Sys2Proof.Machine.execSuspicionReceive x0 x1 s
  | .viewProposalReceive x0 x1 x2 x3 => Sys2Proof.Machine.execViewProposalReceive x0 x1 x2 x3 s
  | .viewAckReceive x0 x1 x2 x3 => Sys2Proof.Machine.execViewAckReceive x0 x1 x2 x3 s
  | .viewCommitReceive x0 x1 x2 x3 => Sys2Proof.Machine.execViewCommitReceive x0 x1 x2 x3 s
  | .viewProposalTimeout x0 => Sys2Proof.Machine.execViewProposalTimeout x0 s
  | .viewLostReceive x0 => Sys2Proof.Machine.execViewLostReceive x0 s
  | .joinRequestReceive x0 x1 => Sys2Proof.Machine.execJoinRequestReceive x0 x1 s
  | .joinRetry x0 => Sys2Proof.Machine.execJoinRetry x0 s
  | .collPartialReceive x0 x1 x2 x3 x4 => Sys2Proof.Machine.execCollPartialReceive x0 x1 x2 x3 x4 s
  | .collReadyReceive x0 x1 x2 x3 => Sys2Proof.Machine.execCollReadyReceive x0 x1 x2 x3 s
  | .collAbortReceive x0 x1 => Sys2Proof.Machine.execCollAbortReceive x0 x1 s
  | .collStageReadComplete x0 x1 => Sys2Proof.Machine.execCollStageReadComplete x0 x1 s
  | .eventPost => Sys2Proof.Machine.execEventPost s
  | .syscallForward x0 x1 x2 => Sys2Proof.Machine.execSyscallForward x0 x1 x2 s
  | .counterAddWrite x0 x1 x2 => Sys2Proof.Machine.execCounterAddWrite x0 x1 x2 s
  | .triggerControlWrite x0 x1 x2 => Sys2Proof.Machine.execTriggerControlWrite x0 x1 x2 s
  | .registerWrite x0 x1 x2 x3 => Sys2Proof.Machine.execRegisterWrite x0 x1 x2 x3 s
  | .observationClear x0 x1 => Sys2Proof.Machine.execObservationClear x0 x1 s
  | .driverFeatureNegotiation x0 x1 x2 x3 => Sys2Proof.Machine.execDriverFeatureNegotiation x0 x1 x2 x3 s
  | .regwrL2Carve x0 x1 x2 => Sys2Proof.Machine.execRegwrL2Carve x0 x1 x2 s
  | .l2CarveApplied => Sys2Proof.Machine.execL2CarveApplied s
  | .regwrRaceWindow x0 x1 x2 => Sys2Proof.Machine.execRegwrRaceWindow x0 x1 x2 s
  | .raceWindowApplied => Sys2Proof.Machine.execRaceWindowApplied s
  | .regwrPowerSetpoint x0 x1 x2 => Sys2Proof.Machine.execRegwrPowerSetpoint x0 x1 x2 s
  | .regwrSventry x0 x1 x2 => Sys2Proof.Machine.execRegwrSventry x0 x1 x2 s
  | .regwrSvbase x0 x1 x2 => Sys2Proof.Machine.execRegwrSvbase x0 x1 x2 s
  | .regwrCtxtab x0 x1 x2 => Sys2Proof.Machine.execRegwrCtxtab x0 x1 x2 s
  | .regrd x0 x1 x2 => Sys2Proof.Machine.execRegrd x0 x1 x2 s
  | .qconf x0 x1 x2 x3 x4 x5 x6 => Sys2Proof.Machine.execQconf x0 x1 x2 x3 x4 x5 x6 s
  | .ctrassign x0 x1 x2 x3 x4 x5 => Sys2Proof.Machine.execCtrassign x0 x1 x2 x3 x4 x5 s
  | .ctrset x0 x1 x2 x3 => Sys2Proof.Machine.execCtrset x0 x1 x2 x3 s
  | .ctrlKill x0 x1 x2 => Sys2Proof.Machine.execCtrlKill x0 x1 x2 s
  | .ctrlSignal x0 x1 x2 x3 => Sys2Proof.Machine.execCtrlSignal x0 x1 x2 x3 s
  | .ctrlTlbinv x0 x1 x2 x3 x4 => Sys2Proof.Machine.execCtrlTlbinv x0 x1 x2 x3 x4 s
  | .migrate x0 x1 x2 => Sys2Proof.Machine.execMigrate x0 x1 x2 s
  | .migrationStart => Sys2Proof.Machine.execMigrationStart s
  | .migrationRound x0 => Sys2Proof.Machine.execMigrationRound x0 s
  | .keyload x0 x1 x2 x3 x4 => Sys2Proof.Machine.execKeyload x0 x1 x2 x3 x4 s
  | .sysreply x0 x1 x2 x3 => Sys2Proof.Machine.execSysreply x0 x1 x2 x3 s
  | .fwstage x0 x1 x2 x3 => Sys2Proof.Machine.execFwstage x0 x1 x2 x3 s
  | .fwswitch x0 x1 => Sys2Proof.Machine.execFwswitch x0 x1 s
  | .fwCallDeadline x0 x1 x2 => Sys2Proof.Machine.execFwCallDeadline x0 x1 x2 s
  | .fwswitchComplete x0 => Sys2Proof.Machine.execFwswitchComplete x0 s
  | .killCommand x0 => Sys2Proof.Machine.execKillCommand x0 s
  | .shuttleStop x0 => Sys2Proof.Machine.execShuttleStop x0 s
  | .shuttleRun x0 => Sys2Proof.Machine.execShuttleRun x0 s
  | .shuttleDump x0 => Sys2Proof.Machine.execShuttleDump x0 s
  | .token x0 x1 x2 x3 => Sys2Proof.Machine.execToken x0 x1 x2 x3 s
  | .unlock x0 x1 x2 x3 => Sys2Proof.Machine.execUnlock x0 x1 x2 x3 s
  | .lock x0 x1 x2 => Sys2Proof.Machine.execLock x0 x1 x2 s
  | .trace x0 x1 x2 x3 x4 x5 x6 => Sys2Proof.Machine.execTrace x0 x1 x2 x3 x4 x5 x6 s
  | .debugStop x0 x1 x2 x3 x4 => Sys2Proof.Machine.execDebugStop x0 x1 x2 x3 x4 s
  | .debugRun x0 x1 x2 x3 x4 => Sys2Proof.Machine.execDebugRun x0 x1 x2 x3 x4 s
  | .debugDump x0 x1 x2 x3 x4 x5 x6 => Sys2Proof.Machine.execDebugDump x0 x1 x2 x3 x4 x5 x6 s
  | .obsrd x0 x1 x2 x3 x4 => Sys2Proof.Machine.execObsrd x0 x1 x2 x3 x4 s
  | .capture x0 x1 x2 x3 x4 => Sys2Proof.Machine.execCapture x0 x1 x2 x3 x4 s
  | .fwDebugUnlock x0 x1 => Sys2Proof.Machine.execFwDebugUnlock x0 x1 s
  | .spdmGetVersion => Sys2Proof.Machine.execSpdmGetVersion s
  | .spdmGetCapabilities => Sys2Proof.Machine.execSpdmGetCapabilities s
  | .spdmNegotiateAlgorithms x0 => Sys2Proof.Machine.execSpdmNegotiateAlgorithms x0 s
  | .spdmGetDigests => Sys2Proof.Machine.execSpdmGetDigests s
  | .spdmGetCertificate x0 x1 => Sys2Proof.Machine.execSpdmGetCertificate x0 x1 s
  | .spdmChallenge x0 => Sys2Proof.Machine.execSpdmChallenge x0 s
  | .spdmGetMeasurements x0 x1 => Sys2Proof.Machine.execSpdmGetMeasurements x0 x1 s
  | .spdmKeyExchange x0 => Sys2Proof.Machine.execSpdmKeyExchange x0 s
  | .spdmFinish x0 => Sys2Proof.Machine.execSpdmFinish x0 s
  | .spdmEndSession => Sys2Proof.Machine.execSpdmEndSession s
  | .tdispStop x0 => Sys2Proof.Machine.execTdispStop x0 s
  | .ideIntegrityFailure x0 => Sys2Proof.Machine.execIdeIntegrityFailure x0 s
  | .tdispLockInterface x0 => Sys2Proof.Machine.execTdispLockInterface x0 s
  | .tdispStartInterface x0 => Sys2Proof.Machine.execTdispStartInterface x0 s
  | .coldReset => Sys2Proof.Machine.execColdReset s
  | .flrPf0 => Sys2Proof.Machine.execFlrPf0 s
  | .flrVf x0 => Sys2Proof.Machine.execFlrVf x0 s
  | .cxlMemAccess x0 x1 => Sys2Proof.Machine.execCxlMemAccess x0 x1 s
  | .cxlCacheSnoop x0 x1 x2 => Sys2Proof.Machine.execCxlCacheSnoop x0 x1 x2 s
  | .ualinkPeerAccess x0 x1 x2 => Sys2Proof.Machine.execUalinkPeerAccess x0 x1 x2 s
  | .patrolScrubRead x0 => Sys2Proof.Machine.execPatrolScrubRead x0 s
  | .lineEviction x0 x1 x2 => Sys2Proof.Machine.execLineEviction x0 x1 x2 s
  | .supervisorRegisterApplied => Sys2Proof.Machine.execSupervisorRegisterApplied s

end Sys2Proof.Machine
end

