-- ==== Sys2Proof/Machine/Schedule.lean ====
section
/-! DEFINITION. What one step of the machine runs: the move at the head of the agenda, or, with an empty agenda, the move that the
device's own order gives (notes/assumptions/1.md). A shuttle's move reads the next word of its pick in progress and decodes it. -/

namespace Sys2Proof.Machine

/-! ### The next word of a pick -/

/-- Whether the word at `idx` is the literal of the instruction before it (R98). -/
def PickRun.atLiteral (run : PickRun) : Bool :=
  match run.idx with
  | 0 => false
  | k + 1 =>
    isLit (run.words.getD (k + 1) 0) &&
      match readWord (run.words.getD k 0) (run.words[k + 1]?) with
      | .ok i _ => i.namesLit
      | .bad _ => false

/-- The subcode of a word that does not decode, with those of its place in the pick (R124). -/
def Ctx.illegal (c : Ctx) (w : DWord) (next : Option DWord) (e : Nat) : Nat :=
  if c.run.atLiteral then (if fld w 58 3 = 0 then 5 else 3)
  else match readWord w next with
    | .ok i _ => (lowest (e :: c.wordErrs i)).getD e
    | .bad s => refusedSub w next s c.wordErrs

/-- ILL for every thread of `act` at the word being issued (R125). -/
def State.illegal (s : State) (w : DWord) (next : Option DWord) (e : Nat) : State :=
  let g : Guard := { uni := true, neg := false, num := 7 }
  match s.ctxOf? g none with
  | none => s
  | some c =>
    settleWord (.nop { last := false, guard := g, lit := none }) s c
      (.done s.dev 1 (trapsAt (lanesOf c.run.act) 0x01 (c.illegal w next e) 0 .here) [])

/-- Whether thermal throttling withholds this cycle of a shuttle: under duty d/16 the last 16 − d of every 16 cycles (R363). -/
def State.withheld (s : State) (sh : Nat) : Bool := decide (s.plat.duty ≤ (s.dev.sh sh).clock.toNat % 16)

/-- A shuttle issues the next word of its pick in progress; none issues after a thermal trip. -/
def issueMove (sh : Nat) (s : State) : Host.Outcome State Fault Refusal :=
  match (s.dev.sh sh).run with
  | none => .next s
  | some run =>
    if s.plat.tripped then .next s
    else if s.withheld sh then .next { s with dev := s.dev.waitCycle sh 15 }
    else
      let s := { s with cur := sh }
      let w := run.words.getD run.idx 0
      let next := run.words[run.idx + 1]?
      if run.atLiteral then .next (s.illegal w next 4)
      else match decodeWord w next with
        | .ok i => exec i s
        | .error e => .next (s.illegal w next e)

/-! ### Moves -/

/-- One move: a shuttle's word, or one of the device's own steps; a word named as an event is no step of the device. -/
def runMove (m : Move) (s : State) : Host.Outcome State Fault Refusal :=
  match m with
  | .issue sh => issueMove sh s
  | .event i => if i.isWord then .next s else exec i s

/-- What completes an operation in flight; an atomic performs lane by lane, and its old values are then written. -/
def MemOp.completions (o : MemOp) : List Instr :=
  match o.kind with
  | .load | .ecrd => [.loadComplete o.id (BitVec.allOnes 64)]
  | .store | .cctl _ | .ecadd | .ectrig => [.storePerformed o.id (BitVec.allOnes 64)]
  | .atomic => ((o.accs.filter fun a => !a.perf).map fun a => .atomicPerformed o.id a.lane) ++ [.loadComplete o.id (BitVec.allOnes 64)]
  | .fence => [.fenceComplete o.id]
  | .matrix (.mma _ _ _ _ _ _ _ _) => [.mmaComplete o.id]
  | .matrix _ => [.accumulatorTransferComplete o.id]

/-- The device's own steps that may be open, engines and memory first, then wefts, bolts, launches and registers. -/
def State.openSteps (s : State) : List Instr :=
  let d := s.dev
  let refs := d.wefts.map fun p => refOfKey p.1
  let cores := ((refs.map fun r => r.core) ++ d.cores.map (·.1)).eraseDups
  (d.ops.flatMap MemOp.completions) ++
  (d.cmds.flatMap fun c => [.descriptorReadComplete c.core c.handle, .tcopyGranule c.core c.handle, .tcopyCommandEnd c.core c.handle]) ++
  (d.gathers.map fun g => if g.scatter then .scatterElement g.id else .gatherElement g.id) ++
  (d.slops.map fun x => .slopLine x.core x.unit) ++
  (d.fabric.colls.map fun k => .collStageReadComplete k.core k.handle) ++
  (cores.map .tcopyCommandStart) ++ (d.mem.invs.map fun v => .tlbinvComplete v.id) ++
  ((d.debug).flatMap fun p => p.2.due.map fun page => .capturePageCopy p.1 page) ++
  ((d.wefts.filter fun p => p.2.entries.any fun e => e.state == .wtl && e.aux == 0).map fun p => .waitlTimeout (refOfKey p.1)) ++
  (d.wefts.flatMap fun p => (p.2.walks.filter (!·.done)).map fun k => .tableWalkComplete (refOfKey p.1) k.va true) ++
  (refs.flatMap fun r => [.userTrapDelivery r, .signalDelivery r, .pickFetch r, .weftFinish r]) ++
  (cores.flatMap fun c => [.replayOverflowDrain c, .supervisorWeftStart c]) ++
  (d.bolts.flatMap fun b => [.twinIntervalSettle b.id, .bankTake b.id, .swapOutComplete b.id]) ++
  [.boltPlacement] ++
  (((d.disp.queues.map (·.1) ++ d.disp.launches.map (·.queue)).eraseDups).flatMap fun q => [.launchAcceptance q, .launchWaitRelease q]) ++
  (if d.disp.launches.any (·.stage == .tagwait) then [.kernelTagSweepPass] else []) ++
  [.l2CarveApplied, .raceWindowApplied, .supervisorRegisterApplied, .migrationStart] ++ (d.mem.migs.map fun g => .migrationRound g.id)

/-- Whether a step changes anything but the count of free values and whose turn a copy engine has come to. -/
def State.changes (s : State) (i : Instr) : Bool :=
  match exec i s with
  | .next t =>
    let cores := t.dev.cores.map fun p => (p.1, { p.2 with turn := (s.dev.core p.1).turn })
    { t with dev := { t.dev with fresh := s.dev.fresh, cores := cores } } != s
  | _ => true

/-- Shuttles that have something to do: a pick in progress, a weft that could begin one, or a WAITL deadline that runs down (R64). -/
def Dev.busyShuttles (d : Dev) : List Nat :=
  (d.shuttles.filter (·.2.run.isSome)).map (·.1) ++
  (d.wefts.filter fun p => d.eligible (refOfKey p.1) p.2 || (!p.2.stopped && p.2.entries.any fun e => e.state == .wtl)).map
    fun p => let r := refOfKey p.1; r.core * 4 + r.shuttle % 4

/-- The first of `ks` after `cur` in the circle of shuttles. -/
def turnOf (cur : Nat) (ks : List Nat) : Option Nat :=
  match (ks.filter (cur < ·)).min? with
  | some k => some k
  | none => ks.min?

/-- What only time brings about, once nothing else can: the end of a dispatch hold (R30), and the turn of a gated weft (R36). -/
def State.timedSteps (s : State) : List Instr :=
  let d := s.dev
  (d.disp.launches.map fun l => .dispatchHoldTimeout l.serial) ++
  ((d.wefts.filter fun p => d.eligible (refOfKey p.1) { p.2 with gated := false }).map fun p => .energyGateRotation (refOfKey p.1).core)

/-- The move that the device makes when the agenda is empty: the first of its own steps that changes anything, then the shuttles in turn,
a word or an arbitration each, then what only time brings about; none when the device is idle. -/
def State.ownMove (s : State) : Option Move :=
  match s.openSteps.find? s.changes with
  | some i => some (.event i)
  | none =>
    if s.plat.tripped then none
    else match turnOf s.cur s.dev.busyShuttles with
      | some k => some (if (s.dev.sh k).run.isSome then .issue k else .event (.pickIssue k))
      | none => (s.timedSteps.find? s.changes).map .event

def stepState (s : State) : Host.Outcome State Fault Refusal :=
  match s.agenda with
  | m :: rest => runMove m { s with agenda := rest }
  | [] => match s.ownMove with
    | some m => runMove m s
    | none => .next s

/-! ### Placing a word where the next step runs it -/

/-- A supervisor weft with every register allocated. -/
def probeWeft : Weft :=
  { Weft.start { KHdr.none with w := 16, vregs := 600, sregs := 128, acc := 128, depth := 31, scratch := 524288, threads := 16 } 0 0 0 0 [] 0 with
    sup := true }

/-- The word that ends a pick and does nothing. -/
def lastNop : DWord := 0x8003800000000000

/-- A pick in progress whose next word is `w`. -/
def probeRun (w : DWord) (rest : List DWord) : PickRun :=
  { ref := supRef 0, pc := 0x20, depth := 1, header := 0x4001FE0000000000,
    words := if w.getLsbD 63 then [w] else w :: rest, idx := 0, start := 0, act0 := 0xFFFF, act := 0xFFFF,
    handler := false, dests := [], traps := [] }

/-- The state in which the next step issues the word `w` for a supervisor weft of core 0. -/
def State.withWord (s : State) (w : Nat) : State :=
  let rest : List DWord := if w / 2 ^ 64 = 0 then [lastNop] else [BitVec.ofNat 64 (w / 2 ^ 64)]
  { s with agenda := [.issue 0],
           dev := (s.dev.putW (supRef 0) probeWeft).modSh 0 fun x => { x with run := some (probeRun (BitVec.ofNat 64 w) rest) } }

end Sys2Proof.Machine
end

