-- ==== Sys2Proof/Machine/Step.lean ====
section
/-! DEFINITION. The step of the machine, and the placing of an instruction where the step fetches its next one. -/

namespace Sys2Proof.Machine

/-- One step: the next move of the machine. -/
def step (s : State) : Host.Outcome State Fault Refusal := stepState s

/-- `s` with an instruction, whose bits are `w`, as the next word of a pick in progress (notes/assumptions/1.md). -/
def State.withFetchWord (s : State) (_nbits w : Nat) : State := s.withWord w

end Sys2Proof.Machine
end

