-- ==== Sys2Proof/Safety.lean ====
section
/-! DEFINITION. What counts as a safe run, and the terms in which claims about the machine are stated: the limits of the control
registers, the context in which a word issues, and what a word that writes registers leaves. -/

namespace Sys2Proof.Safety

open Sys2Proof.Machine

/-! ### Runs and control registers -/

/-- The limits of R15 on a value of the L2 carve register. -/
def carveFits (c : BitVec 32) : Bool :=
  let chip := c.toNat % 512
  let ctx := c.toNat / 2 ^ 16 % 256
  decide (chip ≤ 256) && decide (32 ≤ ctx) && decide (ctx ≤ 128) && decide (chip + ctx ≤ 320)

/-- The limit of R259 on GAP of the power setpoint register. -/
def gapFits (p : DWord) : Bool := decide (1 ≤ p.toNat / 2 ^ 24 % 32) && decide (p.toNat / 2 ^ 24 % 32 ≤ 23)

/-- The limits that R15 and R259 set on the control registers, on the carve in effect and on one that is pending. -/
def regsOk (r : Regs) : Bool :=
  carveFits r.carve && (match r.carveNew with | some v => carveFits v | none => true) && gapFits r.power

/-- Whether an outcome is a next state. -/
def goesOn (o : Host.Outcome State Fault Refusal) : Bool :=
  match o with
  | .next _ => true
  | _ => false

/-! ### A word that issues -/

/-- Word `i` issues on the current shuttle in context `c`: a pick is in progress there, the word raises nothing where it issues (R72,
R123, R124), none of its registers has a pending write (R112), and it reads no uncorrectable word (R337). -/
structure Issues (s : State) (i : Instr) (c : Ctx) : Prop where
  ctx : s.ctx? i = some c
  legal : c.issueTrap i = none
  free : c.w.sbWaits i = false
  sound : c.consumers i = 0

/-- The units of a word with destination `d`, as half and lane: the threads whose guard holds, or for a uniform word the halves
(R67, R100). -/
def units (c : Ctx) (d : Operand) : List (Nat × Nat) :=
  if d.makesUniform then c.onHalves.map fun h => (h, 0) else c.on.map fun l => (c.w.halfOf l, l)

/-! ### What a word writes -/

/-- Destination `d` holds `v` for a unit (R114, R132): a vector register 32 bits, a pair 64, a scalar the extended value, a predicate
bit 0; p7 and q7 always read 1 (R71). -/
def DestHolds (w : Weft) (u : Nat × Nat) (d : Operand) (wide : Bool) (e : Ext) (v : Nat) : Prop :=
  match d with
  | .vec n => w.v u.2 n.val = BitVec.ofNat 32 v ∧ (wide = true → w.v u.2 (n.val + 1) = BitVec.ofNat 32 (v / 2 ^ 32))
  | .scal n => w.s u.1 n.val = e.apply v
  | .p n => w.p u.2 n.val = (n == 7 || v % 2 == 1)
  | .q n => w.q u.1 n.val = (n == 7 || v % 2 == 1)
  | _ => True

/-- The vector register cells, by lane and register, that a unit writes. -/
def vecCells (u : Nat × Nat) (d : Operand) (wide : Bool) : List (Nat × Nat) :=
  match d with
  | .vec n => if wide then [(u.2, n.val), (u.2, n.val + 1)] else [(u.2, n.val)]
  | _ => []

/-- The cells of the register files: those of vector registers are numbered 1024 to a lane. -/
def vecKey (x : Nat × Nat) : Nat := x.1 * 1024 + x.2

/-- Every register of `w'` that no unit of `us` writes through `d` is as in `w`, and so is all the rest of the weft; a word written
whole may leave the set of uncorrectable words (R337), and nothing joins it. -/
structure OnlyDest (w w' : Weft) (us : List (Nat × Nat)) (d : Operand) (wide : Bool) : Prop where
  vec : ∀ k, (∀ u ∈ us, k ∉ (vecCells u d wide).map vecKey) → Cells.get w'.vregs k = Cells.get w.vregs k
  scal : ∀ k, (∀ u ∈ us, ∀ n, d = .scal n → k ≠ w.sIdx u.1 n.val) → Cells.get w'.sregs k = Cells.get w.sregs k
  pred : ∀ l k, (∀ u ∈ us, ∀ n, d = .p n → ¬(u.2 = l ∧ n.val = k)) → w'.p l k = w.p l k
  uni : ∀ h k, (∀ u ∈ us, ∀ n, d = .q n → ¬(u.1 = h ∧ n.val = k)) → w'.q h k = w.q h k
  bad : ∀ k ∈ w'.badWords, k ∈ w.badWords
  rest : ({ w' with vregs := w.vregs, sregs := w.sregs, preds := w.preds, qs := w.qs, badWords := w.badWords } : Weft) = w

/-- The writes of units `us` to destination `d`: every unit's value, and nothing else changed (R114). -/
def Writes (w w' : Weft) (us : List (Nat × Nat)) (d : Operand) (wide : Bool) (e : Ext) (val : Nat × Nat → Nat) : Prop :=
  (∀ u ∈ us, DestHolds w' u d wide e (val u)) ∧ OnlyDest w w' us d wide

/-- Units none of whose exceptions is trapped under the context's enables (R140). -/
def untrapped (c : Ctx) (us : List (Nat × Nat)) (f : Nat × Nat → Nat × Exc) : List (Nat × Nat) :=
  us.filter fun u => (c.w.excCause (f u).2).isNone

/-- Threads of a unit: one, or for a uniform word all of `act` in the half. -/
def unitLanes (c : Ctx) (d : Operand) (u : Nat × Nat) : List Nat := if d.makesUniform then lanesOf (c.actOf u.1) else [u.2]

/-- The traps of the units whose exceptions are trapped (R140, R398): each thread of the unit traps at the word. -/
def excTraps (c : Ctx) (us : List (Nat × Nat)) (lanes : Nat × Nat → List Nat) (f : Nat × Nat → Nat × Exc) : List Trap :=
  us.flatMap fun u => match c.w.excCause (f u).2 with
    | some k => trapsAt (lanes u) k 0 0 .here
    | none => []

/-- What a word with exceptions leaves: the units that do not trap write, $fpst of each half takes the exceptions of its units, and nothing
else changes (R81, R140). -/
def Computes (c : Ctx) (w' : Weft) (us : List (Nat × Nat)) (d : Operand) (wide : Bool) (e : Ext) (f : Nat × Nat → Nat × Exc) : Prop :=
  Writes { c.w with fpst := w'.fpst } w' (untrapped c us f) d wide e (fun u => (f u).1) ∧
    ∀ h, Cells.get w'.fpst h = us.foldl (fun x u => if u.1 = h then x ||| (f u).2 else x) (Cells.get c.w.fpst h)

/-! ### Results of integer words, said on integers and on bits -/

/-- An n-bit source as its type reads it (R413). -/
def srcInt (t : IntTy) (x : Nat) : Int :=
  if t.signed then (BitVec.ofNat t.bits x).toInt else (BitVec.ofNat t.bits x).toNat

/-- The nearest value that the type can hold (R131). -/
def nearest (t : IntTy) (x : Int) : Int :=
  if t.signed then max (-(2 ^ (t.bits - 1))) (min (2 ^ (t.bits - 1) - 1) x) else max 0 (min (2 ^ t.bits - 1) x)

/-- `v` is the exact result `x` as a word of the type writes it (R413). -/
def Narrowed (t : IntTy) (sat : Bool) (x : Int) (v : Nat) : Prop :=
  BitVec.ofNat t.bits v = BitVec.ofInt t.bits (if sat then nearest t x else x)

/-- The arithmetic words by R414, with the values `g` of their operands: `v` is the result. -/
def ArithResult (i : Instr) (g : Operand → Nat) (v : Nat) : Prop :=
  match i with
  | .iadd _ m _ a b => Narrowed m.ty m.sat (srcInt m.ty (g a) + srcInt m.ty (g b)) v
  | .isub _ m _ a b => Narrowed m.ty m.sat (srcInt m.ty (g a) - srcInt m.ty (g b)) v
  | .imul _ m _ a b => Narrowed m.ty m.sat (srcInt m.ty (g a) * srcInt m.ty (g b)) v
  | .imulh _ t _ a b => Narrowed t false ((srcInt t (g a) * srcInt t (g b)).fdiv (2 ^ t.bits)) v
  | .imad _ m _ a b c => Narrowed m.ty m.sat (srcInt m.ty (g a) * srcInt m.ty (g b) + srcInt m.ty (g c)) v
  | .imin _ t _ a b => Narrowed t false (min (srcInt t (g a)) (srcInt t (g b))) v
  | .imax _ t _ a b => Narrowed t false (max (srcInt t (g a)) (srcInt t (g b))) v
  | .iabs _ m _ a => Narrowed m.ty m.sat (max (srcInt m.ty (g a)) (-(srcInt m.ty (g a)))) v
  | .mov _ t _ a => Narrowed t false (srcInt t (g a)) v
  | .lea _ m k _ a b => Narrowed m.ty m.sat (srcInt m.ty (g a) + srcInt m.ty (g b) * 2 ^ k.val) v
  | _ => False

/-- Type and destination of an arithmetic word, and whether it multiplies. -/
def arithShape (i : Instr) : Option (IntTy × Operand × Bool) :=
  match i with
  | .iadd _ m d _ _ | .isub _ m d _ _ | .iabs _ m d _ | .lea _ m _ d _ _ => some (m.ty, d, false)
  | .imul _ m d _ _ | .imad _ m d _ _ _ => some (m.ty, d, true)
  | .imulh _ t d _ _ => some (t, d, true)
  | .imin _ t d _ _ | .imax _ t d _ _ | .mov _ t d _ => some (t, d, false)
  | _ => none

/-- Whether bits 0 to n − 1 of `v` are those that `f` gives. -/
def BitsAre (n v : Nat) (f : Nat → Bool) : Prop := ∀ k, k < n → v.testBit k = f k

/-- The shift count of R430. -/
def countOf (m : ShMod) (b : Nat) : Nat := if m.clamp then min (b % 2 ^ 32) m.ty.bits else b % 2 ^ 32 % m.ty.bits

/-- Bit `k` of an n-bit value continued above its top by its sign, or by zeros. -/
def wideBit (t : IntTy) (a k : Nat) : Bool := if k < t.bits then a.testBit k else t.signed && a.testBit (t.bits - 1)

/-- The bit words by R374, R381, R382, R385, R388 and R430. -/
def BitResult (i : Instr) (g : Operand → Nat) (v : Nat) : Prop :=
  match i with
  | .and _ t _ a b => BitsAre t.bits v fun k => (g a).testBit k && (g b).testBit k
  | .or _ t _ a b => BitsAre t.bits v fun k => (g a).testBit k || (g b).testBit k
  | .xor _ t _ a b => BitsAre t.bits v fun k => (g a).testBit k ^^ (g b).testBit k
  | .not _ t _ a => BitsAre t.bits v fun k => !(g a).testBit k
  | .shl _ m _ a b => BitsAre m.ty.bits v fun k => decide (countOf m (g b) ≤ k) && (g a).testBit (k - countOf m (g b))
  | .shr _ m _ a b => BitsAre m.ty.bits v fun k => decide (k + countOf m (g b) < m.ty.bits) && (g a).testBit (k + countOf m (g b))
  | .sar _ m _ a b => BitsAre m.ty.bits v fun k => (g a).testBit (min (k + countOf m (g b)) (m.ty.bits - 1))
  | .bfx _ t _ a b c =>
    let pos := g b % 256
    let len := min (g c % 256) t.bits
    BitsAre t.bits v fun k => if k < len then wideBit t (g a) (pos + k) else t.signed && decide (len ≠ 0) && wideBit t (g a) (pos + len - 1)
  | .bfi _ t _ a b c =>
    let pos := g c % 256
    let len := g c / 256 % 256
    BitsAre t.bits v fun k => if pos ≤ k ∧ k < pos + len then (g a).testBit (k - pos) else (g b).testBit k
  | .popc _ t _ a => v = (List.range t.bits).countP fun k => (g a).testBit k
  | .clz _ t _ a => v ≤ t.bits ∧ (∀ k, k < t.bits → t.bits - v ≤ k → (g a).testBit k = false) ∧
      (v < t.bits → (g a).testBit (t.bits - 1 - v) = true)
  | .brev _ t _ a => BitsAre t.bits v fun k => (g a).testBit (t.bits - 1 - k)
  | _ => False

def bitShape (i : Instr) : Option (IntTy × Operand) :=
  match i with
  | .and _ t d _ _ | .or _ t d _ _ | .xor _ t d _ _ | .not _ t d _ | .bfx _ t d _ _ _ | .bfi _ t d _ _ _ | .popc _ t d _ | .clz _ t d _
  | .brev _ t d _ => some (t, d)
  | .shl _ m d _ _ | .shr _ m d _ _ | .sar _ m d _ _ => some (m.ty, d)
  | _ => none

/-- Issue cycles of R53: `n` threads at `k` a cycle, at least one. -/
def perCycle (n k : Nat) : Nat := max 1 ((n + k - 1) / k)

/-- Cycles of a uniform word: one, or one for each half with threads in compatibility mode (R53, R67). -/
def uniformCycles (c : Ctx) : Nat := max 1 (c.w.halves c.run.act).length

/-- Cycles of a word with destination `d` that takes `k` threads in a cycle. -/
def cyclesFor (c : Ctx) (d : Operand) (k : Nat) : Nat := if d.makesUniform then uniformCycles c else perCycle c.on.length k

/-! ### Predicates, bytes, float -/

/-- The guarded threads of a word, as half and lane. -/
def threads (c : Ctx) : List (Nat × Nat) := c.on.map fun l => (c.w.halfOf l, l)

/-- Byte `k` of a value. -/
def byteAt (x k : Nat) : Nat := x / 256 ^ k % 256

/-- SWIZB (R433): each byte from the pool of both sources, a constant, or the sign of the byte below. -/
def SwizbResult (a b sel v : Nat) : Prop :=
  v < 2 ^ 32 ∧ ∀ i, i < 4 →
    byteAt v i =
      let k := sel / 16 ^ i % 16
      if k ≤ 7 then byteAt (a % 2 ^ 32 + 2 ^ 32 * b) k
      else if k = 9 then 255
      else if k = 10 ∧ 0 < i ∧ 128 ≤ byteAt v (i - 1) then 255
      else 0

/-- Whether a relation holds between two integers (R114). -/
def Related (cmp : ICmp) (x y : Int) : Prop :=
  match cmp with
  | .eq => x = y | .ne => x ≠ y | .lt => x < y | .le => x ≤ y | .gt => y < x | .ge => y ≤ x

/-- Binary32 patterns (R133). -/
def isNaN32 (x : BitVec 32) : Bool := x.extractLsb' 23 8 == 255#8 && x.extractLsb' 0 23 != 0#23
def isInf32 (x : BitVec 32) : Bool := x.extractLsb' 0 31 == 0x7F800000#31
def isZero32 (x : BitVec 32) : Bool := x.extractLsb' 0 31 == 0#31
/-- a' and b' of R397. -/
def negated (on : Bool) (x : BitVec 32) : BitVec 32 := if on then x ^^^ 0x80000000#32 else x
def absolute (on : Bool) (x : BitVec 32) : BitVec 32 := if on then x &&& 0x7FFFFFFF#32 else x

/-- The order of the patterns that are not NaN, −0 below +0, as unsigned numbers. -/
def orderKey (x : BitVec 32) : BitVec 32 := if x.msb then ~~~x else x ||| 0x80000000#32

/-- Destination of a float, packed or conversion word, the threads it takes in a cycle, whether it writes a pair, and how a scalar takes
its value (R53, R390, R397, R412, R434). -/
def floatShape (i : Instr) : Option (Operand × Nat × Bool × Ext) :=
  match i with
  | .fadd _ _ d _ _ | .fsub _ _ d _ _ | .fmul _ _ d _ _ | .ffma _ _ d _ _ _ | .fmin _ _ _ d _ _ | .fmax _ _ _ d _ _ | .fsetp _ _ d _ _
  | .frnd _ _ _ _ d _ | .fclass _ d _ | .fscale _ _ _ _ d _ _ | .vadd2 _ _ d _ _ | .vsub2 _ _ d _ _ | .vmin2 _ _ d _ _
  | .vmax2 _ _ d _ _ | .hadd2 _ _ d _ _ | .hmul2 _ _ d _ _ | .hfma2 _ _ d _ _ _ => some (d, 16, false, .zx32)
  | .frcp _ _ _ _ d _ | .frsq _ _ _ _ d _ | .fex2 _ _ _ _ d _ | .flg2 _ _ _ _ d _ | .fsin _ _ _ _ d _ | .fcos _ _ _ _ d _ =>
    some (d, 4, false, .zx32)
  | .cvt _ m d _ => some (d, 16, m.dty.wide, match m.dty with | .s8 | .s16 | .s32 => .sx32 | .s64 | .z64 => .full | _ => .zx32)
  | _ => none

/-- The value that such a word computes for a unit, with its exceptions (R390, R398 to R407, R412, R434). -/
def floatValue (i : Instr) (c : Ctx) (u : Nat × Nat) : Nat × Exc :=
  let g (r : Reader) (o : Operand) : Nat := c.rd u.1 u.2 r o
  match i with
  | .fadd _ m _ a b => fadd m (g .f32 a) (g .f32 b)
  | .fsub _ m _ a b => fsub m (g .f32 a) (g .f32 b)
  | .fmul _ m _ a b => fmul m (g .f32 a) (g .f32 b)
  | .ffma _ m _ a b e => ffma m (g .f32 a) (g .f32 b) (g .f32 e)
  | .fmin _ n ab _ a b => (fminmax false n ab (g .f32 a) (g .f32 b), 0)
  | .fmax _ n ab _ a b => (fminmax true n ab (g .f32 a) (g .f32 b), 0)
  | .fsetp _ k _ a b => ((fsetp k (g .f32 a) (g .f32 b)).toNat, 0)
  | .frcp _ r sat n _ a => funary rcpNum r sat n (g .f32 a)
  | .frsq _ r sat n _ a => funary rsqNum r sat n (g .f32 a)
  | .fex2 _ r sat n _ a => funary ex2Num r sat n (g .f32 a)
  | .flg2 _ r sat n _ a => funary lg2Num r sat n (g .f32 a)
  | .fsin _ r sat n _ a => funary (trigNum false) r sat n (g .f32 a)
  | .fcos _ r sat n _ a => funary (trigNum true) r sat n (g .f32 a)
  | .frnd _ r sat n _ a => frnd r sat n (g .f32 a)
  | .fclass _ _ a => (fclass (g .f32 a), 0)
  | .fscale _ r sat n _ a b => fscale r sat n (g .f32 a) (BitVec.ofNat 32 (g .i32 b)).toInt
  | .vadd2 _ m _ a b => (vadd2 m (g .p16 a) (g .p16 b), 0)
  | .vsub2 _ m _ a b => (vsub2 m (g .p16 a) (g .p16 b), 0)
  | .vmin2 _ m _ a b => (vmin2 m (g .p16 a) (g .p16 b), 0)
  | .vmax2 _ m _ a b => (vmax2 m (g .p16 a) (g .p16 b), 0)
  | .hadd2 _ m _ a b => let r : Reader := if m.f16 then .f162 else .bf2; hadd2 m (g r a) (g r b)
  | .hmul2 _ m _ a b => let r : Reader := if m.f16 then .f162 else .bf2; hmul2 m (g r a) (g r b)
  | .hfma2 _ m _ a b e => let r : Reader := if m.f16 then .f162 else .bf2; hfma2 m (g r a) (g r b) (g r e)
  | .cvt _ m _ a => let x := cvt m (g (.cvt m.sty) a); ((BitVec.ofInt (if m.dty.wide then 64 else 32) x.1).toNat, x.2)
  | _ => (0, 0)

/-! ### Packed halves -/

/-- Half `k` of a packed value, as its signedness reads it (R132, R434). -/
def halfInt (uns : Bool) (x k : Nat) : Int :=
  let b := BitVec.ofNat 16 (x / 65536 ^ k)
  if uns then b.toNat else b.toInt

/-- `v` is `x` as a packed word writes a half: wrapped, or saturated under .sat. -/
def HalfIs (m : PMod) (x : Int) (v : Nat) : Prop :=
  BitVec.ofNat 16 v = BitVec.ofInt 16 (if m.sat then (if m.uns then max 0 (min 65535 x) else max (-32768) (min 32767 x)) else x)

/-! ### Pair words -/

/-- The scalar slot on 64-bit values (R107). -/
def pairScalar (op : SBin) (x y : BitVec 64) : BitVec 64 :=
  match op with
  | .add => x + y
  | .sub => x - y
  | .and => x &&& y
  | .or => x ||| y
  | .xor => x ^^^ y
  | .shl => x <<< (y.toNat % 64)
  | .shr => x >>> (y.toNat % 64)

/-- The second scalar source of a pair word (R106). -/
def pairST (w : Weft) (h : Nat) (t : PST) : BitVec 64 :=
  match t with
  | .reg n => w.s h n.val
  | .imm n => BitVec.ofInt 64 ((n.val : Int) - 32)

/-- What the scalar slot leaves of a half, `w` being the weft before the word: the scalar or the uniform predicate that it writes. -/
def ScalarSlotHolds (w w' : Weft) (h : Nat) (o : SSlot) : Prop :=
  match o with
  | .bin op d s t => w'.s h d.val = pairScalar op (w.s h s.val) (pairST w h t)
  | .mov d t => w'.s h d.val = pairST w h t
  | .lea k d s t => w'.s h d.val = w.s h s.val + pairST w h t <<< k.val
  | .setp uns cmp d s t =>
    let x := w.s h s.val
    let y := pairST w h t
    w'.q h d.val = (if uns then (match cmp with | .eq => x == y | .ne => x != y | .lt => x.ult y | .le => x.ule y | .gt => y.ult x | .ge => y.ule x)
      else (match cmp with | .eq => x == y | .ne => x != y | .lt => x.slt y | .le => x.sle y | .gt => y.slt x | .ge => y.sle x))
  | .sel k d s t => w'.s h d.val = if w.q h k.val then w.s h s.val else pairST w h t

/-- Scalar and uniform predicate that the scalar slot names as destination. -/
def slotScal : SSlot → Option Nat
  | .bin _ d _ _ | .mov d _ | .lea _ d _ _ | .sel _ d _ _ => some d.val
  | .setp _ _ _ _ _ => none

def slotPred : SSlot → Option Nat
  | .setp _ _ d _ _ => some d.val
  | _ => none

/-- vd op vs of the vector slot: `r` is what its full form gives on 32 bits with srcA = vd (R108). -/
def VectorSlotGives (op : VOp) (a b : Nat) (r : Nat × Exc) : Prop :=
  let t (z : Bool) : IntTy := if z then .z32 else .s32
  match op with
  | .iadd z sat => Narrowed (t z) sat (srcInt (t z) a + srcInt (t z) b) r.1 ∧ r.2 = 0
  | .isub z sat => Narrowed (t z) sat (srcInt (t z) a - srcInt (t z) b) r.1 ∧ r.2 = 0
  | .and _ => BitsAre 32 r.1 (fun k => a.testBit k && b.testBit k) ∧ r.2 = 0
  | .or _ => BitsAre 32 r.1 (fun k => a.testBit k || b.testBit k) ∧ r.2 = 0
  | .xor _ => BitsAre 32 r.1 (fun k => a.testBit k ^^ b.testBit k) ∧ r.2 = 0
  | .shl z cl => let n := countOf { ty := t z, clamp := cl } b; BitsAre 32 r.1 (fun k => decide (n ≤ k) && a.testBit (k - n)) ∧ r.2 = 0
  | .shr z cl => let n := countOf { ty := t z, clamp := cl } b; BitsAre 32 r.1 (fun k => decide (k + n < 32) && a.testBit (k + n)) ∧ r.2 = 0
  | .mov => BitVec.ofNat 32 r.1 = BitVec.ofNat 32 b ∧ r.2 = 0
  | .fadd m => r = fadd m a b
  | .fmul m => r = fmul m a b
  | .fmin n ab => r = (fminmax false n ab a b, 0)
  | .fmax n ab => r = (fminmax true n ab a b, 0)
  | .vadd2 m => r = (vadd2 m a b, 0)
  | .vmin2 m => r = (vmin2 m a b, 0)
  | .vmax2 m => r = (vmax2 m a b, 0)
  | .hadd2 m => r = hadd2 m a b
  | .hmul2 m => r = hmul2 m a b

/-! ### Cross-thread words -/

/-- Lanes of the group in which a cross-thread word acts, and its first lane (R68, R437). -/
def groupSize (c : Ctx) : Nat := if c.w.hdr.c16 then 16 else c.w.hdr.w

/-- The participants of a half (R436). -/
def partsOf (c : Ctx) (h : Nat) : List Nat := c.on.filter fun l => c.w.halfOf l == h

/-- Segment width of SHFL (R437): `w` is the width asked for, `g` the group. -/
def segment (g w : Nat) : Nat := if w = 0 || g < w then g else 2 ^ w.log2

/-- Source lane of SHFL within its group (R437). -/
def shuffleFrom (m : ShflMode) (l w k : Nat) : Nat :=
  let base := l - l % w
  match m with
  | .idx => base + k % w
  | .up => if base + k ≤ l then l - k else l
  | .down => if l + k < base + w then l + k else l
  | .xor => base + ((l % w) ^^^ (k % w))

/-- The word of MATES for participant `t` of `ps`, by its fields LEAD, CNT, RANK, FIRST and NGRP (R424). -/
def MatesWord (key : Nat → Nat) (off : Nat) (ps : List Nat) (t v : Nat) : Prop :=
  let g := ps.filter fun u => key u == key t
  let lead := g.foldl min t
  v = (lead - off) + 2 ^ 6 * g.length + 2 ^ 13 * (g.countP fun u => decide (u < t)) + 2 ^ 19 * (if t = lead then 1 else 0) +
    2 ^ 20 * (ps.countP fun u => ps.all fun x => decide (u ≤ x) || key x != key u)

/-! ### Control words -/

/-- A guarded thread that goes to a pick at its own depth in RUN (R54). -/
def goesTo (c : Ctx) (l : Nat) (pc : BitVec 32) : Dest :=
  { lane := l, depth := c.run.depth, pc := pc, state := .run, aux := 0, gone := false, act := .none }

/-- Byte offsets of the word being issued and of the pick after this one (R383). -/
def wordOffset (c : Ctx) : BitVec 32 := BitVec.ofNat 32 (c.run.pc.toNat + 8 + 8 * c.run.idx)
def nextOffset (c : Ctx) : BitVec 32 := BitVec.ofNat 32 (c.run.pc.toNat + 8 + 8 * c.run.words.length)

/-- Target of BRA and CALL: the word's offset plus eight times the signed word count (R383). -/
def branchOffset (c : Ctx) (off : BitVec 30) : BitVec 32 := BitVec.ofInt 32 ((wordOffset c).toNat + 8 * off.toInt)

/-- The weft's bolt does not run as twins, and no word of it waits for an interval to settle (R344). -/
def Single (s : State) (c : Ctx) : Prop := s.dev.isTwin c.w = false ∧ c.w.twinAt = none

/-! ### Memory words -/

/-- The access that each memory word forms and what it asks of the memory system (R118, R119, R161, R366, R375 to R378, R387, R393 to R395,
R417 to R421, R441 to R444). -/
def memWord (i : Instr) (c : Ctx) : Option (MemForm × List Formed) :=
  let lanes (d : Operand) : List Nat := if d.makesUniform then c.onHalves.map fun h => lowLane (c.actOf h) else c.on
  let halves : List Nat := c.onHalves.map fun h => lowLane (c.actOf h)
  let at_ (r : Reader) (l : Nat) (a : Operand) (z : Nat) (off : Off) : Int :=
    c.get l r a + match off with
      | .imm n => n.toInt * z
      | .idx o => (BitVec.ofNat 32 (c.get l .i32 o)).toInt
  let mem (k : OpKind) (sp : Space) (m : MemMod) (o : AOrd) (d : Operand) (dst : DstReg) : MemForm :=
    { kind := k, space := sp, size := m.size.bytes, sgn := m.size.isSigned, order := o, vol := m.ord == .vol, scope := m.scope,
      remote := m.remote, ef := m.ef, fb := m.fb, dst := dst, uni := d.makesUniform }
  let acq (m : MemMod) : AOrd := if m.ord == .sync then .acq else .relaxed
  let rel (m : MemMod) : AOrd := if m.ord == .sync then .rel else .relaxed
  let atom (sp : Space) (m : AtomMod) (dst : DstReg) (uni : Bool) : MemForm :=
    { kind := .atomic, space := sp, size := if m.w64 then 8 else 4, aop := m.op, w64 := m.w64, order := m.ord, scope := m.scope,
      remote := m.remote, ef := m.ef, fb := m.fb, dst := dst, uni := uni }
  let n (m : AtomMod) : Nat := if m.w64 then 2 else 1
  let val (m : AtomMod) (l : Nat) (b : Operand) : Nat := c.get l (atomReader m) b % 2 ^ (32 * n m)
  match i with
  | .ld _ m d a off => some (mem .load .generic m (acq m) d (dstReg d m.size.regs),
      (lanes d).map fun l => { lane := l, addr := at_ .i64 l a m.size.bytes off })
  | .st _ m d a off => some (mem .store .generic m (rel m) d .none,
      (lanes d).map fun l => { lane := l, addr := at_ .i64 l a m.size.bytes off, data := c.regData l m.size.regs d })
  | .lds _ m d a off => some (mem .load .scratch m (acq m) d (dstReg d m.size.regs),
      (lanes d).map fun l => { lane := l, addr := at_ .i32 l a m.size.bytes off })
  | .sts _ m d a off => some (mem .store .scratch m (rel m) d .none,
      (lanes d).map fun l => { lane := l, addr := at_ .i32 l a m.size.bytes off, data := c.regData l m.size.regs d })
  | .ldc _ z fb d a off => some ({ kind := .load, space := .const, size := z.bytes, sgn := z.isSigned, fb := fb, dst := dstReg d z.regs,
                                   uni := d.makesUniform },
      (lanes d).map fun l => { lane := l, addr := at_ .i32 l a z.bytes off })
  | .atom _ m d a b => some (atom .generic m (dstReg d (n m)) d.makesUniform,
      (lanes d).map fun l => { lane := l, addr := c.get l .i64 a, data := val m l b, cmp := c.regData l (n m) d % 2 ^ (32 * n m) })
  | .atoms _ m d a b => some (atom .scratch m (dstReg d (n m)) d.makesUniform,
      (lanes d).map fun l => { lane := l, addr := c.get l .i32 a, data := val m l b, cmp := c.regData l (n m) d % 2 ^ (32 * n m) })
  | .red _ m a b => some (atom .generic m .none false, c.on.map fun l => { lane := l, addr := c.get l .i64 a, data := val m l b })
  | .cctl _ op fb a off => some ({ kind := .cctl op, space := .generic, size := 1, fb := fb },
      c.on.map fun l => { lane := l, addr := at_ .i64 l a 64 off })
  | .ecadd _ m a b => some ({ kind := .ecadd, space := .counter, size := 8, order := if m.sync then .rel else .relaxed, scope := m.scope,
                              remote := m.remote, fb := m.fb, uni := true },
      halves.map fun l => { lane := l, addr := c.get l .i64 a, data := c.get l .i64 b })
  | .ecrd _ m d a => some ({ kind := .ecrd, space := .counter, size := 8, order := if m.sync then .acq else .relaxed, scope := m.scope,
                             remote := m.remote, fb := m.fb, dst := dstReg d 2, uni := true },
      halves.map fun l => { lane := l, addr := c.get l .i64 a })
  | .ectrig _ fb a b => some ({ kind := .ectrig, space := .counter, size := 8, fb := fb, uni := true },
      halves.map fun l => { lane := l, addr := c.get l .i64 a, data := c.get l .i64 b })
  | _ => none

/-- The flags that a memory word counts on: that of each half with a thread that proceeds (R111). -/
def memKeys (s : State) (c : Ctx) (m : MemForm) (fs : List Formed) : List Nat :=
  c.flagKeys m.fb (((c.testAll s.dev m fs).accs.map fun a => c.w.halfOf a.lane).eraseDups)

/-- An access but for what its operation adds to it when it is placed: the scope of a pending release (R185), the lane that names its line's
record (R209). -/
def bare (a : Access) : Access := { a with relScope := .weft, top := 0 }

/-- Nothing holds a memory word at issue: no fence of the weft is open (R185), its flags have room (R75), the scoreboard has room for its
destination (R112), and no access misses the translation buffer (R264). -/
structure MemIssues (s : State) (c : Ctx) (m : MemForm) (fs : List Formed) : Prop where
  noFence : s.dev.fencing c.run.ref = false
  flags : c.w.flagsFull (memKeys s c m fs) = false
  board : m.dst = .none ∨ c.w.sb.length < 32
  hits : (c.testAll s.dev m fs).walks = []
  gate : c.memGate s.dev m (c.testAll s.dev m fs).accs = .go

/-- What a placed memory word leaves: one operation in flight with its accesses, its flags counted up and its destination pending; no byte of
memory, no register and nothing else of the device changes (R110 to R112). -/
structure Placed (s : State) (c : Ctx) (m : MemForm) (fs : List Formed) (d : Dev) : Prop where
  op : ∃ o : MemOp, d.ops = s.dev.ops ++ [o] ∧ o.id = s.dev.nextOp ∧ o.ref = c.run.ref ∧ o.kind = m.kind ∧ o.space = m.space ∧
    o.size = m.size ∧ o.sgn = m.sgn ∧ o.aop = m.aop ∧ o.dst = m.dst ∧ o.uni = m.uni ∧ o.vol = m.vol ∧ o.remote = m.remote ∧ o.ef = m.ef ∧
    o.accs.map bare = (c.testAll s.dev m fs).accs.map bare ∧ o.flags = memKeys s c m fs
  weft : ∃ w', d.weft? c.run.ref = some w' ∧ w'.vregs = c.w.vregs ∧ w'.sregs = c.w.sregs ∧ w'.preds = c.w.preds ∧ w'.qs = c.w.qs ∧
    w'.tiles = c.w.tiles ∧ w'.fpst = c.w.fpst ∧ w'.entries = c.w.entries ∧ w'.walks = [] ∧
    w'.flags = (c.w.addFlags (memKeys s c m fs)).flags ∧
    w'.sb = c.w.sb ++ (match m.dst with
      | DstReg.none => []
      | .vec n k => [{ ops := [s.dev.nextOp], first := n, count := k, pc := wordOffset c }]
      | .scal n => [{ ops := [s.dev.nextOp], first := 640 + n, count := 1, pc := wordOffset c }])
  others : ∀ r, refKey r ≠ refKey c.run.ref → d.weft? r = s.dev.weft? r
  frame : { d with ops := s.dev.ops, nextOp := s.dev.nextOp, wefts := s.dev.wefts } = s.dev

/-! ### Words of other classes -/

/-- Device `d` is `e` but for weft `r`, which is `w`. -/
structure OnlyWeft (e d : Dev) (r : WRef) (w : Weft) : Prop where
  here : d.weft? r = some w
  others : ∀ q, refKey q ≠ refKey r → d.weft? q = e.weft? q
  rest : ({ d with wefts := e.wefts } : Dev) = e

/-- The halves for which a word that is performed once executes, as units. -/
def halfUnits (c : Ctx) : List (Nat × Nat) := c.onHalves.map fun h => (h, 0)

/-- Weft `w'` is `w` but for the tiles `ts`, by half and number, which are valid and hold `f` (R76). -/
structure TilesHold (w w' : Weft) (ts : List (Nat × Nat)) (f : Nat × Nat → Nat → Nat → BitVec 32) : Prop where
  val : ∀ t ∈ ts, ∀ m n, m < 16 → n < 16 → w'.tile t.1 t.2 m n = f t m n
  valid : ∀ t ∈ ts, tileNo t.1 t.2 ∉ w'.badTiles
  tiles : ∀ k, (∀ t ∈ ts, k / 256 ≠ tileNo t.1 t.2) → Cells.get w'.tiles k = Cells.get w.tiles k
  bad : ∀ k, (∀ t ∈ ts, k ≠ tileNo t.1 t.2) → (k ∈ w'.badTiles ↔ k ∈ w.badTiles)
  words : ∀ k ∈ w'.badWords, k ∈ w.badWords
  rest : ({ w' with tiles := w.tiles, badTiles := w.badTiles, badWords := w.badWords } : Weft) = w

/-- Nothing holds a matrix word at issue: no engine owns its tile (R193), and FA has room (R75). -/
structure MatIssues (s : State) (c : Ctx) (tile : Nat) : Prop where
  some : c.onHalves ≠ []
  tiles : ∀ h ∈ c.onHalves, s.dev.tileOwned c.run.ref (tileNo h tile) = false
  flags : c.w.flagsFull (c.flagKeys false c.onHalves) = false

/-- A matrix word placed for the halves `hs`: an operation for each, counted on FA (R110), its destination pending (R112), over the scratch
lines `lines` of its half; no byte and no register changes but $pidx, which a word that resumes there takes (R84). -/
structure MatPlaced (s : State) (c : Ctx) (d : Dev) (hs : List Nat) (op : Nat → MatOp → Prop) (dst : DstReg) (lines : Nat → List Nat) :
    Prop where
  ops : ∃ os : List MemOp, d.ops = s.dev.ops ++ os ∧ os.length = hs.length ∧ ∀ j h, hs[j]? = some h → ∃ o m, os[j]? = some o ∧
    o.kind = .matrix m ∧ op h m ∧ o.id = s.dev.nextOp + j ∧ o.ref = c.run.ref ∧ o.dst = dst ∧ o.flags = c.flagKeys false [h] ∧
    o.lanes = c.actOf h ∧ o.accs.map (·.pa) = lines h
  weft : ∃ w', d.weft? c.run.ref = some w' ∧ w'.flags = (c.w.addFlags (c.flagKeys false hs)).flags ∧
    w'.sb.map (fun e => (e.first, e.count)) = c.w.sb.map (fun e => (e.first, e.count)) ++ (match dst.range with | some r => if hs = [] then [] else [r] | none => []) ∧
    (∀ h ∈ hs, c.startIdx h = 0 → Cells.get w'.pidx h = Cells.get c.w.pidx h) ∧ (∀ h, h ∉ hs → Cells.get w'.pidx h = Cells.get c.w.pidx h) ∧
    ({ w' with flags := c.w.flags, sb := c.w.sb, pidx := c.w.pidx, pidxPend := c.w.pidxPend } : Weft) = c.w
  others : ∀ r, refKey r ≠ refKey c.run.ref → d.weft? r = s.dev.weft? r
  frame : ({ d with ops := s.dev.ops, nextOp := s.dev.nextOp, wefts := s.dev.wefts } : Dev) = s.dev

/-- Scratch lines that a block of `n` lines from offset `o` covers, as first bytes in the even core's view (R28). -/
def blockLines (c : Ctx) (o n : Nat) : List Nat := (List.range n).map fun j => c.w.scratchAt c.core (o + 64 * j)

/-- What the completion of operation `o` leaves of its weft `w`, before the end of a pick that waited for it: the flags that it counted on, one
lower (R111), and its scoreboard entry free (R112). -/
def doneWeft (w : Weft) (o : MemOp) : Weft :=
  { w with flags := (w.subFlags o.flags).flags, sb := (w.freeSb o.id).sb }

/-- An operation of a matrix class word that can complete: its weft stands, its order allows it (R111, R371), no word that it reads is
uncorrectable (R337), and its launch is not race-checked (R209). -/
structure MatDue (s : State) (o : MemOp) (m : MatOp) (w : Weft) : Prop where
  op : s.dev.ops.find? (·.id == o.id) = some o
  kind : o.kind = .matrix m
  weft : s.dev.weft? o.ref = some w
  ready : s.dev.matReady w o = true
  sound : s.dev.matBad w o m = false
  plain : o.rel = 0 ∧ ∀ t, o.eng = some t → t.on = false

/-- Device `d` is `e` without operation `o`, its weft `w'`; other fields are as `g` says. -/
structure MatDone (e d : Dev) (o : MemOp) (w' : Weft) : Prop where
  ops : d.ops = e.ops.filter fun p => p.id != o.id
  weft : d.weft? o.ref = some w'
  others : ∀ r, refKey r ≠ refKey o.ref → d.weft? r = e.weft? r
  rest : ({ d with ops := e.ops, wefts := e.wefts, shuttles := e.shuttles, bolts := e.bolts } : Dev) = e

/-- A line of which the pair of a core holds no copy, that no other pair has marked and that no peer has older than the L2 (R164, R168, R188): its
bytes are those of its home slice. -/
def AtHome (d : Dev) (core line : Nat) : Prop :=
  d.l1? core line = none ∧ d.l1? (partnerOf core) line = none ∧ (∀ k ∈ d.mem.marks, k.line = line → k.pair = pairOf core) ∧
    ∀ j, j < 64 → Tab.find? d.mem.l2peer (64 * line + j) = none

/-- The L1 of a core has room for one more line: a fill takes the place of no other copy (R163). -/
def HasRoom (d : Dev) (core : Nat) : Prop := d.l1Words core + 8 ≤ l1Cap

/-- The bytes of memory of `d` are those of `e` but for the `n` at `pa`, which are the low bytes of `v` (R2). -/
def BytesAt (e d : Dev) (pa n v : Nat) : Prop :=
  (∀ j, j < n → (Cells.get d.mem.cells (pa + j)).toNat = byteAt v j) ∧ ∀ k, (k < pa ∨ pa + n ≤ k) → Cells.get d.mem.cells k = Cells.get e.mem.cells k

/-- The same of a bolt's scratch. -/
def ScratchAt (a b : Bolt) (pa n v : Nat) : Prop :=
  (∀ j, j < n → (Cells.get b.scratch (pa + j)).toNat = byteAt v j) ∧ (∀ k, (k < pa ∨ pa + n ≤ k) → Cells.get b.scratch k = Cells.get a.scratch k) ∧
    ({ b with scratch := a.scratch, badScratch := a.badScratch } : Bolt) = a

/-- Device `d` is `e` but for view slot `slot`, which is `v`, and the messages `ms` sent (R318). -/
structure ViewSends (e d : Dev) (slot : Nat) (v : View) (ms : List FabMsg) : Prop where
  view : d.view slot = v
  others : ∀ k, k ≠ slot → d.view k = e.view k
  sent : d.fabric.outbox = e.fabric.outbox ++ ms
  rest : ({ d with fabric := { d.fabric with views := e.fabric.views, outbox := e.fabric.outbox, unacked := e.fabric.unacked,
                                             nextMsg := e.fabric.nextMsg } } : Dev) = e

/-- Whether a view slot has a view that can change (R323). -/
def hasView (v : View) : Prop := v.state = .live ∨ v.state = .agree

/-! ### The supervisor's words -/

/-- The weft that $tgtw names, where its bit 6 is set and its slot holds one (R275). -/
def target (s : State) (c : Ctx) : Option (WRef × Weft) :=
  let t := (s.dev.core c.core).tgtw
  let r : WRef := { core := c.core, shuttle := (t.extractLsb' 4 2).toNat, slot := (t.extractLsb' 0 4).toNat }
  if t.getLsbD 6 then (s.dev.weft? r).map fun w => (r, w) else none

/-- The weft whose registers LXRD and LXWR reach (R267). -/
def lxTarget (s : State) (c : Ctx) : Option (WRef × Weft) := if c.w.sup then target s c else some (c.run.ref, c.w)

/-- Whether a register code is one of R267 for a weft: a vector register below min(R + D, 640), or p0 to p6. -/
def lxCode (w : Weft) (code : Nat) : Prop := code < w.hdr.vregs + w.hdr.depth ∧ code < 640 ∨ 896 ≤ code ∧ code ≤ 902

/-- The register that a code names in a lane. -/
def lxReg (w : Weft) (code lane : Nat) : Nat := if code < 640 then (w.v lane code).toNat else (w.p lane (code - 896)).toNat

/-- Whether LXWR takes effect on a lane of its target: always in a handler, and from the supervisor on a lane that is parked, held by its
handler, stopped, or exited (R423). -/
def lxOpen (s : State) (c : Ctx) (r : WRef) (w : Weft) (lane : Nat) : Prop :=
  c.w.sup = false ∨ w.stopped = true ∨ w.parked.getLsbD lane = true ∨ w.handler.isSome = true ∨
    (w.alive ||| s.dev.pickLanes r).getLsbD lane = false

/-- Whether lane `l` of the weft stands in state `st` at a key. -/
def StandsAt (w : Weft) (l depth : Nat) (pc : BitVec 32) (resume : Nat) (st : EState) : Prop :=
  ∃ e ∈ w.entries, e.mask.getLsbD l = true ∧ e.depth = depth ∧ e.pc = pc ∧ e.resume = resume ∧ e.state = st

/-- Whether an invalidation covers a translation: all, those of its ASID, or those of the 16-page group of its page (R294). -/
def Covered (scope : InvScope) (va : BitVec 57) (asid : BitVec 16) (e : TlbEntry) : Prop :=
  match scope with
  | .all => True
  | .asid => e.asid = asid
  | .page => e.asid = asid ∧ va.toNat / 4096 / (16 * e.pages) = e.vpn / (16 * e.pages)

/-- The translations that an invalidation leaves are those it does not cover. -/
def InvLeaves (e d : Dev) (scope : InvScope) (va : BitVec 57) (asid : BitVec 16) : Prop :=
  (∀ p ∈ d.mem.tlb, ∀ x ∈ p.2, ¬Covered scope va asid x) ∧
    ∀ p ∈ e.mem.tlb, ∀ x ∈ p.2, ¬Covered scope va asid x → ∃ q ∈ d.mem.tlb, q.1 = p.1 ∧ x ∈ q.2

/-! ### The host interface -/

/-- The state with messages sent to the host. -/
def saying (s : State) (ms : List HostMsg) : State := { s with dev := { s.dev with host := { s.dev.host with out := s.dev.host.out ++ ms } } }

/-- The state with a control response sent (R303). -/
def answered (s : State) (fn : Nat) (tag : DWord) (status : Nat) (result : List DWord) : State := saying s [.response fn tag status result]

/-- The state with the TDI of a VF in a state of R313. -/
def withTdi (s : State) (vf : Nat) (t : Tdi) : State :=
  { s with dev := { s.dev with host := { s.dev.host with tdi := Tab.put s.dev.host.tdi vf t } } }

/-- Function and tag of a control command (R303). -/
def ctrlOf (i : Instr) : Option (Nat × DWord) :=
  match i with
  | .regwrL2Carve fn tag _ | .regwrRaceWindow fn tag _ | .regwrPowerSetpoint fn tag _ | .regwrSventry fn tag _ | .regwrSvbase fn tag _
  | .regwrCtxtab fn tag _ | .regrd fn tag _ | .qconf fn tag _ _ _ _ _ | .ctrassign fn tag _ _ _ _ | .ctrset fn tag _ _ | .ctrlKill fn tag _
  | .ctrlSignal fn tag _ _ | .ctrlTlbinv fn tag _ _ _ | .migrate fn tag _ | .keyload fn tag _ _ _ | .sysreply fn tag _ _
  | .fwstage fn tag _ _ | .fwswitch fn tag => some (fn, tag)
  | _ => none

/-- The commands that R303 gives to PF0 alone. -/
def pf0Only (i : Instr) : Bool :=
  match i with
  | .regwrL2Carve _ _ _ | .regwrRaceWindow _ _ _ | .regwrPowerSetpoint _ _ _ | .regwrSventry _ _ _ | .regwrSvbase _ _ _ | .regwrCtxtab _ _ _
  | .regrd _ _ _ | .ctrassign _ _ _ _ _ _ | .fwstage _ _ _ _ | .fwswitch _ _ => true
  | _ => false

/-- Function, tag and context of a command of the kernel debug queue, and whether it needs an unlocked session (R356). -/
def sessionOf (i : Instr) : Option (Nat × DWord × Nat × Bool) :=
  match i with
  | .token fn tag ctx _ | .unlock fn tag ctx _ | .lock fn tag ctx => some (fn, tag, ctx, false)
  | .trace fn tag ctx _ _ _ _ | .debugStop fn tag ctx _ _ | .debugRun fn tag ctx _ _ | .debugDump fn tag ctx _ _ _ _ | .obsrd fn tag ctx _ _
  | .capture fn tag ctx _ _ => some (fn, tag, ctx, true)
  | _ => none

/-- A function whose driver has been accepted and which, bound as a TDI, is in RUN (R302, R313). -/
def FnOn (s : State) (fn : Nat) : Prop :=
  Tab.getD false s.dev.host.features fn = true ∧ ∀ t, Tab.find? s.dev.host.tdi fn = some t → t = .run

/-- The device carries out the function's commands now: no firmware switch is in progress, and no earlier TLBINV of the function is
still open (R303, R317). -/
structure Serves (s : State) (fn : Nat) : Prop where
  on : FnOn s fn
  still : s.sec.switching = false
  done : ∀ v ∈ s.dev.mem.invs, ∀ f tag, v.reply = some (f, tag) → f ≠ fn

/-- No TDI is in RUN. -/
def NoTdiRuns (s : State) : Prop := ∀ p ∈ s.dev.host.tdi, p.2 ≠ .run

/-- The function to which a context is assigned: PF0 unless a command assigns it another. -/
def fnOfCtx (s : State) (ctx : Nat) : Nat := (Tab.find? s.sec.ctxFn ctx).getD 0

/-- A window of `size` GiB at `base` GiB with its carve-out at `cut` · 128 MiB is one that R204 allows. -/
def windowFits (v : DWord) : Prop :=
  let base := v.toNat % 1024
  let size := v.toNat / 2 ^ 16 % 1024
  let cut := v.toNat / 2 ^ 32 % 8192
  size = 0 ∨ size ≤ 512 ∧ base + size ≤ 576 ∧ cut + size ≤ 4608 ∧ (8 * (base + size) ≤ cut ∨ cut + size ≤ 8 * base)

/-- STATUS and the bits below it, of a register with STATUS at the top. -/
def stat64 (x : DWord) : Nat := x.toNat / 2 ^ 62
def body64 (x : DWord) : Nat := x.toNat % 2 ^ 62

/-- No weft waits on the counter under a threshold that its value meets (R311). -/
def NoWaitEnds (d : Dev) (id : Nat) : Prop :=
  let v := (d.counter id).value
  (∀ p ∈ d.wefts, ∀ x ∈ p.2.waits, x.counter = id → (v - x.threshold).msb = true) ∧
    ∀ b ∈ d.bolts, ∀ w ∈ b.saved, ∀ x ∈ w.waits, x.counter = id → (v - x.threshold).msb = true

/-- Device `d` is `e` but for counter `id`, which is `c`. -/
structure OnlyCounter (e d : Dev) (id : Nat) (c : Counter) : Prop where
  here : d.counter id = c
  others : ∀ k, k ≠ id → d.counter k = e.counter k
  rest : ({ d with counters := e.counters } : Dev) = e

/-- A counter that operates: the TDI of its function, if it has one, is in RUN (R313). -/
def CounterOn (d : Dev) (id : Nat) : Prop := ∀ t, Tab.find? d.host.tdi (d.counter id).fn = some t → t = .run

/-- The slot of a counter that a function may reach, of a counter that operates (R308, R313). -/
def Shows (s : State) (fn id : Nat) : Prop :=
  id < 4096 ∧ fn ≤ 16 ∧ (fn = 0 ∨ (s.dev.counter id).fn = fn) ∧ CounterOn s.dev id

/-- An entry of queue 1,026 that waits: type, time and two arguments (R306). -/
def eventWords (d : Dev) (type a b : Nat) : List DWord := [BitVec.ofNat 64 type, BitVec.ofNat 64 d.host.us, BitVec.ofNat 64 a, BitVec.ofNat 64 b]

/-! ### Debug sessions, dumps and resets -/

/-- The debug state of a context, `g`, on which a command of its own function acts (R356). -/
structure Session (s : State) (fn ctx : Nat) (g : Debug) : Prop where
  on : FnOn s fn
  still : s.sec.switching = false
  legal : ctx < 65536
  mine : fnOfCtx s ctx = fn
  here : (Tab.find? s.dev.debug ctx).getD Debug.reset = g

/-- The state with a context's debug state replaced. -/
def withDebug (s : State) (ctx : Nat) (g : Debug) : State := { s with dev := { s.dev with debug := Tab.put s.dev.debug ctx g } }

/-- A shuttle holds user wefts of a context, and of no other. -/
def HoldsOnly (s : State) (k ctx : Nat) : Prop :=
  let here (p : Nat × Weft) : Prop := (refOfKey p.1).core * 4 + (refOfKey p.1).shuttle = k ∧ p.2.sup = false
  (∃ p ∈ s.dev.wefts, here p) ∧ ∀ p ∈ s.dev.wefts, here p → p.2.ctx.toNat = ctx

/-- Shuttle `k` of `e` has been stopped, mid-pick if need be, with resume at the next word (R282). -/
structure Stopped (e d : Dev) (k : Nat) : Prop where
  sh : (d.sh k).stopped = true ∧ (d.sh k).stopAt = (e.sh k).clock ∧ (d.sh k).clock = (e.sh k).clock
  others : ∀ j, j ≠ k → d.sh j = e.sh j
  wefts : ∀ p ∈ d.wefts, refOnShuttle k (refOfKey p.1) = true → p.2.stopped = true
  run : ∀ r w, (e.sh k).run = some r → r.ref.slot < 16 → e.weft? r.ref = some w → r.handler = false → (d.sh k).run = none ∧
    ∃ w', d.weft? r.ref = some w' ∧ w'.vregs = w.vregs ∧ w'.sregs = w.sregs ∧
      (w.divert = [] → ∀ l, l < 64 → r.act.getLsbD l = true → StandsAt w' l r.depth r.pc r.idx .run)
  rest : ({ d with wefts := e.wefts, shuttles := e.shuttles } : Dev) = e

/-- Shuttle `k` of `e` goes on, and its wefts with it (R282). -/
structure Released (e d : Dev) (k : Nat) : Prop where
  sh : d.sh k = { e.sh k with stopped := false }
  others : ∀ j, j ≠ k → d.sh j = e.sh j
  wefts : ∀ r w, e.weft? r = some w → let q := refOfKey (refKey r)
    d.weft? r = some (if q.core * 4 + q.shuttle = k ∧ w.sup = false then { w with stopped := false } else w)
  rest : ({ d with wefts := e.wefts, shuttles := e.shuttles } : Dev) = e

/-- The device with a free value drawn. -/
def drawn (s : State) : State := { s with dev := { s.dev with fresh := s.dev.fresh + 1 } }

/-- The SPDM requests with the states in which each has its place (R315). -/
def spdmOpen (i : Instr) (st : SpdmState) : Bool :=
  match i with
  | .spdmGetVersion => true
  | .spdmGetCapabilities => st == .versioned
  | .spdmNegotiateAlgorithms offered => st == .capable && [1, 2, 3, 4].all offered.contains
  | .spdmGetDigests | .spdmGetCertificate _ _ | .spdmChallenge _ => st == .negotiated || st == .keyed || st == .session
  | .spdmGetMeasurements k _ => (st == .negotiated || st == .keyed || st == .session) && (decide (k ≤ 4) || k == 255)
  | .spdmKeyExchange _ => st == .negotiated
  | .spdmEndSession => st == .session
  | _ => false

/-- The state of the session after a request in its place. -/
def spdmNext (i : Instr) (st : SpdmState) : SpdmState :=
  match i with
  | .spdmGetVersion => .versioned
  | .spdmGetCapabilities => .capable
  | .spdmNegotiateAlgorithms _ | .spdmEndSession => .negotiated
  | .spdmKeyExchange _ => .keyed
  | _ => st

/-- Code of a request's answer. -/
def spdmCode (i : Instr) : Nat :=
  match i with
  | .spdmGetVersion => 0x04
  | .spdmGetCapabilities => 0x61
  | .spdmNegotiateAlgorithms _ => 0x63
  | .spdmGetDigests => 0x01
  | .spdmGetCertificate _ _ => 0x02
  | .spdmChallenge _ => 0x03
  | .spdmGetMeasurements _ _ => 0x60
  | .spdmKeyExchange _ => 0x64
  | .spdmEndSession => 0x6C
  | _ => 0x7F

/-! ### Accesses in flight -/

/-- An operation of one access that the memory system can perform now (R182 to R185, R193): nothing holds it back, no parked engine owns its
place, its page has no capture to wait for, its launch is not race-checked, it neither acquires nor releases, and its weft waits for no
end of a pick and runs in one copy. -/
structure AccessDue (s : State) (o : MemOp) (a : Access) (w : Weft) : Prop where
  op : s.dev.ops.find? (·.id == o.id) = some o
  accs : o.accs = [a]
  todo : a.perf = false ∧ a.seen = false ∧ a.lane < 64
  weft : s.dev.weft? o.ref = some w
  ready : s.dev.ready w o a = true
  free : ∀ l, a.loc w.bolt o.space = some l → s.dev.ownedParked l = false
  plain : w.hdr.race = 0 ∧ w.ending = none ∧ o.rel = 0 ∧ o.acquires = false
  capture : s.dev.captureWaits w.bolt a.va.toNat = none
  one : s.dev.isTwin w = false ∧ ∀ b, s.dev.bolt? w.bolt = some b → b.held = []

/-- What the completion of a memory operation leaves beside its own effect: the operation gone, its weft `w'`, the other wefts, the
commands, bolts, counters and shuttles as they were; caches, statistics and hints may change. -/
structure OpDone (e d : Dev) (o : MemOp) (w' : Weft) : Prop where
  ops : d.ops = e.ops.filter fun p => p.id != o.id
  weft : d.weft? o.ref = some w'
  others : ∀ r, refKey r ≠ refKey o.ref → d.weft? r = e.weft? r
  rest : ({ d with ops := e.ops, wefts := e.wefts, mem := e.mem, cores := e.cores, disp := e.disp, host := e.host, bolts := e.bolts,
                   fresh := e.fresh } : Dev) = e

/-- No line is listed twice in a core's L1. -/
def LinesOnce (d : Dev) (core : Nat) : Prop := ((d.l1 core).map fun l => l.line).Nodup

/-- The order of R214 between a write that record fields name and an access by `t`. -/
def WriteOrdered (live : Nat → Bool) (t : RaceId) (ktag wser clk epoch : Nat) : Prop :=
  let same : Prop := ktag = t.ktag.toNat ∧ (wser + 2 ^ 20 - t.serbase) % 2 ^ 20 < t.nwefts
  ktag = 0 ∨ (ktag = t.ktag.toNat ∧ wser = t.wser.toNat) ∨ live ktag = false ∨
    (same ∧ ((t.ewrap = true ∧ 4096 ≤ t.epoch) ∨ epoch % 4096 ≠ t.epoch % 4096)) ∨
    (∃ h ∈ t.frontier, h.ktag.toNat = ktag ∧ h.wser.toNat = wser ∧ clk < h.clk.toNat) ∨ t.hbsat = true ∨ clk = 65535

/-! ### Picks -/

/-- Weft `p` wins an arbitration against `q` (R56): a starvation count that has reached 256 first, then the dispatch priority, then age. -/
def WinsOver (p q : Weft) : Prop :=
  if 256 ≤ p.starve then q.starve < 256 ∨ p.older q = true
  else q.starve < 256 ∧ (p.prio < q.prio ∨ p.prio = q.prio ∧ p.older q = true)

/-- The wefts of a device, one to a place. -/
def PlacesOnce (d : Dev) : Prop := (d.wefts.map fun p => p.1).Nodup

end Sys2Proof.Safety
end

