-- ==== Sys2Proof/Certificates/Slice0/Obligations.lean ====
section
/-! DEFINITION. The statements for the provers. -/

open Sys2Proof Sys2Proof.Machine Sys2Proof.Safety

/-! ### Words that compute and write at once -/

/-- R413, R414 (with R53, R114, R131): IADD, ISUB, IMUL, IMULH, IMAD, IMIN, IMAX, IABS, MOV and LEA complete, each unit writing the exact
result narrowed as its type says; the rest of the weft and of the device stands. -/
def Obligations.IntegerArithmetic : Prop :=
  ∀ (s : State) (i : Instr) (c : Ctx) (t : IntTy) (d : Operand) (mul : Bool), arithShape i = some (t, d, mul) → Issues s i c →
    ∃ (w' : Weft) (val : Nat × Nat → Nat),
      (∀ u ∈ units c d, ArithResult i (c.rd u.1 u.2 (if t.wide then .i64 else .i32)) (val u)) ∧
      Writes c.w w' (units c d) d t.wide (intExt t) val ∧
      exec i s = .next (settleWord i s c (.done (s.dev.putW c.run.ref w')
        (if mul && t.wide && !d.makesUniform then max 1 (4 * ((c.on.length + 15) / 16)) else cyclesFor c d 16) [] []))

/-- R367, R374, R381, R382, R385, R388, R430: AND, OR, XOR, NOT, SHL, SHR, SAR, BFX, BFI, POPC, CLZ and BREV complete, said bit by bit. -/
def Obligations.IntegerBits : Prop :=
  ∀ (s : State) (i : Instr) (c : Ctx) (t : IntTy) (d : Operand), bitShape i = some (t, d) → Issues s i c →
    ∃ (w' : Weft) (val : Nat × Nat → Nat),
      (∀ u ∈ units c d, BitResult i (c.rd u.1 u.2 (if t.wide then .i64 else .i32)) (val u)) ∧
      Writes c.w w' (units c d) d t.wide (intExt t) val ∧
      exec i s = .next (settleWord i s c (.done (s.dev.putW c.run.ref w') (cyclesFor c d 16) [] []))

/-- R415, R431, R432, R433 (with R53, R101): ISETP, SEL, SWIZB, PLOP, P2V and V2P complete. -/
def Obligations.PredicateWords : Prop :=
  (∀ s h t cmp d a b c, Issues s (.isetp h t cmp d a b) c → ∃ w' val,
    (∀ u ∈ units c d, let g := c.rd u.1 u.2 (if t.wide then .i64 else .i32)
      (Related cmp (srcInt t (g a)) (srcInt t (g b)) → val u = 1) ∧ (¬Related cmp (srcInt t (g a)) (srcInt t (g b)) → val u = 0)) ∧
    Writes c.w w' (units c d) d t.wide (intExt t) val ∧
    exec (.isetp h t cmp d a b) s = .next (settleWord (.isetp h t cmp d a b) s c (.done (s.dev.putW c.run.ref w') (cyclesFor c d 16) [] []))) ∧
  (∀ s h t d a b p c, Issues s (.sel h t d a b p) c → ∃ w',
    Writes c.w w' (units c d) d t.wide (intExt t)
      (fun u => c.rd u.1 u.2 (if t.wide then .i64 else .i32) (if c.w.pred u.1 u.2 p then a else b)) ∧
    exec (.sel h t d a b p) s = .next (settleWord (.sel h t d a b p) s c (.done (s.dev.putW c.run.ref w') (cyclesFor c d 16) [] []))) ∧
  (∀ s h z d a b sel c, Issues s (.swizb h z d a b sel) c → ∃ w' val,
    (∀ u ∈ units c d, SwizbResult (c.rd u.1 u.2 .i32 a) (c.rd u.1 u.2 .i32 b) (c.rd u.1 u.2 .i32 sel) (val u)) ∧
    Writes c.w w' (units c d) d false (if z then .zx32 else .sx32) val ∧
    exec (.swizb h z d a b sel) s = .next (settleWord (.swizb h z d a b sel) s c (.done (s.dev.putW c.run.ref w') (cyclesFor c d 16) [] []))) ∧
  (∀ s h table d a b c, Issues s (.plop h table d a b) c → ∃ w',
    Writes c.w w' (units c d) d false .zx32 (fun u =>
      (table.getLsbD (4 * (c.w.pred u.1 u.2 a).toNat + 2 * (c.w.pred u.1 u.2 b).toNat + (c.w.pred u.1 u.2 d).toNat)).toNat) ∧
    exec (.plop h table d a b) s = .next (settleWord (.plop h table d a b) s c (.done (s.dev.putW c.run.ref w') (cyclesFor c d 16) [] []))) ∧
  (∀ s h d c, Issues s (.p2v h d) c → ∃ w' val,
    (∀ u ∈ threads c, val u < 256 ∧ ∀ k, k < 8 → (val u).testBit k = c.w.p u.2 k) ∧
    Writes c.w w' (threads c) d false .zx32 val ∧
    exec (.p2v h d) s = .next (settleWord (.p2v h d) s c (.done (s.dev.putW c.run.ref w') (perCycle c.on.length 16) [] []))) ∧
  (∀ s h a b c, Issues s (.v2p h a b) c → ∃ w' : Weft,
    (∀ l k, w'.p l k = if l ∈ c.on ∧ k < 7 ∧ (c.rd (c.w.halfOf l) l .i32 b).testBit k then (c.rd (c.w.halfOf l) l .i32 a).testBit k
      else c.w.p l k) ∧ ({ w' with preds := c.w.preds } : Weft) = c.w ∧
    exec (.v2p h a b) s = .next (settleWord (.v2p h a b) s c (.done (s.dev.putW c.run.ref w') (perCycle c.on.length 16) [] [])))

/-- R140, R397, R398 (with R53, R81): every float word, the packed words but VACS2, and CVT complete: a unit whose exception traps writes
nothing, every other unit writes its value, and $fpst takes the exceptions of both. -/
def Obligations.FloatAndPackedWords : Prop :=
  ∀ (s : State) (i : Instr) (c : Ctx) (d : Operand) (k : Nat) (wide : Bool) (e : Ext), floatShape i = some (d, k, wide, e) → Issues s i c →
    ∃ w', Computes c w' (units c d) d wide e (floatValue i c) ∧
      exec i s = .next (settleWord i s c (.done (s.dev.putW c.run.ref w') (cyclesFor c d k) (excTraps c (units c d) (unitLanes c d) (floatValue i c)) []))

/-- R399, R404, R407 on patterns: the special operands of FADD, FSUB and FMUL; FMIN and FMAX, with −0 below +0 and one NaN giving the other
operand; and the compares of FSETP. -/
def Obligations.FloatPatterns : Prop :=
  (∀ (m : FltMod) (x y : BitVec 32),
      let a := negated m.neg x
      let b := absolute m.abs y
      let nan : Nat := if m.sat then 0 else 0x7FC00000
      (isNaN32 x ∨ isNaN32 y → fadd m x.toNat y.toNat = (nan, 0) ∧ fsub m x.toNat y.toNat = (nan, 0) ∧ fmul m x.toNat y.toNat = (nan, 0)) ∧
      (isInf32 a ∧ isInf32 b → (a.msb ≠ b.msb → fadd m x.toNat y.toNat = (nan, excInvalid)) ∧
        (a.msb = b.msb → fsub m x.toNat y.toNat = (nan, excInvalid))) ∧
      (isZero32 a ∧ isInf32 b ∨ isInf32 a ∧ isZero32 b → fmul m x.toNat y.toNat = (nan, excInvalid)) ∧
      (m.sat = false → isInf32 a → ¬isNaN32 b →
        (¬(isInf32 b ∧ a.msb ≠ b.msb) → fadd m x.toNat y.toNat = (a.toNat, 0)) ∧
        (¬(isInf32 b ∧ a.msb = b.msb) → fsub m x.toNat y.toNat = (a.toNat, 0))) ∧
      (m.sat = false → isZero32 a → isZero32 b →
        fadd m x.toNat y.toNat = ((if a.msb && b.msb || (a.msb != b.msb && m.rnd == .rd) then 0x80000000 else 0), 0) ∧
        fmul m x.toNat y.toNat = ((if a.msb != b.msb then 0x80000000 else 0), 0)) ∧
      (m.sat = false → a = b ^^^ 0x80000000#32 → ¬isNaN32 a → ¬isInf32 a → ¬isZero32 a →
        fadd m x.toNat y.toNat = ((if m.rnd == .rd then 0x80000000 else 0), 0))) ∧
  (∀ (neg abs : Bool) (x y : BitVec 32),
      let a := negated neg x
      let b := absolute abs y
      (fminmax false neg abs x.toNat y.toNat =
        if isNaN32 a && isNaN32 b then 0x7FC00000 else if isNaN32 a then b.toNat else if isNaN32 b then a.toNat
        else if orderKey a ≤ orderKey b then a.toNat else b.toNat) ∧
      (fminmax true neg abs x.toNat y.toNat =
        if isNaN32 a && isNaN32 b then 0x7FC00000 else if isNaN32 a then b.toNat else if isNaN32 b then a.toNat
        else if orderKey b ≤ orderKey a then a.toNat else b.toNat) ∧
      (∀ cmp, (isNaN32 x ∨ isNaN32 y) → fsetp cmp x.toNat y.toNat = (cmp == .ne || cmp == .nan)) ∧
      (¬isNaN32 x → ¬isNaN32 y → fsetp .num x.toNat y.toNat = true ∧ fsetp .nan x.toNat y.toNat = false ∧
        (isZero32 x ∧ isZero32 y → fsetp .eq x.toNat y.toNat = true ∧ fsetp .ne x.toNat y.toNat = false ∧ fsetp .lt x.toNat y.toNat = false ∧
          fsetp .gt x.toNat y.toNat = false ∧ fsetp .le x.toNat y.toNat = true ∧ fsetp .ge x.toNat y.toNat = true) ∧
        (¬(isZero32 x ∧ isZero32 y) → fsetp .eq x.toNat y.toNat = (x == y) ∧ fsetp .ne x.toNat y.toNat = (x != y) ∧
          fsetp .lt x.toNat y.toNat = decide (orderKey x < orderKey y) ∧ fsetp .ge x.toNat y.toNat = decide (orderKey y ≤ orderKey x) ∧
          fsetp .gt x.toNat y.toNat = decide (orderKey y < orderKey x) ∧ fsetp .le x.toNat y.toNat = decide (orderKey x ≤ orderKey y))))

/-- R434, R435: the packed integer words half by half, and the add-compare-select step. -/
def Obligations.PackedHalves : Prop :=
  (∀ (m : PMod) (a b k : Nat), k < 2 →
    let x := halfInt m.uns a k
    let y := halfInt m.uns b k
    HalfIs m (x + y) (vadd2 m a b / 65536 ^ k) ∧ HalfIs m (x - y) (vsub2 m a b / 65536 ^ k) ∧
    HalfIs m (min x y) (vmin2 m a b / 65536 ^ k) ∧ HalfIs m (max x y) (vmax2 m a b / 65536 ^ k)) ∧
  (∀ s h m dec d a b e c, Issues s (.vacs2 h m dec d a b e) c → ∃ (w1 w' : Weft) (val : Nat × Nat → Nat × Bool × Bool),
    (∀ u ∈ units c d, ∀ k, k < 2 →
      let g := c.rd u.1 u.2 .p16
      ∃ p q : Nat, HalfIs m (halfInt m.uns (g a) k + halfInt m.uns (g e) 0) p ∧ HalfIs m (halfInt m.uns (g b) k + halfInt m.uns (g e) 1) q ∧
        BitVec.ofNat 16 ((val u).1 / 65536 ^ k) = BitVec.ofInt 16 (min (halfInt m.uns p 0) (halfInt m.uns q 0)) ∧
        (if k = 0 then (val u).2.1 else (val u).2.2) = decide (halfInt m.uns q 0 < halfInt m.uns p 0)) ∧
    Writes c.w w1 (units c d) d false .zx32 (fun u => (val u).1) ∧
    (∀ l k, w'.p l k =
      if dec.val ≠ 3 ∧ (l ∈ c.on) ∧ (k = 2 * dec.val ∨ k = 2 * dec.val + 1) then
        (if k = 2 * dec.val then (val (c.w.halfOf l, l)).2.1 else (val (c.w.halfOf l, l)).2.2)
      else c.w.p l k) ∧
    ({ w' with preds := w1.preds } : Weft) = w1 ∧
    exec (.vacs2 h m dec d a b e) s =
      .next (settleWord (.vacs2 h m dec d a b e) s c (.done (s.dev.putW c.run.ref w') (cyclesFor c d 16) [] [])))

/-- R106 to R109 (with R53, R67): both slots read before either writes; the scalar slot writes for each half whose guard holds, the vector
slot for each thread, and nothing else changes. -/
def Obligations.PairWords : Prop :=
  ∀ last g so vo s c, Issues s (.pairWord last g so vo) c → ∃ (w' : Weft) (val : Nat × Nat → Nat × Exc),
    (∀ o, so = some o → ∀ h ∈ c.onHalves, ScalarSlotHolds c.w w' h o) ∧
    (∀ v, vo = some v → ∀ u ∈ threads c,
      VectorSlotGives v.op (c.w.v u.2 v.vd.val).toNat (c.pvs u.1 u.2 (vopReader v.op) v.vs) (val u) ∧
      (c.w.excCause (val u).2 = none → w'.v u.2 v.vd.val = BitVec.ofNat 32 (val u).1)) ∧
    (∀ k, (∀ v, vo = some v → ∀ u ∈ untrapped c (threads c) val, k ≠ vecKey (u.2, v.vd.val)) →
      Cells.get w'.vregs k = Cells.get c.w.vregs k) ∧
    (∀ k, (∀ o n, so = some o → slotScal o = some n → ∀ h ∈ c.onHalves, k ≠ c.w.sIdx h n) → Cells.get w'.sregs k = Cells.get c.w.sregs k) ∧
    (∀ h k, (∀ o, so = some o → slotPred o = some k → h ∉ c.onHalves) → w'.q h k = c.w.q h k) ∧
    (∀ h, Cells.get w'.fpst h = if vo.isNone then Cells.get c.w.fpst h else
      (threads c).foldl (fun x u => if u.1 = h then x ||| (val u).2 else x) (Cells.get c.w.fpst h)) ∧
    (∀ k ∈ w'.badWords, k ∈ c.w.badWords) ∧
    ({ w' with vregs := c.w.vregs, sregs := c.w.sregs, qs := c.w.qs, fpst := c.w.fpst, badWords := c.w.badWords } : Weft) = c.w ∧
    exec (.pairWord last g so vo) s = .next (settleWord (.pairWord last g so vo) s c (.done (s.dev.putW c.run.ref w')
      (if vo.isSome then perCycle c.on.length 16 else uniformCycles c)
      (if vo.isSome then excTraps c (threads c) (fun u => [u.2]) val else []) []))

/-- R8, R68, R424, R436 to R440 (with R53): SHFL, VOTE, REDUX, MATES and RDFL complete over the participants of each half, every one reading
before any writes. -/
def Obligations.CrossThreadWords : Prop :=
  (∀ s h m d a b sc c, Issues s (.shfl h m d a b sc) c → ∃ w',
    Writes c.w w' (threads c) d false .zx32 (fun u =>
      let off := 16 * u.1
      c.rd u.1 (off + shuffleFrom m (u.2 - off) (segment (groupSize c) (c.uget u.1 .i32 sc % 128)) (c.rd u.1 u.2 .i32 b % 128)) .i32 a) ∧
    exec (.shfl h m d a b sc) s = .next (settleWord (.shfl h m d a b sc) s c (.done (s.dev.putW c.run.ref w') (perCycle c.w.hdr.w 16) [] []))) ∧
  (∀ s h m d a c, Issues s (.vote h m d a) c → ∃ w' val,
    (∀ u ∈ threads c,
      let ones := (partsOf c u.1).filter fun l => c.w.pred u.1 l a
      match m with
      | .all => val u = if ∀ l ∈ partsOf c u.1, c.w.pred u.1 l a = true then 1 else 0
      | .any => val u = if ∃ l ∈ partsOf c u.1, c.w.pred u.1 l a = true then 1 else 0
      | .eq => val u = if ∀ l ∈ partsOf c u.1, ∀ k ∈ partsOf c u.1, c.w.pred u.1 l a = c.w.pred u.1 k a then 1 else 0
      | .ballot => val u < 2 ^ 64 ∧ ∀ k, k < 64 → (val u).testBit k = ones.contains (k + 16 * u.1)) ∧
    Writes c.w w' (threads c) d (m == .ballot && c.w.hdr.w == 64) .zx32 val ∧
    exec (.vote h m d a) s = .next (settleWord (.vote h m d a) s c (.done (s.dev.putW c.run.ref w') (perCycle c.w.hdr.w 16) [] []))) ∧
  (∀ s h op ty d a c, Issues s (.redux h op ty d a) c → ∃ (w' : Weft) (val : Nat × Nat → Nat × Exc),
    (∀ u ∈ threads c,
      let xs := (partsOf c u.1).map fun l => c.rd u.1 l (if ty == .f32 then .f32 else .i32) a
      val u = reduxVal op ty xs ∧
      (ty ≠ .f32 → (val u).2 = 0 ∧
        let t : IntTy := if ty == .s32 then .s32 else .z32
        match op with
        | .add => BitVec.ofNat 32 (val u).1 = BitVec.ofInt 32 (xs.map (srcInt t)).sum
        | .min => (val u).1 ∈ xs ∧ ∀ x ∈ xs, srcInt t (val u).1 ≤ srcInt t x
        | .max => (val u).1 ∈ xs ∧ ∀ x ∈ xs, srcInt t x ≤ srcInt t (val u).1
        | .and => ∀ k, (val u).1.testBit k = xs.all (·.testBit k)
        | .or => ∀ k, (val u).1.testBit k = xs.any (·.testBit k)
        | .xor => ∀ k, (val u).1.testBit k = decide (xs.countP (·.testBit k) % 2 = 1))) ∧
    Computes c w' (threads c) d false .zx32 val ∧
    exec (.redux h op ty d a) s = .next (settleWord (.redux h op ty d a) s c
      (.done (s.dev.putW c.run.ref w') (perCycle c.w.hdr.w 16) (excTraps c (threads c) (fun u => [u.2]) val) []))) ∧
  (∀ s h w64 mask d a c, Issues s (.mates h w64 mask d a) c → ∃ w' val,
    (∀ u ∈ threads c,
      let r : Reader := if w64 then .i64 else .i32
      let key (l : Nat) : Nat := match mask with
        | some b => c.rd u.1 l r a &&& c.uget u.1 r b
        | none => c.rd u.1 l r a
      MatesWord key (16 * u.1) (partsOf c u.1) u.2 (val u)) ∧
    Writes c.w w' (threads c) d false .zx32 val ∧
    exec (.mates h w64 mask d a) s = .next (settleWord (.mates h w64 mask d a) s c (.done (s.dev.putW c.run.ref w') (perCycle c.w.hdr.w 16) [] []))) ∧
  (∀ s h d a c, Issues s (.rdfl h d a) c → ∃ w',
    Writes c.w w' (threads c) d false .zx32 (fun u => c.rd u.1 ((partsOf c u.1).headD 0) .i32 a) ∧
    exec (.rdfl h d a) s = .next (settleWord (.rdfl h d a) s c (.done (s.dev.putW c.run.ref w') (perCycle c.w.hdr.w 16) [] [])))

/-- R69, R77 to R82, R84, R429, R461: MOVS and SETS complete on every special register. -/
def Obligations.SpecialRegisterWords : Prop :=
  (∀ s h num d slot c, Issues s (.movs h num d slot) c → ∃ w',
    Writes c.w w' (units c d) d (specialWide num.toNat) .full (fun u =>
      c.special s.dev u.1 u.2 num.toNat (match slot with | some a => c.uget u.1 .i32 a % 16 | none => 0)) ∧
    exec (.movs h num d slot) s = .next (settleWord (.movs h num d slot) s c (.done (s.dev.putW c.run.ref w') (cyclesFor c d 16) [] []))) ∧
  (∀ (c : Ctx) (dev : Dev) (h l slot : Nat),
    let r (num : Nat) : Nat := c.special dev h l num slot
    r 0 = c.w.hdr.w * c.w.widx + l ∧ r 1 = (if c.w.hdr.c16 then l % 16 else l) ∧
    r 2 = (if c.w.hdr.c16 then 2 * c.w.widx + l / 16 else c.w.widx) ∧ r 3 = (if c.w.hdr.c16 then 16 else c.w.hdr.w) ∧
    r 7 = c.w.hdr.threads ∧ r 8 = c.run.depth ∧ r 9 = c.run.ref.core ∧ r 10 = c.run.ref.shuttle ∧ r 11 = (Cells.get c.w.pidx h).toNat ∧
    r 15 = (Cells.get c.w.fpst h).toNat ∧ r 32 = c.w.trapcause.toNat ∧ r 33 = c.w.trappc.toNat ∧ r 34 = c.w.trapmask.toNat ∧
    r 35 = c.w.trapaddr.toNat ∧ r 40 = c.w.kbase.toNat ∧ r 41 = c.w.args.toNat ∧ r 48 = c.w.ctx.toNat ∧ r 49 = c.w.asid.toNat ∧
    (c.w.hdr.race = 0 → ∀ k, 16 ≤ k → k ≤ 26 → r k = 0) ∧
    (Tab.find? dev.fabric.views slot = none → r 13 = 0 ∧ r 14 = 0x3FFFF)) ∧
  (∀ s h num a c, Issues s (.sets h num a) c →
    ∃ d : Dev, exec (.sets h num a) s = .next (settleWord (.sets h num a) s c (.done d (uniformCycles c) [] [])) ∧
      (num = 15 → ∃ w : Weft, (∀ k, Cells.get w.fpst k = if k ∈ c.onHalves then BitVec.ofNat 5 (c.uget k .i64 a) else Cells.get c.w.fpst k) ∧
        { w with fpst := c.w.fpst } = c.w ∧ d.weft? c.run.ref = some w ∧ (∀ r, refKey r ≠ refKey c.run.ref → d.weft? r = s.dev.weft? r) ∧
        { d with wefts := s.dev.wefts } = s.dev) ∧
      (num = 11 → ∃ w : Weft, (∀ k, Cells.get w.pidx k = if k ∈ c.onHalves then BitVec.ofNat 16 (c.uget k .i64 a) else Cells.get c.w.pidx k) ∧
        { w with pidx := c.w.pidx } = c.w ∧ d.weft? c.run.ref = some w ∧ (∀ r, refKey r ≠ refKey c.run.ref → d.weft? r = s.dev.weft? r) ∧
        { d with wefts := s.dev.wefts } = s.dev) ∧
      (num = 56 → c.onHalves = [0] → (d.core c.core) = { s.dev.core c.core with tgtw := BitVec.ofNat 7 (c.uget 0 .i64 a) } ∧
        (∀ k, k ≠ c.core → d.core k = s.dev.core k) ∧ { d with cores := s.dev.cores } = s.dev) ∧
      (c.onHalves = [] → d = s.dev))

/-! ### Control words -/

/-- R54, R62, R64, R379, R383, R396, R455, R457 (with R266): NOP, BRA, BRX, EXIT, YIELD, WAITL and BAR complete in a cycle and send each guarded
thread to its new key and state at the end of the pick. -/
def Obligations.ControlWords : Prop :=
  (∀ s h c, Issues s (.nop h) c → exec (.nop h) s = .next (settleWord (.nop h) s c (.done s.dev 1 [] []))) ∧
  (∀ s h off c, Issues s (.bra h off) c →
    exec (.bra h off) s = .next (settleWord (.bra h off) s c (.done s.dev 1 [] (c.on.map fun l => goesTo c l (branchOffset c off))))) ∧
  (∀ s h a c, Issues s (.brx h a) c →
    exec (.brx h a) s =
      .next (settleWord (.brx h a) s c (.done s.dev 1 [] (c.on.map fun l => goesTo c l (BitVec.ofNat 32 (c.get l .i32 a)))))) ∧
  (∀ s h c, Issues s (.exit h) c →
    exec (.exit h) s =
      .next (settleWord (.exit h) s c (.done s.dev 1 [] (c.on.map fun l => { goesTo c l (nextOffset c) with gone := true })))) ∧
  (∀ s h c, Issues s (.yield h) c →
    exec (.yield h) s = .next (settleWord (.yield h) s c (.done s.dev 1 [] (c.on.map fun l =>
      { goesTo c l (nextOffset c) with state := if c.run.handler then .run else .yld })))) ∧
  (∀ s h n a c, Issues s (.waitl h (.p n) a) c → ∃ w' : Weft,
    (∀ l, Tab.find? w'.waitPd l = if l ∈ c.on then some n.val else Tab.find? c.w.waitPd l) ∧ ({ w' with waitPd := c.w.waitPd } : Weft) = c.w ∧
    exec (.waitl h (.p n) a) s = .next (settleWord (.waitl h (.p n) a) s c (.done (s.dev.putW c.run.ref w') 1 [] (c.on.map fun l =>
      { goesTo c l (nextOffset c) with state := .wtl, aux := BitVec.ofNat 32 (c.get l .i32 a) })))) ∧
  (∀ s h m a b c, Issues s (.bar h m a b) c →
    exec (.bar h m a b) s = .next (settleWord (.bar h m a b) s c (.done s.dev 1 [] (c.on.map fun l =>
      let k := c.get l .i32 a % 16
      { goesTo c l (nextOffset c) with
        state := if m = .arrive then .run else .barw, aux := if m = .arrive then 0 else BitVec.ofNat 32 k,
        act := .bar m k (c.get l .i32 b % 4096) }))))

/-- R59, R60 (with R383, R456): CALL, CALLX and RET below and at the depth bounds, with the return offset in the register file; $depth reads the depth. -/
def Obligations.CallAndReturn : Prop :=
  (∀ s i c (target : Nat → BitVec 32),
    ((∃ h off, i = .call h off ∧ ∀ l, target l = branchOffset c off) ∨
     (∃ h a, i = .callx h a ∧ ∀ l, target l = BitVec.ofNat 32 (c.get l .i32 a))) → Issues s i c →
    (c.run.depth < c.w.hdr.depth → ∃ w' : Weft,
      (∀ l ∈ c.on, w'.v l (c.w.hdr.vregs + c.run.depth) = nextOffset c) ∧
      (∀ k, (∀ l ∈ c.on, k ≠ vecKey (l, c.w.hdr.vregs + c.run.depth)) → Cells.get w'.vregs k = Cells.get c.w.vregs k) ∧
      (∀ k ∈ w'.badWords, k ∈ c.w.badWords) ∧ ({ w' with vregs := c.w.vregs, badWords := c.w.badWords } : Weft) = c.w ∧
      exec i s = .next (settleWord i s c (.done (s.dev.putW c.run.ref w') 1 []
        (c.on.map fun l => { goesTo c l (target l) with depth := c.run.depth + 1 })))) ∧
    (c.w.hdr.depth ≤ c.run.depth →
      exec i s = .next (settleWord i s c (.done s.dev 1 (trapsAt c.on 0x04 0 0 .here) [])))) ∧
  (∀ s h c, Issues s (.ret h) c →
    (0 < c.run.depth → exec (.ret h) s = .next (settleWord (.ret h) s c (.done s.dev 1 []
      (c.on.map fun l => { goesTo c l (c.w.v l (c.w.hdr.vregs + (c.run.depth - 1))) with depth := c.run.depth - 1 })))) ∧
    (c.run.depth = 0 → exec (.ret h) s = .next (settleWord (.ret h) s c (.done s.dev 1 (trapsAt c.on 0x04 0 0 .here) [])))) ∧
  (∀ (c : Ctx) (dev : Dev) (h l slot : Nat), c.special dev h l 8 slot = c.run.depth)

/-- R276, R384, R459, R460: TRAP raises TRAPI for every guarded thread, BREAK raises BREAK for those whose skip bit is clear and clears the
bit of the others, SYSCALL sends each guarded thread to its call at the end of the pick. -/
def Obligations.SoftwareTraps : Prop :=
  (∀ s h a c, Issues s (.trap h a) c →
    exec (.trap h a) s = .next (settleWord (.trap h a) s c (.done s.dev 1 (c.on.map fun l =>
      { lane := l, cause := 0x19, sub := c.get l .i32 a % 65536, addr := 0, back := .next }) []))) ∧
  (∀ s h a c, Issues s (.brk h a) c → ∃ w' : Weft,
    (∀ l, l < 64 → w'.skip.getLsbD l = (c.w.skip.getLsbD l && !c.on.contains l)) ∧ ({ w' with skip := c.w.skip } : Weft) = c.w ∧
    exec (.brk h a) s = .next (settleWord (.brk h a) s c (.done (s.dev.putW c.run.ref w') 1
      ((c.on.filter fun l => !c.w.skip.getLsbD l).map fun l =>
        { lane := l, cause := 0x18, sub := c.get l .i32 a % 256, addr := 0, back := .skip }) []))) ∧
  (∀ s h a c, Issues s (.syscall h a) c → Single s c → c.on ≠ [] → ∃ d : Dev,
    { d with bolts := s.dev.bolts } = s.dev ∧
    (∀ b ∈ d.bolts, ∃ x ∈ s.dev.bolts, b = x ∨ b = { x with sinceBank := true } ∧ x.id = c.w.bolt) ∧
    exec (.syscall h a) s = .next (settleWord (.syscall h a) s c (.done d 1 []
      (c.on.map fun l => { goesTo c l (nextOffset c) with act := .call (c.get l .i32 a) c.run.idx })))) ∧
  (∀ s h a c, Issues s (.syscall h a) c → c.on = [] →
    exec (.syscall h a) s = .next (settleWord (.syscall h a) s c (.done s.dev 1 [] [])))

/-- R210, R253, R416: LAUNCH of a half in its three outcomes: the queue's tests in their order, else the copy of the record under the next
serial; DST takes the status or the serial, and a misaligned record address traps. -/
def Obligations.LaunchWord : Prop :=
  ∀ (s : State) (h : Hdr) (n : Fin 128) (a b : Operand) (c : Ctx) (k : Nat),
    let i : Instr := .launch h (.scal n) a b
    let addr := c.uget k .i64 a
    let q := c.uget k .i32 b % 2048
    let mine (x : Queue) : Prop := 1 ≤ q ∧ q ≤ 1024 ∧ x.dev = true ∧ x.owner = c.w.ctx
    let pending := (s.dev.disp.launches.filter fun l => l.queue == q && l.stage == .pending).length
    Issues s i c → Single s c → s.dev.weftBusy c.run.ref = false → c.onHalves = [k] →
    (addr % 64 ≠ 0 →
      exec i s = .next (settleWord i s c (.done s.dev (uniformCycles c) (trapsAt (lanesOf (c.actOf k)) 0x03 0 addr .here) []))) ∧
    (addr % 64 = 0 → ∀ (v : Nat) (taken : Bool) (rec : List DWord) (d1 : Dev) (x : Queue),
      ((∀ y, Tab.find? s.dev.disp.queues q = some y → ¬mine y) ∧ v = 0x8000000000000001 ∧ taken = false ∨
       (Tab.find? s.dev.disp.queues q = some x ∧ mine x) ∧ 256 ≤ pending ∧ v = 0x8000000000000002 ∧ taken = false ∨
       (Tab.find? s.dev.disp.queues q = some x ∧ mine x) ∧ pending < 256 ∧
          s.dev.readWords c.regs c.core c.w.space true addr 16 = (.ok rec, d1) ∧ v = s.dev.disp.serial ∧ taken = true) →
      ∃ (d : Dev) (w' : Weft) (l : Launch), exec i s = .next (settleWord i s c (.done d (uniformCycles c) [] [])) ∧
        d.weft? c.run.ref = some w' ∧ w'.s k n.val = BitVec.ofNat 64 v ∧ w'.vregs = c.w.vregs ∧ w'.preds = c.w.preds ∧ w'.qs = c.w.qs ∧
        (∀ j, j ≠ c.w.sIdx k n.val → Cells.get w'.sregs j = Cells.get c.w.sregs j) ∧ w'.rclk = c.w.bumpClk.rclk ∧
        (∀ r, refKey r ≠ refKey c.run.ref → d.weft? r = s.dev.weft? r) ∧ d.disp.queues = s.dev.disp.queues ∧
        (taken = false → d.disp.launches = s.dev.disp.launches ∧ d.disp.serial = s.dev.disp.serial) ∧
        (taken = true → d.disp.launches = s.dev.disp.launches ++ [l] ∧ d.disp.serial = s.dev.disp.serial + 1 ∧ l.serial = v ∧ l.queue = q ∧
          l.record = rec ∧ l.stage = .pending ∧ l.ctx = c.w.ctx ∧ l.fromHost = false))

/-- R344: a twin copy that meets one of the words performed once for both is suspended there until its interval has settled, for SYSCALL,
LAUNCH, ATOM, RED and ECADD. -/
def Obligations.TwinWordsWait : Prop :=
  ∀ (s : State) (i : Instr) (c : Ctx),
    ((∃ h a, i = .syscall h a ∧ c.on ≠ []) ∨ (∃ h d a b, i = .launch h d a b ∧ c.onHalves ≠ [] ∧ s.dev.weftBusy c.run.ref = false) ∨
     (∃ m fs, memWord i c = some (m, fs) ∧ fs ≠ [] ∧ (m.kind = .ecadd ∨ m.kind = .atomic ∧ m.space = .generic) ∧
       s.dev.fencing c.run.ref = false ∧ c.w.flagsFull (memKeys s c m fs) = false ∧
       (m.dst = .none ∨ c.w.sb.length < 32) ∧ (c.testAll s.dev m fs).walks = [])) →
    Issues s i c → s.dev.isTwin c.w = true → c.w.twinAt = none →
      exec i s = .next (settleWord i s c (.suspend (s.dev.putW c.run.ref
        { c.w with twinAt := some { pick := c.w.picks, idx := c.run.idx, settled := false, full := false } })))

/-! ### Memory words -/

/-- R110 to R112, R118, R119, R366, R375 to R378, R387, R393 to R395, R417 to R421, R441 to R444: LD, ST, LDS, STS, LDC, ATOM, ATOMS, RED, CCTL,
ECADD, ECRD and ECTRIG form an access for each guarded thread or half, and place one operation for those that pass their tests; the others
trap, and a word none of whose threads is guarded does nothing. -/
def Obligations.MemoryWordsPlaceAnOperation : Prop :=
  ∀ (s : State) (i : Instr) (c : Ctx) (m : MemForm) (fs : List Formed), memWord i c = some (m, fs) → Issues s i c →
    (fs = [] → ∃ n, exec i s = .next (settleWord i s c (.done s.dev n [] []))) ∧
    (fs ≠ [] → c.w.twinAt = none → s.dev.isTwin c.w = false → MemIssues s c m fs → ∃ (d : Dev) (n : Nat),
      exec i s = .next (settleWord i s c (.done d n (c.testAll s.dev m fs).traps [])) ∧
      n = (if m.space = .counter then 1 else if m.uni then uniformCycles c else perCycle c.on.length 16) ∧
      ((c.testAll s.dev m fs).accs ≠ [] → Placed s c m fs d) ∧
      ((c.testAll s.dev m fs).accs = [] → ∃ w', ({ c.w with walks := [] } : Weft) = w' ∧ d = s.dev.putW c.run.ref w'))

/-- R28, R159, R308, R332, R417: where an access is tested: alignment first, then the scratch bounds; a counter of another context, and a
fenced counter that is read. -/
def Obligations.AccessTests : Prop :=
  ∀ (c : Ctx) (d : Dev) (m : MemForm) (f : Formed),
    (m.space = .generic → 0 < m.size → (f.addr % 2 ^ 64).toNat % m.size ≠ 0 → ∃ x, c.test d m f = .trap 0x03 0 x) ∧
    (m.space = .scratch → f.addr % m.size ≠ 0 → c.test d m f = .trap 0x03 0 (f.addr % 2 ^ 57).toNat) ∧
    (m.space = .scratch → f.addr % m.size = 0 → (f.addr < 0 ∨ (c.w.hdr.scratch : Int) < f.addr + m.size) →
      c.test d m f = .trap 0x05 0 (f.addr % 2 ^ 57).toNat) ∧
    (m.space = .scratch → f.addr % m.size = 0 → 0 ≤ f.addr → f.addr + m.size ≤ c.w.hdr.scratch →
      d.mem.owned = [] → ∃ a, c.test d m f = .ok a ∧ a.lane = f.lane ∧ a.pa = c.w.scratchAt c.core f.addr.toNat ∧
        a.data = BitVec.ofNat 128 f.data ∧ a.cmp = BitVec.ofNat 64 f.cmp) ∧
    (m.space = .counter → c.w.sup = false → (d.counter (f.addr.toNat % 4096)).ctx ≠ some c.w.ctx →
      c.test d m f = .trap causeProt 0 (64 * (f.addr.toNat % 4096))) ∧
    (m.space = .counter → c.w.sup = true ∨ (d.counter (f.addr.toNat % 4096)).ctx = some c.w.ctx → m.kind = .ecrd →
      (d.counter (f.addr.toNat % 4096)).fences ≠ [] → c.test d m f = .trap 0x14 1 0) ∧
    (∀ va w, m.space = .generic → va = (f.addr % 2 ^ 64).toNat → va % m.size = 0 → m.kind = .load → d.mem.owned = [] →
      d.lookup c.regs c.core c.w.asid va .rd = .ok w →
      ∃ a, c.test d m f = .ok a ∧ a.lane = f.lane ∧ a.va = BitVec.ofInt 64 f.addr ∧ a.pa = w.pa ∧ a.region = w.region ∧
        a.data = BitVec.ofNat 128 f.data)

/-- R185, R402: FENCE at .weft scope has no effect; at a wider scope it is one operation on the flags of the halves of its guarded threads. -/
def Obligations.FenceWord : Prop :=
  ∀ (s : State) (h : Hdr) (m : FenceMod) (c : Ctx), Issues s (.fence h m) c →
    (c.on = [] ∨ m.scope = .weft →
      exec (.fence h m) s = .next (settleWord (.fence h m) s c (.done s.dev (perCycle c.on.length 16) [] []))) ∧
    (c.on ≠ [] → m.scope ≠ .weft → s.dev.fencing c.run.ref = false →
      c.w.flagsFull (c.flagKeys m.fb ((c.on.map c.w.halfOf).eraseDups)) = false →
      ∃ (d : Dev) (o : MemOp) (w' : Weft), exec (.fence h m) s = .next (settleWord (.fence h m) s c (.done d (perCycle c.on.length 16) [] [])) ∧
        d.ops = s.dev.ops ++ [o] ∧ o.id = s.dev.nextOp ∧ o.ref = c.run.ref ∧ o.kind = .fence ∧ o.order = m.ord ∧ o.scope = m.scope ∧
        o.lanes = maskOf c.on ∧ o.accs = [] ∧ o.flags = c.flagKeys m.fb ((c.on.map c.w.halfOf).eraseDups) ∧
        d.weft? c.run.ref = some w' ∧ w'.flags = (c.w.addFlags o.flags).flags ∧ ({ w' with flags := c.w.flags, relPend := c.w.relPend } : Weft) = c.w ∧
        (∀ r, refKey r ≠ refKey c.run.ref → d.weft? r = s.dev.weft? r) ∧
        { d with ops := s.dev.ops, nextOp := s.dev.nextOp, wefts := s.dev.wefts } = s.dev)

/-! ### Matrix class -/

/-- R76, R111, R112, R368 to R373, R425 to R428 (with R67, R75): ACCZ and ACCQ act at once; ACCLD, ACCST, both forms of ACCMV and MMA place one
operation for each half, with the registers it captures; where a block is misaligned, a tile invalid or an offset outside the scratch, the
threads of the half trap. -/
def Obligations.MatrixWords : Prop :=
  (∀ s i c, ((∃ h t, i = .accz h t) ∨ (∃ h d t, i = .accq h d t) ∨ (∃ h t b, i = .accld h t b) ∨ (∃ h t b, i = .accst h t b) ∨
      (∃ h d t, i = .accmvToRegs h d t) ∨ (∃ h t a, i = .accmvToTile h t a) ∨ (∃ h m t a b sc, i = .mma h m t a b sc)) → Issues s i c →
    c.onHalves = [] → exec i s = .next (settleWord i s c (.done s.dev 1 [] []))) ∧
  (∀ s h (t : Fin 128) c, Issues s (.accz h t) c → MatIssues s c t.val →
    (∀ hf ∈ c.onHalves, s.dev.matrixBusy c.run.ref (some (tileNo hf t.val)) = false) → ∃ d w',
    OnlyWeft s.dev d c.run.ref w' ∧ TilesHold c.w w' (c.onHalves.map fun hf => (hf, t.val)) (fun _ _ _ => 0) ∧
    exec (.accz h t) s = .next (settleWord (.accz h t) s c (.done d 1 [] []))) ∧
  (∀ s h (n : Fin 8) (t : Fin 128) c, let i : Instr := .accq h (.q n) t
    Issues s i c → MatIssues s c t.val → s.dev.matrixBusy c.run.ref none = false → ∃ d w', OnlyWeft s.dev d c.run.ref w' ∧
    Writes c.w w' (halfUnits c) (.q n) false .zx32 (fun u => if c.w.badTiles.contains (tileNo u.1 t.val) then 0 else 1) ∧
    exec i s = .next (settleWord i s c (.done d 1 [] []))) ∧
  (∀ s h (t : Fin 128) b c, Issues s (.accld h t b) c → MatIssues s c t.val →
    let o (hf : Nat) : Nat := c.uget hf .i64 b
    ((∀ hf ∈ c.onHalves, o hf % 64 = 0 ∧ o hf + 1024 ≤ c.w.hdr.scratch ∧ o hf < 2 ^ 32) → s.dev.mem.owned = [] → ∃ d,
      MatPlaced s c d c.onHalves (fun hf m => m = .accld t.val hf (o hf)) DstReg.none (fun hf => blockLines c (o hf) 16) ∧
      exec (.accld h t b) s = .next (settleWord (.accld h t b) s c (.done d 1 [] []))) ∧
    ((∀ hf ∈ c.onHalves, o hf % 64 ≠ 0) → exec (.accld h t b) s = .next (settleWord (.accld h t b) s c (.done s.dev 1
      (c.onHalves.flatMap fun hf => trapsAt (lanesOf (c.actOf hf)) 0x03 0 (o hf % 2 ^ 57) .here) []))) ∧
    ((∀ hf ∈ c.onHalves, o hf % 64 = 0 ∧ c.w.hdr.scratch < o hf + 1024) →
      exec (.accld h t b) s = .next (settleWord (.accld h t b) s c (.done s.dev 1
        (c.onHalves.flatMap fun hf => trapsAt (lanesOf (c.actOf hf)) 0x05 0 (o hf % 2 ^ 57) .here) [])))) ∧
  (∀ s h (t : Fin 128) b c, Issues s (.accst h t b) c → MatIssues s c t.val →
    let o (hf : Nat) : Nat := c.uget hf .i64 b
    ((∀ hf ∈ c.onHalves, tileNo hf t.val ∉ c.w.badTiles ∧ o hf % 64 = 0 ∧ o hf + 1024 ≤ c.w.hdr.scratch ∧ o hf < 2 ^ 32) →
      s.dev.mem.owned = [] → ∃ d,
      MatPlaced s c d c.onHalves (fun hf m => m = .accst t.val hf (o hf)) DstReg.none (fun hf => blockLines c (o hf) 16) ∧
      exec (.accst h t b) s = .next (settleWord (.accst h t b) s c (.done d 1 [] []))) ∧
    ((∀ hf ∈ c.onHalves, s.dev.tileValid c.run.ref c.w (tileNo hf t.val) = false) →
      exec (.accst h t b) s = .next (settleWord (.accst h t b) s c (.done s.dev 1
        (c.onHalves.flatMap fun hf => trapsAt (lanesOf (c.actOf hf)) 0x06 0 0 .here) [])))) ∧
  (∀ s h (n : Fin 640) (t : Fin 128) c, Issues s (.accmvToRegs h (.vec n) t) c → MatIssues s c t.val →
    c.w.sb.length < 32 → (∀ hf ∈ c.onHalves, tileNo hf t.val ∉ c.w.badTiles) → ∃ d,
    MatPlaced s c d c.onHalves (fun hf m => m = .toRegs n.val t.val hf) (.vec n.val (16 / c.w.g)) (fun _ => []) ∧
    exec (.accmvToRegs h (.vec n) t) s = .next (settleWord (.accmvToRegs h (.vec n) t) s c (.done d 1 [] []))) ∧
  (∀ s h (t : Fin 128) (n : Fin 640) c, Issues s (.accmvToTile h t (.vec n)) c → MatIssues s c t.val → ∃ d,
    MatPlaced s c d c.onHalves (fun hf m => ∃ regs, m = .toTile t.val hf regs ∧
      ∀ l ∈ lanesOf (c.w.full &&& c.w.halfMask hf), ∀ j, j < 16 / c.w.g → Cells.get regs (l * 1024 + j) = c.w.v l (n.val + j))
      DstReg.none (fun _ => []) ∧
    exec (.accmvToTile h t (.vec n)) s = .next (settleWord (.accmvToTile h t (.vec n)) s c (.done d 1 [] []))) ∧
  (∀ s h m (t : Fin 128) (n : Fin 640) b sc c, Issues s (.mma h m t (.vec n) b sc) c → MatIssues s c t.val →
    let o (hf : Nat) : Nat := c.uget hf .i64 b
    let len := (m.chunks.val + 1) * MmaFmt.stride m.fmt
    (s.dev.sh c.sh).selfTest = false → s.dev.mem.owned = [] →
    ((∀ hf ∈ c.onHalves, o hf % 64 = 0 ∧ o hf < 2 ^ 32 ∧ o hf + len ≤ c.w.hdr.scratch ∧ c.startIdx hf = 0 ∧
        (m.ra = true ∨ tileNo hf t.val ∉ c.w.badTiles)) → ∃ d,
      MatPlaced s c d c.onHalves (fun hf k => ∃ regs scales, k = .mma m t.val hf (o hf) 0 (m.chunks.val + 1) regs scales ∧
        ∀ l ∈ lanesOf (c.w.full &&& c.w.halfMask hf), ∀ j, j < (m.chunks.val + 1) * 16 / c.w.g →
          Cells.get regs (l * 1024 + j) = c.w.v l (n.val + j))
        DstReg.none (fun hf => blockLines c (o hf) (len / 64)) ∧
      exec (.mma h m t (.vec n) b sc) s = .next (settleWord (.mma h m t (.vec n) b sc) s c (.done d 1 [] []))) ∧
    ((∀ hf ∈ c.onHalves, s.dev.tileValid c.run.ref c.w (tileNo hf t.val) = false ∧ (m.ra = false ∨ c.startIdx hf ≠ 0)) →
      exec (.mma h m t (.vec n) b sc) s = .next (settleWord (.mma h m t (.vec n) b sc) s c (.done s.dev 1
        (c.onHalves.flatMap fun hf => trapsAt (lanesOf (c.actOf hf)) 0x06 0 0 .here) []))) ∧
    ((∀ hf ∈ c.onHalves, (o hf % 64 ≠ 0 ∨ 2 ^ 32 ≤ o hf) ∧
        (m.ra = true ∧ c.startIdx hf = 0 ∨ s.dev.tileValid c.run.ref c.w (tileNo hf t.val) = true)) →
      exec (.mma h m t (.vec n) b sc) s = .next (settleWord (.mma h m t (.vec n) b sc) s c (.done s.dev 1
        (c.onHalves.flatMap fun hf => trapsAt (lanesOf (c.actOf hf)) 0x03 0 (o hf % 2 ^ 57) .here) []))))

/-- R111, R112, R148, R155, R351, R368 to R373: MMA_COMPLETE and ACCUMULATOR_TRANSFER_COMPLETE write the tile, the registers or the scratch that
their operation names and take it out of the device; an MMA counts towards the shuttle's next self-test. -/
def Obligations.MatrixCompletions : Prop :=
  (∀ s o mod tile half boff start stop aregs scales w, MatDue s o (.mma mod tile half boff start stop aregs scales) w → ∃ d w',
    exec (.mmaComplete o.id) s = .next { s with dev := d.tryEnding s.regs o.ref } ∧ MatDone s.dev d o w' ∧ d.bolts = s.dev.bolts ∧
    TilesHold (doneWeft w o) w' [(half, tile)] (fun _ m n => BitVec.ofNat 32 (mmaElemOut mod w.g half aregs scales
      (fun c j => s.dev.scratchRd w (w.scratchAt o.ref.core (boff + c * MmaFmt.stride mod.fmt + j)) 1) start stop m n
      (if mod.ra ∧ start = 0 then 0 else (w.tile half tile m n).toNat))) ∧
    let k := o.ref.core * 4 + o.ref.shuttle
    let x := s.dev.sh k
    d.sh k = (if s.plat.selfTestEvery ≤ x.mmas + 1 then { x with mmas := 0, selfTest := true } else { x with mmas := x.mmas + 1 }) ∧
    ∀ j, j ≠ k → d.sh j = s.dev.sh j) ∧
  (∀ s o tile half off w, MatDue s o (.accld tile half off) w → ∃ d w',
    exec (.accumulatorTransferComplete o.id) s = .next { s with dev := d.tryEnding s.regs o.ref } ∧ MatDone s.dev d o w' ∧
    d.bolts = s.dev.bolts ∧ d.shuttles = s.dev.shuttles ∧
    TilesHold (doneWeft w o) w' [(half, tile)] (fun _ m n =>
      BitVec.ofNat 32 (s.dev.scratchRd w (w.scratchAt o.ref.core (off + 64 * m + 4 * n)) 4))) ∧
  (∀ s o tile half off w b, MatDue s o (.accst tile half off) w → w.sup = false → s.dev.bolt? w.bolt = some b → off % 64 = 0 →
    off + 1024 ≤ w.hdr.scratch → w.hdr.scratch % 8 = 0 → ∃ d b',
    exec (.accumulatorTransferComplete o.id) s = .next { s with dev := d.tryEnding s.regs o.ref } ∧ MatDone s.dev d o (doneWeft w o) ∧
    d.shuttles = s.dev.shuttles ∧ d.bolt? w.bolt = some b' ∧
    (∀ m n, m < 16 → n < 16 →
      Cells.bytes b'.scratch (w.scratchAt o.ref.core (off + 64 * m + 4 * n)) 4 = (w.tile half tile m n).toNat) ∧
    (∀ k, (∀ j, j < 1024 → k ≠ w.scratchAt o.ref.core (off + j)) → Cells.get b'.scratch k = Cells.get b.scratch k) ∧
    ({ b' with scratch := b.scratch, badScratch := b.badScratch } : Bolt) = b ∧ ∀ n, n ≠ w.bolt → d.bolt? n = s.dev.bolt? n) ∧
  (∀ s o base tile half w, MatDue s o (.toRegs base tile half) w → base < 640 → ∃ d w',
    exec (.accumulatorTransferComplete o.id) s = .next { s with dev := d.tryEnding s.regs o.ref } ∧ MatDone s.dev d o w' ∧
    d.bolts = s.dev.bolts ∧ d.shuttles = s.dev.shuttles ∧
    (∀ l ∈ lanesOf (w.full &&& w.halfMask half), ∀ i, i < 16 / w.g →
      w'.v l (base + i) = w.tile half tile (l % 16) (l % (16 * w.g) / 16 * (16 / w.g) + i)) ∧
    (∀ k, (∀ l ∈ lanesOf (w.full &&& w.halfMask half), ∀ i, i < 16 / w.g → k ≠ vecKey (l, base + i)) →
      Cells.get w'.vregs k = Cells.get w.vregs k) ∧
    (∀ k ∈ w'.badWords, k ∈ w.badWords) ∧ ({ w' with vregs := w.vregs, badWords := w.badWords } : Weft) = doneWeft w o) ∧
  (∀ s o tile half regs w, MatDue s o (.toTile tile half regs) w → ∃ d w',
    exec (.accumulatorTransferComplete o.id) s = .next { s with dev := d.tryEnding s.regs o.ref } ∧ MatDone s.dev d o w' ∧
    d.bolts = s.dev.bolts ∧ d.shuttles = s.dev.shuttles ∧
    TilesHold (doneWeft w o) w' [(half, tile)] (fun _ m n =>
      Cells.get regs ((n / (16 / w.g) * 16 + m + 16 * half) * 1024 + n % (16 / w.g)))) ∧
  (∀ s sh failing, (s.dev.sh sh).selfTest = true →
    let x := s.dev.sh sh
    let new := (failing.filter fun k => decide (k < 16) && !x.fencedSub.contains k).eraseDups
    ∃ d, exec (.matrixSelfTest sh failing) s = .next { s with dev := d } ∧ (d.sh sh).selfTest = false ∧
      (x.fencedSub.length + new.length ≤ 2 → (d.sh sh).fencedSub = x.fencedSub ++ new ∧ (d.sh sh).closed = x.closed ∧ d.disp = s.dev.disp) ∧
      (2 < x.fencedSub.length + new.length → x.fencedSub.length ≤ 2 → (d.sh sh).fencedSub.length = 2 ∧ (d.sh sh).closed = true ∧
        sh / 8 ∈ d.disp.scanQueue) ∧
      (∀ k, k ≠ sh → d.sh k = s.dev.sh k) ∧ ({ d with shuttles := s.dev.shuttles, disp := s.dev.disp } : Dev) = s.dev)

/-- R155, R156: a chunk's sum does not depend on the order of its terms; NaN and infinities decide first, and a sum of zeros is +0. -/
def Obligations.MatrixChunkSums : Prop :=
  (∀ acc (xs ys : List Machine.Num), xs.Perm ys → chunkSum acc xs = chunkSum acc ys) ∧
  (∀ acc (xs : List Machine.Num), (isNaN32 (BitVec.ofNat 32 acc) ∧ acc < 2 ^ 32 ∨ Machine.Num.nan ∈ xs) → chunkSum acc xs = 0x7FC00000) ∧
  (∀ acc (xs : List Machine.Num), acc < 2 ^ 32 → ¬isNaN32 (BitVec.ofNat 32 acc) → Machine.Num.nan ∉ xs →
    let pos := acc = 0x7F800000 ∨ Machine.Num.inf false ∈ xs
    let neg := acc = 0xFF800000 ∨ Machine.Num.inf true ∈ xs
    (pos → neg → chunkSum acc xs = 0x7FC00000) ∧ (pos → ¬neg → chunkSum acc xs = 0x7F800000) ∧ (neg → ¬pos → chunkSum acc xs = 0xFF800000) ∧
    (isZero32 (BitVec.ofNat 32 acc) → (∀ x ∈ xs, ∃ n e, x = .fin n 0 e false) → chunkSum acc xs = 0))

/-! ### Engines -/

/-- R110, R225, R227, R235, R453, R454: TCOPY takes the lowest free handle, or waits for one, or traps on its address; TCSTAT writes the status
word; TCABORT ends a command as its state allows, and what an ended command leaves. -/
def Obligations.TensorCopyWords : Prop :=
  (∀ s h (n : Fin 128) a c, let i : Instr := .tcopy h (.scal n) a
    let addr (k : Nat) : Nat := c.uget k .i64 a
    let free (j : Nat) : Prop := ∀ x, s.dev.cmd? c.core j = some x → x.status.final = true ∧ x.held = false
    Issues s i c → s.dev.fencing c.run.ref = false → c.w.flagsFull (c.flagKeys true c.onHalves) = false →
    (c.onHalves = [] → exec i s = .next (settleWord i s c (.done s.dev 1 [] []))) ∧
    ((∀ k ∈ c.onHalves, addr k % 64 ≠ 0) → exec i s = .next (settleWord i s c (.done s.dev 1
      (c.onHalves.flatMap fun k => trapsAt (lanesOf (c.actOf k)) 0x03 0 (addr k % 2 ^ 57) .here) []))) ∧
    (c.onHalves ≠ [] → (∀ k ∈ c.onHalves, addr k % 64 = 0) → (∀ j, j < 64 → ¬free j) → exec i s = .next (settleWord i s c (.wait 15))) ∧
    (∀ k j, c.onHalves = [k] → addr k % 64 = 0 → j < 64 → free j → (∀ m, m < j → ¬free m) → ∃ d w' x,
      exec i s = .next (settleWord i s c (.done d 1 [] [])) ∧
      d.cmds = (s.dev.cmds.filter fun y => !(y.core == c.core && y.handle == j)) ++ [x] ∧ x.core = c.core ∧ x.handle = j ∧
      x.ref = c.run.ref ∧ x.half = k ∧ x.ctx = c.w.ctx ∧ x.asid = c.w.asid ∧ x.daddr = BitVec.ofNat 64 (addr k) ∧ x.desc = none ∧
      x.status = .queued ∧ x.off = 0 ∧ x.flags = c.flagKeys true [k] ∧ d.weft? c.run.ref = some w' ∧
      Writes { c.w with flags := (c.w.addFlags x.flags).flags } w' [(k, 0)] (.scal n) true .full (fun _ => j) ∧
      (∀ r, refKey r ≠ refKey c.run.ref → d.weft? r = s.dev.weft? r) ∧
      ({ d with cmds := s.dev.cmds, nextOp := s.dev.nextOp, wefts := s.dev.wefts } : Dev) = s.dev)) ∧
  (∀ s h (n : Fin 128) a c, let i : Instr := .tcstat h (.scal n) a
    Issues s i c → ∃ d w' val, exec i s = .next (settleWord i s c (.done d 1 [] [])) ∧ OnlyWeft s.dev d c.run.ref w' ∧
    Writes c.w w' (halfUnits c) (.scal n) true .full val ∧
    ∀ u ∈ halfUnits c, match s.dev.cmd? c.core (c.uget u.1 .i32 a % 64) with
      | none => val u = 0
      | some x =>
        if c.w.sup ∨ x.bolt = c.w.bolt ∧ x.widx = c.w.widx then
          val u % 256 = x.status.code ∧ val u / 2 ^ 16 % 256 = (if x.status = .baddesc then x.sub % 256 else 0) ∧
          val u / 2 ^ 24 % 256 = x.off / 2 ^ 32 % 256 ∧ val u / 2 ^ 32 = x.off % 2 ^ 32
        else val u = 0) ∧
  (∀ s h a c, let i : Instr := .tcabort h a
    Issues s i c →
    (c.onHalves = [] → exec i s = .next (settleWord i s c (.done s.dev 1 [] []))) ∧
    (∀ k, c.onHalves = [k] → s.dev.cmd? c.core (c.uget k .i32 a % 64) = none →
      exec i s = .next (settleWord i s c (.done s.dev 1 [] []))) ∧
    (∀ k x, c.onHalves = [k] → s.dev.cmd? c.core (c.uget k .i32 a % 64) = some x →
      let mine := c.w.sup = true ∨ x.bolt = c.w.bolt ∧ x.widx = c.w.widx
      let ends := x.status = .queued ∨ x.status = .parked ∨ x.status = .active ∧ x.off ≠ x.total
      (mine → ends → exec i s = .next (settleWord i s c (.done (s.dev.endCmd c.regs x .aborted 0) 1 [] []))) ∧
      (x.status = .baddesc → c.w.sup = true →
        exec i s = .next (settleWord i s c (.done (s.dev.putCmd { x with held := false }) 1 [] []))) ∧
      (¬mine ∨ ¬ends ∧ ¬(x.status = .baddesc ∧ c.w.sup = true) →
        exec i s = .next (settleWord i s c (.done s.dev 1 [] []))))) ∧
  (∀ (d : Dev) regs x st sub, d.cmd? x.core x.handle = some x → ∃ d0 : Dev,
    d.endCmd regs x st sub = d0.countDown regs x.core x.bolt x.widx x.flags ∧
    d0.cmd? x.core x.handle = some { x with status := st, sub := sub, src := [], held := decide (st = .baddesc) } ∧
    (∀ core k, ¬(core = x.core ∧ k = x.handle) → d0.cmd? core k = d.cmd? core k) ∧
    (∀ o, o ∈ d0.mem.owned ↔ o ∈ d.mem.owned ∧ o.eng ≠ .tcopy x.core x.handle) ∧
    ({ d0 with cmds := d.cmds, wefts := d.wefts, mem := { d0.mem with owned := d.mem.owned } } : Dev) = d)

/-- R193, R226, R234, R235, R238, R239, R243, R244: the steps of a copy command: the descriptor's checks and its ownership; the oldest QUEUED
command becomes ACTIVE; a granule of a raw copy within the scratch; the ending by the tag. -/
def Obligations.TensorCopySteps : Prop :=
  (∀ s x r w ws d1, s.dev.cmd? x.core x.handle = some x → s.dev.engWeft x.core x.bolt x.widx = some (r, w) → x.status = .queued →
    x.desc = none → s.dev.descWaits x = false → s.dev.readWords s.regs x.core x.space true x.daddr.toNat 8 = (.ok ws, d1) →
    let y0 : Cmd := { x with desc := some ws }
    let y : Cmd := { y0 with failed := y0.check w (Tab.find? s.dev.keys (keyAt x.ctx y0.kslot)).isSome, failedAt := d1.clockOf x.ref }
    (y.failed ≠ none →
      exec (.descriptorReadComplete x.core x.handle) s = .next { s with dev := (d1.putCmd y).tryEnding s.regs r }) ∧
    (y.failed = none → ∃ d2 : Dev,
      exec (.descriptorReadComplete x.core x.handle) s = .next { s with dev := d2.tryEnding s.regs r } ∧
      d2 = (d1.ownDst s.regs { y with unowned := y.lines.map fun l => l.at_ } w).2 ∧
      (y.dstk = 1 → ∀ l ∈ y.lines, ∃ o ∈ d2.mem.owned, o.eng = .tcopy x.core x.handle ∧
        o.loc = .scr w.bolt (lineOf (w.scratchAt x.core (y.dstAt + l.at_)))))) ∧
  (∀ s x r w cause sub va d1, s.dev.cmd? x.core x.handle = some x → s.dev.engWeft x.core x.bolt x.widx = some (r, w) →
    x.status = .queued → x.desc = none → s.dev.descWaits x = false →
    s.dev.readWords s.regs x.core x.space true x.daddr.toNat 8 = (.error (cause, sub, va), d1) →
    (cause = 0x13 → exec (.descriptorReadComplete x.core x.handle) s = .next { s with dev := d1.failCmd s.regs x w .poison 0 va }) ∧
    (cause ≠ 0 → cause ≠ 0x13 → exec (.descriptorReadComplete x.core x.handle) s = .next { s with dev := d1.parkCmd s.regs x 0 cause va })) ∧
  (∀ s x, s.dev.cmd? x.core x.handle = some x → s.dev.descWaits x = true → exec (.descriptorReadComplete x.core x.handle) s = .next s) ∧
  (∀ s core x r w, x ∈ s.dev.cmds → x.core = core → s.dev.engWeft core x.bolt x.widx = some (r, w) →
    x.status = .queued → x.desc.isSome = true → s.dev.queueHalted core = false →
    (s.dev.cmds.filter fun y => y.core == core && y.status == .active).length < 8 →
    (∀ y ∈ s.dev.cmds, y.core = core → y.status = .queued → y.desc.isSome = true → y ≠ x → x.seq < y.seq) →
    (∀ sub, x.failed = some sub → exec (.tcopyCommandStart core) s = .next { s with dev := s.dev.failCmd s.regs x w .baddesc sub }) ∧
    (x.failed = none → x.gcm = false ∨ x.started = true →
      exec (.tcopyCommandStart core) s = .next { s with dev := s.dev.putCmd { x with status := .active, started := true } }) ∧
    (∀ slot, x.failed = none → x.gcm = true → x.started = false → Tab.find? s.dev.keys (keyAt x.ctx x.kslot) = some slot →
      (x.gctr ≤ slot.last.toNat → exec (.tcopyCommandStart core) s = .next { s with dev := s.dev.endCmd s.regs x .ctrstale 0 }) ∧
      (slot.last.toNat < x.gctr → ∃ d : Dev, exec (.tcopyCommandStart core) s = .next { s with dev := d } ∧
        Tab.find? d.keys (keyAt x.ctx x.kslot) = some { slot with last := BitVec.ofNat 64 x.gctr } ∧
        d.cmds = (s.dev.putCmd { x with status := .active, started := true }).cmds ∧
        ({ d with keys := s.dev.keys, cmds := s.dev.cmds } : Dev) = s.dev))) ∧
  (∀ s x r w b, s.dev.cmd? x.core x.handle = some x → s.dev.engWeft x.core x.bolt x.widx = some (r, w) → x.status = .active →
    x.gcm = false → x.target = 0 → x.mx = 0 → x.srck = 1 → x.dstk = 1 → x.race.on = false → w.sup = false → s.dev.isTwin w = false →
    s.dev.bolt? w.bolt = some b → b.badScratch = [] → w.hdr.scratch % 128 = 0 → x.row % 64 = 0 → x.off % 64 = 0 → x.off < x.total →
    x.srcOf x.off % 64 = 0 → x.rawDst x.off % 64 = 0 →
    (∀ o ∈ s.dev.mem.owned, o.loc = .scr w.bolt (lineOf (w.scratchAt x.core (x.rawDst x.off))) → o.eng = x.eng) → x.unowned = [] →
    (let turn := (s.dev.core x.core).turn
     ∀ y ∈ s.dev.cmds, s.dev.hasGrain x.core y = true → y ≠ x →
      turn < x.seq ∧ (y.seq ≤ turn ∨ x.seq < y.seq) ∨ x.seq ≤ turn ∧ y.seq ≤ turn ∧ x.seq < y.seq) → ∃ d x' b',
    exec (.tcopyGranule x.core x.handle) s = .next { s with dev := d } ∧ d.cmd? x.core x.handle = some x' ∧ x'.off = x.off + 64 ∧
    ({ x' with off := x.off, src := x.src } : Cmd) = x ∧ d.bolt? w.bolt = some b' ∧
    (∀ j, j < 64 → Cells.get b'.scratch (w.scratchAt x.core (x.rawDst x.off) + j) =
      Cells.get b.scratch (w.scratchAt x.core (x.srcOf x.off) + j)) ∧
    (∀ k, (∀ j, j < 64 → k ≠ w.scratchAt x.core (x.rawDst x.off) + j) → Cells.get b'.scratch k = Cells.get b.scratch k) ∧
    d.mem.cells = s.dev.mem.cells ∧ d.wefts = s.dev.wefts ∧ (d.core x.core).turn = x.seq) ∧
  (∀ s x r w, s.dev.cmd? x.core x.handle = some x → s.dev.engWeft x.core x.bolt x.widx = some (r, w) → x.status = .active →
    x.off = x.total →
    (x.gcm = false → exec (.tcopyCommandEnd x.core x.handle) s = .next { s with dev := s.dev.endCmd s.regs x .done 0 }) ∧
    (∀ tag d, x.gcm = true → s.dev.readSrc s.regs x w (x.srcAt + x.total) 16 = (.ok tag, d) →
      let good := gcmTag (s.dev.keyOf x) x.iv x.cipherBlocks (8 * x.total) = beNat (tag.map (·.toNat))
      (good → exec (.tcopyCommandEnd x.core x.handle) s = .next { s with dev := d.endCmd s.regs x .done 0 }) ∧
      (¬good → ∀ ls e, d.dests s.regs x r w x.lines = (.ok ls, e) →
        (x.dstk = 0 → ∀ l ∈ ls, d.captureWaits w.bolt (x.dstAt + l.1.at_) = none) →
        let e0 := if x.dstk = 0 then e.countHints w.bolt (ls.map fun l => x.dstAt + l.1.at_) else e
        let e1 := ls.foldl (fun e l => e.putLine s.regs x r w l.1 l.2 (List.replicate 64 0)) e0
        exec (.tcopyCommandEnd x.core x.handle) s = .next { s with dev := e1.endCmd s.regs x .tagfail 0 })))

/-- R110, R192, R194, R408 to R410, R446, R447: GATHER and SCATTER make their tests in order and place a command, which owns the scratch that a
GATHER writes; an element moves between memory and scratch, and the last one ends the command, its ownership and its flag. -/
def Obligations.GatherAndScatter : Prop :=
  (∀ s (scatter : Bool) h (z : Size) (dst a b n : Operand) c k,
    let i : Instr := if scatter then .scatter h z dst a b n else .gather h z dst a b n
    let d0 := c.uget k .i32 dst
    let base := c.uget k .i64 a
    let l0 := c.uget k .i32 b
    let cnt := c.uget k .i32 n
    let size := c.w.hdr.scratch
    let traps (cause addr : Nat) : Prop := exec i s =
      .next (settleWord i s c (.done s.dev 1 (trapsAt (lanesOf (c.actOf k)) cause 0 (addr % 2 ^ 57) .here) []))
    let aligned := base % z.bytes = 0 ∧ d0 % z.bytes = 0 ∧ l0 % 4 = 0
    let fits := cnt ≤ 65536 ∧ l0 + 4 * cnt ≤ size ∧ d0 + z.bytes * cnt ≤ size
    Issues s i c → s.dev.fencing c.run.ref = false → c.w.flagsFull (c.flagKeys true c.onHalves) = false →
    (c.onHalves = [] → exec i s = .next (settleWord i s c (.done s.dev 1 [] []))) ∧
    (c.onHalves = [k] →
      (base % z.bytes ≠ 0 → traps 0x03 base) ∧
      (base % z.bytes = 0 → d0 % z.bytes ≠ 0 → traps 0x03 d0) ∧
      (base % z.bytes = 0 → d0 % z.bytes = 0 → l0 % 4 ≠ 0 → traps 0x03 l0) ∧
      (aligned → 65536 < cnt ∨ size < l0 + 4 * cnt → traps 0x05 (l0 + 4 * min cnt 65536)) ∧
      (aligned → cnt ≤ 65536 → l0 + 4 * cnt ≤ size → size < d0 + z.bytes * cnt → traps 0x05 (d0 + z.bytes * cnt)) ∧
      (aligned → fits → cnt = 0 → exec i s = .next (settleWord i s c (.done s.dev 1 [] []))) ∧
      (aligned → fits → cnt ≠ 0 → ∃ d g,
        exec i s = .next (settleWord i s c (.done d 1 [] [])) ∧
        d.gathers = s.dev.gathers ++ [g] ∧ g.id = s.dev.nextOp ∧ g.scatter = scatter ∧ g.ref = c.run.ref ∧ g.half = k ∧ g.asid = c.w.asid ∧
        g.base.toNat = base % 2 ^ 64 ∧ g.list = l0 ∧ g.scr = d0 ∧ g.count = cnt ∧ g.size = z.bytes ∧ g.next = 0 ∧ g.parked = false ∧
        g.flags = c.flagKeys true [k] ∧
        d.weft? c.run.ref = some { c.w with flags := (c.w.addFlags g.flags).flags } ∧
        (∀ r, refKey r ≠ refKey c.run.ref → d.weft? r = s.dev.weft? r) ∧
        (scatter = true → d.mem = s.dev.mem) ∧
        (scatter = false → ∀ e, e < cnt → ∃ o ∈ d.mem.owned, o.eng = .gather g.id ∧
          o.loc = .scr c.w.bolt (lineOf (c.w.scratchAt c.core (d0 + z.bytes * e)))) ∧
        ({ d with gathers := s.dev.gathers, nextOp := s.dev.nextOp, wefts := s.dev.wefts,
                  mem := { d.mem with owned := s.dev.mem.owned } } : Dev) = s.dev))) ∧
  (∀ s g r w b p, s.dev.gath? g.id = some g → g.parked = false → s.dev.engWeft g.ref.core g.bolt g.widx = some (r, w) → w.sup = false →
    s.dev.isTwin w = false → s.dev.bolt? w.bolt = some b → b.badScratch = [] → b.held = [] → g.race.on = false →
    s.dev.beforeOpen g.ref g.id = false →
    let core := g.ref.core
    let idx := Cells.bytes b.scratch (w.scratchAt core (g.list + 4 * g.next)) 4
    let at_ := w.scratchAt core (g.scr + g.size * g.next)
    let va := (g.base.toNat + idx * g.size) % 2 ^ 64
    s.dev.lookup s.regs core g.asid va (if g.scatter then .wr else .rd) = .ok p → p.region ≠ 3 → s.dev.poisoned p.pa = false →
    AtHome s.dev core (lineOf p.pa) → (p.pa % 64 + g.size ≤ 64) → s.dev.captureWaits w.bolt va = none → s.regs.tracked (lineOf p.pa) = false →
    (g.next + 1 < g.count →
      (g.scatter = false → (∀ o ∈ s.dev.mem.owned, o.loc = .scr w.bolt (lineOf at_) → o.eng = .gather g.id) → ∃ d b',
        exec (.gatherElement g.id) s = .next { s with dev := d } ∧ d.bolt? w.bolt = some b' ∧ ScratchAt b b' at_ g.size (s.dev.homeRd p.pa g.size) ∧
        d.gath? g.id = some { g with next := g.next + 1 } ∧ d.mem = s.dev.mem ∧ d.wefts = s.dev.wefts) ∧
      (g.scatter = true → (∀ o ∈ s.dev.mem.owned, o.loc = .line (lineOf p.pa) → o.eng = .gather g.id) → ∃ d,
        exec (.scatterElement g.id) s = .next { s with dev := d } ∧ BytesAt s.dev d p.pa g.size (Cells.bytes b.scratch at_ g.size) ∧
        d.gath? g.id = some { g with next := g.next + 1 } ∧ d.wefts = s.dev.wefts ∧ d.bolts = s.dev.bolts)) ∧
    (g.next + 1 = g.count → g.scatter = false → (∀ o ∈ s.dev.mem.owned, o.loc = .scr w.bolt (lineOf at_) → o.eng = .gather g.id) →
      ∃ (d : Dev) (b' : Bolt),
      exec (.gatherElement g.id) s = .next { s with dev := d.countDown s.regs core g.bolt g.widx g.flags } ∧
      d.bolt? w.bolt = some b' ∧ ScratchAt b b' at_ g.size (s.dev.homeRd p.pa g.size) ∧ d.gath? g.id = none ∧
      (∀ o ∈ d.mem.owned, o.eng ≠ .gather g.id) ∧ d.wefts = s.dev.wefts))

/-- R110, R167, R448 to R451: SLOP takes the lowest free slot of its unit, waits for one, traps on its address, or parks its weft for a bad
descriptor; a line is one operation on each of its 16 elements. -/
def Obligations.SliceOperations : Prop :=
  (∀ s h a c k, let i : Instr := .slop h a
    let addr := c.uget k .i64 a
    let busy (u : Nat) : Prop := ∃ x ∈ s.dev.slops, x.core = c.core ∧ x.unit = u
    Issues s i c → Single s c → s.dev.fencing c.run.ref = false → s.dev.beforeOpen c.run.ref s.dev.nextOp = false →
    c.w.flagsFull (c.flagKeys true c.onHalves) = false →
    (c.onHalves = [] → exec i s = .next (settleWord i s c (.done s.dev 1 [] []))) ∧
    (c.onHalves = [k] → addr % 64 ≠ 0 → exec i s = .next (settleWord i s c
      (.done s.dev 1 (trapsAt (lanesOf (c.actOf k)) 0x03 0 (addr % 2 ^ 57) .here) []))) ∧
    (c.onHalves = [k] → addr % 64 = 0 → (∀ u, u < 16 → busy u) → exec i s = .next (settleWord i s c (.wait 15))) ∧
    (∀ u ws d1, c.onHalves = [k] → addr % 64 = 0 → u < 16 → ¬busy u → (∀ v, v < u → busy v) →
      s.dev.readWords c.regs c.core c.w.space true addr 8 = (.ok ws, d1) →
      (∀ sub, slopCheck ws = some sub → exec i s = .next (settleWord i s c (.done
        ((d1.parkEng c.regs c.core (if c.w.sup then 0 else c.w.bolt) c.w.widx 0x15 sub addr addr none).passBank c.w) 1 [] []))) ∧
      (slopCheck ws = none → ∃ (x : Slop) (d2 : Dev), x.id = d1.nextOp ∧ x.core = c.core ∧ x.unit = u ∧ x.ref = c.run.ref ∧ x.desc = ws ∧ x.next = 0 ∧
        x.lines = (ws.getD 3 0).toNat % 2 ^ 25 ∧ x.parked = false ∧
        d2 = { d1 with slops := d1.slops ++ [x], nextOp := d1.nextOp + 1 }.modW c.run.ref (fun w => w.addFlags (c.flagKeys true [k])) ∧
        exec i s = .next (settleWord i s c (.done ((d2.ownLines c.regs x).passBank c.w) 1 [] []))))) ∧
  (∀ s x p, (s.dev.slops.find? fun y => y.core == x.core && y.unit == x.unit) = some x → x.parked = false → x.next + 1 < x.lines →
    x.race.on = false → s.regs.tracked (lineOf p.pa) = false → nbit (x.word 4) 6 = true →
    s.dev.lookup s.regs x.core x.asid (x.dst + 64 * x.next) .wr = .ok p → p.region ≠ 3 → (p.target = 0 ∨ p.target = 3) → p.pa % 64 = 0 →
    s.dev.poisoned p.pa = false → AtHome s.dev x.core (lineOf p.pa) → s.dev.captureWaits x.bolt (x.dst + 64 * x.next) = none →
    (∀ o ∈ s.dev.mem.owned, o.loc = .line (lineOf p.pa) → o.eng = .slop x.id) → ∃ d,
    exec (.slopLine x.core x.unit) s = .next { s with dev := d } ∧
    (∀ j, j < 16 → d.homeRd (p.pa + 4 * j) 4 =
      slopVal (x.word 4 / 16 % 4) (x.word 4 % 16) (s.dev.homeRd (p.pa + 4 * j) 4) (x.word 2 % 2 ^ 32) % 2 ^ 32) ∧
    (∀ k, (k < p.pa ∨ p.pa + 64 ≤ k) → Cells.get d.mem.cells k = Cells.get s.dev.mem.cells k) ∧
    (∀ y ∈ d.slops, y.id = x.id → y = { x with next := x.next + 1 }) ∧ d.wefts = s.dev.wefts ∧ d.bolts = s.dev.bolts) ∧
  (∀ ty d e : Nat, ty < 2 → d < 2 ^ 32 → e < 2 ^ 32 →
    let t : IntTy := if ty = 0 then .s32 else .z32
    slopVal ty 0 d e = (d + e) % 2 ^ 32 ∧ srcInt t (slopVal ty 1 d e) = min (srcInt t d) (srcInt t e) ∧
    srcInt t (slopVal ty 2 d e) = max (srcInt t d) (srcInt t e) ∧
    srcInt t (slopVal ty 6 d e) = srcInt t (d * e) ∧ slopVal ty 7 d e = e ∧
    (∀ k, (slopVal ty 3 d e).testBit k = (d.testBit k && e.testBit k) ∧ (slopVal ty 4 d e).testBit k = (d.testBit k || e.testBit k) ∧
      (slopVal ty 5 d e).testBit k = (d.testBit k ^^ e.testBit k)))

/-! ### Collectives and views -/

/-- R110, R325, R326, R328, R335, R386, R389: COLL completes: each half meets the tests of its issue in their order, waits, or starts an
instance. CABORT completes: it ends each instance named that is the weft's own and has not reached step 3. -/
def Obligations.CollectiveWords : Prop :=
  (∀ s h (n : Fin 128) a c, let i : Instr := .coll h (.scal n) a
    let addr (k : Nat) : Nat := c.uget k .i64 a
    -- what the word shows to a twin copy, of which a bolt of one copy has none
    let shown (d : Dev) (vs : Tab Nat) : Dev := d.publish c.run.ref c.w.picks c.run.idx vs
    Issues s i c → Single s c →
    (c.onHalves = [] → exec i s = .next (settleWord i s c (.done s.dev 1 [] []))) ∧
    (c.onHalves ≠ [] → s.dev.fencing c.run.ref = true ∨ s.dev.beforeOpen c.run.ref s.dev.nextOp = true ∨
        c.w.flagsFull (c.flagKeys true c.onHalves) = true → exec i s = .next (settleWord i s c (.wait 15))) ∧
    (s.dev.fencing c.run.ref = false → s.dev.beforeOpen c.run.ref s.dev.nextOp = false → c.w.flagsFull (c.flagKeys true c.onHalves) = false →
      (∀ k, c.onHalves = [k] → addr k % 64 ≠ 0 → exec i s = .next (settleWord i s c
        (.done s.dev 1 (trapsAt (lanesOf (c.actOf k)) 0x03 0 (addr k % 2 ^ 57) .here) []))) ∧
      (∀ k x d1 w1, c.onHalves = [k] → c.collStart s.dev k (addr k) = .started x d1 → d1.weft? c.run.ref = some w1 →
        ∃ (d2 : Dev) (w' : Weft) (vs : Tab Nat), OnlyWeft d1 d2 c.run.ref w' ∧ Writes w1 w' [(k, 0)] (.scal n) true .full (fun _ => x.handle) ∧
          exec i s = .next (settleWord i s c (.done ((shown (d2.launchColl c.regs x) vs).passBank c.w) 1 [] []))) ∧
      (∀ k, c.onHalves = [k] → c.collStart s.dev k (addr k) = .wait → exec i s = .next (settleWord i s c (.wait 14))) ∧
      (∀ k cause sub at_ d1, c.onHalves = [k] → c.collStart s.dev k (addr k) = .trap cause sub at_ d1 → exec i s = .next (settleWord i s c
        (.done (shown d1 []) 1 (trapsAt (lanesOf (c.actOf k)) cause sub at_ .here) []))) ∧
      (∀ k k' x d1 y d3, c.onHalves = [k, k'] → c.collStart s.dev k (addr k) = .started x d1 →
        let d2 := (d1.modW c.run.ref fun w => w.write k 0 (.scal n) true .full x.handle).launchColl c.regs x
        c.collStart d2 k' (addr k') = .started y d3 → ∃ vs, exec i s = .next (settleWord i s c
          (.done ((shown ((d3.modW c.run.ref fun w => w.write k' 0 (.scal n) true .full y.handle).launchColl c.regs y) vs).passBank c.w) 1 [] []))))) ∧
  (∀ (c : Ctx) (d : Dev) (k addr : Nat),
    (addr % 64 ≠ 0 → c.collStart d k addr = .trap 0x03 0 (addr % 2 ^ 57) d) ∧
    (∀ cause sub va d1, addr % 64 = 0 → d.readWords c.regs c.core c.w.space true addr 8 = (.error (cause, sub, va), d1) →
      (cause = 0 → c.collStart d k addr = .wait) ∧ (cause ≠ 0 → c.collStart d k addr = .trap cause sub va d1)) ∧
    (∀ desc d1, addr % 64 = 0 → d.readWords c.regs c.core c.w.space true addr 8 = (.ok desc, d1) →
      let id := (desc.getD 5 0).toNat % 4096
      let slot := (desc.getD 4 0).toNat % 16
      let shrinks := (desc.getD 4 0).getLsbD 10
      let v := d1.view slot
      let mine := c.w.sup = true ∨ (d1.counter id).ctx = some c.w.ctx
      let count := (d1.fabric.colls.filter (·.slot == slot)).length
      (¬mine → c.collStart d k addr = .trap causeProt 0 (64 * id) d1) ∧
      (mine → v.state = .lost → c.collStart d k addr = .trap 0x14 2 0 d1) ∧
      (mine → v.state = .empty ∨ v.state = .joining ∨ v.state = .excluded → c.collStart d k addr = .trap 0x14 3 0 d1) ∧
      (mine → v.state = .live ∨ v.state = .agree → shrinks = false → v.t ≠ v.ta → c.collStart d k addr = .trap 0x14 1 0 d1) ∧
      (mine → v.state = .agree → shrinks = true ∨ v.t = v.ta → c.collStart d k addr = .wait) ∧
      (mine → v.state = .live → shrinks = true ∨ v.t = v.ta → 8 ≤ count ∨ (∀ j, j < 64 → d1.coll? c.core j ≠ none) → c.collStart d k addr = .wait) ∧
      (mine → v.state = .live → shrinks = true ∨ v.t = v.ta → count < 8 → ∀ j, j < 64 → d1.coll? c.core j = none →
        (∀ m, m < j → d1.coll? c.core m ≠ none) → ∀ w1, d1.weft? c.run.ref = some w1 → ∃ (x : Coll) (d2 : Dev),
          c.collStart d k addr = .started x d2 ∧ x.core = c.core ∧ x.handle = j ∧ x.ref = c.run.ref ∧ x.ctx = c.w.ctx ∧ x.slot = slot ∧
          x.seq = v.nextSeq ∧ x.desc = desc ∧ x.stage = .staging ∧ x.members0 = v.members ∧ x.n0 = v.members.length ∧ x.tag0 = v.t ∧
          x.stamp = d1.nextOp ∧ d2.fabric.colls = d1.fabric.colls ++ [x] ∧ d2.view slot = { v with nextSeq := v.nextSeq + 1 } ∧
          (∀ q, q ≠ slot → d2.view q = d1.view q) ∧ d2.nextOp = d1.nextOp + 1 ∧ d2.weft? c.run.ref = some (w1.addFlags (c.flagKeys true [k])) ∧
          (∀ q, refKey q ≠ refKey c.run.ref → d2.weft? q = d1.weft? q) ∧
          ({ d2 with fabric := d1.fabric, wefts := d1.wefts, nextOp := d1.nextOp } : Dev) = d1))) ∧
  (∀ s h a c, let i : Instr := .cabort h a
    Issues s i c → exec i s = .next (settleWord i s c (.done
      (c.onHalves.foldl (fun d k => d.abortColl c.regs c.core (c.uget k .i32 a % 64)
        fun x => c.w.sup || (x.bolt == c.w.bolt && x.widx == c.w.widx)) s.dev) 1 [] []))) ∧
  (∀ (d : Dev) regs core handle (mine : Coll → Bool),
    (d.coll? core handle = none → d.abortColl regs core handle mine = d) ∧
    (∀ x, d.coll? core handle = some x →
      let v := d.view x.slot
      let past := x.stage = .ending ∨ x.stage = .ready ∧ (x.sure = true ∨ ∀ m ∈ x.members0, m ∈ v.members → m ∈ x.ready)
      (past ∨ mine x = false → d.abortColl regs core handle mine = d) ∧
      (¬past → mine x = true → ∃ e : Dev,
        ViewSends d e x.slot v ((x.members0.filter (· != v.self)).map fun m => FabMsg.collAbort x.slot x.seq m) ∧
        d.abortColl regs core handle mine = e.endColl regs { x with parked := false } 1)))

/-- R327, R328, R330, R331, R333, R335: the steps of an instance: staging, partials, readiness and aborts as they arrive; the reduction of
s32 elements. -/
def Obligations.CollectiveSteps : Prop :=
  (∀ s k d1 d2 d3 bs, s.dev.coll? k.core k.handle = some k → k.stage = .staging → k.parked = false →
    let v := s.dev.view k.slot
    s.dev.ownSpan s.regs k.by_ 0 (cutsOf k.dst k.outBytes) = (.ok (), d1) →
    d1.readSpan s.regs k.by_ (cutsOf k.src (k.inBytes v.self)) = (.ok bs, d2) → d2.writeSpan s.regs k.by_ k.stageAt bs = (.ok (), d3) →
    ∃ (k' : Coll) (d4 : Dev), k'.stage = .exchange ∧ k'.part v.self = bs ∧ (∀ m, m ≠ v.self → k'.part m = k.part m) ∧
      ({ k' with stage := k.stage, parts := k.parts } : Coll) = k ∧ d4.coll? k.core k.handle = (d3.coll? k.core k.handle).map (fun _ => k') ∧
      d4.fabric.outbox = d3.fabric.outbox ++
        (((k.members0.filter v.members.contains).filter (· != v.self)).map fun m => FabMsg.collPart k.slot k.seq m v.t (k.params ++ bs)) ∧
      exec (.collStageReadComplete k.core k.handle) s = .next { s with dev := d4.combine s.regs k' }) ∧
  (∀ s slot seq src tag data k, s.dev.collOf slot seq = some k →
    let i : Instr := .collPartialReceive slot seq src tag data
    let v := s.dev.view slot
    (tag ≠ v.t → exec i s = .next { s with dev := s.dev.putColl { k with stale := k.stale + 1 } }) ∧
    (tag = v.t → k.stage ≠ .ready → k.stage ≠ .ending → data.take 16 ≠ k.params ∨ (data.drop 16).length ≠ k.inBytes src → ∃ d : Dev,
      d.fabric.outbox = s.dev.fabric.outbox ++
        (((k.members0.filter v.members.contains).filter (· != v.self)).map fun m => FabMsg.collMismatch k.slot k.seq m) ∧
      exec i s = .next { s with dev := d.endColl s.regs { k with parked := false } 3 }) ∧
    (tag = v.t → k.stage ≠ .ready → k.stage ≠ .ending → data.take 16 = k.params → (data.drop 16).length = k.inBytes src → ∃ k' : Coll,
      k'.part src = data.drop 16 ∧ (∀ m, m ≠ src → k'.part m = k.part m) ∧ ({ k' with parts := k.parts } : Coll) = k ∧
      exec i s = .next { s with dev := if k.parked then s.dev.putColl k' else (s.dev.putColl k').combine s.regs k' })) ∧
  (∀ s slot seq src tag k, s.dev.collOf slot seq = some k → k.stage ≠ .ending →
    let i : Instr := .collReadyReceive slot seq src tag
    (tag ≠ (s.dev.view slot).t → exec i s = .next s) ∧
    (tag = (s.dev.view slot).t → ∃ k' : Coll, (∀ m, m ∈ k'.ready ↔ m ∈ k.ready ∨ m = src) ∧ ({ k' with ready := k.ready } : Coll) = k ∧
      exec i s = .next { s with dev := if k.parked then s.dev.putColl k' else (s.dev.putColl k').checkReady s.regs k' })) ∧
  (∀ s slot seq k, s.dev.collOf slot seq = some k →
    let v := s.dev.view slot
    let past := k.stage = .ending ∨ k.stage = .ready ∧ (k.sure = true ∨ ∀ m ∈ k.members0, m ∈ v.members → m ∈ k.ready)
    (past → exec (.collAbortReceive slot seq) s = .next s) ∧
    (¬past → exec (.collAbortReceive slot seq) s = .next { s with dev := s.dev.endColl s.regs { k with parked := false } 1 })) ∧
  (∀ (xs : List Nat) n n0 pick, 0 < n → xs ≠ [] → (∀ x ∈ xs, x < 2 ^ 32) →
    let zs := xs.map (srcInt .s32)
    let out (red : Nat) (chg : Bool) : Nat := collElem 2 red n n0 chg pick xs
    srcInt .s32 (out 0 false) = srcInt .s32 (BitVec.ofInt 32 zs.sum).toNat ∧
    (srcInt .s32 (out 1 false) ∈ zs ∧ ∀ z ∈ zs, z ≤ srcInt .s32 (out 1 false)) ∧
    (srcInt .s32 (out 2 false) ∈ zs ∧ ∀ z ∈ zs, srcInt .s32 (out 2 false) ≤ z) ∧
    (∀ q : Int, n0 = n * q.toNat → 0 ≤ q → srcInt .s32 (out 0 true) = nearest .s32 (zs.sum * q)))

/-- R80, R319, R321, R334, R336: VIEWQ, VIEWACK and VJOIN complete, for every half that executes them. -/
def Obligations.ViewWords : Prop :=
  (∀ s h (n : Fin 128) a c, let i : Instr := .viewq h (.scal n) a
    Issues s i c → ∃ d w' val, exec i s = .next (settleWord i s c (.done d 1 [] [])) ∧ OnlyWeft s.dev d c.run.ref w' ∧
    Writes c.w w' (halfUnits c) (.scal n) true .full val ∧
    ∀ u ∈ halfUnits c, let x := c.uget u.1 .i64 a
      let v := s.dev.view (x % 16)
      (x / 16 % 2 = 0 → val u % 2 ^ 32 = v.t.toNat ∧ val u / 2 ^ 32 % 2 ^ 18 = (if v.state = .empty then 0x3FFFF else v.self % 2 ^ 18) ∧
        val u / 2 ^ 52 % 2 = (if v.t = v.ta then 0 else 1) ∧ val u / 2 ^ 53 = v.state.code) ∧
      (x / 16 % 2 = 1 → val u % 2 ^ 19 = v.members.length % 2 ^ 19 ∧
        val u / 2 ^ 19 % 2 ^ 18 = (v.members.countP fun m => decide (m < v.self)) % 2 ^ 18 ∧ val u / 2 ^ 37 = v.t.toNat % 2 ^ 27)) ∧
  (∀ s h a c, let i : Instr := .viewack h a
    let slot (k : Nat) : Nat := c.uget k .i32 a % 16
    let st (k : Nat) : VState := (s.dev.view (slot k)).state
    Issues s i c →
    ((∃ k ∈ c.onHalves, st k = .agree) → exec i s = .next (settleWord i s c (.wait 14))) ∧
    ((∀ k ∈ c.onHalves, st k ≠ .agree) → ∃ d,
      exec i s = .next (settleWord i s c (.done d 1 (c.onHalves.flatMap fun k =>
        if st k = .live then [] else trapsAt (lanesOf (c.actOf k)) 0x14 (if st k = .lost then 2 else 3) 0 .here) [])) ∧
      (∀ q, (∃ k ∈ c.onHalves, slot k = q ∧ st k = .live) → d.view q = { s.dev.view q with ta := (s.dev.view q).t } ∧
        ∀ id, q ∉ (d.counter id).fences) ∧
      (∀ q, ¬(∃ k ∈ c.onHalves, slot k = q ∧ st k = .live) → d.view q = s.dev.view q ∧
        ∀ id, q ∈ (d.counter id).fences ↔ q ∈ (s.dev.counter id).fences) ∧
      (∀ id, ({ d.counter id with fences := (s.dev.counter id).fences } : Counter) = s.dev.counter id) ∧
      ({ d with counters := s.dev.counters, fabric := { d.fabric with views := s.dev.fabric.views } } : Dev) = s.dev)) ∧
  (∀ s h a c, let i : Instr := .vjoin h a
    let join (d : Dev) (k : Nat) : Except (Nat × Nat) Dev × Dev := d.vjoin c.regs c.core (c.uget k .i32 a % 16)
    Issues s i c →
    (c.onHalves = [] → exec i s = .next (settleWord i s c (.done s.dev 1 [] []))) ∧
    (∀ k, c.onHalves = [k] →
      (∀ d d', join s.dev k = (.ok d, d') → exec i s = .next (settleWord i s c (.done d 1 [] []))) ∧
      (∀ va d, join s.dev k = (.error (0, va), d) → exec i s = .next (settleWord i s c (.wait 7))) ∧
      (∀ cause va d, cause ≠ 0 → join s.dev k = (.error (cause, va), d) →
        exec i s = .next (settleWord i s c (.done d 1 (trapsAt (lanesOf (c.actOf k)) cause 0 va .here) [])))) ∧
    (∀ k k' d d' e e', c.onHalves = [k, k'] → join s.dev k = (.ok d, d') → join d k' = (.ok e, e') →
      exec i s = .next (settleWord i s c (.done e 1 [] [])))) ∧
  (∀ (d : Dev) regs core slot,
    (∀ cause sub va d1, d.readWords regs core d.space0 false ((regs.area 0 + 0x800000 + 64 * slot) % 2 ^ 57) 8 = (.error (cause, sub, va), d1) →
      d.vjoin regs core slot = (.error (if cause = 0 then 0 else 0x10, va), d1)) ∧
    (∀ r d1, d.readWords regs core d.space0 false ((regs.area 0 + 0x800000 + 64 * slot) % 2 ^ 57) 8 = (.ok r, d1) →
      let v := d.view slot
      let word (j : Nat) : Nat := (r.getD j 0).toNat
      let open_ := v.state = .empty ∨ v.state = .lost ∨ v.state = .excluded
      (¬open_ → (d.vjoin regs core slot).1 = .ok d1) ∧
      (open_ → (r.getD 0 0).getLsbD 50 = true →
        (∀ cause sub va d2, d1.readWords regs core d1.space0 false (word 2 % 2 ^ 57 / 64 * 64) 4096 = (.error (cause, sub, va), d2) →
          d.vjoin regs core slot = (.error (if cause = 0 then 0 else 0x10, va), d2)) ∧
        (∀ m d2, d1.readWords regs core d1.space0 false (word 2 % 2 ^ 57 / 64 * 64) 4096 = (.ok m, d2) → ∃ e v',
          (d.vjoin regs core slot).1 = .ok e ∧ ViewSends d2 e slot v' [] ∧ v'.state = .live ∧
          v'.t = BitVec.ofNat 32 (word 1) ∧ v'.ta = v'.t ∧ v'.self = word 0 % 2 ^ 18 ∧ v'.proposal = none ∧
          ∀ id, id ∈ v'.members ↔ id < 64 * m.length ∧ (m.getD (id / 64) 0).getLsbD (id % 64))) ∧
      (open_ → (r.getD 0 0).getLsbD 50 = false → ∃ e v', (d.vjoin regs core slot).1 = .ok e ∧
        ViewSends d1 e slot v' [.join slot (word 0 / 2 ^ 32 % 2 ^ 18) (word 0 % 2 ^ 18)] ∧ v'.state = .joining ∧
        v'.self = word 0 % 2 ^ 18 ∧ v'.t = v.t)))

/-- R318, R321 to R324, R336, R481: keepalives, suspicion, proposals, acknowledgements, commits, losses and joins. -/
def Obligations.ViewMessages : Prop :=
  (∀ s eth m, ∃ d, exec (.keepaliveSend eth m) s = .next { s with dev := d } ∧
    ViewSends s.dev d 0 (s.dev.view 0) [.keepalive eth m]) ∧
  (∀ s slot ms i, (i = .suspicionReceive slot ms ∨ ∃ m, ms = [m] ∧ i = .suspicionTimeout slot m) →
    let v := s.dev.view slot
    let new := ms.filter fun m => v.members.contains m && m != v.self && !v.suspects.contains m
    (¬hasView v ∨ new = [] → exec i s = .next s) ∧
    (hasView v → new ≠ [] → ∀ c, (v.members.filter fun m => !(v.suspects ++ new).contains m).min? = some c →
      (c ≠ v.self → ∃ d, exec i s = .next { s with dev := d } ∧
        ViewSends s.dev d slot { v with suspects := v.suspects ++ new } [.suspicion slot c (v.suspects ++ new)]) ∧
      (c = v.self → v.proposal = none → v.joiners = [] →
        let keep := v.members.filter fun m => !(v.suspects ++ new).contains m
        (2 * keep.length ≤ v.members.length → ∃ d v', exec i s = .next { s with dev := d } ∧ v'.state = .lost ∧ v'.t = v.t ∧
          ViewSends s.dev d slot v' ((keep.filter (· != v.self)).map fun m => .lost slot m)) ∧
        (v.members.length < 2 * keep.length → ∃ d v', exec i s = .next { s with dev := d } ∧ v'.state = .agree ∧ v'.t = v.t ∧
          v'.proposal = some (sortIds keep) ∧ v'.proposalTag = BitVec.ofNat 32 (v.maxTag + 1) ∧ v'.acks.map (·.member) = [v.self] ∧
          ViewSends s.dev d slot v'
            (((sortIds keep).filter (· != v.self)).map fun m => .proposal slot m (BitVec.ofNat 32 (v.maxTag + 1)) (sortIds keep)))))) ∧
  (∀ s msg u, (s.dev.fabric.unacked.find? (·.id == msg)) = some u →
    (u.attempts < 8 → ∃ d, exec (.retransmitTimeout msg) s = .next { s with dev := d } ∧
      d.fabric.outbox = s.dev.fabric.outbox ++ [u.msg] ∧ (d.fabric.unacked.find? (·.id == msg)) = some { u with attempts := u.attempts + 1 } ∧
      ({ d with fabric := { d.fabric with outbox := s.dev.fabric.outbox, unacked := s.dev.fabric.unacked } } : Dev) = s.dev) ∧
    (8 ≤ u.attempts → ∃ d : Dev, exec (.retransmitTimeout msg) s = .next { s with dev := d.suspect u.slot [u.member] } ∧
      d.fabric.unacked = s.dev.fabric.unacked.filter (·.id != msg) ∧
      ({ d with fabric := { d.fabric with unacked := s.dev.fabric.unacked } } : Dev) = s.dev)) ∧
  (∀ s slot src tag members, let v := s.dev.view slot
    let i : Instr := .viewProposalReceive slot src tag members
    (tag.toNat ≤ v.t.toNat → exec i s = .next s) ∧
    (hasView v → v.t.toNat < tag.toNat → ∃ d v', exec i s = .next { s with dev := d } ∧ v'.state = .agree ∧ v'.t = v.t ∧
      (tag.toNat ≤ v.acked → v'.acked = v.acked ∧ ViewSends s.dev d slot v' []) ∧
      (v.acked < tag.toNat → v'.acked = tag.toNat ∧ ViewSends s.dev d slot v' [.ack slot src tag v.doneTop]))) ∧
  (∀ s slot src seq set, let v := s.dev.view slot
    let i : Instr := .viewAckReceive slot src v.proposalTag seq
    let acks := { member := src, seq := seq } :: v.acks.filter fun a => a.member != src
    v.proposal = some set → src ∈ set →
    ((∃ m ∈ set, ∀ a ∈ acks, a.member ≠ m) → ∃ d, exec i s = .next { s with dev := d } ∧ ViewSends s.dev d slot { v with acks := acks } []) ∧
    ((∀ m ∈ set, ∃ a ∈ acks, a.member = m) → ∃ d top,
      exec i s = .next { s with dev := d.installView s.regs slot v.proposalTag set top } ∧
      ViewSends s.dev d slot { v with acks := acks }
        (((set ++ v.members.filter fun m => !set.contains m).filter (· != v.self)).map fun m => .commit slot m v.proposalTag set top) ∧
      (∀ t, top = some t ↔ (∃ a ∈ acks, a.seq = some t) ∧ ∀ a ∈ acks, ∀ u, a.seq = some u → u ≤ t))) ∧
  (∀ s slot tag members top, let v := s.dev.view slot
    let i : Instr := .viewCommitReceive slot tag members top
    hasView v → v.t.toNat < tag.toNat →
    (v.self ∉ members → ∃ d, exec i s = .next { s with dev := d } ∧
      ViewSends s.dev d slot { v with state := .excluded, proposal := none, acks := [] } []) ∧
    (v.self ∈ members → (∀ k ∈ s.dev.fabric.colls, k.slot ≠ slot) → ∃ d v', exec i s = .next { s with dev := d.tryPropose slot } ∧
      ViewSends s.dev d slot v' [] ∧ v'.state = .live ∧ v'.t = tag ∧ v'.ta = v.ta ∧ v'.members = sortIds members ∧ v'.proposal = none)) ∧
  (∀ s slot set, let v := s.dev.view slot
    v.proposal = some set → ∃ d v', exec (.viewProposalTimeout slot) s = .next { s with dev := d.propose slot } ∧ ViewSends s.dev d slot v' [] ∧
      v'.proposal = none ∧ v'.acks = [] ∧
      (∀ m, m ∈ v'.joiners ↔ m ∈ v.joiners ∧ ¬(m ∈ set ∧ ∀ a ∈ v.acks, a.member ≠ m)) ∧
      ∀ m, m ∈ v'.suspects ↔ m ∈ v.suspects ∨ m ∈ set ∧ m ∈ v.members ∧ ∀ a ∈ v.acks, a.member ≠ m) ∧
  (∀ s slot, let v := s.dev.view slot
    (hasView v → ∃ d, exec (.viewLostReceive slot) s = .next { s with dev := d } ∧
      ViewSends s.dev d slot { v with state := .lost, proposal := none, acks := [] } []) ∧
    (¬hasView v → exec (.viewLostReceive slot) s = .next s)) ∧
  (∀ s slot m c, let v := s.dev.view slot
    hasView v → m ∉ v.members → m ∉ v.joiners → v.coordinator = some c →
    (c ≠ v.self → ∃ d, exec (.joinRequestReceive slot m) s = .next { s with dev := d } ∧ ViewSends s.dev d slot v [.join slot c m]) ∧
    (c = v.self → ∃ d, exec (.joinRequestReceive slot m) s = .next { s with dev := d.tryPropose slot } ∧
      ViewSends s.dev d slot { v with joiners := v.joiners ++ [m] } [])) ∧
  (∀ s slot, let v := s.dev.view slot
    (v.state = .joining → ∃ d, exec (.joinRetry slot) s = .next { s with dev := d } ∧ ViewSends s.dev d slot v [.join slot v.contact v.self]) ∧
    (v.state ≠ .joining → exec (.joinRetry slot) s = .next s))

/-! ### The supervisor -/

/-- R112, R267, R275, R422, R423: LXRD and LXWR on the weft of $tgtw or a handler's own. -/
def Obligations.RegisterAccessWords : Prop :=
  (∀ s h d a reg c, let i : Instr := .lxrd h d a reg
    let code := reg.toNat
    let lane (u : Nat × Nat) : Nat := c.rd u.1 u.2 .i32 a % 64
    Issues s i c →
    (lxTarget s c = none → ∃ w', Writes c.w w' (units c d) d false .zx32 (fun _ => 0) ∧
      exec i s = .next (settleWord i s c (.done (s.dev.putW c.run.ref w') (cyclesFor c d 16) [] []))) ∧
    (∀ r w, lxTarget s c = some (r, w) →
      (lxCode w code → (∀ u ∈ units c d, lane u < w.hdr.w) → (code < 640 → w.pendingReg (code, 1) = false) → ∃ w',
        Writes c.w w' (units c d) d false .zx32 (fun u => lxReg w code (lane u)) ∧
        exec i s = .next (settleWord i s c (.done (s.dev.putW c.run.ref w') (cyclesFor c d 16) [] []))) ∧
      (lxCode w code → (∀ u ∈ units c d, lane u < w.hdr.w) → units c d ≠ [] → code < 640 → w.pendingReg (code, 1) = true →
        exec i s = .next (settleWord i s c (.wait 2))) ∧
      (¬lxCode w code → exec i s = .next (settleWord i s c (.done (s.dev.putW c.run.ref c.w) (cyclesFor c d 16)
        (trapsAt (if d.makesUniform then c.onHalves.flatMap fun hf => lanesOf (c.actOf hf) else c.on) 0x01 2 0 .here) []))))) ∧
  (∀ s h a b reg c, let i : Instr := .lxwr h a b reg
    let code := reg.toNat
    let lane (l : Nat) : Nat := c.get l .i32 a % 64
    Issues s i c →
    (lxTarget s c = none → exec i s = .next (settleWord i s c (.done s.dev (perCycle c.on.length 16) [] []))) ∧
    (∀ r w, lxTarget s c = some (r, w) → lxCode w code →
      ((∀ l ∈ c.on, lane l < w.hdr.w) → c.on ≠ [] → code < 640 → w.pendingReg (code, 1) = true →
        exec i s = .next (settleWord i s c (.wait 2))) ∧
      ((∀ l ∈ c.on, lane l < w.hdr.w) → (code < 640 → w.pendingReg (code, 1) = false) → ∃ d w',
        exec i s = .next (settleWord i s c (.done d (perCycle c.on.length 16) [] [])) ∧ OnlyWeft s.dev d r w' ∧
        (∀ l ∈ c.on, (∀ k ∈ c.on, lane k = lane l → k ≤ l) → lxOpen s c r w (lane l) →
          lxReg w' code (lane l) = if code < 640 then c.get l .i32 b % 2 ^ 32 else c.get l .i32 b % 2) ∧
        (∀ k, (∀ l ∈ c.on, lxOpen s c r w (lane l) → code < 640 → k ≠ vecKey (lane l, code)) →
          Cells.get w'.vregs k = Cells.get w.vregs k) ∧
        (∀ l k, (∀ m ∈ c.on, lxOpen s c r w (lane m) → 640 ≤ code → ¬(lane m = l ∧ code = 896 + k)) → w'.p l k = w.p l k) ∧
        (∀ k ∈ w'.badWords, k ∈ w.badWords) ∧
        ({ w' with vregs := w.vregs, preds := w.preds, badWords := w.badWords } : Weft) = w)))

/-- R268, R275, R277, R463, R464: TRET, PARK, RESUME and SIGNAL act on the weft of $tgtw, and on none when it names none. -/
def Obligations.TargetWords : Prop :=
  (∀ s i c, ((∃ h, i = .tret h) ∨ (∃ h a, i = .park h a) ∨ (∃ h a, i = .resume h a) ∨ ∃ h a b, i = .signal h a b) → Issues s i c →
    c.onHalves = [] ∨ target s c = none → exec i s = .next (settleWord i s c (.done s.dev 1 [] []))) ∧
  (∀ s h c r w, Issues s (.tret h) c → c.onHalves ≠ [] → target s c = some (r, w) →
    (w.handler = none → exec (.tret h) s = .next (settleWord (.tret h) s c (.done s.dev 1 [] []))) ∧
    (∀ hd, w.handler = some hd → w.divert = [] → ∃ (d : Dev) (w' : Weft),
      exec (.tret h) s = .next (settleWord (.tret h) s c (.done (d.evalWaits r) 1 [] [])) ∧ d.weft? r = some w' ∧
      (∀ q, refKey q ≠ refKey r → d.weft? q = s.dev.weft? q) ∧
      ({ d with wefts := s.dev.wefts, shuttles := s.dev.shuttles } : Dev) = s.dev ∧ w'.handler = none ∧
      (∀ b ∈ hd.restarts, b.lane < 64 → StandsAt w' b.lane b.depth b.pc b.resume .run) ∧ w'.vregs = w.vregs ∧ w'.sregs = w.sregs ∧
      w'.preds = w.preds ∧ w'.qs = w.qs)) ∧
  (∀ s h a c r w, Issues s (.park h a) c → c.onHalves ≠ [] → target s c = some (r, w) → w.handler = none → w.divert = [] →
    let m : Lanes := BitVec.ofNat 64 (c.uget 0 .i64 a) &&& w.full &&& (w.alive ||| s.dev.pickLanes r) &&& ~~~ w.parked
    (m = 0 → exec (.park h a) s = .next (settleWord (.park h a) s c (.done s.dev 1 [] []))) ∧
    (m ≠ 0 → ∃ d w', exec (.park h a) s = .next (settleWord (.park h a) s c (.done d 1 [] [])) ∧ OnlyWeft s.dev d r w' ∧
      w'.nextPark = w.nextPark + 1 ∧ (∃ p ∈ w'.parks, p.num = w.nextPark ∧ p.posted = false ∧ p.lanes = m) ∧
      (∀ e ∈ w.entries, (e.state = .run ∨ e.state = .yld) → e.resume = 0 → ∀ l, l < 64 → e.mask.getLsbD l = true → m.getLsbD l = true →
        StandsAt w' l e.depth e.pc 0 .park) ∧
      (∀ e ∈ w.entries, (e.resume ≠ 0 ∧ e.state = .run) ∨ (e.state ≠ .run ∧ e.state ≠ .yld) → ∀ l, e.mask.getLsbD l = true →
        (∀ x ∈ w.entries, x.mask.getLsbD l = true → x = e) → StandsAt w' l e.depth e.pc e.resume e.state) ∧
      w'.vregs = w.vregs ∧ w'.preds = w.preds)) ∧
  (∀ s h a c r w, Issues s (.resume h a) c → c.onHalves ≠ [] → target s c = some (r, w) →
    let m : Lanes := BitVec.ofNat 64 (c.uget 0 .i64 a) &&& w.full
    ∃ d0 : Dev, d0 = (s.dev.resumeEngines c.regs r w).publishCalls r w m ∧
      exec (.resume h a) s = .next (settleWord (.resume h a) s c (.done ((d0.modW r fun w => w.resumeLanes m).dropCalls) 1 [] []))) ∧
  (∀ (w : Weft) (m : Lanes), w.divert = [] → w.handler = none →
    (∀ e ∈ w.entries, e.state = .park → ∀ l, l < 64 → e.mask.getLsbD l = true → m.getLsbD l = true →
      StandsAt (w.resumeLanes m) l e.depth e.pc e.resume .run) ∧
    (∀ e ∈ (w.resumeLanes m).entries, e.state = .park → ∀ l, m.getLsbD l = true → e.mask.getLsbD l = false) ∧
    (w.resumeLanes m).vregs = w.vregs ∧ (w.resumeLanes m).sregs = w.sregs ∧ (w.resumeLanes m).preds = w.preds) ∧
  (∀ s h a b c r w, Issues s (.signal h a b) c → c.onHalves ≠ [] → target s c = some (r, w) → ∃ d w',
    exec (.signal h a b) s = .next (settleWord (.signal h a b) s c (.done d 1 [] [])) ∧ OnlyWeft s.dev d r w' ∧
    (∀ l, l < 64 → Tab.find? w'.signals l =
      if (BitVec.ofNat 64 (c.uget 0 .i64 b)).getLsbD l ∧ w.full.getLsbD l ∧ (w.alive ||| s.dev.pickLanes r).getLsbD l ∧
        Tab.find? w.signals l ≠ some 0 then some (BitVec.ofNat 8 (c.uget 0 .i32 a)) else Tab.find? w.signals l) ∧
    ({ w' with signals := w.signals } : Weft) = w)

/-- R290, R291, R293, R294, R298: TLBINV in its three scopes, TLBSYNC, and the completion of walks and invalidations. -/
def Obligations.TranslationSteps : Prop :=
  (∀ s i scope a b c, ((scope = .page ∧ ∃ h, i = .tlbinvPage h a b) ∨ (scope = .asid ∧ ∃ h, i = .tlbinvAsid h a b) ∨
      (scope = .all ∧ ∃ h, i = .tlbinvAll h a b)) → Issues s i c →
    let va : BitVec 57 := BitVec.ofNat 57 (c.uget 0 .i64 a)
    let asid : BitVec 16 := BitVec.ofNat 16 (c.uget 0 .i32 b)
    (c.onHalves = [] → exec i s = .next (settleWord i s c (.done s.dev 1 [] []))) ∧
    (c.onHalves ≠ [] → s.dev.weftBusy c.run.ref = true → exec i s = .next (settleWord i s c (.wait 2))) ∧
    (c.onHalves ≠ [] → s.dev.weftBusy c.run.ref = false → ∃ (d : Dev) (v : Inv),
      exec i s = .next (settleWord i s c (.done d 1 [] [])) ∧
      d = ((s.dev.release c.core .dev).modW c.run.ref Weft.bumpClk).startInv (some c.run.ref) scope va.toNat asid.toNat none ∧
      d.mem.invs = s.dev.mem.invs ++ [v] ∧ v.ref = some c.run.ref ∧
      v.scope = scope ∧ v.va = va ∧ v.asid = asid ∧ v.reply = none ∧ InvLeaves s.dev d scope va asid)) ∧
  (∀ s h c, Issues s (.tlbsync h) c →
    (c.onHalves = [] ∨ (∀ v ∈ s.dev.mem.invs, v.ref ≠ some c.run.ref) →
      exec (.tlbsync h) s = .next (settleWord (.tlbsync h) s c (.done s.dev 1 [] []))) ∧
    (c.onHalves ≠ [] → (∃ v ∈ s.dev.mem.invs, v.ref = some c.run.ref) →
      exec (.tlbsync h) s = .next (settleWord (.tlbsync h) s c (.wait 15)))) ∧
  (∀ s id v, (s.dev.mem.invs.find? (·.id == id)) = some v →
    (s.dev.invWaits v = true → exec (.tlbinvComplete id) s = .next s) ∧
    (s.dev.invWaits v = false → v.reply = none → ∃ d, exec (.tlbinvComplete id) s = .next { s with dev := d } ∧
      d.mem.invs = s.dev.mem.invs.filter (·.id != id) ∧ ((∀ b ∈ s.dev.bolts, b.held = []) → InvLeaves s.dev d v.scope v.va v.asid) ∧ d.wefts = s.dev.wefts)) ∧
  (∀ s ref va cached w k, s.dev.weft? ref = some w → (w.walks.find? fun k => !k.done && k.va == va) = some k →
    let kind : AKind := if k.write then .wr else .rd
    let closed (cause : Nat) : Weft := { w with walks := w.walks.map fun x => if x = k then { x with done := true, cause := BitVec.ofNat 16 cause } else x }
    (∀ x vpn pages leafAt d1, s.dev.walkFill s.regs ref.core w.space va.toNat kind cached = (.ok x vpn pages leafAt, d1) → ∃ d : Dev,
      exec (.tableWalkComplete ref va cached) s = .next { s with dev := d.ownAll s.regs } ∧ d.weft? ref = some (closed 0) ∧
      (∃ e ∈ d.tlbOf ref.core, e.covers w.asid va.toNat = true ∧ e.x = x) ∧
      (d.homeRd (pkey 0 leafAt) 8).testBit 7 = true ∧ (k.write = true → (d.homeRd (pkey 0 leafAt) 8).testBit 8 = true) ∧
      ({ d with wefts := d1.wefts } : Dev) = d1) ∧
    (∀ cause d1, s.dev.walkFill s.regs ref.core w.space va.toNat kind cached = (.fault cause, d1) → ∃ d,
      exec (.tableWalkComplete ref va cached) s = .next { s with dev := d } ∧ d.weft? ref = some (closed cause) ∧ d.mem = s.dev.mem) ∧
    (∀ d1, s.dev.walkFill s.regs ref.core w.space va.toNat kind cached = (.hold, d1) → exec (.tableWalkComplete ref va cached) s = .next s))

/-! ### The host interface -/

/-- R302, R303, R313, R317, R356: a function's commands wait for its driver, for a firmware switch and for its TLBINV; commands of PF0 alone
are denied to others; the debug commands need the context's own function and an unlocked session. -/
def Obligations.CommandsInTurn : Prop :=
  (∀ s fn queue rec n, let i : Instr := .launchChain fn queue rec n
    (¬FnOn s fn → exec i s = .next s) ∧
    (FnOn s fn → s.sec.switching = true →
      exec i s = .next { s with dev := { s.dev with host := { s.dev.host with held := s.dev.host.held ++ [i] } } })) ∧
  (∀ s i fn tag, ctrlOf i = some (fn, tag) →
    (¬FnOn s fn → exec i s = .next s) ∧
    (FnOn s fn → s.sec.switching = true ∨ (∃ v ∈ s.dev.mem.invs, ∃ t, v.reply = some (fn, t)) →
      exec i s = .next { s with dev := { s.dev with host := { s.dev.host with held := s.dev.host.held ++ [i] } } }) ∧
    (Serves s fn → pf0Only i = true → fn ≠ 0 → exec i s = .next (answered s fn tag 2 []))) ∧
  (∀ s i fn tag ctx needs, sessionOf i = some (fn, tag, ctx, needs) →
    (¬FnOn s fn → exec i s = .next s) ∧
    (FnOn s fn → s.sec.switching = true →
      exec i s = .next { s with dev := { s.dev with host := { s.dev.host with held := s.dev.host.held ++ [i] } } }) ∧
    (FnOn s fn → s.sec.switching = false →
      (65536 ≤ ctx → exec i s = .next (answered s fn tag 1 [])) ∧
      (ctx < 65536 → fnOfCtx s ctx ≠ fn → exec i s = .next (answered s fn tag 2 [])) ∧
      (ctx < 65536 → fnOfCtx s ctx = fn → needs = true → (∀ g, Tab.find? s.dev.debug ctx = some g → g.unlocked = false) →
        exec i s = .next (answered s fn tag 2 [])))) ∧
  (∀ s fn a b c, fn ≤ 16 → let ok := a && b && c
    exec (.driverFeatureNegotiation fn a b c) s = .next (saying
      { s with dev := { s.dev with host := { s.dev.host with features := Tab.put s.dev.host.features fn ok } } }
      [if ok then .accepted fn else .declined fn]))

/-- R169, R204, R259, R304: writes of the L2 carve, race window and power setpoint registers, with the STATUS that each leaves; REGRD. -/
def Obligations.ControlRegisterWrites : Prop :=
  (∀ s tag value, Serves s 0 → NoTdiRuns s → let i : Instr := .regwrL2Carve 0 tag value
    let v : BitVec 32 := value.truncate 32 &&& 0x00FF01FF
    let busy : Prop := s.dev.bolts ≠ [] ∨ ∃ l ∈ s.dev.disp.launches, l.accepted = true
    (s.regs.carveNew ≠ none → exec i s = .next (answered s 0 tag 3 [])) ∧
    (s.regs.carveNew = none → ∃ r : Regs, exec i s = .next (answered { s with regs := r } 0 tag 0 []) ∧
      r.carve.toNat % 2 ^ 30 = s.regs.carve.toNat % 2 ^ 30 ∧ ({ r with carve := s.regs.carve, carveNew := none } : Regs) = s.regs ∧
      (carveFits v = false → r.carve.toNat / 2 ^ 30 = 1 ∧ r.carveNew = none) ∧
      (carveFits v = true → busy → r.carve.toNat / 2 ^ 30 = 2 ∧ r.carveNew = none) ∧
      (carveFits v = true → ¬busy → r.carve.toNat / 2 ^ 30 = 3 ∧ r.carveNew = some v))) ∧
  (∀ s, s.regs.carveNew = none → exec .l2CarveApplied s = .next s) ∧
  (∀ s v, s.regs.carveNew = some v → ∃ d : Dev,
    exec .l2CarveApplied s = .next { s with regs := { s.regs with carve := v, carveNew := none }, dev := d } ∧
    let keep := min (s.regs.carve.toNat % 512) (v.toNat % 512) * 2 ^ 20
    (∀ k, k < pkey 3 keep ∨ pkey 4 0 ≤ k → Cells.get d.mem.cells k = Cells.get s.dev.mem.cells k) ∧
    (∀ k, pkey 3 keep ≤ k → k < pkey 4 0 → Cells.get d.mem.cells k = 0) ∧ ({ d with mem := s.dev.mem } : Dev) = s.dev) ∧
  (∀ s tag value, Serves s 0 → NoTdiRuns s → let i : Instr := .regwrRaceWindow 0 tag value
    let v := value &&& 0x00001FFF03FF03FF
    let busy : Prop := ∃ l ∈ s.dev.disp.launches, l.accepted = true ∧ l.hdr.race ≠ 0
    (s.regs.racewinNew ≠ none → exec i s = .next (answered s 0 tag 3 [])) ∧
    (s.regs.racewinNew = none → ∃ r : Regs, exec i s = .next (answered { s with regs := r } 0 tag 0 []) ∧
      body64 r.racewin = body64 s.regs.racewin ∧ ({ r with racewin := s.regs.racewin, racewinNew := none } : Regs) = s.regs ∧
      (¬windowFits v → stat64 r.racewin = 1 ∧ r.racewinNew = none) ∧
      (windowFits v → busy → stat64 r.racewin = 2 ∧ r.racewinNew = none) ∧
      (windowFits v → ¬busy → stat64 r.racewin = 3 ∧ r.racewinNew = some v))) ∧
  (∀ s, s.regs.racewinNew = none → exec .raceWindowApplied s = .next s) ∧
  (∀ s v, s.regs.racewinNew = some v → ∃ d : Dev,
    exec .raceWindowApplied s = .next { s with regs := { s.regs with racewin := v, racewinNew := none }, dev := d } ∧
    d.mem.cells = s.dev.mem.cells ∧ ({ d with mem := s.dev.mem } : Dev) = s.dev) ∧
  (∀ s tag value, Serves s 0 → ∃ p : DWord,
    exec (.regwrPowerSetpoint 0 tag value) s = .next (answered { s with regs := { s.regs with power := p } } 0 tag 0 []) ∧
    p.toNat % 2 ^ 24 = value.toNat % 2 ^ 24 ∧ p.getLsbD 31 = value.getLsbD 31 ∧
    p.toNat / 2 ^ 32 % 2 ^ 16 = s.regs.power.toNat / 2 ^ 32 % 2 ^ 16 ∧
    (let g := value.toNat / 2 ^ 24 % 32
     (g = 0 → p.toNat / 2 ^ 24 % 32 = s.regs.power.toNat / 2 ^ 24 % 32) ∧
     (1 ≤ g → p.toNat / 2 ^ 24 % 32 = min g 23))) ∧
  (∀ s tag id, Serves s 0 →
    let reads (v : DWord) : Prop := exec (.regrd 0 tag id) s = .next (answered s 0 tag 0 [v])
    (id = 1 → reads (s.regs.carve.zeroExtend 64)) ∧ (id = 2 → reads s.regs.racewin) ∧ (id = 3 → reads s.regs.power) ∧
    (id = 4 → reads s.regs.sventry) ∧ (id = 5 → reads s.regs.svbase) ∧ (id = 6 → reads s.regs.ctxtab) ∧
    (id = 0 ∨ 7 ≤ id.toNat → exec (.regrd 0 tag id) s = .next (answered s 0 tag 1 [])))

/-- R271, R304 (with R272, R313): writes of SVENTRY, SVBASE and CTXTAB, and when they take effect; a TDI in RUN keeps PF0 from the registers
that its resources depend on (which these are is the model's reading, notes/assumptions/41.md). -/
def Obligations.SupervisorRegisters : Prop :=
  (∀ s tag value i, (i = .regwrL2Carve 0 tag value ∨ i = .regwrRaceWindow 0 tag value ∨ i = .regwrSventry 0 tag value ∨
      i = .regwrSvbase 0 tag value ∨ i = .regwrCtxtab 0 tag value) →
    Serves s 0 → ¬NoTdiRuns s → exec i s = .next (answered s 0 tag 2 [])) ∧
  (∀ s tag value, Serves s 0 → NoTdiRuns s → let i : Instr := .regwrSventry 0 tag value
    let busy : Prop := s.dev.bolts ≠ [] ∧ ∀ p ∈ s.dev.cores, p.2.frozen = false
    (s.regs.sventryNew ≠ none → exec i s = .next (answered s 0 tag 3 [])) ∧
    (s.regs.sventryNew = none → ∃ r : Regs, exec i s = .next (answered { s with regs := r } 0 tag 0 []) ∧
      body64 r.sventry = body64 s.regs.sventry ∧ ({ r with sventry := s.regs.sventry, sventryNew := none } : Regs) = s.regs ∧
      (busy → stat64 r.sventry = 2 ∧ r.sventryNew = none) ∧ (¬busy → stat64 r.sventry = 3 ∧ r.sventryNew = some (value &&& 0x01FFFFFFFFFFFFFF)))) ∧
  (∀ s tag value, Serves s 0 → NoTdiRuns s → let i : Instr := .regwrSvbase 0 tag value
    (s.regs.svbaseNew ≠ none → exec i s = .next (answered s 0 tag 3 [])) ∧
    (s.regs.svbaseNew = none → ∃ r : Regs, exec i s = .next (answered { s with regs := r } 0 tag 0 []) ∧
      body64 r.svbase = body64 s.regs.svbase ∧ ({ r with svbase := s.regs.svbase, svbaseNew := none } : Regs) = s.regs ∧
      (s.dev.bolts ≠ [] → stat64 r.svbase = 2 ∧ r.svbaseNew = none) ∧
      (s.dev.bolts = [] → stat64 r.svbase = 3 ∧ r.svbaseNew = some (value &&& 0x01FFFFFFFFFFE000)))) ∧
  (∀ s tag value, Serves s 0 → NoTdiRuns s → let i : Instr := .regwrCtxtab 0 tag value
    (s.regs.ctxtabNew ≠ none → exec i s = .next (answered s 0 tag 3 [])) ∧
    (s.regs.ctxtabNew = none → ∃ r : Regs, exec i s = .next (answered { s with regs := r } 0 tag 0 []) ∧
      body64 r.ctxtab = body64 s.regs.ctxtab ∧ ({ r with ctxtab := s.regs.ctxtab, ctxtabNew := none } : Regs) = s.regs ∧
      (s.dev.bolts ≠ [] → stat64 r.ctxtab = 2 ∧ r.ctxtabNew = none) ∧
      (s.dev.bolts = [] → stat64 r.ctxtab = 3 ∧ r.ctxtabNew = some (value &&& 0x01FFFFFFFFFFFFC0)))) ∧
  (∀ s, let old := s.regs
    let none_ : Prop := ∀ p ∈ s.dev.cores, p.2.frozen = false
    ∃ (d : Dev) (r : Regs), exec .supervisorRegisterApplied s = .next { s with regs := r, dev := d } ∧
      (s.dev.bolts = [] → r.svbase = old.svbaseNew.getD old.svbase ∧ r.svbaseNew = none ∧
        r.ctxtab = old.ctxtabNew.getD old.ctxtab ∧ r.ctxtabNew = none) ∧
      (s.dev.bolts ≠ [] → r.svbase = old.svbase ∧ r.svbaseNew = old.svbaseNew ∧ r.ctxtab = old.ctxtab ∧ r.ctxtabNew = old.ctxtabNew) ∧
      (s.dev.bolts = [] ∨ ¬none_ → r.sventry = old.sventryNew.getD old.sventry ∧ r.sventryNew = none) ∧
      (s.dev.bolts ≠ [] → none_ → r.sventry = old.sventry ∧ r.sventryNew = old.sventryNew) ∧
      ({ r with sventry := old.sventry, sventryNew := old.sventryNew, svbase := old.svbase, svbaseNew := old.svbaseNew,
                ctxtab := old.ctxtab, ctxtabNew := old.ctxtabNew } : Regs) = old ∧
      (old.sventryNew = none ∨ none_ → d = s.dev))

/-- R245, R303, R307 to R310, R313, R314: QCONF, CTRASSIGN, CTRSET, KEYLOAD and the host's writes to a counter slot. -/
def Obligations.QueuesCountersAndKeys : Prop :=
  (∀ s fn tag queue ctx level dev gate, Serves s fn → let i : Instr := .qconf fn tag queue ctx level dev gate
    let old := (Tab.find? s.dev.disp.queues queue).getD Queue.reset
    let runs (f : Nat) : Prop := Tab.find? s.dev.host.tdi f = some .run
    let mine : Prop := fn = 0 ∧ ¬runs old.fn ∧ ¬runs (fnOfCtx s ctx) ∨ fn ≠ 0 ∧ old.fn = fn ∧ fnOfCtx s ctx = fn
    let good : Prop := 1 ≤ queue ∧ queue ≤ 1024 ∧ ctx < 65536 ∧ level ≤ 23 ∧ dev ≤ 1 ∧ gate ≤ 1
    (¬mine → exec i s = .next (answered s fn tag 2 [])) ∧ (mine → ¬good → exec i s = .next (answered s fn tag 1 [])) ∧
    (mine → good → ∃ d q, exec i s = .next (answered { s with dev := d } fn tag 0 []) ∧
      d = { s.dev with disp := { s.dev.disp with queues := Tab.put s.dev.disp.queues queue q } } ∧ q.owner.toNat = ctx ∧ q.level = level ∧
      q.fn = fnOfCtx s ctx ∧ (q.dev = true ↔ dev = 1) ∧ (q.gate = true ↔ gate = 1) ∧ (old.gate = false ∨ gate = 0 → q.credits = 0) ∧
      (old.gate = true → gate = 1 → q.credits = old.credits))) ∧
  (∀ s tag first n ctx f, Serves s 0 → NoTdiRuns s → let i : Instr := .ctrassign 0 tag first n ctx f
    let good : Prop := first % 64 = 0 ∧ first + 64 * n ≤ 4096 ∧ ctx < 65536 ∧ f ≤ 16
    (¬good → exec i s = .next (answered s 0 tag 1 [])) ∧
    (good → ∃ t : State, exec i s = .next (answered t 0 tag 0 []) ∧ fnOfCtx t ctx = f ∧ (∀ x, x ≠ ctx → fnOfCtx t x = fnOfCtx s x) ∧
      (∀ id, first ≤ id → id < first + 64 * n → t.dev.counter id = { s.dev.counter id with ctx := some (BitVec.ofNat 16 ctx), fn := f }) ∧
      (∀ id, id < first ∨ first + 64 * n ≤ id → t.dev.counter id = s.dev.counter id) ∧
      ({ t with sec := { t.sec with ctxFn := s.sec.ctxFn },
                dev := { t.dev with counters := s.dev.counters, disp := { t.dev.disp with queues := s.dev.disp.queues } } } : State) = s)) ∧
  (∀ s fn tag id value, Serves s fn → let i : Instr := .ctrset fn tag id value
    (fn ≠ 0 → (s.dev.counter id).fn ≠ fn → exec i s = .next (answered s fn tag 2 [])) ∧
    (fn = 0 → 4096 ≤ id → exec i s = .next (answered s fn tag 1 [])) ∧
    (fn = 0 ∨ (s.dev.counter id).fn = fn → id < 4096 → ¬CounterOn s.dev id → exec i s = .next (answered s fn tag 0 [])) ∧
    (fn = 0 ∨ (s.dev.counter id).fn = fn → id < 4096 → CounterOn s.dev id → ∃ d c, OnlyCounter s.dev d id c ∧ c.value = value ∧
      ({ c with value := (s.dev.counter id).value, flags := (s.dev.counter id).flags } : Counter) = s.dev.counter id ∧
      exec i s = .next (answered { s with dev := d.ctrAfter 4097 id } fn tag 0 []))) ∧
  (∀ s fn id value i, (i = .counterAddWrite fn id value ∨ i = .registerWrite fn (.slot id 8) 8 value) →
    (¬Shows s fn id → exec i s = .next s) ∧
    (Shows s fn id → ∃ d c, OnlyCounter s.dev d id c ∧ c.value = (s.dev.counter id).value + value ∧
      ({ c with value := (s.dev.counter id).value, flags := (s.dev.counter id).flags } : Counter) = s.dev.counter id ∧
      exec i s = .next { s with dev := d.ctrAfter 4097 id })) ∧
  (∀ s fn id value i, (i = .triggerControlWrite fn id value ∨ i = .registerWrite fn (.slot id 0x18) 8 value) →
    let old := s.dev.counter id
    (¬Shows s fn id → exec i s = .next s) ∧
    (Shows s fn id → ∃ d c, OnlyCounter s.dev d id c ∧ exec i s = .next { s with dev := d.ctrAfter 4097 id } ∧
      c.abs = value.getLsbD 61 ∧ c.action = value.extractLsb' 58 2 ∧ c.target = value.extractLsb' 44 12 ∧ c.addv = value.extractLsb' 32 12 ∧
      c.delta = value.extractLsb' 0 32 ∧ c.value = old.value ∧ c.ctx = old.ctx ∧ c.fn = old.fn ∧
      (value.getLsbD 63 = true → value.extractLsb' 58 2 ≠ 3 → c.arm = true ∧ c.fired = false ∧
        c.tthr = if value.getLsbD 61 then old.tthr else old.value + (value.extractLsb' 0 32).signExtend 64) ∧
      (value.getLsbD 63 = false ∨ value.extractLsb' 58 2 = 3 → c.arm = false ∧ c.fired = old.fired ∧ c.tthr = old.tthr))) ∧
  (∀ s fn id value, Shows s fn id → ∃ d, OnlyCounter s.dev d id { s.dev.counter id with tthr := value } ∧
    exec (.registerWrite fn (.slot id 0x10) 8 value) s = .next { s with dev := d }) ∧
  (∀ s fn id o n value, (o ≠ 8 ∧ o ≠ 0x10 ∧ o ≠ 0x18) ∨ n ≠ 8 ∨ ¬Shows s fn id → exec (.registerWrite fn (.slot id o) n value) s = .next s) ∧
  (∀ (s : State) fn id o n, let c := s.dev.counter id
    (¬Shows s fn id ∨ n ≠ 8 → o < 64 → s.hostRead fn (64 * id + o) n = 0) ∧
    (Shows s fn id → s.hostRead fn (64 * id) 8 = c.value ∧ s.hostRead fn (64 * id + 0x10) 8 = c.tthr ∧
      (∀ x, x = s.hostRead fn (64 * id + 0x18) 8 → x.getLsbD 63 = c.arm ∧ x.getLsbD 62 = c.fired) ∧
      (o < 64 → o ≠ 0 → o ≠ 0x10 → o ≠ 0x18 → s.hostRead fn (64 * id + o) 8 = 0))) ∧
  (∀ s fn tag ctx slot key, Serves s fn → let i : Instr := .keyload fn tag ctx slot key
    let mine : Prop := fn ≠ 0 ∧ Tab.find? s.dev.host.tdi fn = some .run ∧ fnOfCtx s ctx = fn
    (¬mine → exec i s = .next (answered s fn tag 2 [])) ∧
    (mine → 65536 ≤ ctx ∨ 16 ≤ slot → exec i s = .next (answered s fn tag 1 [])) ∧
    (mine → ctx < 65536 → slot < 16 → exec i s = .next (answered
      { s with dev := { s.dev with keys := Tab.put s.dev.keys (16 * ctx + slot) { key := key, last := 0 } } } fn tag 0 [])))

/-- R309, R310, R311: what an operation on a counter brings about: the end of waits, the firing of its trigger, and each action. -/
def Obligations.CounterTriggers : Prop :=
  (∀ (d : Dev) id n, let c := d.counter id
    let disarmed : Counter := { c with arm := false, fired := true }
    NoWaitEnds d id →
    (c.arm = false ∨ (c.value - c.tthr).msb = true → d.ctrAfter (n + 1) id = d) ∧
    (c.arm = true → (c.value - c.tthr).msb = false → ∃ d1, OnlyCounter d d1 id disarmed ∧
      (let v := (c.fn, c.target.toNat)
       let open_ : Prop := v ∈ d.host.msixOpen ∧ c.fn ∉ d.host.msixOff
       c.action = 0 → c.target.toNat < (if c.fn = 0 then 2048 else 128) →
        (open_ → d.ctrAfter (n + 1) id = { d1 with host := { d1.host with
          out := d1.host.out ++ [.msix c.fn c.target.toNat], msixPend := d1.host.msixPend.filter (· != v) } }) ∧
        (¬open_ → ∃ ps, d.ctrAfter (n + 1) id = { d1 with host := { d1.host with msixPend := ps } } ∧
          ∀ x, x ∈ ps ↔ x ∈ d.host.msixPend ∨ x = v)) ∧
      (c.action = 0 → (if c.fn = 0 then 2048 else 128) ≤ c.target.toNat → d.ctrAfter (n + 1) id = d1) ∧
      (∀ q, c.action = 1 → Tab.find? d.disp.queues c.target.toNat = some q → q.gate = true →
        (∀ t, Tab.find? d.host.tdi q.fn = some t → t = .run) → ∃ q', d.ctrAfter (n + 1) id =
        { d1 with disp := { d1.disp with queues := Tab.put d1.disp.queues c.target.toNat q' } } ∧
        q'.credits.toNat = min 65535 (q.credits.toNat + c.addv.toNat) ∧ ({ q' with credits := q.credits } : Queue) = q) ∧
      (c.action = 1 → (∀ q, Tab.find? d.disp.queues c.target.toNat = some q → q.gate = false ∨
        ∃ t, Tab.find? d.host.tdi q.fn = some t ∧ t ≠ .run) → d.ctrAfter (n + 1) id = d1) ∧
      (c.action = 2 → ¬CounterOn d c.target.toNat → d.ctrAfter (n + 1) id = d1) ∧
      (c.action = 2 → CounterOn d c.target.toNat → ∃ d2 k, OnlyCounter d1 d2 c.target.toNat k ∧ k.value = (d1.counter c.target.toNat).value + c.addv.zeroExtend 64 ∧
        d.ctrAfter (n + 1) id = d2.ctrAfter n c.target.toNat))) ∧
  (∀ (w : Weft) num, ∃ out : List Entry, (∀ e, e ∈ out ↔ ∃ x ∈ w.entries, (x.state = .ecw ∧ x.aux = BitVec.ofNat 32 num) ∧
      e = { x with state := .run, aux := 0 }) ∧
    w.endWait num = ({ w with entries := w.entries.filter fun e => !(e.state == .ecw && e.aux == BitVec.ofNat 32 num),
                              waits := w.waits.filter fun x => x.num != num } : Weft).addEntries out)

/-- R37, R249, R277, R285, R295, R305, R316, R317: KILL, SIGNAL, TLBINV, SYSREPLY, FWSTAGE and FWSWITCH from the host, the forwarding of a
call, the deadline of one, and the end of a firmware switch. -/
def Obligations.HostCommands : Prop :=
  (∀ s fn tag ctx, Serves s fn → let i : Instr := .ctrlKill fn tag ctx
    (fn ≠ 0 → fnOfCtx s ctx ≠ fn → exec i s = .next (answered s fn tag 2 [])) ∧
    (fn = 0 → 65536 ≤ ctx → exec i s = .next (answered s fn tag 1 [])) ∧
    (fn = 0 ∨ fnOfCtx s ctx = fn → ctx < 65536 →
      exec i s = .next (answered { s with dev := s.dev.killCtx s.regs (BitVec.ofNat 16 ctx) (Config.killCause 0) } fn tag 0 []))) ∧
  (∀ (d : Dev) (r : Regs) (ctx : BitVec 16) (cause : Nat), let k := d.killCtx r ctx cause
    (∀ x w, k.weft? x = some w → w.sup = true ∨ w.ctx ≠ ctx) ∧ (∀ l ∈ k.disp.launches, l.ctx = ctx → l.stage = .completing) ∧
    (∀ p ∈ k.keys, p.1 / 16 ≠ ctx.toNat) ∧ (∀ x ∈ k.fabric.colls, x.ctx ≠ ctx) ∧
    (∃ w ∈ k.host.waiting, w.getD 0 0 = 5 ∧ w.getD 2 0 = BitVec.ofNat 64 ctx.toNat ∧ w.getD 3 0 = BitVec.ofNat 64 cause)) ∧
  (∀ s fn tag ctx num, Serves s fn → let i : Instr := .ctrlSignal fn tag ctx num
    let none_ : Prop := ∀ p ∈ s.dev.wefts, p.2.sup = true ∨ p.2.ctx ≠ BitVec.ofNat 16 ctx
    (fn ≠ 0 → fnOfCtx s ctx ≠ fn → exec i s = .next (answered s fn tag 2 [])) ∧
    (fn = 0 → 65536 ≤ ctx → exec i s = .next (answered s fn tag 1 [])) ∧
    (fn = 0 ∨ fnOfCtx s ctx = fn → ctx < 65536 → none_ → exec i s = .next (answered s fn tag 0 [])) ∧
    (∀ p w, fn = 0 ∨ fnOfCtx s ctx = fn → ctx < 65536 → s.dev.wefts = [(p, w)] → w.sup = false → w.ctx = BitVec.ofNat 16 ctx → ∃ rep : Report,
      rep.cause = 0x1B ∧ rep.sub = num ∧ rep.aux = num ∧ rep.lanes = 0 ∧ rep.ctx = w.ctx ∧ rep.asid = w.asid ∧
      exec i s = .next (answered { s with dev := s.dev.post s.regs (refOfKey p).core rep.words } fn tag 0 []))) ∧
  (∀ s fn tag scope va asid, Serves s fn → let i : Instr := .ctrlTlbinv fn tag scope va asid
    (fn ≠ 0 → scope = .all → exec i s = .next (answered s fn tag 2 [])) ∧ (fn = 0 → 65536 ≤ asid → exec i s = .next (answered s fn tag 1 [])) ∧
    (fn = 0 → asid < 65536 → ∃ (d : Dev) (v : Inv), exec i s = .next { s with dev := d } ∧ d.mem.invs = s.dev.mem.invs ++ [v] ∧ v.ref = none ∧
      v.scope = scope ∧ v.va.toNat = va.toNat % 2 ^ 57 ∧ v.asid.toNat = asid ∧ v.reply = some (fn, tag) ∧
      InvLeaves s.dev d scope v.va v.asid)) ∧
  (∀ s core ref no w p, s.dev.weft? ref = some w → ref.core = core → w.sup = false → w.parks.find? (·.num == no) = some p →
    p.posted = true → p.token = none → p.cause = 0x1A → (∀ q ∈ w.parks, q.num = no → q = p) → w.lanesUnder no ≠ 0 →
    let t := s.dev.host.nextToken
    ∃ d w', exec (.syscallForward core ref no) s = .next { s with dev := d } ∧ d.weft? ref = some w' ∧
      w' = { w with parks := w.parks.map fun x => if x.num = no then { x with token := some t } else x } ∧
      d.host.nextToken = t + 1 ∧ d.host.calls = s.dev.host.calls ++ [{ token := t, core := core, ref := ref, park := no, lanes := w.lanesUnder no }] ∧
      d.host.out = s.dev.host.out ++ [.syscall
        [BitVec.ofNat 64 t, BitVec.ofNat 64 (w.ctx.toNat * 2 ^ 48 + p.aux.toNat % 2 ^ 32), w.lanesUnder no, 0]
        ((lanesOf (w.lanesUnder no)).flatMap fun l => [w.v l 0, w.v l 1, w.v l 2, w.v l 3, w.v l 4, w.v l 5])]) ∧
  (∀ s fn tag token results, Serves s fn → let i : Instr := .sysreply fn tag token results
    (s.dev.host.calls.find? (·.token == token.toNat) = none → exec i s = .next (answered s fn tag 1 [])) ∧
    (∀ k w p, s.dev.host.calls.find? (·.token == token.toNat) = some k → s.dev.weft? k.ref = some w → w.parks.find? (·.num == k.park) = some p →
      (fn ≠ 0 → fnOfCtx s w.ctx.toNat ≠ fn → exec i s = .next (answered s fn tag 2 [])) ∧
      (fn = 0 ∨ fnOfCtx s w.ctx.toNat = fn → results.length ≠ (lanesOf k.lanes).length → exec i s = .next (answered s fn tag 1 [])) ∧
      (fn = 0 ∨ fnOfCtx s w.ctx.toNat = fn → results.length = (lanesOf k.lanes).length → p.cause = 0x1A → ∃ (d : Dev) (w1 : Weft),
        d.weft? k.ref = some w1 ∧ d.host.calls = s.dev.host.calls.filter (·.token != k.token) ∧
        ({ d with wefts := s.dev.wefts, host := { d.host with calls := s.dev.host.calls } } : Dev) = s.dev ∧
        (∀ (j l : Nat), (lanesOf k.lanes)[j]? = some l → results[j]? = some (w1.v l 0)) ∧
        (∀ x, (∀ l ∈ lanesOf k.lanes, x ≠ vecKey (l, 0)) → Cells.get w1.vregs x = Cells.get w.vregs x) ∧
        exec i s = .next (answered { s with dev := d.resumeWeft s.regs k.ref w1 k.lanes } fn tag 0 [])))) ∧
  (∀ s tag addr n, Serves s 0 → let i : Instr := .fwstage 0 tag addr n
    let image := s.dev.homeBytes (pkey 1 addr.toNat) n
    (2 ^ 52 < addr.toNat + n → exec i s = .next (answered s 0 tag 4 [])) ∧
    (addr.toNat + n ≤ 2 ^ 52 → (∀ l ∈ s.dev.mem.poison, 64 * l + 64 ≤ pkey 1 addr.toNat ∨ pkey 1 addr.toNat + n ≤ 64 * l) →
      exec i s = .next (if Config.imageSigned image = true ∧ s.sec.rollback ≤ Config.imageVersion image then
        answered { s with sec := { s.sec with staged := some image } } 0 tag 0 [] else answered s 0 tag 4 []))) ∧
  (∀ s tag, Serves s 0 →
    (s.sec.staged = none → exec (.fwswitch 0 tag) s = .next (answered s 0 tag 4 [])) ∧
    (∀ im, s.sec.staged = some im → exec (.fwswitch 0 tag) s = .next (answered { s with sec := { s.sec with switching := true } } 0 tag 0 []))) ∧
  (∀ s core ref no w p, s.sec.switching = true → s.dev.weft? ref = some w → ref.core = core →
    w.parks.find? (·.num == no) = some p → (∀ q ∈ w.parks, q.num = no → q = p) → p.posted = true → p.token = none → p.cause = 0x1A →
    w.lanesUnder no ≠ 0 → ∃ (d : Dev) (w1 : Weft), OnlyWeft s.dev d ref w1 ∧ (∀ l ∈ lanesOf (w.lanesUnder no), w1.v l 0 = 0xFFFFFFF5) ∧
      (∀ x, (∀ l ∈ lanesOf (w.lanesUnder no), x ≠ vecKey (l, 0)) → Cells.get w1.vregs x = Cells.get w.vregs x) ∧
      exec (.fwCallDeadline core ref no) s = .next { s with dev := d.resumeWeft s.regs ref w1 (w.lanesUnder no) }) ∧
  (∀ s ok, (s.sec.switching = false → exec (.fwswitchComplete ok) s = .next s) ∧
    (s.sec.switching = true → s.dev.host.waiting.length < 256 → ∃ t : State, exec (.fwswitchComplete ok) s = .next t ∧
      t.agenda = s.dev.host.held.map Move.event ++ s.agenda ∧ t.dev.host.held = [] ∧ t.sec.switching = false ∧
      (∀ im, ok = true → s.sec.staged = some im → t.sec.version = Config.imageVersion im ∧
        t.sec.rollback = max s.sec.rollback (Config.imageVersion im) ∧
        t.dev.host.waiting = s.dev.host.waiting ++ [eventWords s.dev 2 s.sec.version (Config.imageVersion im)]) ∧
      (ok = false → t.sec.version = s.sec.version ∧ t.sec.rollback = s.sec.rollback ∧ t.sec.staged = s.sec.staged ∧
        t.dev.host.waiting = s.dev.host.waiting ++ [eventWords s.dev 2 s.sec.version s.sec.version]))) ∧
  (∀ s, let h := s.dev.host
    (h.dropped ≠ 0 → exec .eventPost s = .next { s with dev := { s.dev with host := { h with
      dropped := 0, out := h.out ++ [.event (eventWords s.dev 6 h.dropped 0)] } } }) ∧
    (h.dropped = 0 → h.waiting = [] → exec .eventPost s = .next s) ∧
    (∀ w ws, h.dropped = 0 → h.waiting = w :: ws →
      exec .eventPost s = .next { s with dev := { s.dev with host := { h with waiting := ws, out := h.out ++ [.event w] } } })) ∧
  (∀ s id,
    (id < 1024 → exec (.observationClear true id) s = .next { s with dev := s.dev.modCore id fun c => { c with fills := [] } }) ∧
    (1024 ≤ id → exec (.observationClear true id) s = .next s) ∧
    (id < 4096 → exec (.observationClear false id) s = .next { s with dev := s.dev.modSh id fun x => { x with bins := [], stalls := [] } }) ∧
    (4096 ≤ id → exec (.observationClear false id) s = .next s))

/-! ### Debug, security and resets -/

/-- R355 to R357, R359, R361, R362: the commands of the kernel debug queue, the copy of a captured page, and the unlocking of the firmware
debug domain. -/
def Obligations.DebugCommands : Prop :=
  (∀ s fn tag ctx value g, Session s fn ctx g →
    (g.token ≠ none ∨ g.launched = true → exec (.token fn tag ctx value) s = .next (answered s fn tag 2 [])) ∧
    (g.token = none → g.launched = false →
      exec (.token fn tag ctx value) s = .next (answered (withDebug s ctx { g with token := some value }) fn tag 0 []))) ∧
  (∀ s fn tag ctx value g, Session s fn ctx g →
    (Tab.find? s.dev.host.tdi fn = some .run ∨ g.token ≠ some value → exec (.unlock fn tag ctx value) s = .next (answered s fn tag 2 [])) ∧
    (Tab.find? s.dev.host.tdi fn ≠ some .run → g.token = some value →
      exec (.unlock fn tag ctx value) s = .next (answered (withDebug s ctx { g with unlocked := true }) fn tag 0 []))) ∧
  (∀ s fn tag ctx g, Session s fn ctx g →
    (g.unlocked = false → exec (.lock fn tag ctx) s = .next (answered s fn tag 0 [])) ∧
    (g.unlocked = true → ∃ d : Dev, exec (.lock fn tag ctx) s = .next (answered { s with dev := d } fn tag 0 []) ∧
      d.debug = Tab.put s.dev.debug ctx { g with unlocked := false, armed := false, due := [] } ∧
      (∀ k, (d.sh k).stopped = ((s.dev.sh k).stopped && !(s.dev.wefts.any fun p =>
        (refOfKey p.1).core * 4 + (refOfKey p.1).shuttle == k && !p.2.sup && p.2.ctx == BitVec.ofNat 16 ctx))) ∧
      ({ d with debug := s.dev.debug, shuttles := s.dev.shuttles, wefts := s.dev.wefts } : Dev) = s.dev)) ∧
  (∀ s fn tag ctx ring logn start stop g, Session s fn ctx g → g.unlocked = true → let i : Instr := .trace fn tag ctx ring logn start stop
    let good : Prop := 4 ≤ logn ∧ logn ≤ 20 ∧ ring.toNat % 64 = 0 ∧ ring.toNat < 2 ^ 57
    (¬good → exec i s = .next (answered s fn tag 1 [])) ∧
    (good → ∃ d : Dev, exec i s = .next (answered { s with dev := d } fn tag 0 []) ∧
      d.debug = Tab.put s.dev.debug ctx { g with armed := true, ring := ring, logn := logn, start := start, stop := stop } ∧
      (∀ k, d.sh k = { s.dev.sh k with capOn := (s.dev.sh k).capOn.filter (· != ctx), capOff := (s.dev.sh k).capOff.filter (· != ctx) }) ∧
      ({ d with debug := s.dev.debug, shuttles := s.dev.shuttles } : Dev) = s.dev)) ∧
  (∀ s fn tag ctx core sh i g, Session s fn ctx g → g.unlocked = true →
    (i = .debugStop fn tag ctx core sh ∨ i = .debugRun fn tag ctx core sh ∨ ∃ buf n, i = .debugDump fn tag ctx core sh buf n) →
    (1024 ≤ core ∨ 4 ≤ sh → exec i s = .next (answered s fn tag 1 [])) ∧
    (core < 1024 → sh < 4 → ¬HoldsOnly s (core * 4 + sh) ctx → exec i s = .next (answered s fn tag 2 []))) ∧
  (∀ s fn tag ctx core sh g, Session s fn ctx g → g.unlocked = true → core < 1024 → sh < 4 → HoldsOnly s (core * 4 + sh) ctx →
    (∃ d, exec (.debugStop fn tag ctx core sh) s = .next (answered { s with dev := d } fn tag 0 []) ∧ Stopped s.dev d (core * 4 + sh)) ∧
    ((s.dev.sh (core * 4 + sh)).stopped = false → ∀ buf n,
      exec (.debugRun fn tag ctx core sh) s = .next (answered s fn tag 3 []) ∧
      exec (.debugDump fn tag ctx core sh buf n) s = .next (answered s fn tag 3 [])) ∧
    ((s.dev.sh (core * 4 + sh)).stopped = true →
      (∃ d, exec (.debugRun fn tag ctx core sh) s = .next (answered { s with dev := d } fn tag 0 []) ∧ Released s.dev d (core * 4 + sh)) ∧
      (∀ buf n, n < 64 ∨ buf.toNat % 64 ≠ 0 ∨ 2 ^ 57 ≤ buf.toNat →
        exec (.debugDump fn tag ctx core sh buf n) s = .next (answered s fn tag 1 [])) ∧
      (∀ (buf : DWord) n p bad d, 64 ≤ n → buf.toNat % 64 = 0 → buf.toNat < 2 ^ 57 → (s.dev.residents (core * 4 + sh)).head? = some p →
        s.dev.dumpTo s.regs (core * 4 + sh) p.2.space buf.toNat n = (bad, d) →
        exec (.debugDump fn tag ctx core sh buf n) s = .next (answered { s with dev := d } fn tag (if bad then 4 else 0) [])))) ∧
  (∀ s fn tag ctx core sh g, Session s fn ctx g → g.unlocked = true →
    (1024 ≤ core ∨ 4 ≤ sh → exec (.obsrd fn tag ctx core sh) s = .next (answered s fn tag 1 [])) ∧
    (core < 1024 → sh < 4 → ∃ ws, exec (.obsrd fn tag ctx core sh) s = .next (answered s fn tag 0 ws) ∧ ws.length = 43 ∧
      let x := s.dev.sh (core * 4 + sh)
      (∀ k, k < 17 → ws.getD k 0 = (Cells.get x.bins k).zeroExtend 64) ∧ (∀ k, k < 16 → ws.getD (17 + k) 0 = (Cells.get x.stalls k).zeroExtend 64) ∧
      (∀ k, k < 8 → ws.getD (34 + k) 0 = (Cells.get (s.dev.core core).fills k).zeroExtend 64) ∧ ws.getD 33 0 = 0 ∧ ws.getD 42 0 = 0)) ∧
  (∀ s fn tag ctx area n g, Session s fn ctx g → g.unlocked = true → ∃ g', g'.area = area ∧ g'.areaLen = n ∧ g'.areaUsed = 0 ∧
    g'.capStopped = false ∧ g'.unlocked = true ∧ g'.token = g.token ∧ g'.launched = g.launched ∧ g'.armed = g.armed ∧ g'.pages = [] ∧
    exec (.capture fn tag ctx area n) s = .next (answered (withDebug s ctx g') fn tag 0 [])) ∧
  (∀ s ctx page, (∀ g, Tab.find? s.dev.debug ctx = some g → page ∉ g.due) → exec (.capturePageCopy ctx page) s = .next s) ∧
  (∀ s ctx page g, Tab.find? s.dev.debug ctx = some g → page ∈ g.due → s.dev.fabric.colls = [] →
    (g.areaLen < g.areaUsed + 4096 → ∃ ev, ev.getD 0 0 = 0x0004140000000000 ∧
      exec (.capturePageCopy ctx page) s = .next (saying (withDebug s ctx { g with capStopped := true, due := [] }) [.debugEvent ev])) ∧
    (∀ p d, g.areaUsed + 4096 ≤ g.areaLen → s.dev.place s.regs dispCore (s.dev.captureSpace ctx) (page * 4096) .rd = (.ok p, d) →
      d.fabric.colls = [] → ∃ g', g'.pages = g.pages ++ [page] ∧ g'.due = g.due.filter (· != page) ∧ g'.areaUsed = g.areaUsed + 4096 ∧
      g'.copies = g.copies ++ [(page, d.homeBytes p.pa 4096)] ∧ g'.capStopped = g.capStopped ∧
      exec (.capturePageCopy ctx page) s = .next { s with dev := { d with debug := Tab.put d.debug ctx g' } })) ∧
  (∀ s signed bound,
    (signed = true → bound = true → s.sec.spdm = .session →
      exec (.fwDebugUnlock signed bound) s = .next { s with sec := { s.sec with fwDebug := true } }) ∧
    (signed = false ∨ bound = false ∨ s.sec.spdm ≠ .session → exec (.fwDebugUnlock signed bound) s = .next s))

/-- R282, R283, R284: the command block of a supervisor area: what OP, ARG, BUF and LEN make of a write, and the STATUS that follows. The records of
a dump stand in their order, the last gives the total of bytes, and as many whole records as fit are written. -/
def Obligations.CommandBlock : Prop :=
  (∀ s core i, (i = .killCommand core ∨ i = .shuttleStop core ∨ i = .shuttleRun core ∨ i = .shuttleDump core) →
    (1024 ≤ core → exec i s = .next s) ∧
    (core < 1024 → ∀ op arg buf len d, s.dev.readWords s.regs core s.dev.space0 false (s.regs.area core + 0x40) 4 = (.ok [op, arg, buf, len], d) →
      let bad : Prop := 4 < op.toNat ∨ 2 ^ 16 ≤ arg.toNat ∨ op ≠ 4 ∧ 4 ≤ arg.toNat ∨
        op = 3 ∧ (buf.toNat % 64 ≠ 0 ∨ 2 ^ 57 ≤ buf.toNat ∨ 2 ^ 32 ≤ len.toNat)
      (op = 0 → exec i s = .next s) ∧
      (op ≠ 0 → bad → exec i s = .next (s.cmdEnd core 2)) ∧
      (op ≠ 0 → ¬bad → ∀ j, (j = 1 ∧ i = .shuttleStop core ∨ j = 2 ∧ i = .shuttleRun core ∨ j = 3 ∧ i = .shuttleDump core ∨
          j = 4 ∧ i = .killCommand core) → op.toNat ≠ j → exec i s = .next s) ∧
      (op = 4 → ¬bad → i = .killCommand core →
        exec i s = .next (({ s with dev := s.dev.killCtx s.regs (arg.truncate 16) (Config.killCause 0) } : State).cmdEnd core 1)) ∧
      (op = 1 → ¬bad → i = .shuttleStop core → ∃ d, Stopped s.dev d (core * 4 + arg.toNat) ∧
        exec i s = .next (({ s with dev := d } : State).cmdEnd core 1)) ∧
      (op = 2 → ¬bad → i = .shuttleRun core →
        ((s.dev.sh (core * 4 + arg.toNat)).stopped = false → exec i s = .next (s.cmdEnd core 3)) ∧
        ((s.dev.sh (core * 4 + arg.toNat)).stopped = true → ∃ d, Released s.dev d (core * 4 + arg.toNat) ∧
          exec i s = .next (({ s with dev := d } : State).cmdEnd core 1))) ∧
      (op = 3 → ¬bad → i = .shuttleDump core →
        ((s.dev.sh (core * 4 + arg.toNat)).stopped = false → exec i s = .next (s.cmdEnd core 3)) ∧
        ((s.dev.sh (core * 4 + arg.toNat)).stopped = true → len.toNat < 64 → exec i s = .next (s.cmdEnd core 4)) ∧
        (∀ f d', (s.dev.sh (core * 4 + arg.toNat)).stopped = true → 64 ≤ len.toNat →
          s.dev.dumpTo s.regs (core * 4 + arg.toNat) s.dev.space0 buf.toNat len.toNat = (f, d') →
          exec i s = .next (({ s with dev := d' } : State).cmdEnd core (if f then 5 else 1)))))) ∧
  (∀ (s : State) core st d1 d2, let at_ := s.regs.area core + 0x40
    s.dev.writeVa s.regs core s.dev.space0 (at_ + 0x20) 1 st = (none, d1) → d1.writeVa s.regs core d1.space0 at_ 8 0 = (none, d2) →
    s.cmdEnd core st = { s with dev := d2 }) ∧
  (∀ (d : Dev) k, ∃ body, let rs := d.dumpRecords k
    rs = body ++ [rs.getLastD []] ∧ body.head? = some (rs.headD []) ∧
    (∀ r ∈ rs, 16 ≤ r.length ∧ ∀ j, j < 4 → (r.getD (4 + j) 0).toNat = byteAt r.length j) ∧
    (rs.headD []).getD 0 0 = 1 ∧ (rs.getLastD []).getD 0 0 = 0xFF ∧ (rs.getLastD []).length = 24 ∧
    ∀ j, j < 8 → ((rs.getLastD []).getD (16 + j) 0).toNat = byteAt (rs.map List.length).sum j) ∧
  (∀ room (rs : List (List Byte)), let fit := fitRecs room rs
    fit <+: rs ∧ (fit.map List.length).sum ≤ room ∧
    ∀ r, rs[fit.length]? = some r → room < (fit.map List.length).sum + r.length)

/-- R315, R362: SPDM requests in and out of their place (the codes of the answers and the states are the model's, notes/assumptions/60.md);
FINISH with a verification value; the measurements. -/
def Obligations.SpdmRequests : Prop :=
  (∀ s i, ((∀ v, i ≠ .spdmFinish v) ∧ (i = .spdmGetVersion ∨ i = .spdmGetCapabilities ∨ (∃ o, i = .spdmNegotiateAlgorithms o) ∨
      i = .spdmGetDigests ∨ (∃ o n, i = .spdmGetCertificate o n) ∨ (∃ n, i = .spdmChallenge n) ∨ (∃ k n, i = .spdmGetMeasurements k n) ∨
      (∃ x, i = .spdmKeyExchange x) ∨ i = .spdmEndSession)) →
    (spdmOpen i s.sec.spdm = false → exec i s = .next (saying (drawn s) [.spdm 0x7F [0x04]])) ∧
    (spdmOpen i s.sec.spdm = true → ∃ data, exec i s =
        .next (saying { drawn s with sec := { s.sec with spdm := spdmNext i s.sec.spdm } } [.spdm (spdmCode i) data]) ∧
      (i = .spdmGetVersion → data = [0x12]) ∧ (i = .spdmGetDigests → data = digest Config.certificate) ∧
      (∀ o n, i = .spdmGetCertificate o n → data = (Config.certificate.drop o).take n) ∧
      (∀ n, i = .spdmChallenge n → data.take 64 = digest Config.certificate ++ natBytes n.toNat 32) ∧
      (∀ n, i = .spdmGetMeasurements 1 n →
        data.take 33 = 4 :: digest (s.sec.running.getD Config.firstImage)) ∧
      (∀ n, i = .spdmGetMeasurements 2 n → s.regs.sventry.toNat % 2 ^ 57 = 0 → data.take 33 = 4 :: List.replicate 32 0) ∧
      (∀ n, i = .spdmGetMeasurements 2 n → s.regs.sventry.toNat % 2 ^ 57 ≠ 0 →
        data.take 33 = 4 :: digest ((drawn s).kernelBytes (s.regs.sventry.toNat % 2 ^ 57))) ∧
      (∀ n, i = .spdmGetMeasurements 3 n →
        data.take 17 = 4 :: natBytes s.sec.rollback 8 ++ natBytes s.sec.version 8) ∧
      (∀ n, i = .spdmGetMeasurements 4 n →
        data.take 33 = 4 :: digest (Config.coreMapBytes s.dev.disp.removed s.plat.coreMap)))) ∧
  (∀ s v,
    (s.sec.spdm = .keyed → v = Config.finishValue s.dev.fresh → ∃ data,
      exec (.spdmFinish v) s = .next (saying { drawn s with sec := { s.sec with spdm := .session } } [.spdm 0x65 data])) ∧
    (s.sec.spdm ≠ .keyed ∨ v ≠ Config.finishValue s.dev.fresh → exec (.spdmFinish v) s = .next (saying (drawn s) [.spdm 0x7F [0x04]])))

/-- R313, R314: the states of a TDI (its binding by a write of the host is the model's choice, notes/assumptions/69.md). -/
def Obligations.TdiStates : Prop :=
  (∀ s vf, 1 ≤ vf → vf ≤ 16 →
    (Tab.find? s.dev.host.tdi vf = none ∨ Tab.find? s.dev.host.tdi vf = some .unlocked →
      exec (.tdispLockInterface vf) s = .next (withTdi s vf .locked)) ∧
    (Tab.find? s.dev.host.tdi vf = some .locked ∨ Tab.find? s.dev.host.tdi vf = some .run ∨ Tab.find? s.dev.host.tdi vf = some .error →
      exec (.tdispLockInterface vf) s = .next s)) ∧
  (∀ s vf, vf = 0 ∨ 16 < vf → exec (.tdispLockInterface vf) s = .next s) ∧
  (∀ s vf,
    (Tab.find? s.dev.host.tdi vf = some .locked →
      exec (.tdispStartInterface vf) s = .next (withTdi s vf .run)) ∧
    (Tab.find? s.dev.host.tdi vf ≠ some .locked → exec (.tdispStartInterface vf) s = .next s)) ∧
  (∀ s vf i, (i = .tdispStop vf ∨ i = .ideIntegrityFailure vf) →
    (Tab.find? s.dev.host.tdi vf = none → exec i s = .next s) ∧
    (Tab.find? s.dev.host.tdi vf ≠ none → ∃ d : Dev,
      exec i s = .next { s with dev := d } ∧ Tab.find? d.host.tdi vf = some .error ∧
      (∀ k, k ≠ vf → Tab.find? d.host.tdi k = Tab.find? s.dev.host.tdi k) ∧
      (∀ c, (c, vf) ∈ s.sec.ctxFn → c < 65536 →
        (∀ r w, d.weft? r = some w → w.sup = true ∨ w.ctx ≠ BitVec.ofNat 16 c) ∧ (∀ l ∈ d.disp.launches, l.ctx = BitVec.ofNat 16 c → l.stage = .completing) ∧
        ∀ p ∈ d.keys, p.1 / 16 ≠ c) ∧
      ((∀ p ∈ s.sec.ctxFn, p.2 ≠ vf) → d = (withTdi s vf .error).dev))) ∧
  (∀ s vf n value, 1 ≤ vf → vf ≤ 16 → let i : Instr := .registerWrite 0 (.tdiBind vf) n value
    (value.getLsbD 0 = true → Tab.find? s.dev.host.tdi vf = none → exec i s = .next (withTdi s vf .unlocked)) ∧
    (value.getLsbD 0 = true → Tab.find? s.dev.host.tdi vf ≠ none → exec i s = .next s) ∧
    (Tab.find? s.dev.host.tdi vf = some .locked ∨ Tab.find? s.dev.host.tdi vf = some .run → exec i s = .next s))

/-- R365 (with R252, R303): cold reset clears everything but HBM contents, the logical core map and the fused counters, counters read 0 and the
next serial is 1; an FLR of PF0 resets queues, counters and registers and keeps HBM contents; an FLR of a VF its own. What else each
keeps is the model's choice (notes/assumptions/61.md). -/
def Obligations.Resets : Prop :=
  (∀ s, ∃ t : State, exec .coldReset s = .next t ∧
    (∀ k, k < pkey 1 0 → Cells.get t.dev.mem.cells k = Cells.get s.dev.mem.cells k) ∧
    (∀ k, pkey 3 0 ≤ k → Cells.get t.dev.mem.cells k = 0) ∧
    t.dev.disp.removed = s.dev.disp.removed ∧ t.plat.coreMap = s.plat.coreMap ∧ t.plat.spares = s.plat.spares ∧ t.sec.rollback = s.sec.rollback ∧
    t.dev.disp.serial = 1 ∧ t.regs = State.reset.regs ∧ (∀ id, t.dev.counter id = Counter.reset) ∧
    t.dev.wefts = [] ∧ t.dev.bolts = [] ∧ t.dev.ops = [] ∧ t.dev.cmds = [] ∧ t.dev.disp.launches = [] ∧ t.dev.disp.queues = [] ∧
    t.dev.keys = [] ∧ t.dev.fabric = State.reset.dev.fabric ∧ t.dev.mem.l1 = [] ∧ t.dev.mem.tlb = [] ∧ t.dev.host.tdi = [] ∧
    (∀ k, t.dev.sh k = Shuttle.reset) ∧ ∀ c, t.dev.core c = Core.reset) ∧
  (∀ s, ∃ t : State, exec .flrPf0 s = .next t ∧ t.regs = State.reset.regs ∧ (∀ id, t.dev.counter id = Counter.reset) ∧
    t.dev.disp.queues = [] ∧ t.dev.disp.launches = [] ∧
    (s.dev.contexts = [] → ∀ k, k < pkey 1 0 → Cells.get t.dev.mem.cells k = Cells.get s.dev.mem.cells k) ∧ t.plat = s.plat) ∧
  (∀ s vf, vf = 0 ∨ 16 < vf → exec (.flrVf vf) s = .next s) ∧
  (∀ s vf, 1 ≤ vf → vf ≤ 16 → ∃ t : State, exec (.flrVf vf) s = .next t ∧ t.regs = s.regs ∧ t.plat = s.plat ∧
    (∀ p ∈ t.dev.counters, p.2.fn ≠ vf) ∧ (∀ p ∈ t.dev.disp.queues, p.2.fn ≠ vf) ∧
    (Tab.find? s.dev.host.tdi vf ≠ none → Tab.find? t.dev.host.tdi vf = some .error) ∧
    (∀ k, k ≠ vf → Tab.find? t.dev.host.tdi k = Tab.find? s.dev.host.tdi k) ∧
    ∀ c, (c, vf) ∈ s.sec.ctxFn → c < 65536 → ∀ r w, t.dev.weft? r = some w → w.sup = true ∨ w.ctx ≠ BitVec.ofNat 16 c)

/-! ### Picks and wefts -/

/-- R50, R51, R56, R57, R353, R354: an arbitration of a shuttle: its winner's pick begins, the eligible wefts that lose count it, and a
shuttle with none passes an idle cycle. -/
def Obligations.PickArbitration : Prop :=
  (∀ s sh, 4096 ≤ sh ∨ (s.dev.sh sh).run ≠ none → exec (.pickIssue sh) s = .next s) ∧
  (∀ s sh, sh < 4096 → (s.dev.sh sh).run = none → (∀ p ∈ s.dev.residents sh, s.dev.eligible p.1 p.2 = false) →
    (∀ w, s.dev.weft? (supRef (sh / 4)) = some w → s.dev.eligible (supRef (sh / 4)) w = false) →
    ∃ reason, exec (.pickIssue sh) s = .next { s with dev := s.dev.waitCycle sh reason }) ∧
  (∀ s sh r w, sh < 4096 → (s.dev.sh sh).run = none → PlacesOnce s.dev → s.dev.weft? r = some w → s.dev.eligible r w = true →
    (r = supRef (sh / 4) ∨
      (∀ x, s.dev.weft? (supRef (sh / 4)) = some x → s.dev.eligible (supRef (sh / 4)) x = false) ∧ (r, w) ∈ s.dev.residents sh ∧ w.prio ≤ 23 ∧
        ∀ q ∈ s.dev.residents sh, s.dev.eligible q.1 q.2 = true → q.1 ≠ r → WinsOver w q.2) →
    ∃ (d : Dev) (w' : Weft) (e : Entry) (f : Fetched), exec (.pickIssue sh) s = .next { s with dev := d } ∧
      w.headNow = some e ∧ w.fetch = some f ∧
      (d.sh sh).run = some { ref := r, pc := e.pc, depth := e.depth, header := f.header, words := f.words, idx := e.resume, start := e.resume,
                             act0 := e.mask, act := e.mask, handler := w.handler.isSome, dests := [], traps := [] } ∧
      d.weft? r = some w' ∧ w'.starve = 0 ∧ w'.vregs = w.vregs ∧ w'.sregs = w.sregs ∧ w'.flags = w.flags ∧ w'.handler = w.handler ∧
      (w.handler = none → ∀ x ∈ w'.entries, x.mask &&& e.mask = 0) ∧
      (∀ q ∈ s.dev.residents sh, s.dev.eligible q.1 q.2 = true → q.1 ≠ r → ∃ q', d.weft? q.1 = some q' ∧
        q'.starve = q.2.starve + 1 ∧ ({ q' with starve := q.2.starve } : Weft) = q.2) ∧
      (∀ q ∈ s.dev.residents sh, s.dev.eligible q.1 q.2 = false → q.1 ≠ r → d.weft? q.1 = some q.2)) ∧
  (∀ (d : Dev) r (w : Weft), d.eligible r w = true →
    w.stopped = false ∧ (w.gated = true → d.coreWeight r.core ≤ d.disp.budget) ∧ (w.trapPend = [] ∨ w.trapFor ≠ 0) ∧ w.signalDue = 0 ∧
    w.ending = none ∧ (∀ k ∈ w.walks, k.done = true) ∧
    ∃ e f, w.headNow = some e ∧ w.fetch = some f ∧ f.pc = e.pc ∧
      (e.resume = 0 → ∀ h ∈ w.halves e.mask, ∀ k, k < 12 → f.header.getLsbD (49 + k) = true → Cells.get w.flags (h * 16 + k) = 0)) ∧
  (∀ (w : Weft) e, w.serve = none → w.head? = some e → (∃ x ∈ w.entries, x.state = .run) →
    e.state = .run ∧ ∀ x ∈ w.entries, x.state = .run →
      x.depth < e.depth ∨ x.depth = e.depth ∧ (e.pc.toNat < x.pc.toNat ∨ e.pc = x.pc ∧ x.resume ≤ e.resume))

/-- R55, R102, R124, R125: the fetch of a head pick, and the trap of one that cannot be fetched. -/
def Obligations.PickFetch : Prop :=
  (∀ s ref w e, s.dev.weft? ref = some w → w.ending = none → s.dev.isRunning ref = false → w.trapPend = [] ∨ w.trapFor ≠ 0 → w.stopped = false →
    w.headNow = some e → (∀ f, w.fetch = some f → f.pc ≠ e.pc) →
    (∀ f d, s.dev.fetchAt s.regs ref.core w e.pc = (.ok f, d) → d.weft? ref = some w ∧ ∃ d', OnlyWeft d d' ref { w with fetch := some f } ∧
      exec (.pickFetch ref) s = .next { s with dev := d' }) ∧
    (∀ c sub va d, s.dev.fetchAt s.regs ref.core w e.pc = (.trap c sub va, d) →
      exec (.pickFetch ref) s = .next { s with dev := d.fetchTrap s.regs ref w e c sub va }) ∧
    (∀ d, s.dev.fetchAt s.regs ref.core w e.pc = (.hold, d) → exec (.pickFetch ref) s = .next s)) ∧
  (∀ s ref, s.dev.weft? ref = none → exec (.pickFetch ref) s = .next s) ∧
  (∀ (d : Dev) regs core (w : Weft) (pc : BitVec 32),
    (pc.toNat % 8 ≠ 0 ∨ pc.toNat < 0x20 → d.fetchAt regs core w pc = (.trap 0x01 5 0, d)) ∧
    (∀ f d', d.fetchAt regs core w pc = (.ok f, d') → pc.toNat % 8 = 0 ∧ 0x20 ≤ pc.toNat ∧ f.pc = pc ∧
      f.header.toNat / 2 ^ 61 = 2 ∧ f.words.length = f.header.toNat / 2 ^ 36 % 32 + 1 ∧ f.words.length ≤ 24) ∧
    (∀ h d', d.codeWord regs core w pc.toNat = (.ok h, d') → pc.toNat % 8 = 0 → 0x20 ≤ pc.toNat → h.toNat / 2 ^ 61 % 4 ≠ 2 →
      d.fetchAt regs core w pc = (.trap 0x01 5 0, d')))

/-- R36, R38, R39, R64, R65, R250, R251, R263, R265, R271 to R273, R277: the energy gate, WAITL deadlines, the delivery of user traps and
signals, the replay ring's overflow, the supervisor weft's start and the finish of a weft. -/
def Obligations.WeftSteps : Prop :=
  (∀ s core,
    (s.dev.coreWeight core ≤ s.dev.disp.budget → exec (.energyGateRotation core) s = .next s) ∧
    (s.dev.disp.budget < s.dev.coreWeight core → PlacesOnce s.dev → ∃ (d : Dev) (set : List (WRef × Weft)),
      exec (.energyGateRotation core) s = .next { s with dev := d } ∧ (∀ p ∈ set, p ∈ s.dev.coreWefts core) ∧
      (set.map fun p => p.2.weight).sum ≤ s.dev.disp.budget ∧
      (∀ p ∈ s.dev.coreWefts core, d.weft? p.1 = some { p.2 with gated := !set.any fun q => q.1 == p.1 }) ∧
      (∀ p, (s.dev.gateRing core).head? = some p → p.2.weight ≤ s.dev.disp.budget → p ∈ set) ∧
      (∀ p, set.getLast? = some p → (d.core core).gateLast = some (p.2.age, p.2.widx, p.2.bolt)))) ∧
  (∀ s ref w, s.dev.weft? ref = some w →
    (w.stopped = true → exec (.waitlTimeout ref) s = .next s) ∧
    (w.stopped = false → ∃ d w', exec (.waitlTimeout ref) s = .next { s with dev := d } ∧ OnlyWeft s.dev d ref w' ∧
      (w.divert = [] → ∀ e ∈ w.entries, e.state = .wtl → e.aux = 0 → ∀ l, l < 64 → e.mask.getLsbD l = true → StandsAt w' l e.depth e.pc 0 .run) ∧
      (∀ e ∈ w.entries, e.state ≠ .wtl → w.divert = [] → (e.state = .run ∨ e.state = .park) → ∀ l, l < 64 → e.mask.getLsbD l = true →
        StandsAt w' l e.depth e.pc e.resume e.state) ∧
      (∀ e ∈ w.entries, e.state = .wtl → e.aux = 0 → ∀ l k, l < 64 → e.mask.getLsbD l = true → Tab.find? w.waitPd l = some k →
        (∀ x ∈ w.entries, x.mask.getLsbD l = true → x = e) →
        (∃ x ∈ w.entries, x.state ≠ .wtl ∧ x.depth = e.depth ∧ ∃ m, m < 64 ∧ x.mask.getLsbD m = true ∧ w.halfOf m = w.halfOf l ∧
          ∀ y ∈ w.entries, y.mask.getLsbD m = true → y = x) → w'.p l k = (k == 7)))) ∧
  (∀ s ref w t, s.dev.weft? ref = some w → w.trapFor = 0 → w.stopped = false → w.handler = none → w.ending = none → s.dev.isRunning ref = false → s.dev.openChecks ref w = false →
    s.dev.boltHolds w = false → t ∈ w.trapPend → (∀ x ∈ w.trapPend, x ≠ t → t.lane < x.lane) → w.hdr.handler ≠ 0 → ∃ d w' h,
    exec (.userTrapDelivery ref) s = .next { s with dev := d } ∧ OnlyWeft s.dev d ref w' ∧ w'.trapPend = [] ∧ w'.handler = some h ∧
    h.lane = t.lane ∧ h.entry = { depth := t.back.depth, pc := w.hdr.handler, resume := 0, mask := oneLane t.lane, state := .run, aux := 0 } ∧
    w'.trapcause = t.sub ++ t.cause ∧ w'.trappc = t.word ∧ w'.trapaddr = t.addr ∧
    (∀ l, l < 64 → (w'.trapmask.getLsbD l = true ↔ ∃ x ∈ w.trapPend, x.cause = t.cause ∧ x.lane = l)) ∧
    (∀ x ∈ w.trapPend, x.cause = t.cause → x.back ∈ h.restarts) ∧
    (w.divert = [] → ∀ x ∈ w.trapPend, x.cause ≠ t.cause → x.here.lane < 64 → StandsAt w' x.here.lane x.here.depth x.here.pc x.here.resume .run) ∧
    w'.vregs = w.vregs ∧ w'.sregs = w.sregs ∧ w'.preds = w.preds ∧ w'.qs = w.qs) ∧
  (∀ s ref w, s.dev.weft? ref = some w → w.trapPend ≠ [] → w.trapFor = 0 → w.stopped = false → w.handler = none → w.ending = none → s.dev.isRunning ref = false →
    s.dev.openChecks ref w = false → s.dev.boltHolds w = false → w.hdr.handler = 0 →
    exec (.userTrapDelivery ref) s = .next { s with dev := s.dev.parkPending s.regs ref w.trapPend }) ∧
  (∀ s ref w, s.dev.weft? ref = some w → w.stopped = false → w.signalDue ≠ 0 → s.dev.isRunning ref = false → w.ending = none → w.trapPend = [] →
    let num (l : Nat) : BitVec 8 := (Tab.find? w.signals l).getD 0
    let gone := maskOf ((lanesOf w.signalDue).filter fun l => num l == 0)
    (gone ≠ 0 → ∃ d w', exec (.signalDelivery ref) s = .next { s with dev := (d.barsAfterExit ref).evalWaits ref } ∧ OnlyWeft s.dev d ref w' ∧
      (∀ e ∈ w'.entries, e.mask &&& gone = 0) ∧ w'.vregs = w.vregs) ∧
    (gone = 0 → w.hdr.handler ≠ 0 → ∃ d w', exec (.signalDelivery ref) s = .next { s with dev := d } ∧ OnlyWeft s.dev d ref w' ∧
      (∃ t ∈ w'.trapPend, t.lane = lowLane w.signalDue) ∧
      ∀ t ∈ w'.trapPend, t.cause = 0x1B ∧ t.sub = (num (lowLane w.signalDue)).zeroExtend 16 ∧ t.back.lane = t.lane ∧
        (∃ e ∈ w.entries, e.mask.getLsbD t.lane = true ∧ t.back.depth = e.depth ∧ t.back.pc = e.pc ∧ t.back.resume = e.resume) ∧
        Tab.find? w'.signals t.lane = none ∧ ∀ e ∈ w'.entries, e.mask.getLsbD t.lane = false)) ∧
  (∀ s core, ∃ (d : Dev) (k : Nat), exec (.replayOverflowDrain core) s = .next { s with dev := d } ∧
    (d.core core).overflow = (s.dev.core core).overflow.drop k ∧ k ≤ (s.dev.core core).overflow.length ∧
    (d.core core).nextSeq = (s.dev.core core).nextSeq + k ∧ (∀ c, c ≠ core → d.core c = s.dev.core c) ∧
    ∀ cons d', s.dev.readVa s.regs core s.dev.space0 (s.regs.area core + 8) 8 false = (.ok cons, d') → 64 ≤ (s.dev.core core).nextSeq - cons → k = 0) ∧
  (∀ s core cons d1, core < 1024 → s.dev.weft? (supRef core) = none → (s.dev.core core).frozen = false →
    s.dev.readVa s.regs core s.dev.space0 (s.regs.area core + 8) 8 false = (.ok cons, d1) →
    ((d1.core core).nextSeq ≤ cons → exec (.supervisorWeftStart core) s = .next s) ∧
    (cons < (d1.core core).nextSeq → s.regs.sventry.toNat % 2 ^ 57 = 0 → ∃ d w,
      exec (.supervisorWeftStart core) s = .next { s with dev := d } ∧ OnlyWeft d1 d (supRef core) w ∧ w.sup = true ∧ w.hdr.w = 16 ∧
      w.asid = 0 ∧ w.hdr.race = 0 ∧ w.image = some s.dev.host.image ∧
      w.entries = [{ depth := 0, pc := w.hdr.entry, resume := 0, mask := 0xFFFF, state := .run, aux := 0 }]) ∧
    (∀ ws d2, cons < (d1.core core).nextSeq → s.regs.sventry.toNat % 2 ^ 57 ≠ 0 →
      d1.readWords s.regs core d1.space0 false (s.regs.sventry.toNat % 2 ^ 57) 3 = (.ok ws, d2) → ∃ d w,
      exec (.supervisorWeftStart core) s = .next { s with dev := d } ∧ OnlyWeft d2 d (supRef core) w ∧ w.sup = true ∧ w.hdr.w = 16 ∧
      w.asid = 0 ∧ w.hdr.entry = (ws.getD 1 0).extractLsb' 0 32 ∧ w.kbase.toNat = s.regs.sventry.toNat % 2 ^ 57 ∧
      w.entries = [{ depth := 0, pc := w.hdr.entry, resume := 0, mask := 0xFFFF, state := .run, aux := 0 }]) ∧
    (∀ c sub va d2, cons < (d1.core core).nextSeq → s.regs.sventry.toNat % 2 ^ 57 ≠ 0 → c ≠ 0 →
      d1.readWords s.regs core d1.space0 false (s.regs.sventry.toNat % 2 ^ 57) 3 = (.error (c, sub, va), d2) → ∃ d w,
      exec (.supervisorWeftStart core) s = .next { s with dev := d } ∧ (d.core core).frozen = true ∧ d.weft? (supRef core) = some w ∧
      w.stopped = true ∧ eventWords d2 1 core 0 ∈ d.host.waiting)) ∧
  (∀ s ref, (∀ w, s.dev.weft? ref = some w → s.dev.finishes ref w = false) → exec (.weftFinish ref) s = .next s) ∧
  (∀ s ref w, s.dev.weft? ref = some w → s.dev.finishes ref w = true →
    (w.sup = true → ∃ d, exec (.weftFinish ref) s = .next { s with dev := d } ∧ d.weft? ref = none ∧
      ∀ r, refKey r ≠ refKey ref → d.weft? r = s.dev.weft? r) ∧
    (∀ b, w.sup = false → s.dev.bolt? w.bolt = some b → 2 ≤ b.left → ∃ d b', exec (.weftFinish ref) s = .next { s with dev := d } ∧
      d.weft? ref = none ∧ d.bolt? w.bolt = some b' ∧ b'.left = b.left - 1 ∧ b'.scratch = b.scratch) ∧
    (∀ b l, w.sup = false → s.dev.bolt? w.bolt = some b → b.left ≤ 1 → (∀ x ∈ s.dev.bolts, x.id ≠ b.id → x.serial ≠ b.serial) →
      (∀ x ∈ s.dev.bolts, x.id = b.id → x = b) →
      s.dev.disp.launches.find? (·.serial == b.serial) = some l → l.retired + 1 ≠ l.total → ∃ d, exec (.weftFinish ref) s = .next { s with dev := d } ∧
      d.weft? ref = none ∧ d.bolt? w.bolt = none ∧ d.disp.launches.find? (·.serial == b.serial) = some { l with retired := l.retired + 1 }) ∧
    (∀ b l, w.sup = false → s.dev.bolt? w.bolt = some b → b.left ≤ 1 → (∀ x ∈ s.dev.bolts, x.id ≠ b.id → x.serial ≠ b.serial) →
      (∀ x ∈ s.dev.bolts, x.id = b.id → x = b) →
      s.dev.disp.launches.find? (·.serial == b.serial) = some l → l.retired + 1 = l.total → ∃ d : Dev,
      exec (.weftFinish ref) s = .next { s with dev := d.completeLaunch s.regs { l with retired := l.retired + 1 } } ∧ d.weft? ref = none ∧
      d.bolt? w.bolt = none)) ∧
  (∀ (d : Dev) regs (l : Launch), l.fromHost = true → (l.record.getD 6 0).getLsbD 63 = false → l.ktag = 0 → ∃ ws : List DWord,
    d.completeLaunch regs l = { d with host := { d.host with out := d.host.out ++ [.completion l.fn l.queue ws, .used l.fn l.queue 32] },
                                       disp := { d.disp with launches := d.disp.launches.filter (·.serial != l.serial) } } ∧
    ws.length = 4 ∧ ws.getD 0 0 = BitVec.ofNat 64 l.serial ∧ ws.getD 1 1 = 0 ∧ ws.getD 3 1 = 0)

/-! ### The memory system -/

/-- R160, R161, R164, R181, R182, R311, R418: a load in flight completes: its destination takes the bytes of its place, from the pair's copy or
from home, extended as the word says; its flags count down and its scoreboard entry is free. -/
def Obligations.LoadsComplete : Prop :=
  (∀ s o a w lanes, AccessDue s o a w → o.kind = .load → o.space = .generic → lanes.getLsbD a.lane = true →
    s.dev.poisoned a.pa = false → o.size ∈ [1, 2, 4, 8, 16] → a.pa % o.size = 0 → AtHome s.dev o.ref.core (lineOf a.pa) → ∃ d,
    exec (.loadComplete o.id lanes) s = .next { s with dev := d } ∧ (HasRoom s.dev o.ref.core → d.mem.cells = s.dev.mem.cells) ∧
    OpDone s.dev d o (doneWeft (o.dst.put w a.lane o.size o.sgn (Cells.bytes s.dev.mem.cells a.pa o.size)) o)) ∧
  (∀ s o a w lanes l, AccessDue s o a w → o.kind = .load → o.space = .generic → lanes.getLsbD a.lane = true → o.vol = false →
    (a.whereAt w.asid).kind ≠ 3 → o.size ∈ [1, 2, 4, 8] → a.pa % o.size = 0 →
    s.dev.l1? o.ref.core (lineOf a.pa) = some l → l.under (a.whereAt w.asid) = true → l.valid.getLsbD (a.pa % 64 / 8) = true → ∃ d,
    exec (.loadComplete o.id lanes) s = .next { s with dev := d } ∧ d.mem = s.dev.mem ∧
    OpDone s.dev d o (doneWeft (o.dst.put w a.lane o.size o.sgn
      (l.word (a.pa % 64 / 8) / 2 ^ (8 * (a.pa % 8)) % 2 ^ (8 * o.size))) o)) ∧
  (∀ s o a w b lanes, AccessDue s o a w → o.kind = .load → o.space = .scratch → lanes.getLsbD a.lane = true → w.sup = false →
    s.dev.bolt? w.bolt = some b → b.badScratch = [] → ∃ d, exec (.loadComplete o.id lanes) s = .next { s with dev := d } ∧ d.mem = s.dev.mem ∧
    d.bolts = s.dev.bolts ∧ OpDone s.dev d o (doneWeft (o.dst.put w a.lane o.size o.sgn (Cells.bytes b.scratch a.pa o.size)) o)) ∧
  (∀ s o a w lanes, AccessDue s o a w → o.kind = .load → o.space = .const → lanes.getLsbD a.lane = true → s.dev.poisoned a.pa = false →
    o.size ∈ [1, 2, 4, 8, 16] → a.pa % o.size = 0 → a.va.toNat % 64 = a.pa % 64 → AtHome s.dev o.ref.core (lineOf a.pa) →
    (∀ x ∈ Tab.getD [] s.dev.mem.ccache o.ref.core, x.1 ≠ constKey w.asid a.va.toNat) → ∃ d, exec (.loadComplete o.id lanes) s = .next { s with dev := d } ∧
    d.mem.cells = s.dev.mem.cells ∧
    OpDone s.dev d o (doneWeft (o.dst.put w a.lane o.size o.sgn (Cells.bytes s.dev.mem.cells a.pa o.size)) o)) ∧
  (∀ s o a w lanes, AccessDue s o a w → o.kind = .ecrd → o.space = .counter → lanes.getLsbD a.lane = true → ∃ d,
    exec (.loadComplete o.id lanes) s = .next { s with dev := d } ∧ d.mem = s.dev.mem ∧
    OpDone s.dev d o (doneWeft (o.dst.put w a.lane o.size o.sgn (s.dev.counter a.pa).value.toNat) o) ∧ d.counters = s.dev.counters) ∧
  (∀ (w : Weft) l n z v, 1 ≤ z → z ≤ 4 →
    ((DstReg.vec n 1).put w l z true v).v l n = (BitVec.ofNat (8 * z) v).signExtend 32 ∧
    ((DstReg.vec n 1).put w l z false v).v l n = BitVec.ofNat 32 v) ∧
  (∀ (w : Weft) l n v, let w' := (DstReg.vec n 2).put w l 8 false v
    w'.v l n = BitVec.ofNat 32 v ∧ w'.v l (n + 1) = BitVec.ofNat 32 (v / 2 ^ 32) ∧
      ∀ k, k ≠ vecKey (l, n) → k ≠ vecKey (l, n + 1) → Cells.get w'.vregs k = Cells.get w.vregs k) ∧
  (∀ (w : Weft) l n z v, 1 ≤ z → z ≤ 8 → w.hdr.c16 = false →
    ((DstReg.scal n).put w l z true v).s 0 n = (BitVec.ofNat (8 * z) v).signExtend 64 ∧
    ((DstReg.scal n).put w l z false v).s 0 n = BitVec.ofNat 64 v) ∧
  (∀ s op lanes, s.dev.ops.find? (·.id == op) = none → exec (.loadComplete op lanes) s = .next s)

/-- R2, R160, R164, R309, R311, R387, R393, R395: a store, a CCTL, an ECADD or an ECTRIG in flight is performed: the bytes of its place take
its data, or those of the core's own copy, and no others. -/
def Obligations.StoresPerformed : Prop :=
  (∀ s o a w lanes, AccessDue s o a w → o.kind = .store → o.space = .generic → lanes.getLsbD a.lane = true → o.size ∈ [1, 2, 4, 8, 16] →
    a.pa % o.size = 0 → AtHome s.dev o.ref.core (lineOf a.pa) → (a.whereAt w.asid).kind ≠ 0 ∨ o.vol = true → ∃ d,
    exec (.storePerformed o.id lanes) s = .next { s with dev := d } ∧ OpDone s.dev d o (doneWeft w o) ∧ d.bolts = s.dev.bolts ∧
    (∀ j, j < o.size → (Cells.get d.mem.cells (a.pa + j)).toNat = byteAt a.data.toNat j) ∧
    (HasRoom s.dev o.ref.core → BytesAt s.dev d a.pa o.size (a.data.toNat % 2 ^ (8 * o.size)))) ∧
  (∀ s o a w lanes, AccessDue s o a w → o.kind = .store → o.space = .generic → lanes.getLsbD a.lane = true → o.size ∈ [1, 2, 4, 8] →
    a.pa % o.size = 0 → AtHome s.dev o.ref.core (lineOf a.pa) → (a.whereAt w.asid).kind = 0 → o.vol = false → ∃ d l,
    exec (.storePerformed o.id lanes) s = .next { s with dev := d } ∧ OpDone s.dev d o (doneWeft w o) ∧
    (HasRoom s.dev o.ref.core → d.mem.cells = s.dev.mem.cells) ∧ d.l1? o.ref.core (lineOf a.pa) = some l ∧ l.dirty.getLsbD (a.pa % 64 / 8) = true ∧ l.valid.getLsbD (a.pa % 64 / 8) = true ∧
    ∀ k, k < 8 → byteAt (l.word (a.pa % 64 / 8)) k =
      if a.pa % 8 ≤ k ∧ k < a.pa % 8 + o.size then byteAt a.data.toNat (k - a.pa % 8)
      else (Cells.get s.dev.mem.cells (a.pa / 8 * 8 + k)).toNat) ∧
  (∀ s o a w b lanes, AccessDue s o a w → o.kind = .store → o.space = .scratch → lanes.getLsbD a.lane = true → w.sup = false →
    s.dev.bolt? w.bolt = some b → b.badScratch = [] → ∃ d b', exec (.storePerformed o.id lanes) s = .next { s with dev := d } ∧
    OpDone s.dev d o (doneWeft w o) ∧ d.mem = s.dev.mem ∧ d.bolt? w.bolt = some b' ∧
    ScratchAt b b' a.pa o.size (a.data.toNat % 2 ^ (8 * o.size)) ∧ ∀ x, x ≠ w.bolt → d.bolt? x = s.dev.bolt? x) ∧
  (∀ s o a w op lanes l, AccessDue s o a w → o.kind = .cctl op → o.space = .generic → a.region ≠ 3 → s.dev.owned (.line (lineOf a.pa)) = false →
    lanes.getLsbD a.lane = true → LinesOnce s.dev o.ref.core → s.dev.l1? o.ref.core (lineOf a.pa) = some l → ∃ d,
    exec (.storePerformed o.id lanes) s = .next { s with dev := d } ∧ OpDone s.dev d o (doneWeft w o) ∧ d.bolts = s.dev.bolts ∧
    let home (j : Nat) : Nat := Cells.bytes d.mem.cells (64 * lineOf a.pa + 8 * j) 8
    let kept (j : Nat) : Nat := Cells.bytes s.dev.mem.cells (64 * lineOf a.pa + 8 * j) 8
    (op = .wb → (∃ l', d.l1? o.ref.core (lineOf a.pa) = some l' ∧ l'.dirty = 0 ∧ l'.data = l.data ∧ l'.valid = l.valid) ∧
      ∀ j, j < 8 → home j = if l.dirty.getLsbD j then l.word j else kept j) ∧
    (op = .wbinv → d.l1? o.ref.core (lineOf a.pa) = none ∧ ∀ j, j < 8 → home j = if l.dirty.getLsbD j then l.word j else kept j) ∧
    (op = .inv → d.mem.cells = s.dev.mem.cells ∧ (l.dirty = 0 → d.l1? o.ref.core (lineOf a.pa) = none) ∧
      (l.dirty ≠ 0 → d.l1? o.ref.core (lineOf a.pa) = some { l with valid := l.dirty }))) ∧
  (∀ s o a w lanes, AccessDue s o a w → o.kind = .ecadd → o.space = .counter → lanes.getLsbD a.lane = true → ¬CounterOn s.dev a.pa →
    (∀ k ∈ s.dev.mem.marks, k.line = ctrMark a.pa → k.pair = pairOf o.ref.core) → exec (.storePerformed o.id lanes) s = .next { s with
      dev := (({ s.dev with ops := (s.dev.dropAccess o.id a.lane).ops } : Dev).passBank w).completeOp s.regs o.id }) ∧
  (∀ s o a w lanes, AccessDue s o a w → o.kind = .ecadd → o.space = .counter → lanes.getLsbD a.lane = true → CounterOn s.dev a.pa →
    (∀ k ∈ s.dev.mem.marks, k.line = ctrMark a.pa → k.pair = pairOf o.ref.core) → ∃ d c, OnlyCounter s.dev d a.pa c ∧
    c.value = (s.dev.counter a.pa).value + a.data.truncate 64 ∧
    ({ c with value := (s.dev.counter a.pa).value, flags := (s.dev.counter a.pa).flags } : Counter) = s.dev.counter a.pa ∧
    exec (.storePerformed o.id lanes) s = .next { s with dev :=
      ((({ d with ops := (d.dropAccess o.id a.lane).ops } : Dev).ctrAfter 4097 a.pa).passBank w).completeOp s.regs o.id }) ∧
  (∀ s o a w lanes, AccessDue s o a w → o.kind = .ectrig → o.space = .counter → lanes.getLsbD a.lane = true → CounterOn s.dev a.pa →
    (∀ k ∈ s.dev.mem.marks, k.line = ctrMark a.pa → k.pair = pairOf o.ref.core) →
    let old := s.dev.counter a.pa
    let v : DWord := a.data.truncate 64
    ∃ d c, OnlyCounter s.dev d a.pa c ∧ c.value = old.value ∧ c.abs = false ∧ c.action = v.extractLsb' 58 2 ∧ c.target = v.extractLsb' 44 12 ∧
    c.addv = v.extractLsb' 32 12 ∧ (v.getLsbD 63 = true → c.action ≠ 3 → c.arm = true ∧ c.fired = false ∧
      c.tthr = old.value + (v.extractLsb' 0 32).signExtend 64) ∧ (v.getLsbD 63 = false ∨ c.action = 3 → c.arm = false) ∧
    exec (.storePerformed o.id lanes) s = .next { s with dev :=
      (({ d with ops := (d.dropAccess o.id a.lane).ops } : Dev).ctrAfter 4097 a.pa).completeOp s.regs o.id }) ∧
  (∀ (d : Dev) regs o w, d.ops.find? (·.id == o.id) = some o → o.accs = [] → o.rel = 0 → d.weft? o.ref = some w → w.ending = none → ∃ d',
    d.completeOp regs o.id = d' ∧ d'.ops = d.ops.filter (fun p => p.id != o.id) ∧ d'.weft? o.ref = some (doneWeft w o) ∧
    (∀ r, refKey r ≠ refKey o.ref → d'.weft? r = d.weft? r) ∧ ({ d' with ops := d.ops, wefts := d.wefts } : Dev) = d)

/-- R2, R167, R190, R191, R375 (with R139): an atomic in flight is one read-modify-write; its old value waits for LOAD_COMPLETE, or the
operation completes when it has no destination; what each operation computes. -/
def Obligations.AtomicsPerformed : Prop :=
  (∀ s o a w, AccessDue s o a w → o.kind = .atomic → o.space = .generic → s.dev.poisoned a.pa = false → o.size = 4 ∨ o.size = 8 →
    a.pa % o.size = 0 → AtHome s.dev o.ref.core (lineOf a.pa) →
    let old := Cells.bytes s.dev.mem.cells a.pa o.size
    let new := atomVal o.aop (8 * o.size) old (a.data.toNat % 2 ^ (8 * o.size)) a.cmp.toNat
    (o.dst ≠ .none → ∃ d, exec (.atomicPerformed o.id a.lane) s = .next { s with dev := d } ∧ BytesAt s.dev d a.pa o.size new ∧
      d.wefts = s.dev.wefts ∧ ∃ o', d.ops.find? (·.id == o.id) = some o' ∧
      o'.accs = [{ a with checked := true, perf := true, data := BitVec.ofNat 128 old }] ∧ ({ o' with accs := o.accs } : MemOp) = o) ∧
    (o.dst = .none → ∃ d, exec (.atomicPerformed o.id a.lane) s = .next { s with dev := d } ∧ BytesAt s.dev d a.pa o.size new ∧
      OpDone s.dev d o (doneWeft w o))) ∧
  (∀ s o a w b, AccessDue s o a w → o.kind = .atomic → o.space = .scratch → w.sup = false → s.dev.bolt? w.bolt = some b → b.badScratch = [] →
    o.dst ≠ .none → o.size = 4 ∨ o.size = 8 →
    let old := Cells.bytes b.scratch a.pa o.size
    ∃ d b' o', exec (.atomicPerformed o.id a.lane) s = .next { s with dev := d } ∧ d.mem = s.dev.mem ∧ d.bolt? w.bolt = some b' ∧
    ScratchAt b b' a.pa o.size (atomVal o.aop (8 * o.size) old (a.data.toNat % 2 ^ (8 * o.size)) a.cmp.toNat) ∧
    d.ops.find? (·.id == o.id) = some o' ∧ o'.accs = [{ a with checked := true, perf := true, data := BitVec.ofNat 128 old }] ∧
    d.wefts = s.dev.wefts) ∧
  (∀ s o a w lanes, s.dev.ops.find? (·.id == o.id) = some o → o.kind = .atomic → o.accs = [a] → a.perf = true → a.lane < 64 →
    lanes.getLsbD a.lane = true → s.dev.weft? o.ref = some w → w.ending = none → o.rel = 0 → s.dev.isTwin w = false → ∃ d,
    exec (.loadComplete o.id lanes) s = .next { s with dev := d } ∧
    OpDone s.dev d o (doneWeft (o.dst.put w a.lane o.size o.sgn a.data.toNat) o) ∧ d.mem = s.dev.mem) ∧
  (∀ s op lane, (∀ o, s.dev.ops.find? (·.id == op) = some o → o.kind ≠ .atomic) → exec (.atomicPerformed op lane) s = .next s) ∧
  (∀ n (x y k : BitVec n), n = 32 ∨ n = 64 → let f (op : AtomOp) : BitVec n := BitVec.ofNat n (atomVal op n x.toNat y.toNat k.toNat)
    f .add = x + y ∧ f .minS = (if y.slt x then y else x) ∧ f .minZ = (if y.ult x then y else x) ∧ f .maxS = (if x.slt y then y else x) ∧
    f .maxZ = (if x.ult y then y else x) ∧ f .and = x &&& y ∧ f .or = x ||| y ∧ f .xor = x ^^^ y ∧ f .exch = y ∧
    f .cas = (if x = k then y else x) ∧ f .incwrap = (if y.ule x then 0 else x + 1))

/-- R184, R185, R402: FENCE waits for every earlier access of its weft and for its copy commands to take what they own; then a release at
.dev or .sys has written every dirty word of the pair's L1s home, and an acquire there has dropped their clean words. -/
def Obligations.FenceCompletes : Prop :=
  ∀ s o w, s.dev.ops.find? (·.id == o.id) = some o → o.kind = .fence → s.dev.weft? o.ref = some w →
    let core := o.ref.core
    let rel : Prop := o.order = .rel ∨ o.order = .ar
    let acq : Prop := o.order = .acq ∨ o.order = .ar
    let older : Prop := ∃ p ∈ s.dev.ops, p.ref = o.ref ∧ p.id < o.id ∧ ∃ a ∈ p.accs, a.perf = false
    let taking : Prop := ∃ x ∈ s.dev.cmds, x.ref = o.ref ∧ x.seq < o.id ∧ x.desc = none ∧ (x.status = .queued ∨ x.status = .active ∨ x.status = .parked)
    let wide : Prop := o.scope = .dev ∨ o.scope = .sys
    (older ∨ rel ∧ taking → exec (.fenceComplete o.id) s = .next s) ∧
    (¬older → ¬(rel ∧ taking) → o.accs = [] → w.ending = none → ∃ d w', exec (.fenceComplete o.id) s = .next { s with dev := d } ∧
      d.ops = s.dev.ops.filter (fun p => p.id != o.id) ∧ d.weft? o.ref = some w' ∧ w'.flags = (w.subFlags o.flags).flags ∧
      w'.vregs = w.vregs ∧ w'.sregs = w.sregs ∧ w'.preds = w.preds ∧ w'.entries = w.entries ∧ w'.tiles = w.tiles ∧
      (rel → w'.relPend = w.relPend ++ [{ lanes := o.lanes, scope := o.scope }]) ∧
      (rel → wide → LinesOnce s.dev core → LinesOnce s.dev (partnerOf core) → ∀ k, k = core ∨ k = partnerOf core →
        (∀ l ∈ d.l1 k, l.dirty = 0)) ∧
      (acq → wide → ∀ k, k = core ∨ k = partnerOf core → ∀ l ∈ d.l1 k, l.region = 2 ∨ l.valid = l.dirty ∧ l.dirty ≠ 0) ∧
      (¬rel → ∀ k, Cells.get d.mem.cells k = Cells.get s.dev.mem.cells k))

/-- R180, R209, R214, R216, R218, R219, R222: the check of a global line against its writer's record; a racing access in trap mode is not
performed, and its thread traps with cause RACE. -/
def Obligations.RaceChecks : Prop :=
  (∀ (d : Dev) r t sync line,
    let m := BitVec.ofNat 64 (d.rmetaOf r line)
    d.rmetaOf r line < 2 ^ 64 → ((d.checkLine r t sync line).isSome = true ↔
      ¬WriteOrdered d.tagLive t (m.extractLsb' 56 8).toNat (m.extractLsb' 36 20).toNat (m.extractLsb' 14 16).toNat (m.extractLsb' 2 12).toNat ∧
        ¬(sync = true ∧ m.extractLsb' 0 2 ≠ 0))) ∧
  (∀ s o a w h lanes, s.dev.ops.find? (·.id == o.id) = some o → (∀ p ∈ s.dev.ops, p.ref = o.ref → p.pick = o.pick → p.id ≤ o.id) →
    o.accs = [a] → a.perf = false → a.seen = false → a.lane < 64 → o.kind = .store → o.uni = false →
    o.space = .generic → o.handler = false → lanes.getLsbD a.lane = true → s.dev.weft? o.ref = some w → s.dev.ready w o a = true →
    (∀ l, a.loc w.bolt o.space = some l → s.dev.ownedParked l = false) → s.dev.captureWaits w.bolt a.va.toNat = none →
    s.dev.raceHit s.regs w o a (s.dev.raceIdOf w a.lane) = some h → (s.dev.raceIdOf w a.lane).mode = 1 →
    (w.crec.getD 2 0).toNat % 2 ^ 57 = 0 → w.hdr.handler ≠ 0 → w.sup = false → w.ending = none → w.handler = none → o.rel = 0 →
    (∀ j, j < 4 → (s.dev.sh (o.ref.core * 4 + j)).run = none) → s.dev.debug = [] → (∃ e ∈ w.entries, e.mask.getLsbD a.lane = true) →
    (∀ b, s.dev.bolt? w.bolt = some b → s.dev.twinOf b = none) → ∃ d w',
    exec (.storePerformed o.id lanes) s = .next { s with dev := d } ∧ d.mem.cells = s.dev.mem.cells ∧ d.weft? o.ref = some w' ∧
    (∃ t ∈ w'.trapPend, t.lane = a.lane ∧ t.cause = 0x12) ∧ (∀ e ∈ w'.entries, e.mask.getLsbD a.lane = false) ∧ w'.vregs = w.vregs ∧
    d.ops = s.dev.ops.filter fun p => p.id != o.id)

/-! ### Hints, waits on counters, launches -/

/-- R118, R309, R311, R445, R462: PREF, ECWAIT and TMARK complete. PREF changes no register, no operation and, where the TLB has the page and the
L1 has room, no byte of memory: it brings the word asked for into the L1, unless the L1 has it, the line is of the device region or owned by an
engine, or cannot be translated. ECWAIT observes its counter where it issues. -/
def Obligations.CounterAndHintWords : Prop :=
  (∀ s h ef a off c, Issues s (.pref h ef a off) c → let i : Instr := .pref h ef a off
    let cycles := perCycle c.on.length 16
    let va (l : Nat) : Nat := (BitVec.ofInt 64 ((c.get l .i64 a : Int) +
      match off with | .imm n => n.toInt * 64 | .idx o => (BitVec.ofNat 32 (c.get l .i32 o)).toInt)).toNat
    (∃ d : Dev, exec i s = .next (settleWord i s c (.done d cycles [] [])) ∧
      ({ d with mem := s.dev.mem, cores := s.dev.cores, fresh := s.dev.fresh, host := s.dev.host } : Dev) = s.dev) ∧
    (∀ l k, c.on = [l] → s.dev.lookup c.regs c.core c.w.asid (va l) .rd = .fault k →
      exec i s = .next (settleWord i s c (.done s.dev cycles [] []))) ∧
    (∀ l p, c.on = [l] → s.dev.lookup c.regs c.core c.w.asid (va l) .rd = .ok p →
      p.kind = 3 ∨ s.dev.l1Own c.core p = true ∨ s.dev.owned (.line (lineOf p.pa)) = true →
      exec i s = .next (settleWord i s c (.done s.dev cycles [] []))) ∧
    (∀ l p, c.on = [l] → s.dev.lookup c.regs c.core c.w.asid (va l) .rd = .ok p → p.kind ≠ 3 → s.dev.l1Own c.core p = false →
      s.dev.owned (.line (lineOf p.pa)) = false → ∃ (d : Dev) (x : L1Line), exec i s = .next (settleWord i s c (.done d cycles [] [])) ∧
      (HasRoom s.dev c.core → d.mem.cells = s.dev.mem.cells) ∧ d.l1? c.core (lineOf p.pa) = some x ∧ x.under p = true ∧
      (x.valid.getLsbD (p.pa % 64 / 8) = true ∨
        p.kind = 0 ∧ ∃ y, s.dev.l1? (partnerOf c.core) (lineOf p.pa) = some y ∧ y.valid.getLsbD (p.pa % 64 / 8) = true) ∧
      (∀ y, s.dev.l1? c.core (lineOf p.pa) = some y → x.dirty = y.dirty ∧ ∀ j, j < 8 → y.valid.getLsbD j = true →
        x.valid.getLsbD j = true ∧ x.word j = y.word j) ∧
      (∀ j, j < 8 → x.valid.getLsbD j = true → (∀ y, s.dev.l1? c.core (lineOf p.pa) = some y → y.valid.getLsbD j = false) →
        x.word j = Cells.bytes s.dev.mem.cells (64 * lineOf p.pa + 8 * j) 8) ∧
      ∀ k, k ≠ c.core → d.l1 k = s.dev.l1 k)) ∧
  (∀ s h m a b c, Issues s (.ecwait h m a b) c → let i : Instr := .ecwait h m a b
    (s.dev.fencing c.run.ref = true → exec i s = .next (settleWord i s c (.wait 15))) ∧
    (s.dev.fencing c.run.ref = false → ∃ d traps dests, exec i s = .next (settleWord i s c (.done d 1 traps dests))) ∧
    (s.dev.fencing c.run.ref = false → c.onHalves = [] → exec i s = .next (settleWord i s c (.done s.dev 1 [] []))) ∧
    (∀ k, s.dev.fencing c.run.ref = false → c.onHalves = [k] →
      let id := c.uget k .i64 a % 4096
      let thr : DWord := BitVec.ofNat 64 (c.uget k .i64 b)
      let n := c.w.nextWait
      let mine : Prop := c.w.sup = true ∨ (s.dev.counter id).ctx = some c.w.ctx
      let met : Prop := ((s.dev.counter id).value - thr).msb = false
      (¬mine → exec i s = .next (settleWord i s c
        (.done s.dev 1 (trapsAt (lanesOf (c.actOf k)) 0x11 0 (64 * id) .here) []))) ∧
      (mine → (s.dev.counter id).fences ≠ [] → exec i s = .next (settleWord i s c
        (.done s.dev 1 (trapsAt (lanesOf (c.actOf k)) 0x14 1 0 .here) []))) ∧
      (mine → (s.dev.counter id).fences = [] → met → exec i s = .next (settleWord i s c
        (.done (if m.sync = true ∧ m.scope ≠ .weft then s.dev.acquireCtr c.run.ref id m.scope false else s.dev) 1 [] []))) ∧
      (mine → (s.dev.counter id).fences = [] → ¬met → ∃ d x, OnlyWeft s.dev d c.run.ref { c.w with waits := c.w.waits ++ [x], nextWait := n + 1 } ∧
        x.num = n ∧ x.counter = id ∧ x.threshold = thr ∧ (x.acq = true ↔ m.sync = true ∧ m.scope ≠ .weft) ∧ x.scope = m.scope ∧
        exec i s = .next (settleWord i s c (.done d 1 [] ((lanesOf (c.actOf k)).map fun l =>
          { goesTo c l (nextOffset c) with state := .ecw, aux := BitVec.ofNat 32 n, act := .ecwait n }))))) ) ∧
  (∀ s h a c, Issues s (.tmark h a) c → exec (.tmark h a) s = .next (settleWord (.tmark h a) s c (.done s.dev 1 [] [])))

/-- R29, R85 to R88, R205, R245 to R249, R302, R310: a launch chain, the steps of acceptance with their statuses in their order, the wait on a
counter, the condition, dispatch with a kernel tag, and a pass of the metadata sweep. That a queue has the attributes of reset before its first
QCONF is the model's choice (notes/assumptions/6.md). -/
def Obligations.LaunchSteps : Prop :=
  (∀ s fn queue record n, let i : Instr := .launchChain fn queue record n
    (¬FnOn s fn → exec i s = .next s) ∧
    (FnOn s fn → s.sec.switching = true →
      exec i s = .next { s with dev := { s.dev with host := { s.dev.host with held := s.dev.host.held ++ [i] } } }) ∧
    (FnOn s fn → s.sec.switching = false → 1 ≤ queue → queue ≤ 1024 → let q := Tab.getD Queue.reset s.dev.disp.queues queue
      (q.fn ≠ fn → exec i s = .next s) ∧
      (q.fn = fn → record.length ≠ 16 ∨ n < 32 ∨ q.dev = true → exec i s = .next (saying s [.used fn queue 0])) ∧
      (q.fn = fn → record.length = 16 → 32 ≤ n → q.dev = false → ∃ l : Launch, l.serial = s.dev.disp.serial ∧ l.queue = queue ∧ l.fn = fn ∧
        l.fromHost = true ∧ l.record = record ∧ l.stage = .pending ∧ l.ctx = q.owner ∧ l.ktag = 0 ∧ exec i s = .next { s with dev :=
          { s.dev with disp := { s.dev.disp with launches := s.dev.disp.launches ++ [l], serial := s.dev.disp.serial + 1 } } })) ∧
    (FnOn s fn → s.sec.switching = false → queue = 0 ∧ (record.length < 2 ∨ n < 16) ∨ queue = 1025 ∧ (record ≠ [] ∨ n < 1568) ∨
      queue = 1026 ∧ (record ≠ [] ∨ n < 32) → exec i s = .next (saying s [.used fn queue 0])) ∧
    (FnOn s fn → s.sec.switching = false → 1027 < queue → exec i s = .next s)) ∧
  (∀ (d : Dev) queue pre (l : Launch) post, d.disp.launches.filter (·.queue == queue) = pre ++ l :: post → (∀ x ∈ pre, x.stage ≠ .pending) →
    l.stage = .pending →
    ((∀ p, pre.getLast? = some p → (p.record.getD 10 0).getLsbD 3 = true ∧ p.stage = .running) → d.nextRecord queue = some l) ∧
    ((∃ p, pre.getLast? = some p ∧ ((p.record.getD 10 0).getLsbD 3 = false ∨ p.stage ≠ .running)) → d.nextRecord queue = none)) ∧
  (∀ s queue, s.dev.nextRecord queue = none ∨ (let q := Tab.getD Queue.reset s.dev.disp.queues queue; q.gate = true ∧ q.credits = 0) →
    exec (.launchAcceptance queue) s = .next s) ∧
  (∀ s queue l, let q := Tab.getD Queue.reset s.dev.disp.queues queue
    s.dev.nextRecord queue = some l → FnOn s q.fn → (q.gate = true → q.credits ≠ 0) → s.plat.scans = [] → let i : Instr := .launchAcceptance queue
    let e : Dev := if q.gate then
      { s.dev with disp := { s.dev.disp with queues := Tab.put s.dev.disp.queues queue { q with credits := q.credits - 1 } } } else s.dev
    let record (x : Launch) (d : Dev) : Prop := (x.fromHost = true → exec i s = .next { s with dev := d.writeCompletion s.regs x 0x10 }) ∧
      (x.fromHost = false → exec i s = .next { s with dev := d.dropLaunch x })
    (∀ k sub va d, k ≠ 0 → e.readCtx s.regs l.ctx = (.error (k, sub, va), d) → record l d) ∧
    (∀ ws d, e.readCtx s.regs l.ctx = (.ok ws, d) →
      let m : Launch := { l with asid := (ws.getD 0 0).extractLsb' 16 16, root := ptRoot ws }
      ((ws.getD 0 0).getLsbD 0 = false → record l d) ∧
      ((ws.getD 0 0).getLsbD 0 = true → l.badRec = true → exec i s = .next { s with dev := d.writeCompletion s.regs m 0x10 }) ∧
      ((ws.getD 0 0).getLsbD 0 = true → l.badRec = false → exec i s = .next { s with dev := d.passWait s.regs m }))) ∧
  (∀ s queue,
    (s.dev.disp.launches.find? (fun l => l.queue == queue && l.stage == .waiting) = none → exec (.launchWaitRelease queue) s = .next s) ∧
    (∀ l, s.dev.disp.launches.find? (fun l => l.queue == queue && l.stage == .waiting) = some l →
      let live : Prop := ∀ t, Tab.find? s.dev.host.tdi l.fn = some t → t = .run
      (live → exec (.launchWaitRelease queue) s = .next { s with dev := s.dev.passWait s.regs l }) ∧
      (¬live → exec (.launchWaitRelease queue) s = .next s))) ∧
  (∀ (d : Dev) regs (l : Launch),
    let wen := (l.record.getD 4 0).getLsbD 63
    let low : Prop := ((d.counter ((l.record.getD 4 0).toNat % 4096)).value - l.record.getD 5 0).msb = true
    (wen = true → low → d.passWait regs l = { d with disp := { d.disp with launches := d.disp.launches.map fun x =>
      if x.serial = l.serial then { l with stage := .waiting } else x } }) ∧
    (wen = false → d.passWait regs l = d.acceptLaunch regs l) ∧
    (wen = true → ¬low → ∃ fs sat, d.passWait regs l = d.acceptLaunch regs { l with parent := l.parent ++ fs, parentSat := l.parentSat || sat })) ∧
  (∀ (d : Dev) regs (l : Launch),
    let e := d.putLaunch { l with stage := .waiting }
    let w (k : Nat) : Nat := (l.record.getD k 0).toNat
    let entries := 2 * ((l.record.getD 10 0).extractLsb' 16 5).toNat
    (∀ k sub va d1, k ≠ 0 → e.readWords regs dispCore l.space false (w 0) 4 = (.error (k, sub, va), d1) →
      d.acceptLaunch regs l = d1.writeCompletion regs l 0x11) ∧
    (∀ x0 x1 x2 x3 d2, e.readWords regs dispCore l.space false (w 0) 4 = (.ok [x0, x1, x2, x3], d2) →
      (∀ k sub va d1, k ≠ 0 → d2.readWords regs dispCore l.space false (w 11) entries = (.error (k, sub, va), d1) →
        d.acceptLaunch regs l = d1.writeCompletion regs l 0x11) ∧
      (∀ hs d3, d2.readWords regs dispCore l.space false (w 11) entries = (.ok hs, d3) →
        let m : Launch := { l with hdr := KHdr.ofWords x0 x1 x2, hints := hintsOf hs }
        (badHdr x0 x1 x2 x3 = true → d.acceptLaunch regs l = d3.writeCompletion regs m 0x12) ∧
        (badHdr x0 x1 x2 x3 = false → m.badShape = true → d.acceptLaunch regs l = d3.writeCompletion regs m 0x13) ∧
        (badHdr x0 x1 x2 x3 = false → m.badShape = false → m.hdr.noFit = true → d.acceptLaunch regs l = d3.writeCompletion regs m 0x14) ∧
        (badHdr x0 x1 x2 x3 = false → m.badShape = false → m.hdr.noFit = false → d3.coFit m = true →
          d.acceptLaunch regs l = d3.writeCompletion regs m 0x15) ∧
        (badHdr x0 x1 x2 x3 = false → m.badShape = false → m.hdr.noFit = false → d3.coFit m = false →
          (w 8 = 0 → d.acceptLaunch regs l = d3.dispatchLaunch m) ∧
          (∀ k d4, w 8 ≠ 0 → d3.place regs dispCore l.space (w 8) .rd = (.fault k, d4) → d.acceptLaunch regs l = d4.writeCompletion regs m 0x11) ∧
          (∀ p d4, w 8 ≠ 0 → d3.place regs dispCore l.space (w 8) .rd = (.ok p, d4) →
            (d4.poisoned p.pa = true → d.acceptLaunch regs l = d4.writeCompletion regs m 0x11) ∧
            (d4.poisoned p.pa = false →
              let wide := (l.record.getD 10 0).getLsbD 11
              let holds := condHolds ((l.record.getD 10 0).extractLsb' 8 3).toNat wide (Cells.bytes d4.mem.cells p.pa (if wide then 8 else 4)) (w 9)
              (holds = false → d.acceptLaunch regs l = (d4.launchSignal m false).writeCompletion regs m 0x01) ∧
              (holds = true → ∃ fs sat, d.acceptLaunch regs l =
                d4.dispatchLaunch { m with parent := m.parent ++ fs, parentSat := m.parentSat || sat }))))))) ∧
  (∀ a b e f : DWord, let h := KHdr.ofWords a b e
    h.vregs = (a.extractLsb' 19 10).toNat ∧ h.acc = (a.extractLsb' 4 8).toNat ∧ h.depth = (a.extractLsb' 29 5).toNat ∧
    h.race = a.extractLsb' 39 2 ∧ h.c16 = a.getLsbD 41 ∧ h.twin = a.getLsbD 38 ∧ h.bank = a.getLsbD 37 ∧
    h.threads = (b.extractLsb' 32 12).toNat ∧ h.entry = b.extractLsb' 0 32 ∧ h.handler = e.extractLsb' 0 32 ∧
    (a.extractLsb' 48 16 ≠ 0x7A3B ∨ (a.extractLsb' 44 4 ≠ 1 ∧ a.extractLsb' 44 4 ≠ 2) ∨ a.extractLsb' 42 2 = 3 ∨
      (a.extractLsb' 44 4 = 1 ∧ a.extractLsb' 42 2 ≠ 0) ∨ (h.c16 = true ∧ a.extractLsb' 44 4 = 2) ∨ h.race = 3 ∨ h.vregs = 0 ∨ 640 < h.vregs ∨
      (a.getLsbD 3 = true ∧ a.extractLsb' 12 7 ≠ 0) ∨ 128 < h.acc ∨ h.threads = 0 ∨ 2048 < h.threads ∨ f ≠ 0 → badHdr a b e f = true)) ∧
  (∀ wide v k, let n := if wide then 64 else 32
    let x := BitVec.ofNat n v
    let y := BitVec.ofNat n k
    condHolds 0 wide v k = (x == y) ∧ condHolds 1 wide v k = (x != y) ∧ condHolds 2 wide v k = x.slt y ∧ condHolds 3 wide v k = y.sle x ∧
      condHolds 4 wide v k = x.ult y ∧ condHolds 5 wide v k = y.ule x) ∧
  (∀ (d : Dev) regs l st, l.fromHost = true → l.ktag = 0 → ∃ ws : List DWord,
    d.writeCompletion regs l st = { d with host := { d.host with out := d.host.out ++ [.completion l.fn l.queue ws, .used l.fn l.queue 32] },
                                           disp := { d.disp with launches := d.disp.launches.filter (·.serial != l.serial) } } ∧
    ws.length = 4 ∧ ws.getD 0 0 = BitVec.ofNat 64 l.serial ∧ ws.getD 1 0 = BitVec.ofNat 64 st ∧ (st ≠ 0 → ws.getD 2 1 = 0) ∧ ws.getD 3 1 = 0) ∧
  (∀ (d : Dev) (l : Launch), ∃ cap,
    let e := d.dispatchLaunch l
    let total := (l.record.getD 1 0).toNat % 2 ^ 32 * ((l.record.getD 1 0).toNat / 2 ^ 32) * ((l.record.getD 2 0).toNat % 2 ^ 32)
    let m : Launch := { l with total := total, captured := cap, order := d.disp.nextOrder }
    let now (x : Launch) : List Launch := d.disp.launches.map fun y => if y.serial = l.serial then x else y
    e.mem.ccache = [] ∧ (∃ g, Tab.find? e.debug l.ctx.toNat = some g ∧ g.launched = true) ∧
    (l.hdr.race = 0 → e.disp.launches = now { m with stage := .dispatch } ∧ e.disp.nextOrder = d.disp.nextOrder + 1 ∧ e.disp.tags = d.disp.tags) ∧
    (∀ k, l.hdr.race ≠ 0 → d.disp.tags.next = some k → e.disp.launches = now { m with stage := .dispatch, ktag := BitVec.ofNat 8 k } ∧
      e.disp.tags = { d.disp.tags with last := k, live := d.disp.tags.live ++ [k] }) ∧
    (l.hdr.race ≠ 0 → d.disp.tags.next = none → e.disp.launches = now { m with stage := .tagwait })) ∧
  (∀ t : Tags, (∀ k, t.next = some k → 1 ≤ k ∧ k ≤ 255 ∧ k ∉ t.live ∧ k ∉ t.retiring ∧ k ∉ t.sweeping) ∧
    (t.next = none → ∀ k, 1 ≤ k → k ≤ 255 → k ∈ t.live ∨ k ∈ t.retiring ∨ k ∈ t.sweeping) ∧
    (∀ k, k = t.last % 255 + 1 → k ∉ t.live → k ∉ t.retiring → k ∉ t.sweeping → t.next = some k)) ∧
  (∀ s, (∀ l ∈ s.dev.disp.launches, l.stage ≠ .tagwait) → ∃ d : Dev, exec .kernelTagSweepPass s = .next { s with dev := d } ∧
    d.disp = { s.dev.disp with tags := { s.dev.disp.tags with sweeping := s.dev.disp.tags.retiring, retiring := [] } } ∧
    (∀ line, Tab.find? d.mem.rmeta line = (Tab.find? s.dev.mem.rmeta line).map fun x =>
      if (x.extractLsb' 56 8).toNat ∈ s.dev.disp.tags.sweeping then 0 else x) ∧
    (∀ j, j < s.regs.wsize * (16 * mib) → let k := s.regs.cbase + 8 * j
      Cells.bytes d.mem.cells k 8 = if Cells.bytes s.dev.mem.cells k 8 / 2 ^ 56 ∈ s.dev.disp.tags.sweeping then 0
        else Cells.bytes s.dev.mem.cells k 8) ∧
    (∀ k, k < s.regs.cbase ∨ s.regs.cbase + s.regs.wsize * (128 * mib) ≤ k → Cells.get d.mem.cells k = Cells.get s.dev.mem.cells k) ∧
    ({ d with disp := s.dev.disp, mem := s.dev.mem } : Dev) = s.dev)

/-! ### Placement, swaps, twins, power -/

/-- R24, R25, R30, R31, R33 to R35, R91, R176, R254 to R260, R279, R281, R344 to R347, R349: what a placement decision takes, the limits of a
place, where a fresh and a restored bolt's wefts go, swap-out, the hold of R255, the settlement of an interval, banks, and the power controller. -/
def Obligations.PlacementSteps : Prop :=
  (∀ s level pre u post spots, s.dev.disp.holds = [] → level < 24 → (level = 23 → s.dev.disp.smoulder = true) →
    (∀ k, k < level → ∀ v ∈ s.dev.batches k, s.tryBatch k v = none) → s.dev.batches level = pre ++ u :: post →
    (∀ v ∈ pre, s.tryBatch level v = none) →
    (s.findAll [] u.items s.dev.disp.lastPair [] = some spots → s.dev.recHeld s.regs u = false →
      exec .boltPlacement s = .next { s with dev := s.dev.placeBatch s.regs level u spots }) ∧
    (∀ ids, s.findAll [] u.items s.dev.disp.lastPair [] = none → s.dev.swapping = [] → ids ≠ [] →
      s.preempts level u.items s.dev.disp.lastPair [] [] = some ids →
      let mine : List (Nat × Nat) := ids.map fun x => ((u.items.head?.map fun it => it.serial).getD 0, x)
      exec .boltPlacement s = .next { s with
        dev := { s.dev.swapOut ids with disp := { s.dev.disp with victims := s.dev.disp.victims ++ mine } } })) ∧
  (∀ s, (∀ k, k < 24 → k ≤ s.pruneHolds.dev.heldLevel → (k = 23 → s.dev.disp.smoulder = true) →
      ∀ v ∈ s.pruneHolds.dev.batches k, s.pruneHolds.tryBatch k v = none) → exec .boltPlacement s = .next s.pruneHolds) ∧
  (∀ load (h : KHdr) budget pair free x, admitPair load h budget pair free = some x → x.pair = pair ∧
    (x.parts.map fun q => q.count).sum = h.nwefts ∧ ∀ q ∈ x.parts, q.core / 2 = pair ∧ q.s0 < 4 ∧ free q = true ∧ (load q.core).able = true ∧
      let l := (load q.core).add h q
      (∀ n ∈ l.regs, n ≤ 32768) ∧ (∀ n ∈ l.tiles, n ≤ 128) ∧ (∀ n ∈ l.slots, n ≤ 16) ∧ l.scratch ≤ 512 ∧ l.weight ≤ budget ∧
      l.weight = (load q.core).weight + q.count * h.weight ∧ l.scratch = (load q.core).scratch + h.scratchKiB ∧
      ∀ j, j < 4 → shareOn q.s0 q.count j ≠ 0 → (load q.core).closed.getD j false = false) ∧
  (∀ (s : State) gone done last it (x : Spot), s.findSpot gone done last it = some x → x.pair ∉ s.dev.disp.removed ∧ x.pair < 512) ∧
  (∀ (d : Dev) regs (l : Launch) age it core s0, d.wefts = [] → s0 < 4 → l.hdr.nwefts ≤ 64 → 0 < l.hdr.w → l.hdr.w ≤ 64 →
    let n := l.hdr.nwefts
    let e := d.placeFresh regs l age it { pair := core / 2, parts := [{ core := core, s0 := s0, first := 0, count := n }] }
    (∃ b : Bolt, e.bolts = d.bolts ++ [b] ∧ b.id = d.disp.nextBolt + 1 ∧ b.serial = l.serial ∧ b.idx = it.idx ∧ b.copy = it.copy ∧ b.st = .resident ∧
      b.pair = core / 2 ∧ b.core = core ∧ b.left = n ∧ b.scratch = [] ∧ b.bars = [] ∧ (l.twin = false → b.bank = none)) ∧
    e.disp.lastPair = core / 2 ∧ (e.core core).sp = BitVec.ofNat 2 (s0 + n) ∧
    ∀ k, k < n → ∃ w, e.weft? { core := core, shuttle := (s0 + k) % 4, slot := k / 4 } = some w ∧ w.widx = k ∧ w.bolt = d.disp.nextBolt + 1 ∧
      w.hdr = l.hdr ∧ w.ctx = l.ctx ∧ w.vregs = [] ∧ w.sregs = [] ∧ w.preds = [] ∧ w.qs = [] ∧ w.flags = [] ∧ w.tiles = [] ∧ w.fpst = [] ∧
      w.prio = d.levelOf l ∧ w.age = age ∧ w.kbase = (l.record.getD 0 0).extractLsb' 0 57 ∧ w.args = (l.record.getD 3 0).extractLsb' 0 57 ∧
      ∀ x ∈ w.entries, x.depth = 0 ∧ x.pc = l.hdr.entry ∧ x.resume = 0 ∧ x.state = .run ∧
        ∀ j, j < 64 → (x.mask.getLsbD j = true ↔ j < l.hdr.w ∧ k * l.hdr.w + j < l.hdr.threads)) ∧
  (∀ (d : Dev) regs (l : Launch) age (b : Bolt) core s0 n, d.wefts = [] → (∀ k ∈ d.fabric.colls, k.bolt ≠ b.id) → s0 < 4 → n ≤ 64 → b.id ≠ 0 → d.bolt? b.id = some b → (∀ x ∈ b.saved, x.widx < n) →
    (b.saved.map fun w => w.widx).Nodup →
    let e := d.placeSaved regs l age b { pair := core / 2, parts := [{ core := core, s0 := s0, first := 0, count := n }] }
    (∃ b', e.bolt? b.id = some b' ∧ b'.st = .resident ∧ b'.pair = core / 2 ∧ b'.core = core ∧ b'.scratch = b.scratch ∧ b'.bars = b.bars ∧
      b'.epoch = b.epoch ∧ b'.left = b.left ∧ b'.saved = []) ∧
    (b.saved.length = n → ∀ w ∈ b.saved, ∃ w', e.weft? { core := core, shuttle := (s0 + w.widx) % 4, slot := w.widx / 4 } = some w' ∧
      w'.prio = d.levelOf l ∧ w'.age = age ∧ w'.bolt = b.id ∧ w'.gated = false ∧
      ({ w' with crec := w.crec, asid := w.asid, prio := w.prio, age := w.age, gated := w.gated, bolt := w.bolt } : Weft) = w)) ∧
  (∀ (d : Dev) regs level (l : Launch) u, u.launch = some l → l.twin = false → l.cor = false → ∃ l' : Launch,
    l' = { l with nextB := l.nextB + 1, stage := if l.nextB + 1 = l.total then .running else .dispatch } ∧
    d.placeBatch regs level u [] = { d with disp := { d.disp with
      launches := d.disp.launches.map (fun x => if x.serial = l.serial then l' else x),
      rr := Tab.put d.disp.rr level l.order, holds := d.disp.holds.filter (· != l.serial) } }) ∧
  (∀ s bolt, (∀ b, s.dev.bolt? bolt = some b → b.st ≠ .swapping ∨ ∃ x ∈ s.dev.leaving b, s.dev.quiet x = false ∨ s.dev.boltParked x = true) →
    exec (.swapOutComplete bolt) s = .next s) ∧
  (∀ s bolt b, s.dev.bolt? bolt = some b → b.st = .swapping → (∀ x ∈ s.dev.leaving b, s.dev.quiet x = true ∧ s.dev.boltParked x = false) → ∃ d,
    exec (.swapOutComplete bolt) s = .next { s with dev := d } ∧ ∀ x ∈ s.dev.leaving b, ∃ y, d.bolt? x.id = some y ∧ y.st = .swapped) ∧
  (∀ s bolt b, s.dev.bolt? bolt = some b → b.st = .swapping → s.dev.leaving b = [b] → s.dev.quiet b = true → s.dev.boltParked b = false → ∃ d b',
    exec (.swapOutComplete bolt) s = .next { s with dev := d } ∧ d.bolt? bolt = some b' ∧ b'.st = .swapped ∧ b'.scratch = b.scratch ∧ b'.bars = b.bars ∧
    b'.epoch = b.epoch ∧ b'.left = b.left ∧ b'.bank = b.bank ∧
    b'.saved = (s.dev.boltWefts bolt).map (fun p => { p.2 with fetch := none, gated := false }) ∧
    (∀ p ∈ d.wefts, p.2.sup = true ∨ p.2.bolt ≠ bolt) ∧ (∀ r w, s.dev.weft? r = some w → w.sup = true ∨ w.bolt ≠ bolt → d.weft? r = some w) ∧
    (∀ x ∈ s.dev.cmds, x.bolt = bolt → x.held = false → ∃ y ∈ b'.savedCmds, y.handle = x.handle ∧ y.off = x.off ∧ y.desc = x.desc ∧
      y.flags = x.flags ∧ y.status = if x.status = .active then .queued else x.status) ∧
    (∀ x, x ∈ d.cmds ↔ x ∈ s.dev.cmds ∧ (x.bolt = bolt → x.status.final = true)) ∧
    ((∀ k, LinesOnce s.dev k) → ∀ p ∈ s.dev.boltWefts bolt, ∀ l ∈ d.l1 p.1.core, l.dirty = 0)) ∧
  (∀ s serial,
    (s.unplaceable serial = true → s.holdLasts serial = true → serial ∉ s.dev.disp.holds → exec (.dispatchHoldTimeout serial) s =
      .next { s with dev := { s.dev with disp := { s.dev.disp with holds := s.dev.disp.holds ++ [serial] } } }) ∧
    (s.unplaceable serial = false ∨ s.holdLasts serial = false ∨ serial ∈ s.dev.disp.holds → exec (.dispatchHoldTimeout serial) s = .next s.pruneHolds)) ∧
  (∀ s bolt, (∀ b, s.dev.bolt? bolt = some b → (s.dev.copiesOf b).length < 2 ∨ s.dev.intervalOver (s.dev.copiesOf b) = false) →
    exec (.twinIntervalSettle bolt) s = .next s) ∧
  (∀ s bolt b p q, s.dev.bolt? bolt = some b → s.dev.copiesOf b = [p, q] → s.dev.intervalOver [p, q] = true →
    let i : Instr := .twinIntervalSettle bolt
    (p.sig = q.sig → exec i s = .next { s with dev := s.dev.agree s.regs p [p, q] }) ∧
    (∀ k, p.sig ≠ q.sig → p.bank = some k → exec i s = .next { s with dev := s.dev.addThird p k })) ∧
  (∀ s bolt b p q t, s.dev.bolt? bolt = some b → s.dev.copiesOf b = [p, q, t] → s.dev.intervalOver [p, q, t] = true →
    let i : Instr := .twinIntervalSettle bolt
    (p.sig = q.sig → exec i s = .next { s with dev := (s.dev.discardCopy t).agree s.regs p [p, q] }) ∧
    (p.sig ≠ q.sig → p.sig = t.sig → exec i s = .next { s with dev := (s.dev.discardCopy q).agree s.regs p [p, t] }) ∧
    (p.sig ≠ q.sig → p.sig ≠ t.sig → q.sig = t.sig → exec i s = .next { s with dev := (s.dev.discardCopy p).agree s.regs t [q, t] }) ∧
    (∀ l, p.sig ≠ q.sig → p.sig ≠ t.sig → q.sig ≠ t.sig → s.dev.launchOf? p.id = some l → ∃ d : Dev, exec i s = .next { s with dev := d } ∧
      (∀ r w, d.weft? r = some w → w.sup = true ∨ w.ctx ≠ l.ctx) ∧ p.pair ∈ d.disp.scanQueue ∧ q.pair ∈ d.disp.scanQueue ∧ t.pair ∈ d.disp.scanQueue)) ∧
  (∀ (d : Dev) regs p q, p.id ≠ q.id → p.left ≠ 0 ∨ q.left ≠ 0 → let e := d.agree regs p [p, q]
    (∀ b, d.bolt? p.id = some b ∨ d.bolt? q.id = some b → ∃ b', e.bolt? b.id = some b' ∧ b'.sig = 0 ∧ b'.held = [] ∧ b'.heldBytes = 0 ∧
      b'.intervalNo = b.intervalNo + 1 ∧ b'.scratch = b.scratch ∧ (b.left ≠ 0 → b'.bankDue = true ∧ b'.atEnd = false)) ∧
    (∀ h, p.held = [h] → d.mem.marks = [] → d.mem.l2peer = [] → (∀ k, d.l1? k (lineOf h.pa) = none) → BytesAt d e h.pa h.size (h.data % 2 ^ (8 * h.size))) ∧
    (p.held = [] → ∀ k, Cells.get e.mem.cells k = Cells.get d.mem.cells k)) ∧
  (∀ (d : Dev) p k, ∃ b : Bolt, (d.addThird p k).bolts = d.bolts ++ [b] ∧ b.serial = p.serial ∧ b.idx = p.idx ∧ b.copy = 2 ∧ b.st = .swapped ∧
    b.saved = k.wefts ∧ b.scratch = k.scratch ∧ b.bars = k.bars ∧ b.epoch = k.epoch) ∧
  (∀ s bolt, (∀ b, s.dev.bolt? bolt = some b → b.bankDue = false ∨ b.st ≠ .resident ∨ s.dev.quiet b = false ∨ s.dev.enginesBusy b = true ∨
      ∃ p ∈ s.dev.boltWefts bolt, p.2.flags ≠ []) → exec (.bankTake bolt) s = .next s) ∧
  (∀ s bolt b, s.dev.bolt? bolt = some b → b.bankDue = true → b.st = .resident → (s.dev.twinOf b = none ∨ b.atEnd = false) → s.dev.quiet b = true →
    s.dev.enginesBusy b = false → (∀ p ∈ s.dev.boltWefts bolt, p.2.flags = []) → b.barDue = false → (∀ p ∈ s.dev.wefts, p.2.ending = none) →
    ∃ d b' k, exec (.bankTake bolt) s = .next { s with dev := d } ∧ d.bolt? bolt = some b' ∧ b'.bank = some k ∧ b'.bankDue = false ∧
    k.wefts = (s.dev.boltWefts bolt).map (fun p => p.2) ∧ k.scratch = b.scratch ∧ k.smeta = b.smeta ∧ k.bars = b.bars ∧ k.epoch = b.epoch ∧
    b'.scratch = b.scratch ∧ ({ d with bolts := s.dev.bolts } : Dev) = s.dev) ∧
  (∀ s m, let set := min 11500 (s.regs.power.extractLsb' 0 16).toNat
    let on : Prop := s.regs.power.getLsbD 31 = true ∧ set ≠ 0
    let low (b : Bolt) : Prop := b ∈ s.dev.bolts ∧ b.st = .resident ∧ s.dev.boltLevel b = 23
    ∃ (d : Dev) (p : DWord), exec (.powerEvaluation m) s = .next { s with regs := { s.regs with power := p }, dev := d } ∧
      p.extractLsb' 32 16 = m ∧ p.extractLsb' 0 32 = s.regs.power.extractLsb' 0 32 ∧ p.extractLsb' 48 16 = s.regs.power.extractLsb' 48 16 ∧
      d.disp.budget = max 16 (min 128 (s.regs.power.extractLsb' 16 8).toNat) ∧ d.disp.gap = (s.regs.power.extractLsb' 24 5).toNat ∧
      (d.disp.smoulder = true ↔ on ∧ 1000 * m.toNat < 985 * set) ∧
      (on → 1000 * m.toNat ≤ 1015 * set → d.bolts = s.dev.bolts) ∧
      (¬on → ∀ b, low b → ∃ b' ∈ d.bolts, b' = { b with st := .swapping }) ∧
      (on → 1015 * set < 1000 * m.toNat → ∀ b, low b → (∀ x, low x → x ≠ b → x.placed < b.placed) → (∃ x ∈ s.dev.wefts, x.2.sup = false) →
        ∃ b' ∈ d.bolts, b' = { b with st := .swapping }) ∧
      (∀ b ∈ s.dev.bolts, (∀ x ∈ s.dev.bolts, x.id = b.id → x = b) → (∀ x, low x → x.serial ≠ b.serial) → b ∈ d.bolts))

/-! ### The platform -/

/-- R11, R338 to R342, R352, R363, R364: the thermal evaluation, the end of a scrub pass, the start, abort and end of a scan, and a patrol read
that finds symbols in error. -/
def Obligations.PlatformSteps : Prop :=
  (∀ s stackRows, exec (.thermalEvaluation [] stackRows) s = .next { s with
    dev := { s.dev with host := { s.dev.host with us := s.dev.host.us + 10 } }, plat := { s.plat.refresh stackRows with die := [] } }) ∧
  (∀ s x xs stackRows, let t := (x :: xs).foldl max x
    let p := s.plat
    ∃ s' : State, exec (.thermalEvaluation (x :: xs) stackRows) s = .next s' ∧ s'.regs = s.regs ∧ s'.dev.host.us = s.dev.host.us + 10 ∧
      s'.plat.die = x :: xs ∧ (864 ≤ t → s'.plat.duty = max 4 (p.duty - 1)) ∧ (t < 848 → p.duty < 16 → s'.plat.duty = p.duty + 1) ∧
      (848 ≤ t ∧ t < 864 ∨ t < 848 ∧ 16 ≤ p.duty → s'.plat.duty = p.duty) ∧
      (s'.plat.warned = true ↔ 800 ≤ t ∨ 784 ≤ t ∧ p.warned = true) ∧ (s'.plat.tripped = true ↔ 944 ≤ t ∨ p.tripped = true) ∧
      (944 ≤ t → p.tripped = false → s'.dev.disp.launches = [] ∧ (∀ k ∈ s'.dev.keys, 65536 ≤ k.1 / 16) ∧
        ∀ r w, s'.dev.weft? r = some w → w.sup = true ∨ w.ctx.toNat ∉ s.dev.contexts) ∧
      (t < 944 ∨ p.tripped = true → s'.dev.wefts = s.dev.wefts ∧ s'.dev.disp = s.dev.disp ∧ s'.dev.mem = s.dev.mem) ∧
      (800 ≤ t → p.warned = false → t < 944 → s.dev.host.waiting.length < 256 →
        ∃ e, s'.dev.host.waiting = s.dev.host.waiting ++ [e] ∧ e.getD 0 0 = 4 ∧ e.getD 1 0 = BitVec.ofNat 64 (s.dev.host.us + 10)) ∧
      (∀ k y, k < 12 → stackRows[k]? = some y → (s'.plat.stack k).valid = true ∧ (s'.plat.stack k).temp = y ∧ (s'.plat.stack k).refresh = nextRefresh (p.stack k).refresh y)) ∧
  (∀ (row : Nat) (t : Int), (row ≤ refreshRow t → nextRefresh row t = refreshRow t) ∧
    (refreshRow t < row → row ≤ 3 → nextRefresh row t = row ∨ nextRefresh row t = row - 1) ∧
    (t ≤ 664 → row = 1 → nextRefresh row t = 0) ∧ (664 < t → row = 1 → 1 ≤ nextRefresh row t)) ∧
  (∀ s, ∃ p : Plat, exec .scrubPassEnd s = .next { s with plat := p } ∧ (∀ k, p.stack k = { s.plat.stack k with bloom := [] }) ∧
    ({ p with stackRows := s.plat.stackRows } : Plat) = s.plat) ∧
  (∀ s pair, pair ∈ s.dev.disp.scanQueue → s.dev.pairIdle pair = false → ∃ d : Dev, exec (.scanStart pair) s = .next { s with dev := d } ∧
    (∀ b ∈ s.dev.bolts, b.pair = pair → b.st = .resident → ∃ b' ∈ d.bolts, b' = { b with st := .swapping }) ∧
    ({ d with bolts := s.dev.bolts } : Dev) = s.dev) ∧
  (∀ s pair, pair ∉ s.dev.disp.scanQueue ∨ s.dev.pairIdle pair = true →
    (s.scanNext pair = true → s.plat.scans.length < 8 → ∃ q, (q = true ↔ pair ∈ s.dev.disp.scanQueue) ∧ exec (.scanStart pair) s = .next { s with
      plat := { s.plat with scans := s.plat.scans ++ [{ pair := pair, queued := q }] },
      dev := { s.dev with disp := { s.dev.disp with scanQueue := s.dev.disp.scanQueue.filter (· != pair) } } }) ∧
    (s.scanNext pair = false ∨ 8 ≤ s.plat.scans.length → exec (.scanStart pair) s = .next s)) ∧
  (∀ (s : State) pair, s.dev.disp.scanQueue = [] → s.scanNext pair = true → pair < 512 ∧ pair ∉ s.dev.disp.removed ∧ s.dev.pairIdle pair = true ∧
    (∀ x ∈ s.plat.scans, x.pair ≠ pair) ∧ ∀ k, k < 512 → k ∉ s.dev.disp.removed → s.dev.pairIdle k = true → (∀ x ∈ s.plat.scans, x.pair ≠ k) →
      Tab.getD 0 s.plat.lastScan pair ≤ Tab.getD 0 s.plat.lastScan k) ∧
  (∀ (s : State) level, (s.plat.scanLevel < level → s.abortScans level = s) ∧
    (level ≤ s.plat.scanLevel → (s.abortScans level).plat.scans = [] ∧ ∀ x ∈ s.plat.scans, x.queued = true →
      x.pair ∈ (s.abortScans level).dev.disp.scanQueue)) ∧
  (∀ s pair pass, (∀ x ∈ s.plat.scans, x.pair ≠ pair) → exec (.scanComplete pair pass) s = .next s) ∧
  (∀ s pair, (∃ x ∈ s.plat.scans, x.pair = pair) →
    let p : Plat := { s.plat with scans := s.plat.scans.filter (·.pair != pair), lastScan := Tab.put s.plat.lastScan pair s.dev.host.us }
    exec (.scanComplete pair true) s = .next { s with plat := p } ∧
    (s.plat.spares = [] → ∃ d : Dev, exec (.scanComplete pair false) s = .next { s with plat := p, dev := d } ∧
      d.disp = { s.dev.disp with removed := s.dev.disp.removed ++ [pair] } ∧ (s.dev.host.waiting.length < 256 →
        ∃ e, d.host.waiting = s.dev.host.waiting ++ [e] ∧ e.getD 0 0 = 3)) ∧
    (∀ phys rest, s.plat.spares = phys :: rest → ∃ d : Dev,
      exec (.scanComplete pair false) s = .next { s with plat := { p with coreMap := Tab.put p.coreMap pair phys, spares := rest }, dev := d } ∧
      d.disp = s.dev.disp ∧ (∀ j, j < 8 → (d.sh (8 * pair + j)).closed = false ∧ (d.sh (8 * pair + j)).fencedSub = []) ∧
      (∀ k, k / 8 ≠ pair → d.sh k = s.dev.sh k) ∧ (s.dev.host.waiting.length < 256 →
        ∃ e, d.host.waiting = s.dev.host.waiting ++ [e] ∧ e.getD 0 0 = 3))) ∧
  (∀ s (r : HbmRead) (errs : List Nat), let k := s.plat.stack r.stack
    let gone := Tab.getD [] k.erased r.pch
    errs.Nodup → (∀ e, e ∈ errs ↔ e ∈ r.errors ∧ e < 72 ∧ e ∉ gone) →
    (errs = [] ∨ 12 ≤ r.stack ∨ hbmBytes ≤ 64 * r.line → exec (.patrolScrubRead r) s = .next s) ∧
    (errs ≠ [] → r.stack < 12 → 64 * r.line < hbmBytes →
      (8 < 2 * errs.length + gone.length → ∃ d : Dev, exec (.patrolScrubRead r) s = .next { s with dev := d } ∧
        (∀ l, l ∈ d.mem.poison ↔ l = r.line ∨ l ∈ s.dev.mem.poison) ∧
        ({ d with mem := { d.mem with poison := s.dev.mem.poison } } : Dev) = s.dev) ∧
      (2 * errs.length + gone.length ≤ 8 → ∃ p : Plat, exec (.patrolScrubRead r) s = .next { s with plat := p } ∧
        (∀ j, j ≠ r.stack → p.stack j = s.plat.stack j) ∧ ({ p with stackRows := s.plat.stackRows, log := s.plat.log } : Plat) = s.plat ∧
        (bloomBits r.pch r.row ≠ [] → (∀ b ∈ bloomBits r.pch r.row, b ∉ k.bloom) → ∃ x : DWord × DWord,
          p.log = (s.plat.log ++ [x]).drop (s.plat.log.length + 1 - 4096) ∧ x.1.extractLsb' 32 32 = BitVec.ofNat 32 r.row ∧
          x.1.extractLsb' 19 6 = BitVec.ofNat 6 r.pch ∧ x.1.extractLsb' 15 4 = BitVec.ofNat 4 r.stack ∧ x.1.extractLsb' 12 3 = 0 ∧
          x.1.extractLsb' 8 4 = BitVec.ofNat 4 errs.length ∧ x.2 = BitVec.ofNat 64 s.dev.host.us ∧
          (∀ b ∈ bloomBits r.pch r.row, b ∈ (p.stack r.stack).bloom) ∧ (p.stack r.stack).tracker = k.tracker) ∧
        ((∀ b ∈ bloomBits r.pch r.row, b ∈ k.bloom) → (∀ t ∈ k.tracker, ¬(t.pch = r.pch ∧ t.row = r.row)) → k.tracker.length < 64 →
          1 < s.plat.threshold → p.log = s.plat.log ∧ ∃ t : Track, (p.stack r.stack).tracker = k.tracker ++ [t] ∧ t.pch = r.pch ∧ t.row = r.row ∧
          t.count = 1 ∧ ∀ e, e ∈ t.pins ↔ e ∈ errs))))

/-- R168, R173, R189, R207, R297, R298, R318, R340: accesses from the host and from peers, evictions, and page migration. A write stores its bytes and no
others; of what the race metadata of the line becomes, nothing is said here. -/
def Obligations.BusAndMigrationSteps : Prop :=
  (∀ s addr n, (hbmBytes < addr + n → exec (.cxlMemAccess addr (.read n)) s = .next s) ∧
    (addr + n ≤ hbmBytes → ∃ d bs, exec (.cxlMemAccess addr (.read n)) s = .next { s with dev := d } ∧
      d.host.out = s.dev.host.out ++ [.readData bs] ∧ bs.length = n ∧ (∀ j, j < n → bs[j]? = some (Cells.get s.dev.mem.cells (addr + j))) ∧
      (∀ l ∈ linesOf addr n, l ∈ d.mem.hostHeld) ∧ d.mem.cells = s.dev.mem.cells)) ∧
  (∀ s addr data, (hbmBytes < addr + data.length → exec (.cxlMemAccess addr (.write data)) s = .next s) ∧
    (addr + data.length ≤ hbmBytes → s.dev.mem.marks = [] → ∃ d : Dev, exec (.cxlMemAccess addr (.write data)) s = .next { s with dev := d } ∧
      (∀ j, j < data.length → data[j]? = some (Cells.get d.mem.cells (addr + j))) ∧
      (∀ k, k < addr ∨ addr + data.length ≤ k → Cells.get d.mem.cells k = Cells.get s.dev.mem.cells k) ∧
      (∀ l, addr ≤ 64 * l → 64 * l + 64 ≤ addr + data.length → l ∉ d.mem.poison ∧ l ∉ d.mem.hostHeld) ∧ d.wefts = s.dev.wefts)) ∧
  (∀ s addr op w64 b k, exec (.cxlMemAccess addr (.atomic op w64 b k)) s = .next s) ∧
  (∀ s addr data inval, (2 ^ 52 < addr + data.length → exec (.cxlCacheSnoop addr data inval) s = .next s) ∧
    (addr + data.length ≤ 2 ^ 52 → ∃ d : Dev, exec (.cxlCacheSnoop addr data inval) s = .next { s with dev := d } ∧
      (∀ j, j < data.length → data[j]? = some (Cells.get d.mem.cells (pkey 1 addr + j))) ∧
      (∀ k, k < pkey 1 addr ∨ pkey 1 addr + data.length ≤ k → Cells.get d.mem.cells k = Cells.get s.dev.mem.cells k) ∧ d.wefts = s.dev.wefts)) ∧
  (∀ s src addr op n, (op = .read n ∨ (∃ data, op = .write data ∧ data.length = n) ∨ (∃ a b k, op = .atomic a false b k ∧ n = 4) ∨
      ∃ a b k, op = .atomic a true b k ∧ n = 8) →
    (hbmBytes < addr + n ∨ (∃ l ∈ linesOf addr n, s.regs.inCarve (64 * l) = true) → exec (.ualinkPeerAccess src addr op) s = .next s) ∧
    (addr + n ≤ hbmBytes → (∀ l ∈ linesOf addr n, s.regs.inCarve (64 * l) = false) → s.dev.mem.marks = [] → ∃ d : Dev,
      (∀ j, (∃ data : List Byte, op = .write data) → ∃ data : List Byte, op = .write data ∧ d.fabric = s.dev.fabric ∧
        (j < n → data[j]? = some (Cells.get d.mem.cells (addr + j)))) ∧
      (op = .read n → d.mem = s.dev.mem ∧ ∃ bs, d.fabric.outbox = s.dev.fabric.outbox ++ [.peerData src bs] ∧ bs.length = n ∧
        ∀ j, j < n → bs[j]? = some (Cells.get s.dev.mem.cells (addr + j))) ∧
      (∀ a w64 b k, op = .atomic a w64 b k → addr % n = 0 → ∃ bs, d.fabric.outbox = s.dev.fabric.outbox ++ [.peerData src bs] ∧ bs.length = n ∧
        (∀ j, j < n → bs[j]? = some (Cells.get s.dev.mem.cells (addr + j))) ∧
        Cells.bytes d.mem.cells addr n =
          atomVal a (8 * n) (Cells.bytes s.dev.mem.cells addr n) (b.toNat % 2 ^ (8 * n)) (k.toNat % 2 ^ (8 * n)) % 2 ^ (8 * n)) ∧
      (∀ k, k < addr ∨ addr + n ≤ k → Cells.get d.mem.cells k = Cells.get s.dev.mem.cells k) ∧ d.wefts = s.dev.wefts ∧
      ((∀ a w64 b k, op = .atomic a w64 b k → addr % n = 0) → exec (.ualinkPeerAccess src addr op) s = .next { s with dev := d }) ∧
      (∀ a w64 b k, op = .atomic a w64 b k → addr % n ≠ 0 → exec (.ualinkPeerAccess src addr op) s = .next s))) ∧
  (∀ s core line l, LinesOnce s.dev core → s.dev.l1? core line = some l → ∃ d : Dev,
    exec (.lineEviction false core line) s = .next { s with dev := d } ∧ d.l1? core line = none ∧
    (∀ j, j < 8 → Cells.bytes d.mem.cells (64 * line + 8 * j) 8 =
      if l.dirty.getLsbD j then l.word j else Cells.bytes s.dev.mem.cells (64 * line + 8 * j) 8) ∧
    (∀ k, k / 64 ≠ line → Cells.get d.mem.cells k = Cells.get s.dev.mem.cells k) ∧ d.wefts = s.dev.wefts) ∧
  (∀ s core line, s.dev.l1? core line = none → ∃ d : Dev, exec (.lineEviction false core line) s = .next { s with dev := d } ∧
    d.mem.cells = s.dev.mem.cells ∧ ∀ k, d.l1? core k = s.dev.l1? core k) ∧
  (∀ s core line, line / 2 ^ 58 = 3 → exec (.lineEviction true core line) s = .next s) ∧
  (∀ s core line, line / 2 ^ 58 ≠ 3 → (∀ k ∈ s.dev.mem.marks, k.line ≠ line) → ∃ d : Dev,
    exec (.lineEviction true core line) s = .next { s with dev := d } ∧
    ((∀ p ∈ s.dev.mem.l1, ∀ x ∈ p.2, x.region = 2 → x.line ≠ lineOf (s.regs.metaAt line)) → d.mem.l1 = s.dev.mem.l1) ∧
    (line / 2 ^ 58 = 2 → ∀ j, j < 64 → Tab.find? d.mem.l2peer (64 * line + j) = none) ∧
    (∀ e, e ∈ d.mem.sidecar ↔ e ∈ s.dev.mem.sidecar ∧ e.key ≠ .line line) ∧
    (∀ w, Tab.find? s.dev.mem.rmeta line = some w → line / 2 ^ 58 = 0 → s.regs.inWindow (64 * line) = true →
      Cells.bytes d.mem.cells (s.regs.metaAt line) 8 = w.toNat ∧
      ∀ k, (k < s.regs.metaAt line ∨ s.regs.metaAt line + 8 ≤ k) → Cells.get d.mem.cells k = Cells.get s.dev.mem.cells k) ∧
    (Tab.find? s.dev.mem.rmeta line = none ∨ line / 2 ^ 58 ≠ 0 ∨ s.regs.inWindow (64 * line) = false → d.mem.cells = s.dev.mem.cells)) ∧
  (∀ s tag (addr : DWord), Serves s 0 → let i : Instr := .migrate 0 tag addr
    let at_ := pkey 1 addr.toNat
    let w (k : Nat) : DWord := BitVec.ofNat 64 (Cells.bytes s.dev.mem.cells (at_ + 8 * k) 8)
    let bad : Prop := 2 ^ 52 < addr.toNat + 32 ∨ lineOf at_ ∈ s.dev.mem.poison ∨ lineOf (at_ + 31) ∈ s.dev.mem.poison
    (bad → exec i s = .next (answered s 0 tag 4 [])) ∧
    (¬bad → ∃ g : Mig, g.stage = .waiting ∧ g.record = at_ ∧ g.va = (w 0).extractLsb' 0 57 &&& 0x1FFFFFFFFFFF000 ∧ g.asid = (w 1).extractLsb' 0 16 ∧
      g.newTarget = (w 2).extractLsb' 52 4 ∧ g.newFrame = ((w 2).extractLsb' 12 40).toNat ∧ exec i s = .next (answered { s with dev :=
        { s.dev with nextOp := s.dev.nextOp + 1, mem := { s.dev.mem with migs := s.dev.mem.migs ++ [g] } } } 0 tag 0 []))) ∧
  (∀ s, (∀ g ∈ s.dev.mem.migs, g.stage ≠ .waiting) ∨ 16 ≤ (s.dev.mem.migs.filter fun g => g.stage != .waiting).length →
    exec .migrationStart s = .next s) ∧
  (∀ s g, s.dev.mem.migs.find? (fun g => g.stage == .waiting) = some g → (s.dev.mem.migs.filter fun g => g.stage != .waiting).length < 16 →
    let as := s.dev.spaceOf g.asid
    let reserved : Prop := ∃ e, rawLeaf s.regs s.dev g.va.toNat 5 as.root = some e ∧ 3 < pteTarget e
    let ends (st : Nat) : Prop := ∃ d : Dev, exec .migrationStart s = .next { s with dev := d } ∧
      d.mem.migs.map (fun x => x.id) = (s.dev.mem.migs.filter fun x => x.id != g.id).map (fun x => x.id) ∧
      Cells.bytes d.mem.cells (g.record + 0x18) 8 = st ∧
      ∀ k, (k < g.record + 0x18 ∨ g.record + 0x20 ≤ k) → Cells.get d.mem.cells k = Cells.get s.dev.mem.cells k
    (s.dev.walk s.regs as g.va.toNat false = .hold → exec .migrationStart s = .next s) ∧
    (∀ k, s.dev.walk s.regs as g.va.toNat false = .fault k → (reserved → ends 2) ∧ (¬reserved → ends 4)) ∧
    (∀ x vpn pages leafAt, s.dev.walk s.regs as g.va.toNat false = .ok x vpn pages leafAt →
      (migBad s.regs g x vpn pages = true → ends 2) ∧
      (migBad s.regs g x vpn pages = false →
        let old := pkey x.target.toNat x.page
        let new := pkey g.newTarget.toNat (g.newFrame * 4096)
        let size := 4096 * pages
        ∃ d g', exec .migrationStart s = .next { s with dev := d } ∧ d.mem.migs.find? (fun y => y.id == g.id) = some g' ∧ g'.stage = .round ∧
          g'.rounds = 1 ∧ g'.leafAt = leafAt ∧ g'.oldPa = old ∧ g'.newPa = new ∧ g'.size = size ∧
          (old + size ≤ new ∨ new + size ≤ old → (∀ k, k < size → Cells.get d.mem.cells (new + k) = Cells.get s.dev.mem.cells (old + k)) ∧ g'.bits = []) ∧
          (∀ k, (k < new ∨ new + size ≤ k) → Cells.get d.mem.cells k = Cells.get s.dev.mem.cells k)))) ∧
  (∀ s id, s.dev.mem.migs.find? (fun g => g.id == id && g.stage != .waiting) = none → exec (.migrationRound id) s = .next s) ∧
  (∀ s id g, s.dev.mem.migs.find? (fun g => g.id == id && g.stage != .waiting) = some g → g.stage = .round → 4 < g.bits.length → g.rounds < 8 →
    g.oldPa + g.size ≤ g.newPa ∨ g.newPa + g.size ≤ g.oldPa → (∀ k ∈ g.bits, 64 * k + 64 ≤ g.size) → g.newPa % 64 = 0 →
    (∀ x ∈ s.dev.mem.migs, x.id = id → x = g) → ∃ d g', exec (.migrationRound id) s = .next { s with dev := d } ∧
    d.mem.migs.find? (fun x => x.id == id) = some g' ∧ g' = { g with rounds := g.rounds + 1, bits := [] } ∧
    (∀ k, k < g.size → Cells.get d.mem.cells (g.newPa + k) =
      if k / 64 ∈ g.bits then Cells.get s.dev.mem.cells (g.oldPa + k) else Cells.get s.dev.mem.cells (g.newPa + k)) ∧
    (∀ k, (k < g.newPa ∨ g.newPa + g.size ≤ k) → Cells.get d.mem.cells k = Cells.get s.dev.mem.cells k)) ∧
  (∀ s id g, s.dev.mem.migs.find? (fun g => g.id == id && g.stage != .waiting) = some g → g.stage = .round → g.bits.length ≤ 4 ∨ 8 ≤ g.rounds →
    pkey 1 0 ≤ g.record → g.leafAt + 8 ≤ hbmBytes →
    let leaf : DWord := BitVec.ofNat 64 (Cells.bytes s.dev.mem.cells g.leafAt 8)
    let same : Prop := leaf &&& ~~~0x180#64 = g.leaf &&& ~~~0x180#64
    (¬same → ∃ d : Dev, exec (.migrationRound id) s = .next { s with dev := d } ∧ (∀ x ∈ d.mem.migs, x.id ≠ g.id) ∧
      Cells.bytes d.mem.cells (g.record + 0x18) 1 = 3 ∧ Cells.bytes d.mem.cells (g.record + 0x19) 1 = g.rounds % 256 ∧
      ∀ k, (k < g.record + 0x18 ∨ g.record + 0x20 ≤ k) → Cells.get d.mem.cells k = Cells.get s.dev.mem.cells k) ∧
    (same → s.dev.mem.l1 = [] → ∃ d g', exec (.migrationRound id) s = .next { s with dev := d } ∧
      d.mem.migs.find? (fun x => x.id == id) = some g' ∧ g'.stage = .frozen ∧ InvLeaves s.dev d .page g.va g.asid ∧
      BytesAt s.dev d g.leafAt 8 (leaf ||| 0x800).toNat)) ∧
  (∀ s id g, s.dev.mem.migs.find? (fun g => g.id == id && g.stage != .waiting) = some g → g.stage = .frozen → s.dev.fabric.colls = [] →
    (∀ l ∈ s.dev.disp.launches, l.stage ≠ .completing) → pkey 1 0 ≤ g.record → g.leafAt + 8 ≤ hbmBytes → (∀ k ∈ g.bits, 64 * k + 64 ≤ g.size) →
    g.oldPa + g.size ≤ g.newPa ∨ g.newPa + g.size ≤ g.oldPa → g.leafAt + 8 ≤ g.newPa ∨ g.newPa + g.size ≤ g.leafAt →
    g.record + 0x20 ≤ g.newPa ∨ g.newPa + g.size ≤ g.record →
    let leaf : DWord := BitVec.ofNat 64 (Cells.bytes s.dev.mem.cells g.leafAt 8)
    ∃ d : Dev, exec (.migrationRound id) s = .next { s with dev := d } ∧ (∀ x ∈ d.mem.migs, x.id ≠ g.id) ∧
      Cells.bytes d.mem.cells (g.record + 0x18) 1 = 1 ∧ Cells.bytes d.mem.cells (g.record + 0x19) 1 = g.rounds % 256 ∧
      Cells.bytes d.mem.cells (g.record + 0x1A) 2 = g.bits.length % 65536 ∧
      (∀ k, k < g.size → Cells.get d.mem.cells (g.newPa + k) =
        if k / 64 ∈ g.bits then Cells.get s.dev.mem.cells (g.oldPa + k) else Cells.get s.dev.mem.cells (g.newPa + k)) ∧
      let new : DWord := BitVec.ofNat 64 (Cells.bytes d.mem.cells g.leafAt 8)
      new.extractLsb' 12 40 = BitVec.ofNat 40 g.newFrame ∧ new.extractLsb' 52 4 = g.newTarget ∧ new.extractLsb' 0 11 = leaf.extractLsb' 0 11 ∧
      new.getLsbD 11 = false ∧ new.extractLsb' 56 8 = leaf.extractLsb' 56 8)

/-! ### Encoding, the step, reset -/

/-- R92 to R122: words of the spec's own examples decode to the instructions that they stand for. -/
def Obligations.DecodesSpecWords : Prop :=
  let p7 : Guard := { uni := false, neg := false, num := 7 }
  let q7 : Guard := { uni := true, neg := false, num := 7 }
  let h (g : Guard) : Hdr := { last := false, guard := g, lit := none }
  decodeWords [0x0403808017FE0000, 0x6000000012345678] =
    some (.iadd { last := false, guard := p7, lit := some 0x12345678 } { ty := .s32, sat := false } (.vec 4) (.vec 2) .lit) ∧
  decodeWords [0x3700183A12040480] = some (.pairWord false q7 (some (.bin .add 3 3 (.imm 33)))
    (some { op := .fadd { rnd := .rn, sat := false, neg := false, abs := false }, vd := 8, vs := .vec 9 })) ∧
  decodeWords [0x140380D450040011] = some (.ld (h p7) { size := .b32, ord := .plain, scope := .weft, remote := false, ef := false, fb := true }
    (.vec 6) (.scal 10) (.imm 2)) ∧
  decodeWords [0x8010FFFFFFF60000] = some (.bra { last := true, guard := { uni := false, neg := false, num := 1 }, lit := none } (-5)) ∧
  decodeWords [0x18CB80143642C004] = some (.ecadd (h q7) { sync := true, scope := .dev, remote := false, fb := false } (.scal 6) (.imm 33)) ∧
  decodeWords [0x1003828008059000] = some (.shfl (h p7) .idx (.vec 20) (.vec 1) (.vec 2) (.imm 32)) ∧
  decodeWords [0x05838300A02A0B00] = some (.swizb (h p7) false (.vec 24) (.vec 20) (.vec 21) (.vec 22)) ∧
  decodeWords [0x180B8042050C0006] = some (.mma (h q7) { fmt := .c16b, chunks := 3, ra := false } 2 (.vec 64) (.scal 6) none) ∧
  decodeWords [0x106B81F900000000] = some (.sets (h q7) 15 (.imm 32)) ∧
  decodeWords [0x1C5B8014250A0001] = some (.tlbinvAsid (h q7) (.scal 4) (.scal 5)) ∧
  decodeWords [0x8093801906400000] =
    some (.bar { last := true, guard := p7, lit := none } .sync (.imm 32) (.imm 32)) ∧
  decodeWords [0x6000000000000000] = none

/-- R92 to R122: every well-formed instruction word is what the decoder reads from its encoding, with every operand at every value. -/
def Obligations.EncodingRoundTrip : Prop :=
  ∀ i : Instr, i.isWord = true → WellFormed i = true → decodeWords (encode i) = some i

/-- R51, R52, R92, R125, R363: a step runs the move at the head of the agenda: an instruction word as `exec` runs it on its shuttle, once it
decodes; an undecodable one traps ILL; a step of the device is `exec` of it; a thermal trip and a withheld cycle issue nothing. The words of
a pick are those that stand in memory after its header. That moves stand in an agenda is the model's own (notes/assumptions/1.md). -/
def Obligations.StepRunsDecodedWord : Prop :=
  (∀ s k rest run, s.agenda = .issue k :: rest → (s.dev.sh k).run = some run → s.plat.tripped = false →
    let t : State := { s with agenda := rest }
    let w := run.words.getD run.idx 0
    let next := run.words[run.idx + 1]?
    (s.plat.duty ≤ (s.dev.sh k).clock.toNat % 16 → step s = .next { t with dev := s.dev.waitCycle k 15 }) ∧
    ((s.dev.sh k).clock.toNat % 16 < s.plat.duty → run.atLiteral = false →
      (∀ i, decodeWord w next = .ok i → step s = exec i { t with cur := k }) ∧
      (∀ e, decodeWord w next = .error e → step s = .next (({ t with cur := k } : State).illegal w next e))) ∧
    ((s.dev.sh k).clock.toNat % 16 < s.plat.duty → run.atLiteral = true → step s = .next (({ t with cur := k } : State).illegal w next 4))) ∧
  (∀ s k rest, s.agenda = .issue k :: rest → (s.dev.sh k).run = none ∨ s.plat.tripped = true → step s = .next { s with agenda := rest }) ∧
  (∀ s i rest, s.agenda = .event i :: rest → (i.isWord = false → step s = exec i { s with agenda := rest }) ∧
    (i.isWord = true → step s = .next { s with agenda := rest })) ∧
  (∀ s, s.agenda = [] → (∀ m, s.ownMove = some m → step s = step { s with agenda := [m] }) ∧ (s.ownMove = none → step s = .next s)) ∧
  (∀ (d : Dev) regs core (w : Weft) (pc : BitVec 32) (p : Nat → Where) (ph : PickHdr), w.image = none → pc.toNat % 8 = 0 → 0x20 ≤ pc.toNat →
    let word (j : Nat) : DWord := BitVec.ofNat 64 (Cells.bytes d.mem.cells (p j).pa 8)
    pickHdrOf (word 0) = .ok ph →
    (∀ j, j ≤ ph.len + 1 → d.lookup regs core w.asid ((w.kbase.toNat + (pc.toNat + 8 * j)) % 2 ^ 57) .ex = .ok (p j) ∧ d.poisoned (p j).pa = false) →
    d.fetchAt regs core w pc = (.ok { pc := pc, header := word 0, words := (List.range (ph.len + 1)).map fun j => word (j + 1) }, d)) ∧
  (∀ s w e next c, s.ctxOf? { uni := true, neg := false, num := 7 } none = some c →
    s.illegal w next e = settleWord (.nop { last := false, guard := { uni := true, neg := false, num := 7 }, lit := none }) s c
      (.done s.dev 1 (trapsAt (lanesOf c.run.act) 0x01 (c.illegal w next e) 0 .here) []))

/-- R169, R204, R205, R252, R259, R271: the values that reset leaves where the spec states them. -/
def Obligations.ResetValues : Prop :=
  let r := State.reset.regs
  r.carve.extractLsb' 16 8 = 64 ∧ r.carve.extractLsb' 0 9 = 0 ∧ r.carve.extractLsb' 30 2 = 0 ∧ r.racewin = 0 ∧
  r.power.extractLsb' 16 8 = 64 ∧ r.power.extractLsb' 24 5 = 4 ∧ r.power.getLsbD 31 = false ∧ r.power.extractLsb' 0 16 = 0 ∧
  r.sventry = 0 ∧ r.svbase = 0 ∧ r.ctxtab = 0 ∧ r.carveNew = none ∧ r.racewinNew = none ∧ r.sventryNew = none ∧ r.svbaseNew = none ∧
  r.ctxtabNew = none ∧ State.reset.dev.disp.serial = 1 ∧ State.reset.dev.disp.tags.next = some 1 ∧
  (∀ id, (State.reset.dev.counter id).value = 0 ∧ (State.reset.dev.counter id).arm = false) ∧ regsOk r = true ∧
  State.reset.dev.mem.cells.wf = true

/-- R15, R259: every step keeps the limits of the carve register, of a carve that is pending, and of GAP. -/
def Obligations.StepKeepsRegisterLimits : Prop :=
  ∀ s t, regsOk s.regs = true → step s = .next t → regsOk t.regs = true
end

