-- ==== Sys2Proof/Laws/Cells.lean ====
section
/-! SUPPORT. Laws of the sparse storage and of the tables: a read gives the last write to its key, a write leaves every other key
alone, and every operation keeps the canonical form. -/

namespace Sys2Proof.Machine

/-! ### Reads after writes -/

theorem Cells.getD_put_same {w : Nat} (d v : BitVec w) (c : Cells w) (k : Nat) : Cells.getD d (Cells.put c k v) k = v := by
  induction c with
  | nil => simp [Cells.put, Cells.getD]
  | cons p c ih =>
    obtain ⟨a, x⟩ := p
    simp only [Cells.put]
    split
    · simp [Cells.getD]
    · split
      · simp [Cells.getD]
      · simp [Cells.getD, *]

theorem Cells.getD_put_other {w : Nat} (d v : BitVec w) (c : Cells w) {j k : Nat} (h : j ≠ k) :
    Cells.getD d (Cells.put c k v) j = Cells.getD d c j := by
  induction c with
  | nil => simp [Cells.put, Cells.getD, Ne.symm h]
  | cons p c ih =>
    obtain ⟨a, x⟩ := p
    simp only [Cells.put]
    split
    · next e => subst e; simp [Cells.getD, Ne.symm h]
    · split
      · simp [Cells.getD, Ne.symm h]
      · simp [Cells.getD, ih]

theorem Cells.getD_drop_same {w : Nat} (d : BitVec w) (c : Cells w) (k : Nat) :
    Cells.getD d (c.filter fun p => !(p.1 == k)) k = d := by
  induction c with
  | nil => rfl
  | cons p c ih =>
    obtain ⟨a, x⟩ := p
    by_cases e : a = k <;> simp_all [Cells.getD]

theorem Cells.getD_filter_key {w : Nat} (d : BitVec w) (c : Cells w) (f : Nat → Bool) {j : Nat} (h : f j = true) :
    Cells.getD d (c.filter fun p => f p.1) j = Cells.getD d c j := by
  induction c with
  | nil => rfl
  | cons p c ih =>
    obtain ⟨a, x⟩ := p
    by_cases e : a = j
    · subst e; simp [Cells.getD, h]
    · by_cases g : f a = true <;> simp_all [Cells.getD]

/-- What a key holds after a write. -/
theorem Cells.getD_setD {w : Nat} (d v : BitVec w) (c : Cells w) (k j : Nat) :
    Cells.getD d (Cells.setD d c k v) j = if j = k then v else Cells.getD d c j := by
  unfold Cells.setD
  by_cases e : j = k
  · subst e
    split
    · next h => simp [Cells.getD_drop_same, h]
    · simp [Cells.getD_put_same]
  · rw [if_neg e]
    split
    · exact Cells.getD_filter_key d c (fun a => !(a == k)) (by simpa using e)
    · exact Cells.getD_put_other d v c e

@[simp] theorem Cells.get_set {w : Nat} (c : Cells w) (k j : Nat) (v : BitVec w) :
    Cells.get (Cells.set c k v) j = if j = k then v else Cells.get c j := Cells.getD_setD 0 v c k j

/-! ### The canonical form -/

theorem Cells.wfFrom_mono {w : Nat} {d : BitVec w} {lo hi : Nat} (h : hi ≤ lo) {c : Cells w} (hc : Cells.wfFrom d lo c = true) :
    Cells.wfFrom d hi c = true := by
  cases c with
  | nil => rfl
  | cons p c =>
    obtain ⟨a, x⟩ := p
    simp only [Cells.wfFrom, Bool.and_eq_true, decide_eq_true_eq] at hc ⊢
    exact ⟨⟨by omega, hc.1.2⟩, hc.2⟩

theorem Cells.wfFrom_put {w : Nat} {d v : BitVec w} (hv : v ≠ d) {lo k : Nat} (hk : lo ≤ k) {c : Cells w}
    (hc : Cells.wfFrom d lo c = true) : Cells.wfFrom d lo (Cells.put c k v) = true := by
  induction c generalizing lo with
  | nil => simp [Cells.put, Cells.wfFrom, hk, hv]
  | cons p c ih =>
    obtain ⟨a, x⟩ := p
    simp only [Cells.wfFrom, Bool.and_eq_true, decide_eq_true_eq] at hc
    simp only [Cells.put]
    split
    · next e => subst e; simp [Cells.wfFrom, hk, hv, hc.2]
    · split
      · next _ g =>
        simp only [Cells.wfFrom, Bool.and_eq_true, decide_eq_true_eq]
        exact ⟨⟨hk, hv⟩, ⟨by omega, hc.1.2⟩, hc.2⟩
      · simp only [Cells.wfFrom, Bool.and_eq_true, decide_eq_true_eq]
        exact ⟨hc.1, ih (by omega) hc.2⟩

theorem Cells.wfFrom_filter {w : Nat} {d : BitVec w} (f : Nat × BitVec w → Bool) {lo : Nat} {c : Cells w}
    (hc : Cells.wfFrom d lo c = true) : Cells.wfFrom d lo (c.filter f) = true := by
  induction c generalizing lo with
  | nil => rfl
  | cons p c ih =>
    obtain ⟨a, x⟩ := p
    simp only [Cells.wfFrom, Bool.and_eq_true, decide_eq_true_eq] at hc
    rw [List.filter_cons]
    split
    · simp only [Cells.wfFrom, Bool.and_eq_true, decide_eq_true_eq]
      exact ⟨hc.1, ih hc.2⟩
    · exact Cells.wfFrom_mono (by omega) (ih hc.2)

/-- A write keeps the canonical form. -/
theorem Cells.wfD_setD {w : Nat} {d : BitVec w} (v : BitVec w) {c : Cells w} (k : Nat) (hc : Cells.wfD d c = true) :
    Cells.wfD d (Cells.setD d c k v) = true := by
  unfold Cells.setD
  split
  · exact Cells.wfFrom_filter _ hc
  · next h => exact Cells.wfFrom_put h (Nat.zero_le k) hc

theorem Cells.wf_clear {w : Nat} {c : Cells w} (lo n : Nat) (hc : c.wf = true) : (c.clear lo n).wf = true := Cells.wfFrom_filter _ hc

theorem Cells.wf_putBytes {c : Cells 8} (k n v : Nat) (hc : c.wf = true) : (Cells.putBytes c k n v).wf = true := by
  induction n generalizing c k v with
  | zero => exact hc
  | succ n ih => exact ih _ _ (Cells.wfD_setD _ _ hc)

theorem Cells.wf_putList {c : Cells 8} (k : Nat) (bs : List Byte) (hc : c.wf = true) : (Cells.putList c k bs).wf = true := by
  induction bs generalizing c k with
  | nil => exact hc
  | cons b bs ih => exact ih _ (Cells.wfD_setD _ _ hc)

/-! ### Bytes of wider values -/

/-- What a byte holds after a value of `n` bytes has been stored at `k`. -/
theorem Cells.get_putBytes (c : Cells 8) (k n v j : Nat) :
    Cells.get (Cells.putBytes c k n v) j =
      if k ≤ j ∧ j < k + n then BitVec.ofNat 8 (v / 256 ^ (j - k)) else Cells.get c j := by
  induction n generalizing c k v with
  | zero => simp only [Cells.putBytes]; rw [if_neg (by omega)]
  | succ n ih =>
    rw [Cells.putBytes, ih, Cells.get_set]
    by_cases e : j = k
    · subst e; rw [if_neg (by omega), if_pos rfl, if_pos (by omega)]; simp
    · by_cases g : k + 1 ≤ j ∧ j < k + 1 + n
      · rw [if_pos g, if_pos (by omega), Nat.div_div_eq_div_mul, show j - k = (j - (k + 1)) + 1 by omega, Nat.pow_succ, Nat.mul_comm]
      · rw [if_neg g, if_neg e, if_neg (by omega)]

theorem Cells.bytes_congr {c c' : Cells 8} {k n : Nat} (h : ∀ j, k ≤ j → j < k + n → Cells.get c j = Cells.get c' j) :
    Cells.bytes c k n = Cells.bytes c' k n := by
  induction n generalizing k with
  | zero => rfl
  | succ n ih =>
    rw [Cells.bytes, Cells.bytes, h k (Nat.le_refl k) (by omega), ih fun j a b => h j (by omega) (by omega)]

/-- The value read back where it was stored. -/
theorem Cells.bytes_putBytes (c : Cells 8) (k n v : Nat) : Cells.bytes (Cells.putBytes c k n v) k n = v % 256 ^ n := by
  induction n generalizing c k v with
  | zero => simp [Cells.bytes, Nat.mod_one]
  | succ n ih =>
    rw [Cells.bytes, Cells.get_putBytes, if_pos (by omega), Cells.putBytes, ih]
    rw [Nat.sub_self, Nat.pow_zero, Nat.div_one, BitVec.toNat_ofNat,
      show 256 ^ (n + 1) = 256 * 256 ^ n by rw [Nat.pow_succ, Nat.mul_comm], Nat.mod_mul]

/-! ### Tables -/

theorem Tab.find?_put {α : Type} (t : Tab α) (k j : Nat) (v : α) :
    Tab.find? (Tab.put t k v) j = if j = k then some v else Tab.find? t j := by
  induction t with
  | nil => simp [Tab.put, Tab.find?, eq_comm]
  | cons p t ih =>
    obtain ⟨a, x⟩ := p
    simp only [Tab.put]
    split
    · next e => subst e; by_cases g : j = a <;> simp [Tab.find?, g, eq_comm]
    · split
      · by_cases g : j = k
        · subst g; simp [Tab.find?]
        · simp [Tab.find?, g, Ne.symm g]
      · simp only [Tab.find?, ih]
        by_cases g : j = k
        · subst g; simp_all
        · simp [g]

@[simp] theorem Tab.getD_put {α : Type} (d : α) (t : Tab α) (k j : Nat) (v : α) :
    Tab.getD d (Tab.put t k v) j = if j = k then v else Tab.getD d t j := by
  unfold Tab.getD; rw [Tab.find?_put]; split <;> rfl

@[simp] theorem Tab.getD_upd {α : Type} (d : α) (t : Tab α) (k j : Nat) (f : α → α) :
    Tab.getD d (Tab.upd d t k f) j = if j = k then f (Tab.getD d t k) else Tab.getD d t j := by
  rw [Tab.upd, Tab.getD_put]

theorem Tab.find?_del {α : Type} (t : Tab α) (k j : Nat) : Tab.find? (Tab.del t k) j = if j = k then none else Tab.find? t j := by
  induction t with
  | nil => simp [Tab.del, Tab.find?]
  | cons p t ih =>
    obtain ⟨a, x⟩ := p
    unfold Tab.del at ih ⊢
    by_cases e : a = k
    · subst e
      simp only [List.filter_cons, beq_self_eq_true, Bool.not_true, Bool.false_eq_true, if_false, ih, Tab.find?]
      by_cases g : j = a <;> simp [g, eq_comm]
    · simp only [List.filter_cons, beq_eq_false_iff_ne.mpr e, Bool.not_false, if_true, Tab.find?, ih]
      by_cases g : a = j
      · subst g; simp [e]
      · simp [g]

end Sys2Proof.Machine
end

