-- ==== Sys2Proof/Laws/State.lean ====
section
/-! SUPPORT. One law per field for every update of the device that changes one field, and what the named reads give after it, so that no
proof unfolds a record update. -/

namespace Sys2Proof.Machine

/-! ### Dev.putW -/

@[simp] theorem putW_fresh (d : Dev) (r : WRef) (w : Weft) : (d.putW r w).fresh = d.fresh := rfl
@[simp] theorem putW_mem (d : Dev) (r : WRef) (w : Weft) : (d.putW r w).mem = d.mem := rfl
@[simp] theorem putW_wefts (d : Dev) (r : WRef) (w : Weft) : (d.putW r w).wefts = Tab.put d.wefts (refKey r) w := rfl
@[simp] theorem putW_shuttles (d : Dev) (r : WRef) (w : Weft) : (d.putW r w).shuttles = d.shuttles := rfl
@[simp] theorem putW_cores (d : Dev) (r : WRef) (w : Weft) : (d.putW r w).cores = d.cores := rfl
@[simp] theorem putW_ops (d : Dev) (r : WRef) (w : Weft) : (d.putW r w).ops = d.ops := rfl
@[simp] theorem putW_nextOp (d : Dev) (r : WRef) (w : Weft) : (d.putW r w).nextOp = d.nextOp := rfl
@[simp] theorem putW_cmds (d : Dev) (r : WRef) (w : Weft) : (d.putW r w).cmds = d.cmds := rfl
@[simp] theorem putW_gathers (d : Dev) (r : WRef) (w : Weft) : (d.putW r w).gathers = d.gathers := rfl
@[simp] theorem putW_slops (d : Dev) (r : WRef) (w : Weft) : (d.putW r w).slops = d.slops := rfl
@[simp] theorem putW_bolts (d : Dev) (r : WRef) (w : Weft) : (d.putW r w).bolts = d.bolts := rfl
@[simp] theorem putW_disp (d : Dev) (r : WRef) (w : Weft) : (d.putW r w).disp = d.disp := rfl
@[simp] theorem putW_counters (d : Dev) (r : WRef) (w : Weft) : (d.putW r w).counters = d.counters := rfl
@[simp] theorem putW_fabric (d : Dev) (r : WRef) (w : Weft) : (d.putW r w).fabric = d.fabric := rfl
@[simp] theorem putW_host (d : Dev) (r : WRef) (w : Weft) : (d.putW r w).host = d.host := rfl
@[simp] theorem putW_debug (d : Dev) (r : WRef) (w : Weft) : (d.putW r w).debug = d.debug := rfl
@[simp] theorem putW_keys (d : Dev) (r : WRef) (w : Weft) : (d.putW r w).keys = d.keys := rfl

/-! ### Dev.dropW -/

@[simp] theorem dropW_fresh (d : Dev) (r : WRef) : (d.dropW r).fresh = d.fresh := rfl
@[simp] theorem dropW_mem (d : Dev) (r : WRef) : (d.dropW r).mem = d.mem := rfl
@[simp] theorem dropW_wefts (d : Dev) (r : WRef) : (d.dropW r).wefts = Tab.del d.wefts (refKey r) := rfl
@[simp] theorem dropW_shuttles (d : Dev) (r : WRef) : (d.dropW r).shuttles = d.shuttles := rfl
@[simp] theorem dropW_cores (d : Dev) (r : WRef) : (d.dropW r).cores = d.cores := rfl
@[simp] theorem dropW_ops (d : Dev) (r : WRef) : (d.dropW r).ops = d.ops := rfl
@[simp] theorem dropW_nextOp (d : Dev) (r : WRef) : (d.dropW r).nextOp = d.nextOp := rfl
@[simp] theorem dropW_cmds (d : Dev) (r : WRef) : (d.dropW r).cmds = d.cmds := rfl
@[simp] theorem dropW_gathers (d : Dev) (r : WRef) : (d.dropW r).gathers = d.gathers := rfl
@[simp] theorem dropW_slops (d : Dev) (r : WRef) : (d.dropW r).slops = d.slops := rfl
@[simp] theorem dropW_bolts (d : Dev) (r : WRef) : (d.dropW r).bolts = d.bolts := rfl
@[simp] theorem dropW_disp (d : Dev) (r : WRef) : (d.dropW r).disp = d.disp := rfl
@[simp] theorem dropW_counters (d : Dev) (r : WRef) : (d.dropW r).counters = d.counters := rfl
@[simp] theorem dropW_fabric (d : Dev) (r : WRef) : (d.dropW r).fabric = d.fabric := rfl
@[simp] theorem dropW_host (d : Dev) (r : WRef) : (d.dropW r).host = d.host := rfl
@[simp] theorem dropW_debug (d : Dev) (r : WRef) : (d.dropW r).debug = d.debug := rfl
@[simp] theorem dropW_keys (d : Dev) (r : WRef) : (d.dropW r).keys = d.keys := rfl

/-! ### Dev.modSh -/

@[simp] theorem modSh_fresh (d : Dev) (k : Nat) (f : Shuttle → Shuttle) : (d.modSh k f).fresh = d.fresh := rfl
@[simp] theorem modSh_mem (d : Dev) (k : Nat) (f : Shuttle → Shuttle) : (d.modSh k f).mem = d.mem := rfl
@[simp] theorem modSh_wefts (d : Dev) (k : Nat) (f : Shuttle → Shuttle) : (d.modSh k f).wefts = d.wefts := rfl
@[simp] theorem modSh_shuttles (d : Dev) (k : Nat) (f : Shuttle → Shuttle) : (d.modSh k f).shuttles = Tab.upd Shuttle.reset d.shuttles k f := rfl
@[simp] theorem modSh_cores (d : Dev) (k : Nat) (f : Shuttle → Shuttle) : (d.modSh k f).cores = d.cores := rfl
@[simp] theorem modSh_ops (d : Dev) (k : Nat) (f : Shuttle → Shuttle) : (d.modSh k f).ops = d.ops := rfl
@[simp] theorem modSh_nextOp (d : Dev) (k : Nat) (f : Shuttle → Shuttle) : (d.modSh k f).nextOp = d.nextOp := rfl
@[simp] theorem modSh_cmds (d : Dev) (k : Nat) (f : Shuttle → Shuttle) : (d.modSh k f).cmds = d.cmds := rfl
@[simp] theorem modSh_gathers (d : Dev) (k : Nat) (f : Shuttle → Shuttle) : (d.modSh k f).gathers = d.gathers := rfl
@[simp] theorem modSh_slops (d : Dev) (k : Nat) (f : Shuttle → Shuttle) : (d.modSh k f).slops = d.slops := rfl
@[simp] theorem modSh_bolts (d : Dev) (k : Nat) (f : Shuttle → Shuttle) : (d.modSh k f).bolts = d.bolts := rfl
@[simp] theorem modSh_disp (d : Dev) (k : Nat) (f : Shuttle → Shuttle) : (d.modSh k f).disp = d.disp := rfl
@[simp] theorem modSh_counters (d : Dev) (k : Nat) (f : Shuttle → Shuttle) : (d.modSh k f).counters = d.counters := rfl
@[simp] theorem modSh_fabric (d : Dev) (k : Nat) (f : Shuttle → Shuttle) : (d.modSh k f).fabric = d.fabric := rfl
@[simp] theorem modSh_host (d : Dev) (k : Nat) (f : Shuttle → Shuttle) : (d.modSh k f).host = d.host := rfl
@[simp] theorem modSh_debug (d : Dev) (k : Nat) (f : Shuttle → Shuttle) : (d.modSh k f).debug = d.debug := rfl
@[simp] theorem modSh_keys (d : Dev) (k : Nat) (f : Shuttle → Shuttle) : (d.modSh k f).keys = d.keys := rfl

/-! ### Dev.modCore -/

@[simp] theorem modCore_fresh (d : Dev) (k : Nat) (f : Core → Core) : (d.modCore k f).fresh = d.fresh := rfl
@[simp] theorem modCore_mem (d : Dev) (k : Nat) (f : Core → Core) : (d.modCore k f).mem = d.mem := rfl
@[simp] theorem modCore_wefts (d : Dev) (k : Nat) (f : Core → Core) : (d.modCore k f).wefts = d.wefts := rfl
@[simp] theorem modCore_shuttles (d : Dev) (k : Nat) (f : Core → Core) : (d.modCore k f).shuttles = d.shuttles := rfl
@[simp] theorem modCore_cores (d : Dev) (k : Nat) (f : Core → Core) : (d.modCore k f).cores = Tab.upd Core.reset d.cores k f := rfl
@[simp] theorem modCore_ops (d : Dev) (k : Nat) (f : Core → Core) : (d.modCore k f).ops = d.ops := rfl
@[simp] theorem modCore_nextOp (d : Dev) (k : Nat) (f : Core → Core) : (d.modCore k f).nextOp = d.nextOp := rfl
@[simp] theorem modCore_cmds (d : Dev) (k : Nat) (f : Core → Core) : (d.modCore k f).cmds = d.cmds := rfl
@[simp] theorem modCore_gathers (d : Dev) (k : Nat) (f : Core → Core) : (d.modCore k f).gathers = d.gathers := rfl
@[simp] theorem modCore_slops (d : Dev) (k : Nat) (f : Core → Core) : (d.modCore k f).slops = d.slops := rfl
@[simp] theorem modCore_bolts (d : Dev) (k : Nat) (f : Core → Core) : (d.modCore k f).bolts = d.bolts := rfl
@[simp] theorem modCore_disp (d : Dev) (k : Nat) (f : Core → Core) : (d.modCore k f).disp = d.disp := rfl
@[simp] theorem modCore_counters (d : Dev) (k : Nat) (f : Core → Core) : (d.modCore k f).counters = d.counters := rfl
@[simp] theorem modCore_fabric (d : Dev) (k : Nat) (f : Core → Core) : (d.modCore k f).fabric = d.fabric := rfl
@[simp] theorem modCore_host (d : Dev) (k : Nat) (f : Core → Core) : (d.modCore k f).host = d.host := rfl
@[simp] theorem modCore_debug (d : Dev) (k : Nat) (f : Core → Core) : (d.modCore k f).debug = d.debug := rfl
@[simp] theorem modCore_keys (d : Dev) (k : Nat) (f : Core → Core) : (d.modCore k f).keys = d.keys := rfl

/-! ### Dev.modMem -/

@[simp] theorem modMem_fresh (d : Dev) (f : Mem → Mem) : (d.modMem f).fresh = d.fresh := rfl
@[simp] theorem modMem_mem (d : Dev) (f : Mem → Mem) : (d.modMem f).mem = f d.mem := rfl
@[simp] theorem modMem_wefts (d : Dev) (f : Mem → Mem) : (d.modMem f).wefts = d.wefts := rfl
@[simp] theorem modMem_shuttles (d : Dev) (f : Mem → Mem) : (d.modMem f).shuttles = d.shuttles := rfl
@[simp] theorem modMem_cores (d : Dev) (f : Mem → Mem) : (d.modMem f).cores = d.cores := rfl
@[simp] theorem modMem_ops (d : Dev) (f : Mem → Mem) : (d.modMem f).ops = d.ops := rfl
@[simp] theorem modMem_nextOp (d : Dev) (f : Mem → Mem) : (d.modMem f).nextOp = d.nextOp := rfl
@[simp] theorem modMem_cmds (d : Dev) (f : Mem → Mem) : (d.modMem f).cmds = d.cmds := rfl
@[simp] theorem modMem_gathers (d : Dev) (f : Mem → Mem) : (d.modMem f).gathers = d.gathers := rfl
@[simp] theorem modMem_slops (d : Dev) (f : Mem → Mem) : (d.modMem f).slops = d.slops := rfl
@[simp] theorem modMem_bolts (d : Dev) (f : Mem → Mem) : (d.modMem f).bolts = d.bolts := rfl
@[simp] theorem modMem_disp (d : Dev) (f : Mem → Mem) : (d.modMem f).disp = d.disp := rfl
@[simp] theorem modMem_counters (d : Dev) (f : Mem → Mem) : (d.modMem f).counters = d.counters := rfl
@[simp] theorem modMem_fabric (d : Dev) (f : Mem → Mem) : (d.modMem f).fabric = d.fabric := rfl
@[simp] theorem modMem_host (d : Dev) (f : Mem → Mem) : (d.modMem f).host = d.host := rfl
@[simp] theorem modMem_debug (d : Dev) (f : Mem → Mem) : (d.modMem f).debug = d.debug := rfl
@[simp] theorem modMem_keys (d : Dev) (f : Mem → Mem) : (d.modMem f).keys = d.keys := rfl

/-! ### Dev.modBolt -/

@[simp] theorem modBolt_fresh (d : Dev) (k : Nat) (f : Bolt → Bolt) : (d.modBolt k f).fresh = d.fresh := rfl
@[simp] theorem modBolt_mem (d : Dev) (k : Nat) (f : Bolt → Bolt) : (d.modBolt k f).mem = d.mem := rfl
@[simp] theorem modBolt_wefts (d : Dev) (k : Nat) (f : Bolt → Bolt) : (d.modBolt k f).wefts = d.wefts := rfl
@[simp] theorem modBolt_shuttles (d : Dev) (k : Nat) (f : Bolt → Bolt) : (d.modBolt k f).shuttles = d.shuttles := rfl
@[simp] theorem modBolt_cores (d : Dev) (k : Nat) (f : Bolt → Bolt) : (d.modBolt k f).cores = d.cores := rfl
@[simp] theorem modBolt_ops (d : Dev) (k : Nat) (f : Bolt → Bolt) : (d.modBolt k f).ops = d.ops := rfl
@[simp] theorem modBolt_nextOp (d : Dev) (k : Nat) (f : Bolt → Bolt) : (d.modBolt k f).nextOp = d.nextOp := rfl
@[simp] theorem modBolt_cmds (d : Dev) (k : Nat) (f : Bolt → Bolt) : (d.modBolt k f).cmds = d.cmds := rfl
@[simp] theorem modBolt_gathers (d : Dev) (k : Nat) (f : Bolt → Bolt) : (d.modBolt k f).gathers = d.gathers := rfl
@[simp] theorem modBolt_slops (d : Dev) (k : Nat) (f : Bolt → Bolt) : (d.modBolt k f).slops = d.slops := rfl
@[simp] theorem modBolt_bolts (d : Dev) (k : Nat) (f : Bolt → Bolt) : (d.modBolt k f).bolts = d.bolts.map fun b => if b.id = k then f b else b := rfl
@[simp] theorem modBolt_disp (d : Dev) (k : Nat) (f : Bolt → Bolt) : (d.modBolt k f).disp = d.disp := rfl
@[simp] theorem modBolt_counters (d : Dev) (k : Nat) (f : Bolt → Bolt) : (d.modBolt k f).counters = d.counters := rfl
@[simp] theorem modBolt_fabric (d : Dev) (k : Nat) (f : Bolt → Bolt) : (d.modBolt k f).fabric = d.fabric := rfl
@[simp] theorem modBolt_host (d : Dev) (k : Nat) (f : Bolt → Bolt) : (d.modBolt k f).host = d.host := rfl
@[simp] theorem modBolt_debug (d : Dev) (k : Nat) (f : Bolt → Bolt) : (d.modBolt k f).debug = d.debug := rfl
@[simp] theorem modBolt_keys (d : Dev) (k : Nat) (f : Bolt → Bolt) : (d.modBolt k f).keys = d.keys := rfl

/-! ### Dev.modCtr -/

@[simp] theorem modCtr_fresh (d : Dev) (k : Nat) (f : Counter → Counter) : (d.modCtr k f).fresh = d.fresh := rfl
@[simp] theorem modCtr_mem (d : Dev) (k : Nat) (f : Counter → Counter) : (d.modCtr k f).mem = d.mem := rfl
@[simp] theorem modCtr_wefts (d : Dev) (k : Nat) (f : Counter → Counter) : (d.modCtr k f).wefts = d.wefts := rfl
@[simp] theorem modCtr_shuttles (d : Dev) (k : Nat) (f : Counter → Counter) : (d.modCtr k f).shuttles = d.shuttles := rfl
@[simp] theorem modCtr_cores (d : Dev) (k : Nat) (f : Counter → Counter) : (d.modCtr k f).cores = d.cores := rfl
@[simp] theorem modCtr_ops (d : Dev) (k : Nat) (f : Counter → Counter) : (d.modCtr k f).ops = d.ops := rfl
@[simp] theorem modCtr_nextOp (d : Dev) (k : Nat) (f : Counter → Counter) : (d.modCtr k f).nextOp = d.nextOp := rfl
@[simp] theorem modCtr_cmds (d : Dev) (k : Nat) (f : Counter → Counter) : (d.modCtr k f).cmds = d.cmds := rfl
@[simp] theorem modCtr_gathers (d : Dev) (k : Nat) (f : Counter → Counter) : (d.modCtr k f).gathers = d.gathers := rfl
@[simp] theorem modCtr_slops (d : Dev) (k : Nat) (f : Counter → Counter) : (d.modCtr k f).slops = d.slops := rfl
@[simp] theorem modCtr_bolts (d : Dev) (k : Nat) (f : Counter → Counter) : (d.modCtr k f).bolts = d.bolts := rfl
@[simp] theorem modCtr_disp (d : Dev) (k : Nat) (f : Counter → Counter) : (d.modCtr k f).disp = d.disp := rfl
@[simp] theorem modCtr_counters (d : Dev) (k : Nat) (f : Counter → Counter) : (d.modCtr k f).counters = Tab.upd Counter.reset d.counters k f := rfl
@[simp] theorem modCtr_fabric (d : Dev) (k : Nat) (f : Counter → Counter) : (d.modCtr k f).fabric = d.fabric := rfl
@[simp] theorem modCtr_host (d : Dev) (k : Nat) (f : Counter → Counter) : (d.modCtr k f).host = d.host := rfl
@[simp] theorem modCtr_debug (d : Dev) (k : Nat) (f : Counter → Counter) : (d.modCtr k f).debug = d.debug := rfl
@[simp] theorem modCtr_keys (d : Dev) (k : Nat) (f : Counter → Counter) : (d.modCtr k f).keys = d.keys := rfl

/-! ### Dev.putCmd -/

@[simp] theorem putCmd_fresh (d : Dev) (x : Cmd) : (d.putCmd x).fresh = d.fresh := rfl
@[simp] theorem putCmd_mem (d : Dev) (x : Cmd) : (d.putCmd x).mem = d.mem := rfl
@[simp] theorem putCmd_wefts (d : Dev) (x : Cmd) : (d.putCmd x).wefts = d.wefts := rfl
@[simp] theorem putCmd_shuttles (d : Dev) (x : Cmd) : (d.putCmd x).shuttles = d.shuttles := rfl
@[simp] theorem putCmd_cores (d : Dev) (x : Cmd) : (d.putCmd x).cores = d.cores := rfl
@[simp] theorem putCmd_ops (d : Dev) (x : Cmd) : (d.putCmd x).ops = d.ops := rfl
@[simp] theorem putCmd_nextOp (d : Dev) (x : Cmd) : (d.putCmd x).nextOp = d.nextOp := rfl
@[simp] theorem putCmd_cmds (d : Dev) (x : Cmd) : (d.putCmd x).cmds = d.cmds.map fun y => if y.core = x.core ∧ y.handle = x.handle then x else y := rfl
@[simp] theorem putCmd_gathers (d : Dev) (x : Cmd) : (d.putCmd x).gathers = d.gathers := rfl
@[simp] theorem putCmd_slops (d : Dev) (x : Cmd) : (d.putCmd x).slops = d.slops := rfl
@[simp] theorem putCmd_bolts (d : Dev) (x : Cmd) : (d.putCmd x).bolts = d.bolts := rfl
@[simp] theorem putCmd_disp (d : Dev) (x : Cmd) : (d.putCmd x).disp = d.disp := rfl
@[simp] theorem putCmd_counters (d : Dev) (x : Cmd) : (d.putCmd x).counters = d.counters := rfl
@[simp] theorem putCmd_fabric (d : Dev) (x : Cmd) : (d.putCmd x).fabric = d.fabric := rfl
@[simp] theorem putCmd_host (d : Dev) (x : Cmd) : (d.putCmd x).host = d.host := rfl
@[simp] theorem putCmd_debug (d : Dev) (x : Cmd) : (d.putCmd x).debug = d.debug := rfl
@[simp] theorem putCmd_keys (d : Dev) (x : Cmd) : (d.putCmd x).keys = d.keys := rfl

/-! ### Dev.putGath -/

@[simp] theorem putGath_fresh (d : Dev) (g : Gath) : (d.putGath g).fresh = d.fresh := rfl
@[simp] theorem putGath_mem (d : Dev) (g : Gath) : (d.putGath g).mem = d.mem := rfl
@[simp] theorem putGath_wefts (d : Dev) (g : Gath) : (d.putGath g).wefts = d.wefts := rfl
@[simp] theorem putGath_shuttles (d : Dev) (g : Gath) : (d.putGath g).shuttles = d.shuttles := rfl
@[simp] theorem putGath_cores (d : Dev) (g : Gath) : (d.putGath g).cores = d.cores := rfl
@[simp] theorem putGath_ops (d : Dev) (g : Gath) : (d.putGath g).ops = d.ops := rfl
@[simp] theorem putGath_nextOp (d : Dev) (g : Gath) : (d.putGath g).nextOp = d.nextOp := rfl
@[simp] theorem putGath_cmds (d : Dev) (g : Gath) : (d.putGath g).cmds = d.cmds := rfl
@[simp] theorem putGath_gathers (d : Dev) (g : Gath) : (d.putGath g).gathers = d.gathers.map fun x => if x.id = g.id then g else x := rfl
@[simp] theorem putGath_slops (d : Dev) (g : Gath) : (d.putGath g).slops = d.slops := rfl
@[simp] theorem putGath_bolts (d : Dev) (g : Gath) : (d.putGath g).bolts = d.bolts := rfl
@[simp] theorem putGath_disp (d : Dev) (g : Gath) : (d.putGath g).disp = d.disp := rfl
@[simp] theorem putGath_counters (d : Dev) (g : Gath) : (d.putGath g).counters = d.counters := rfl
@[simp] theorem putGath_fabric (d : Dev) (g : Gath) : (d.putGath g).fabric = d.fabric := rfl
@[simp] theorem putGath_host (d : Dev) (g : Gath) : (d.putGath g).host = d.host := rfl
@[simp] theorem putGath_debug (d : Dev) (g : Gath) : (d.putGath g).debug = d.debug := rfl
@[simp] theorem putGath_keys (d : Dev) (g : Gath) : (d.putGath g).keys = d.keys := rfl

/-! ### Dev.putLaunch -/

@[simp] theorem putLaunch_fresh (d : Dev) (l : Launch) : (d.putLaunch l).fresh = d.fresh := rfl
@[simp] theorem putLaunch_mem (d : Dev) (l : Launch) : (d.putLaunch l).mem = d.mem := rfl
@[simp] theorem putLaunch_wefts (d : Dev) (l : Launch) : (d.putLaunch l).wefts = d.wefts := rfl
@[simp] theorem putLaunch_shuttles (d : Dev) (l : Launch) : (d.putLaunch l).shuttles = d.shuttles := rfl
@[simp] theorem putLaunch_cores (d : Dev) (l : Launch) : (d.putLaunch l).cores = d.cores := rfl
@[simp] theorem putLaunch_ops (d : Dev) (l : Launch) : (d.putLaunch l).ops = d.ops := rfl
@[simp] theorem putLaunch_nextOp (d : Dev) (l : Launch) : (d.putLaunch l).nextOp = d.nextOp := rfl
@[simp] theorem putLaunch_cmds (d : Dev) (l : Launch) : (d.putLaunch l).cmds = d.cmds := rfl
@[simp] theorem putLaunch_gathers (d : Dev) (l : Launch) : (d.putLaunch l).gathers = d.gathers := rfl
@[simp] theorem putLaunch_slops (d : Dev) (l : Launch) : (d.putLaunch l).slops = d.slops := rfl
@[simp] theorem putLaunch_bolts (d : Dev) (l : Launch) : (d.putLaunch l).bolts = d.bolts := rfl
@[simp] theorem putLaunch_counters (d : Dev) (l : Launch) : (d.putLaunch l).counters = d.counters := rfl
@[simp] theorem putLaunch_fabric (d : Dev) (l : Launch) : (d.putLaunch l).fabric = d.fabric := rfl
@[simp] theorem putLaunch_host (d : Dev) (l : Launch) : (d.putLaunch l).host = d.host := rfl
@[simp] theorem putLaunch_debug (d : Dev) (l : Launch) : (d.putLaunch l).debug = d.debug := rfl
@[simp] theorem putLaunch_keys (d : Dev) (l : Launch) : (d.putLaunch l).keys = d.keys := rfl

/-! ### Dev.putColl -/

@[simp] theorem putColl_fresh (d : Dev) (k : Coll) : (d.putColl k).fresh = d.fresh := rfl
@[simp] theorem putColl_mem (d : Dev) (k : Coll) : (d.putColl k).mem = d.mem := rfl
@[simp] theorem putColl_wefts (d : Dev) (k : Coll) : (d.putColl k).wefts = d.wefts := rfl
@[simp] theorem putColl_shuttles (d : Dev) (k : Coll) : (d.putColl k).shuttles = d.shuttles := rfl
@[simp] theorem putColl_cores (d : Dev) (k : Coll) : (d.putColl k).cores = d.cores := rfl
@[simp] theorem putColl_ops (d : Dev) (k : Coll) : (d.putColl k).ops = d.ops := rfl
@[simp] theorem putColl_nextOp (d : Dev) (k : Coll) : (d.putColl k).nextOp = d.nextOp := rfl
@[simp] theorem putColl_cmds (d : Dev) (k : Coll) : (d.putColl k).cmds = d.cmds := rfl
@[simp] theorem putColl_gathers (d : Dev) (k : Coll) : (d.putColl k).gathers = d.gathers := rfl
@[simp] theorem putColl_slops (d : Dev) (k : Coll) : (d.putColl k).slops = d.slops := rfl
@[simp] theorem putColl_bolts (d : Dev) (k : Coll) : (d.putColl k).bolts = d.bolts := rfl
@[simp] theorem putColl_disp (d : Dev) (k : Coll) : (d.putColl k).disp = d.disp := rfl
@[simp] theorem putColl_counters (d : Dev) (k : Coll) : (d.putColl k).counters = d.counters := rfl
@[simp] theorem putColl_host (d : Dev) (k : Coll) : (d.putColl k).host = d.host := rfl
@[simp] theorem putColl_debug (d : Dev) (k : Coll) : (d.putColl k).debug = d.debug := rfl
@[simp] theorem putColl_keys (d : Dev) (k : Coll) : (d.putColl k).keys = d.keys := rfl

/-! ### Dev.putView -/

@[simp] theorem putView_fresh (d : Dev) (k : Nat) (v : View) : (d.putView k v).fresh = d.fresh := rfl
@[simp] theorem putView_mem (d : Dev) (k : Nat) (v : View) : (d.putView k v).mem = d.mem := rfl
@[simp] theorem putView_wefts (d : Dev) (k : Nat) (v : View) : (d.putView k v).wefts = d.wefts := rfl
@[simp] theorem putView_shuttles (d : Dev) (k : Nat) (v : View) : (d.putView k v).shuttles = d.shuttles := rfl
@[simp] theorem putView_cores (d : Dev) (k : Nat) (v : View) : (d.putView k v).cores = d.cores := rfl
@[simp] theorem putView_ops (d : Dev) (k : Nat) (v : View) : (d.putView k v).ops = d.ops := rfl
@[simp] theorem putView_nextOp (d : Dev) (k : Nat) (v : View) : (d.putView k v).nextOp = d.nextOp := rfl
@[simp] theorem putView_cmds (d : Dev) (k : Nat) (v : View) : (d.putView k v).cmds = d.cmds := rfl
@[simp] theorem putView_gathers (d : Dev) (k : Nat) (v : View) : (d.putView k v).gathers = d.gathers := rfl
@[simp] theorem putView_slops (d : Dev) (k : Nat) (v : View) : (d.putView k v).slops = d.slops := rfl
@[simp] theorem putView_bolts (d : Dev) (k : Nat) (v : View) : (d.putView k v).bolts = d.bolts := rfl
@[simp] theorem putView_disp (d : Dev) (k : Nat) (v : View) : (d.putView k v).disp = d.disp := rfl
@[simp] theorem putView_counters (d : Dev) (k : Nat) (v : View) : (d.putView k v).counters = d.counters := rfl
@[simp] theorem putView_host (d : Dev) (k : Nat) (v : View) : (d.putView k v).host = d.host := rfl
@[simp] theorem putView_debug (d : Dev) (k : Nat) (v : View) : (d.putView k v).debug = d.debug := rfl
@[simp] theorem putView_keys (d : Dev) (k : Nat) (v : View) : (d.putView k v).keys = d.keys := rfl

/-! ### Dev.say -/

@[simp] theorem say_fresh (d : Dev) (m : HostMsg) : (d.say m).fresh = d.fresh := rfl
@[simp] theorem say_mem (d : Dev) (m : HostMsg) : (d.say m).mem = d.mem := rfl
@[simp] theorem say_wefts (d : Dev) (m : HostMsg) : (d.say m).wefts = d.wefts := rfl
@[simp] theorem say_shuttles (d : Dev) (m : HostMsg) : (d.say m).shuttles = d.shuttles := rfl
@[simp] theorem say_cores (d : Dev) (m : HostMsg) : (d.say m).cores = d.cores := rfl
@[simp] theorem say_ops (d : Dev) (m : HostMsg) : (d.say m).ops = d.ops := rfl
@[simp] theorem say_nextOp (d : Dev) (m : HostMsg) : (d.say m).nextOp = d.nextOp := rfl
@[simp] theorem say_cmds (d : Dev) (m : HostMsg) : (d.say m).cmds = d.cmds := rfl
@[simp] theorem say_gathers (d : Dev) (m : HostMsg) : (d.say m).gathers = d.gathers := rfl
@[simp] theorem say_slops (d : Dev) (m : HostMsg) : (d.say m).slops = d.slops := rfl
@[simp] theorem say_bolts (d : Dev) (m : HostMsg) : (d.say m).bolts = d.bolts := rfl
@[simp] theorem say_disp (d : Dev) (m : HostMsg) : (d.say m).disp = d.disp := rfl
@[simp] theorem say_counters (d : Dev) (m : HostMsg) : (d.say m).counters = d.counters := rfl
@[simp] theorem say_fabric (d : Dev) (m : HostMsg) : (d.say m).fabric = d.fabric := rfl
@[simp] theorem say_debug (d : Dev) (m : HostMsg) : (d.say m).debug = d.debug := rfl
@[simp] theorem say_keys (d : Dev) (m : HostMsg) : (d.say m).keys = d.keys := rfl

/-! ### Dev.modW -/

@[simp] theorem modW_fresh (d : Dev) (r : WRef) (f : Weft → Weft) : (d.modW r f).fresh = d.fresh := by unfold Dev.modW; split <;> rfl
@[simp] theorem modW_mem (d : Dev) (r : WRef) (f : Weft → Weft) : (d.modW r f).mem = d.mem := by unfold Dev.modW; split <;> rfl
@[simp] theorem modW_shuttles (d : Dev) (r : WRef) (f : Weft → Weft) : (d.modW r f).shuttles = d.shuttles := by unfold Dev.modW; split <;> rfl
@[simp] theorem modW_cores (d : Dev) (r : WRef) (f : Weft → Weft) : (d.modW r f).cores = d.cores := by unfold Dev.modW; split <;> rfl
@[simp] theorem modW_ops (d : Dev) (r : WRef) (f : Weft → Weft) : (d.modW r f).ops = d.ops := by unfold Dev.modW; split <;> rfl
@[simp] theorem modW_nextOp (d : Dev) (r : WRef) (f : Weft → Weft) : (d.modW r f).nextOp = d.nextOp := by unfold Dev.modW; split <;> rfl
@[simp] theorem modW_cmds (d : Dev) (r : WRef) (f : Weft → Weft) : (d.modW r f).cmds = d.cmds := by unfold Dev.modW; split <;> rfl
@[simp] theorem modW_gathers (d : Dev) (r : WRef) (f : Weft → Weft) : (d.modW r f).gathers = d.gathers := by unfold Dev.modW; split <;> rfl
@[simp] theorem modW_slops (d : Dev) (r : WRef) (f : Weft → Weft) : (d.modW r f).slops = d.slops := by unfold Dev.modW; split <;> rfl
@[simp] theorem modW_bolts (d : Dev) (r : WRef) (f : Weft → Weft) : (d.modW r f).bolts = d.bolts := by unfold Dev.modW; split <;> rfl
@[simp] theorem modW_disp (d : Dev) (r : WRef) (f : Weft → Weft) : (d.modW r f).disp = d.disp := by unfold Dev.modW; split <;> rfl
@[simp] theorem modW_counters (d : Dev) (r : WRef) (f : Weft → Weft) : (d.modW r f).counters = d.counters := by unfold Dev.modW; split <;> rfl
@[simp] theorem modW_fabric (d : Dev) (r : WRef) (f : Weft → Weft) : (d.modW r f).fabric = d.fabric := by unfold Dev.modW; split <;> rfl
@[simp] theorem modW_host (d : Dev) (r : WRef) (f : Weft → Weft) : (d.modW r f).host = d.host := by unfold Dev.modW; split <;> rfl
@[simp] theorem modW_debug (d : Dev) (r : WRef) (f : Weft → Weft) : (d.modW r f).debug = d.debug := by unfold Dev.modW; split <;> rfl
@[simp] theorem modW_keys (d : Dev) (r : WRef) (f : Weft → Weft) : (d.modW r f).keys = d.keys := by unfold Dev.modW; split <;> rfl

/-! ### Reads after updates -/

@[simp] theorem weft?_putW (d : Dev) (r q : WRef) (w : Weft) :
    (d.putW r w).weft? q = if refKey q = refKey r then some w else d.weft? q := by
  simp only [Dev.weft?, putW_wefts, Tab.find?_put]

@[simp] theorem weft?_dropW (d : Dev) (r q : WRef) : (d.dropW r).weft? q = if refKey q = refKey r then none else d.weft? q := by
  simp only [Dev.weft?, dropW_wefts, Tab.find?_del]

theorem weft?_modW (d : Dev) (r q : WRef) (f : Weft → Weft) :
    (d.modW r f).weft? q = if refKey q = refKey r then (d.weft? r).map f else d.weft? q := by
  unfold Dev.modW
  split
  · next w h => simp only [weft?_putW, h, Option.map_some]
  · next h =>
    split
    · next e => simp only [Dev.weft?, e] at h ⊢; rw [h]; rfl
    · rfl

@[simp] theorem sh_modSh (d : Dev) (k j : Nat) (f : Shuttle → Shuttle) : (d.modSh k f).sh j = if j = k then f (d.sh k) else d.sh j := by
  simp only [Dev.sh, modSh_shuttles, Tab.getD_upd]

@[simp] theorem core_modCore (d : Dev) (k j : Nat) (f : Core → Core) : (d.modCore k f).core j = if j = k then f (d.core k) else d.core j := by
  simp only [Dev.core, modCore_cores, Tab.getD_upd]

@[simp] theorem counter_modCtr (d : Dev) (k j : Nat) (f : Counter → Counter) :
    (d.modCtr k f).counter j = if j = k then f (d.counter k) else d.counter j := by
  simp only [Dev.counter, modCtr_counters, Tab.getD_upd]

/-! ### Wefts -/

@[simp] theorem addFlags_hdr (w : Weft) (ks : List Nat) : (w.addFlags ks).hdr = w.hdr := rfl
@[simp] theorem addFlags_entries (w : Weft) (ks : List Nat) : (w.addFlags ks).entries = w.entries := rfl
@[simp] theorem addFlags_vregs (w : Weft) (ks : List Nat) : (w.addFlags ks).vregs = w.vregs := rfl
@[simp] theorem addFlags_sregs (w : Weft) (ks : List Nat) : (w.addFlags ks).sregs = w.sregs := rfl
@[simp] theorem addFlags_preds (w : Weft) (ks : List Nat) : (w.addFlags ks).preds = w.preds := rfl
@[simp] theorem addFlags_qs (w : Weft) (ks : List Nat) : (w.addFlags ks).qs = w.qs := rfl
@[simp] theorem addFlags_fpst (w : Weft) (ks : List Nat) : (w.addFlags ks).fpst = w.fpst := rfl
@[simp] theorem addFlags_pidx (w : Weft) (ks : List Nat) : (w.addFlags ks).pidx = w.pidx := rfl
@[simp] theorem addFlags_tiles (w : Weft) (ks : List Nat) : (w.addFlags ks).tiles = w.tiles := rfl
@[simp] theorem addFlags_badTiles (w : Weft) (ks : List Nat) : (w.addFlags ks).badTiles = w.badTiles := rfl
@[simp] theorem addFlags_badWords (w : Weft) (ks : List Nat) : (w.addFlags ks).badWords = w.badWords := rfl
@[simp] theorem addFlags_sb (w : Weft) (ks : List Nat) : (w.addFlags ks).sb = w.sb := rfl
@[simp] theorem addFlags_walks (w : Weft) (ks : List Nat) : (w.addFlags ks).walks = w.walks := rfl
@[simp] theorem addFlags_handler (w : Weft) (ks : List Nat) : (w.addFlags ks).handler = w.handler := rfl
@[simp] theorem addFlags_trapPend (w : Weft) (ks : List Nat) : (w.addFlags ks).trapPend = w.trapPend := rfl
@[simp] theorem addFlags_waits (w : Weft) (ks : List Nat) : (w.addFlags ks).waits = w.waits := rfl
@[simp] theorem addFlags_parks (w : Weft) (ks : List Nat) : (w.addFlags ks).parks = w.parks := rfl
@[simp] theorem addFlags_signals (w : Weft) (ks : List Nat) : (w.addFlags ks).signals = w.signals := rfl
@[simp] theorem subFlags_hdr (w : Weft) (ks : List Nat) : (w.subFlags ks).hdr = w.hdr := rfl
@[simp] theorem subFlags_entries (w : Weft) (ks : List Nat) : (w.subFlags ks).entries = w.entries := rfl
@[simp] theorem subFlags_vregs (w : Weft) (ks : List Nat) : (w.subFlags ks).vregs = w.vregs := rfl
@[simp] theorem subFlags_sregs (w : Weft) (ks : List Nat) : (w.subFlags ks).sregs = w.sregs := rfl
@[simp] theorem subFlags_preds (w : Weft) (ks : List Nat) : (w.subFlags ks).preds = w.preds := rfl
@[simp] theorem subFlags_qs (w : Weft) (ks : List Nat) : (w.subFlags ks).qs = w.qs := rfl
@[simp] theorem subFlags_fpst (w : Weft) (ks : List Nat) : (w.subFlags ks).fpst = w.fpst := rfl
@[simp] theorem subFlags_pidx (w : Weft) (ks : List Nat) : (w.subFlags ks).pidx = w.pidx := rfl
@[simp] theorem subFlags_tiles (w : Weft) (ks : List Nat) : (w.subFlags ks).tiles = w.tiles := rfl
@[simp] theorem subFlags_badTiles (w : Weft) (ks : List Nat) : (w.subFlags ks).badTiles = w.badTiles := rfl
@[simp] theorem subFlags_badWords (w : Weft) (ks : List Nat) : (w.subFlags ks).badWords = w.badWords := rfl
@[simp] theorem subFlags_sb (w : Weft) (ks : List Nat) : (w.subFlags ks).sb = w.sb := rfl
@[simp] theorem subFlags_walks (w : Weft) (ks : List Nat) : (w.subFlags ks).walks = w.walks := rfl
@[simp] theorem subFlags_handler (w : Weft) (ks : List Nat) : (w.subFlags ks).handler = w.handler := rfl
@[simp] theorem subFlags_trapPend (w : Weft) (ks : List Nat) : (w.subFlags ks).trapPend = w.trapPend := rfl
@[simp] theorem subFlags_waits (w : Weft) (ks : List Nat) : (w.subFlags ks).waits = w.waits := rfl
@[simp] theorem subFlags_parks (w : Weft) (ks : List Nat) : (w.subFlags ks).parks = w.parks := rfl
@[simp] theorem subFlags_signals (w : Weft) (ks : List Nat) : (w.subFlags ks).signals = w.signals := rfl
@[simp] theorem freeSb_hdr (w : Weft) (op : Nat) : (w.freeSb op).hdr = w.hdr := rfl
@[simp] theorem freeSb_entries (w : Weft) (op : Nat) : (w.freeSb op).entries = w.entries := rfl
@[simp] theorem freeSb_vregs (w : Weft) (op : Nat) : (w.freeSb op).vregs = w.vregs := rfl
@[simp] theorem freeSb_sregs (w : Weft) (op : Nat) : (w.freeSb op).sregs = w.sregs := rfl
@[simp] theorem freeSb_preds (w : Weft) (op : Nat) : (w.freeSb op).preds = w.preds := rfl
@[simp] theorem freeSb_qs (w : Weft) (op : Nat) : (w.freeSb op).qs = w.qs := rfl
@[simp] theorem freeSb_fpst (w : Weft) (op : Nat) : (w.freeSb op).fpst = w.fpst := rfl
@[simp] theorem freeSb_pidx (w : Weft) (op : Nat) : (w.freeSb op).pidx = w.pidx := rfl
@[simp] theorem freeSb_flags (w : Weft) (op : Nat) : (w.freeSb op).flags = w.flags := rfl
@[simp] theorem freeSb_tiles (w : Weft) (op : Nat) : (w.freeSb op).tiles = w.tiles := rfl
@[simp] theorem freeSb_badTiles (w : Weft) (op : Nat) : (w.freeSb op).badTiles = w.badTiles := rfl
@[simp] theorem freeSb_badWords (w : Weft) (op : Nat) : (w.freeSb op).badWords = w.badWords := rfl
@[simp] theorem freeSb_walks (w : Weft) (op : Nat) : (w.freeSb op).walks = w.walks := rfl
@[simp] theorem freeSb_handler (w : Weft) (op : Nat) : (w.freeSb op).handler = w.handler := rfl
@[simp] theorem freeSb_trapPend (w : Weft) (op : Nat) : (w.freeSb op).trapPend = w.trapPend := rfl
@[simp] theorem freeSb_waits (w : Weft) (op : Nat) : (w.freeSb op).waits = w.waits := rfl
@[simp] theorem freeSb_parks (w : Weft) (op : Nat) : (w.freeSb op).parks = w.parks := rfl
@[simp] theorem freeSb_signals (w : Weft) (op : Nat) : (w.freeSb op).signals = w.signals := rfl
@[simp] theorem orFpst_hdr (w : Weft) (h : Nat) (e : Exc) : (w.orFpst h e).hdr = w.hdr := rfl
@[simp] theorem orFpst_entries (w : Weft) (h : Nat) (e : Exc) : (w.orFpst h e).entries = w.entries := rfl
@[simp] theorem orFpst_vregs (w : Weft) (h : Nat) (e : Exc) : (w.orFpst h e).vregs = w.vregs := rfl
@[simp] theorem orFpst_sregs (w : Weft) (h : Nat) (e : Exc) : (w.orFpst h e).sregs = w.sregs := rfl
@[simp] theorem orFpst_preds (w : Weft) (h : Nat) (e : Exc) : (w.orFpst h e).preds = w.preds := rfl
@[simp] theorem orFpst_qs (w : Weft) (h : Nat) (e : Exc) : (w.orFpst h e).qs = w.qs := rfl
@[simp] theorem orFpst_pidx (w : Weft) (h : Nat) (e : Exc) : (w.orFpst h e).pidx = w.pidx := rfl
@[simp] theorem orFpst_flags (w : Weft) (h : Nat) (e : Exc) : (w.orFpst h e).flags = w.flags := rfl
@[simp] theorem orFpst_tiles (w : Weft) (h : Nat) (e : Exc) : (w.orFpst h e).tiles = w.tiles := rfl
@[simp] theorem orFpst_badTiles (w : Weft) (h : Nat) (e : Exc) : (w.orFpst h e).badTiles = w.badTiles := rfl
@[simp] theorem orFpst_badWords (w : Weft) (h : Nat) (e : Exc) : (w.orFpst h e).badWords = w.badWords := rfl
@[simp] theorem orFpst_sb (w : Weft) (h : Nat) (e : Exc) : (w.orFpst h e).sb = w.sb := rfl
@[simp] theorem orFpst_walks (w : Weft) (h : Nat) (e : Exc) : (w.orFpst h e).walks = w.walks := rfl
@[simp] theorem orFpst_handler (w : Weft) (h : Nat) (e : Exc) : (w.orFpst h e).handler = w.handler := rfl
@[simp] theorem orFpst_trapPend (w : Weft) (h : Nat) (e : Exc) : (w.orFpst h e).trapPend = w.trapPend := rfl
@[simp] theorem orFpst_waits (w : Weft) (h : Nat) (e : Exc) : (w.orFpst h e).waits = w.waits := rfl
@[simp] theorem orFpst_parks (w : Weft) (h : Nat) (e : Exc) : (w.orFpst h e).parks = w.parks := rfl
@[simp] theorem orFpst_signals (w : Weft) (h : Nat) (e : Exc) : (w.orFpst h e).signals = w.signals := rfl

/-! ### Fields that later words read -/

@[simp] theorem addFlags_sigNow (w : Weft) (ks : List Nat) : (w.addFlags ks).sigNow = w.sigNow := rfl
@[simp] theorem addFlags_trapFor (w : Weft) (ks : List Nat) : (w.addFlags ks).trapFor = w.trapFor := rfl
@[simp] theorem addFlags_relPend (w : Weft) (ks : List Nat) : (w.addFlags ks).relPend = w.relPend := rfl
@[simp] theorem addFlags_starve (w : Weft) (ks : List Nat) : (w.addFlags ks).starve = w.starve := rfl
@[simp] theorem addFlags_ending (w : Weft) (ks : List Nat) : (w.addFlags ks).ending = w.ending := rfl
@[simp] theorem addFlags_lastRead (w : Weft) (ks : List Nat) : (w.addFlags ks).lastRead = w.lastRead := rfl
@[simp] theorem subFlags_sigNow (w : Weft) (ks : List Nat) : (w.subFlags ks).sigNow = w.sigNow := rfl
@[simp] theorem subFlags_trapFor (w : Weft) (ks : List Nat) : (w.subFlags ks).trapFor = w.trapFor := rfl
@[simp] theorem subFlags_relPend (w : Weft) (ks : List Nat) : (w.subFlags ks).relPend = w.relPend := rfl
@[simp] theorem subFlags_starve (w : Weft) (ks : List Nat) : (w.subFlags ks).starve = w.starve := rfl
@[simp] theorem subFlags_ending (w : Weft) (ks : List Nat) : (w.subFlags ks).ending = w.ending := rfl
@[simp] theorem subFlags_lastRead (w : Weft) (ks : List Nat) : (w.subFlags ks).lastRead = w.lastRead := rfl
@[simp] theorem freeSb_sigNow (w : Weft) (op : Nat) : (w.freeSb op).sigNow = w.sigNow := rfl
@[simp] theorem freeSb_trapFor (w : Weft) (op : Nat) : (w.freeSb op).trapFor = w.trapFor := rfl
@[simp] theorem freeSb_relPend (w : Weft) (op : Nat) : (w.freeSb op).relPend = w.relPend := rfl
@[simp] theorem freeSb_starve (w : Weft) (op : Nat) : (w.freeSb op).starve = w.starve := rfl
@[simp] theorem freeSb_ending (w : Weft) (op : Nat) : (w.freeSb op).ending = w.ending := rfl
@[simp] theorem freeSb_lastRead (w : Weft) (op : Nat) : (w.freeSb op).lastRead = w.lastRead := rfl
@[simp] theorem orFpst_sigNow (w : Weft) (h : Nat) (e : Exc) : (w.orFpst h e).sigNow = w.sigNow := rfl
@[simp] theorem orFpst_trapFor (w : Weft) (h : Nat) (e : Exc) : (w.orFpst h e).trapFor = w.trapFor := rfl
@[simp] theorem orFpst_relPend (w : Weft) (h : Nat) (e : Exc) : (w.orFpst h e).relPend = w.relPend := rfl
@[simp] theorem orFpst_starve (w : Weft) (h : Nat) (e : Exc) : (w.orFpst h e).starve = w.starve := rfl
@[simp] theorem orFpst_ending (w : Weft) (h : Nat) (e : Exc) : (w.orFpst h e).ending = w.ending := rfl
@[simp] theorem orFpst_lastRead (w : Weft) (h : Nat) (e : Exc) : (w.orFpst h e).lastRead = w.lastRead := rfl
@[simp] theorem say_tdi (d : Dev) (m : HostMsg) : (d.say m).host.tdi = d.host.tdi := rfl
@[simp] theorem say_msixOpen (d : Dev) (m : HostMsg) : (d.say m).host.msixOpen = d.host.msixOpen := rfl
@[simp] theorem say_msixOff (d : Dev) (m : HostMsg) : (d.say m).host.msixOff = d.host.msixOff := rfl
@[simp] theorem say_msixPend (d : Dev) (m : HostMsg) : (d.say m).host.msixPend = d.host.msixPend := rfl

end Sys2Proof.Machine
end

