-- ==== Sys2Proof/Laws/Memory.lean ====
section
/-! SUPPORT. The memory operations, each said once: they keep the canonical form of memory and change nothing of the device but its
memory, the messages to the host, the fill counts and the count of free values. -/

namespace Sys2Proof.Laws

open Sys2Proof.Machine

/-- The canonical form of memory: addresses strictly rising, no entry that an unlisted address would read. -/
abbrev Memory.wf (d : Dev) : Bool := d.mem.cells.wf

/-- Device `d` is `e` after operations on memory alone. -/
structure MemOnly (e d : Dev) : Prop where
  form : Memory.wf e = true → Memory.wf d = true
  rest : ({ d with mem := e.mem, host := e.host, cores := e.cores, fresh := e.fresh } : Dev) = e

theorem MemOnly.refl (d : Dev) : MemOnly d d := ⟨id, rfl⟩

theorem MemOnly.trans {a b c : Dev} (h : MemOnly a b) (k : MemOnly b c) : MemOnly a c :=
  ⟨fun w => k.form (h.form w), by
    have h := h.rest
    have k := k.rest
    cases a; cases b; cases c
    simp only [Dev.mk.injEq] at h k ⊢
    simp_all⟩

/-- A fold of operations on memory alone is one. -/
theorem memOnly_foldl {α : Type} (f : Dev → α → Dev) (h : ∀ d x, MemOnly d (f d x)) (xs : List α) (d : Dev) : MemOnly d (xs.foldl f d) := by
  induction xs generalizing d with
  | nil => exact .refl d
  | cons x xs ih => exact (h d x).trans (ih _)

theorem memOnly_ite (c : Prop) [Decidable c] {e a b : Dev} (h : MemOnly e a) (k : MemOnly e b) : MemOnly e (if c then a else b) := by
  by_cases g : c
  · rw [if_pos g]; exact h
  · rw [if_neg g]; exact k

theorem memOnly_modMem (d : Dev) (f : Mem → Mem) (h : (f d.mem).cells = d.mem.cells) : MemOnly d (d.modMem f) :=
  ⟨fun w => by simpa [Memory.wf, h] using w, rfl⟩

theorem memOnly_modCore (d : Dev) (k : Nat) (f : Core → Core) : MemOnly d (d.modCore k f) := ⟨id, rfl⟩
theorem memOnly_draw (d : Dev) : MemOnly d d.draw.2 := ⟨id, rfl⟩

/-! ### The home slice -/

theorem keepPeer_cells (m : Mem) (pa n : Nat) : (m.keepPeer pa n).cells = m.cells := by unfold Mem.keepPeer; split <;> rfl
theorem recall_cells (m : Mem) (line : Nat) : (m.recall line).cells = m.cells := by unfold Mem.recall; split <;> rfl

theorem homeWr_cells (d : Dev) (pa n v : Nat) : (d.homeWr pa n v).mem.cells = Cells.putBytes d.mem.cells pa n v := by
  unfold Dev.homeWr; dsimp only; split <;> exact recall_cells _ _

theorem memOnly_homeWr (d : Dev) (pa n v : Nat) : MemOnly d (d.homeWr pa n v) :=
  ⟨fun w => by simpa only [Memory.wf, homeWr_cells] using Cells.wf_putBytes pa n v w, by
    unfold Dev.homeWr
    dsimp only
    by_cases g : d.mem.hostHeld.contains (lineOf pa) = true <;> simp only [g, if_true, Bool.false_eq_true, if_false]⟩

/-- The value read back where it was stored. -/
theorem homeRd_homeWr (d : Dev) (pa n v : Nat) : (d.homeWr pa n v).homeRd pa n = v % 256 ^ n := by
  simp only [Dev.homeRd, homeWr_cells, Cells.bytes_putBytes]

/-- Every other byte as it was. -/
theorem homeWr_other (d : Dev) (pa n v k : Nat) (h : k < pa ∨ pa + n ≤ k) :
    Cells.get (d.homeWr pa n v).mem.cells k = Cells.get d.mem.cells k := by
  rw [homeWr_cells, Cells.get_putBytes, if_neg (by omega)]

theorem memOnly_tgtWr1 (d : Dev) (pa : Nat) (b : Byte) : MemOnly d (d.tgtWr1 pa b) :=
  memOnly_ite _ (memOnly_modMem d _ rfl)
    (memOnly_ite _ ⟨fun w => Cells.wfD_setD b pa w, rfl⟩ (memOnly_homeWr d _ _ _))

theorem memOnly_tgtWrList (d : Dev) (pa : Nat) (bs : List Byte) : MemOnly d (d.tgtWrList pa bs) := by
  induction bs generalizing d pa with
  | nil => exact .refl d
  | cons b bs ih => exact (memOnly_tgtWr1 d pa b).trans (ih _ _)

theorem memOnly_tgtWr (d : Dev) (pa n v : Nat) : MemOnly d (d.tgtWr pa n v) :=
  memOnly_ite _ (memOnly_tgtWrList d pa _) (memOnly_homeWr d pa n v)

theorem memOnly_flushPeer (d : Dev) (line : Option Nat) : MemOnly d (d.flushPeer line) :=
  memOnly_ite _ (.refl d) (memOnly_modMem d _ rfl)

theorem memOnly_homeWrList (d : Dev) (pa : Nat) (bs : List Byte) : MemOnly d (d.homeWrList pa bs) := by
  induction bs generalizing d pa with
  | nil => exact .refl d
  | cons b bs ih => exact (memOnly_homeWr d pa 1 _).trans (ih _ _)

/-! ### The L1s -/

theorem memOnly_setL1 (d : Dev) (core : Nat) (ls : List L1Line) : MemOnly d (d.setL1 core ls) := memOnly_modMem d _ rfl
theorem memOnly_l1Put (d : Dev) (core : Nat) (l : L1Line) : MemOnly d (d.l1Put core l) := memOnly_setL1 d core _
theorem memOnly_l1Drop (d : Dev) (core line : Nat) : MemOnly d (d.l1Drop core line) := memOnly_setL1 d core _

theorem setL1_cells (d : Dev) (core : Nat) (ls : List L1Line) : (d.setL1 core ls).mem.cells = d.mem.cells := rfl
theorem l1Put_cells (d : Dev) (core : Nat) (l : L1Line) : (d.l1Put core l).mem.cells = d.mem.cells := rfl
theorem l1Drop_cells (d : Dev) (core line : Nat) : (d.l1Drop core line).mem.cells = d.mem.cells := rfl

theorem memOnly_wbWords (d : Dev) (l : L1Line) : MemOnly d (d.wbWords l) :=
  memOnly_foldl _ (fun d _ => memOnly_ite _ (memOnly_homeWr d _ _ _) (.refl d)) _ d

theorem memOnly_wbLine (d : Dev) (core line : Nat) : MemOnly d (d.wbLine core line) := by
  unfold Dev.wbLine
  split
  · split
    · exact .refl d
    · exact (memOnly_wbWords d _).trans (memOnly_l1Put _ _ _)
  · exact .refl d

theorem memOnly_wbDrop (d : Dev) (core line : Nat) : MemOnly d (d.wbDrop core line) :=
  (memOnly_wbLine d core line).trans (memOnly_l1Drop _ _ _)

theorem memOnly_pairDrop (d : Dev) (core line : Nat) : MemOnly d (d.pairDrop core line) :=
  (memOnly_wbDrop d core line).trans (memOnly_wbDrop _ _ _)

theorem memOnly_pairWb (d : Dev) (core line : Nat) : MemOnly d (d.pairWb core line) :=
  (memOnly_wbLine d core line).trans (memOnly_wbLine _ _ _)

theorem memOnly_notePartner (d : Dev) (core line : Nat) : MemOnly d (d.notePartner core line) := by
  unfold Dev.notePartner
  split
  · exact memOnly_l1Put d _ _
  · exact .refl d

theorem memOnly_l1Trim (d : Dev) (core keep : Nat) : MemOnly d (d.l1Trim core keep) :=
  memOnly_ite _ (.refl d) (memOnly_foldl _ (fun d _ => memOnly_ite _ (.refl d) (memOnly_wbDrop d _ _)) _ d)

theorem memOnly_fill (d : Dev) (core : Nat) (a : Where) (ef : Bool) : MemOnly d (d.fill core a ef) :=
  (((memOnly_draw d).trans (memOnly_l1Put _ core _)).trans (memOnly_l1Trim _ core _)).trans (memOnly_modCore _ core _)

/-! ### Loads and stores -/

theorem memOnly_snd {c : Prop} [Decidable c] {e : Dev} {x y : Nat × Dev} (h : MemOnly e x.2) (k : MemOnly e y.2) :
    MemOnly e (if c then x else y).2 := by
  by_cases g : c
  · rw [if_pos g]; exact h
  · rw [if_neg g]; exact k

theorem memOnly_loadWord (d : Dev) (core : Nat) (a : Where) (n : Nat) (ef : Bool) : MemOnly d (d.loadWord core a n ef).2 :=
  memOnly_snd (.refl d) (memOnly_snd (.refl d) (memOnly_snd (.refl d) (memOnly_fill d core a ef)))

theorem memOnly_loadVol (d : Dev) (core : Nat) (a : Where) (n : Nat) : MemOnly d (d.loadVol core a n).2 := by
  unfold Dev.loadVol
  simp only
  split
  · exact .refl d
  · exact memOnly_pairWb d core _

theorem memOnly_load (d : Dev) (core : Nat) (a : Where) (n : Nat) (vol ef : Bool) : MemOnly d (d.load core a n vol ef).2 := by
  have one : ∀ (d : Dev) (a : Where) (n : Nat), MemOnly d (if vol then d.loadVol core a n else d.loadWord core a n ef).2 := by
    intro d a n
    split
    · exact memOnly_loadVol d core a n
    · exact memOnly_loadWord d core a n ef
  unfold Dev.load
  simp only
  split
  · exact one d a n
  · exact (one d a 8).trans (one _ _ 8)

theorem memOnly_l1Edit (d : Dev) (core line : Nat) (f : L1Line → Dev) (none_ : Dev) (h : ∀ l, MemOnly d (f l)) (k : MemOnly d none_) :
    MemOnly d (match d.l1? core line with | some l => f l | none => none_) := by
  split
  · exact h _
  · exact k

theorem memOnly_l1Edit' (e d : Dev) (core line : Nat) (f : L1Line → Dev) (none_ : Dev) (h : ∀ l, MemOnly e (f l)) (k : MemOnly e none_) :
    MemOnly e (match d.l1? core line with | some l => f l | none => none_) := by
  split
  · exact h _
  · exact k

theorem memOnly_storeWord (d : Dev) (core : Nat) (a : Where) (n v : Nat) (vol ef : Bool) : MemOnly d (d.storeWord core a n v vol ef) := by
  refine memOnly_ite _ (memOnly_tgtWr d _ _ _) (memOnly_ite _ (memOnly_ite _ (memOnly_homeWr d _ _ _) ?_)
    (memOnly_ite _ ?_ (memOnly_ite _ ?_ ?_)))
  · exact ((memOnly_ite _ (.refl d) (memOnly_fill d core a ef)).trans (memOnly_homeWr _ a.pa n v)).trans
      (memOnly_l1Edit' _ _ core _ _ _ (fun l => memOnly_l1Put _ core _) (.refl _))
  · exact ((memOnly_homeWr d a.pa n v).trans
      (memOnly_l1Edit _ core _ _ _ (fun l => memOnly_ite _ (memOnly_l1Put _ core _) (.refl _)) (.refl _))).trans (memOnly_notePartner _ core _)
  · exact (memOnly_pairDrop d core _).trans (memOnly_homeWr _ _ _ _)
  · exact ((memOnly_wbDrop d (partnerOf core) (lineOf a.pa)).trans (memOnly_ite _ (.refl _) (memOnly_fill _ core a ef))).trans
      (memOnly_l1Edit _ core _ _ _ (fun l => memOnly_l1Put _ core _) (.refl _))

theorem memOnly_store (d : Dev) (core : Nat) (a : Where) (n v : Nat) (vol ef : Bool) : MemOnly d (d.store core a n v vol ef) := by
  unfold Dev.store
  split
  · exact memOnly_storeWord d core a n v vol ef
  · exact (memOnly_storeWord d core a 8 _ vol ef).trans (memOnly_storeWord _ core _ 8 _ vol ef)

theorem memOnly_atomPrep (d : Dev) (core : Nat) (a : Where) : MemOnly d (d.atomPrep core a) := by
  unfold Dev.atomPrep
  simp only
  split
  · exact ((memOnly_pairWb d core _).trans (memOnly_l1Drop _ _ _)).trans (memOnly_l1Drop _ _ _)
  · exact ((memOnly_pairWb d core _).trans (memOnly_l1Drop _ _ _)).trans (memOnly_notePartner _ _ _)

/-! ### Releases, acquires, engines -/

theorem memOnly_releasePair (d : Dev) (core : Nat) : MemOnly d (d.releasePair core) := by
  have all : ∀ (d : Dev) (k : Nat), MemOnly d ((d.l1 k).foldl (fun d l => if l.dirty = 0 then d else d.wbLine k l.line) d) := fun d k =>
    memOnly_foldl (fun (d : Dev) (l : L1Line) => if l.dirty = 0 then d else d.wbLine k l.line)
      (fun d _ => memOnly_ite _ (.refl d) (memOnly_wbLine d k _)) _ d
  exact (all d core).trans (all _ _)

theorem memOnly_dropClean (d : Dev) (core : Nat) : MemOnly d (d.dropClean core) := memOnly_setL1 d core _

theorem memOnly_release (d : Dev) (core : Nat) (s : Scope) : MemOnly d (d.release core s) := by
  unfold Dev.release
  split
  · exact memOnly_releasePair d core
  · exact (memOnly_releasePair d core).trans (memOnly_flushPeer _ none)
  · exact .refl d

theorem memOnly_engWrite (d : Dev) (core : Nat) (a : Where) (bs : List Byte) : MemOnly d (d.engWrite core a bs) := by
  have pre : MemOnly d (if a.kind = 3 then d.tgtWrList a.pa bs else (d.pairDrop core (lineOf a.pa)).homeWrList a.pa bs) :=
    memOnly_ite _ (memOnly_tgtWrList d _ _) ((memOnly_pairDrop d core _).trans (memOnly_homeWrList _ _ _))
  exact memOnly_ite _ (pre.trans (memOnly_modMem _ _ rfl)) pre

theorem memOnly_own (d : Dev) (e : EngId) (l : Loc) (off : Nat) : MemOnly d (d.own e l off) := by
  unfold Dev.own
  split
  · exact .refl d
  · exact memOnly_modMem d _ rfl

theorem memOnly_disown (d : Dev) (e : EngId) : MemOnly d (d.disown e) := memOnly_modMem d _ rfl

theorem memOnly_promote (d : Dev) (line : Nat) : MemOnly d (d.promote line) := by
  unfold Dev.promote
  split
  · exact (memOnly_releasePair d _).trans (memOnly_modMem _ _ rfl)
  · exact .refl d

theorem memOnly_promoteFor (d : Dev) (line pair : Nat) : MemOnly d (d.promoteFor line pair) := by
  unfold Dev.promoteFor
  split
  · exact memOnly_promote d line
  · exact .refl d

/-- Reads by the device of words whose pages the translation buffer holds, outside the device region and on no poisoned line: the bytes
at home, and the device stands. -/
theorem readWords_hits (d : Dev) (r : Regs) (core : Nat) (as : ASpace) (p : Nat → Where) : ∀ (n va : Nat),
    (∀ j, j < n → d.lookup r core as.asid (va + 8 * j) .rd = .ok (p (va + 8 * j)) ∧ d.poisoned (p (va + 8 * j)).pa = false ∧
      (p (va + 8 * j)).kind ≠ 3) →
    d.readWords r core as false va n =
      (.ok ((List.range n).map fun j => BitVec.ofNat 64 (d.homeRd (p (va + 8 * j)).pa 8)), d) := by
  intro n
  induction n with
  | zero => intro va _; rfl
  | succ n ih =>
    intro va h
    have h0 := h 0 (Nat.succ_pos n)
    have ih' := ih (va + 8) fun j hj => by
      have := h (j + 1) (Nat.succ_lt_succ hj)
      rw [show va + 8 * (j + 1) = va + 8 + 8 * j by omega] at this
      exact this
    simp only [Nat.mul_zero, Nat.add_zero] at h0
    have e : d.readVa r core as va 8 false = (.ok (d.homeRd (p va).pa 8), d) := by
      have k : ¬ (p va).kind = 3#2 := h0.2.2
      simp [Dev.readVa, Dev.place, h0.1, h0.2.1, k]
    unfold Dev.readWords
    rw [e]
    simp only
    rw [ih']
    have hm : (List.range (n + 1)).map (fun j => BitVec.ofNat 64 (d.homeRd (p (va + 8 * j)).pa 8)) =
        BitVec.ofNat 64 (d.homeRd (p va).pa 8) :: (List.range n).map fun j => BitVec.ofNat 64 (d.homeRd (p (va + 8 + 8 * j)).pa 8) := by
      rw [List.range_succ_eq_map, List.map_cons, List.map_map]
      exact congrArg (_ :: ·) (List.map_congr_left fun j _ => by
        simp only [Function.comp_apply, show va + 8 * Nat.succ j = va + 8 + 8 * j by omega])
    rw [hm]

/-- Memory has its canonical form after reset. -/
theorem reset_memory_wf : Memory.wf State.reset.dev = true := rfl

end Sys2Proof.Laws
end

