-- ==== Sys2Proof/Laws/Words.lean ====
section
/-! SUPPORT. The issue of a word and the register writes, each said once: what a word that issues answers, and what a fold of writes
over its units leaves. -/

namespace Sys2Proof.Laws

open Sys2Proof.Machine Sys2Proof.Safety

/-! ### Issue -/

theorem perform_issues {s : State} {i : Instr} {c : Ctx} (h : Issues s i c) (d : Dev) (f : Ctx → Dev → Eff) :
    c.perform i d f = f c d := by
  simp only [Ctx.perform, h.legal, h.free, h.sound, Bool.false_eq_true, if_false]
  split
  · rfl
  · cases f c d <;> simp

/-- A word that issues answers the state its own effect settles to. -/
theorem runWord_issues {s : State} {i : Instr} {c : Ctx} (h : Issues s i c) (f : Ctx → Dev → Eff) :
    runWord i s f = .next (settleWord i s c (f c s.dev)) := by
  simp [runWord, h.ctx, perform_issues h]

/-! ### Register writes -/

@[simp] theorem setV_vregs (w : Weft) (l n : Nat) (x : BitVec 32) : (w.setV l n x).vregs = Cells.set w.vregs (vecKey (l, n)) x := rfl
@[simp] theorem setV_sregs (w : Weft) (l n : Nat) (x : BitVec 32) : (w.setV l n x).sregs = w.sregs := rfl
@[simp] theorem setV_preds (w : Weft) (l n : Nat) (x : BitVec 32) : (w.setV l n x).preds = w.preds := rfl
@[simp] theorem setV_qs (w : Weft) (l n : Nat) (x : BitVec 32) : (w.setV l n x).qs = w.qs := rfl
@[simp] theorem setS_vregs (w : Weft) (h n : Nat) (x : BitVec 64) : (w.setS h n x).vregs = w.vregs := rfl
@[simp] theorem setS_sregs (w : Weft) (h n : Nat) (x : BitVec 64) : (w.setS h n x).sregs = Cells.set w.sregs (w.sIdx h n) x := rfl
@[simp] theorem setS_preds (w : Weft) (h n : Nat) (x : BitVec 64) : (w.setS h n x).preds = w.preds := rfl
@[simp] theorem setS_qs (w : Weft) (h n : Nat) (x : BitVec 64) : (w.setS h n x).qs = w.qs := rfl

theorem v_eq (w : Weft) (l n : Nat) : w.v l n = Cells.get w.vregs (vecKey (l, n)) := rfl
theorem s_eq (w : Weft) (h n : Nat) : w.s h n = Cells.get w.sregs (w.sIdx h n) := rfl
theorem sIdx_congr {w w' : Weft} (e : w'.hdr = w.hdr) (h n : Nat) : w'.sIdx h n = w.sIdx h n := by simp [Weft.sIdx, e]

theorem oneLane_bit (l j : Nat) (hj : j < 64) : (oneLane l).getLsbD j = decide (j = l) := by
  simp only [oneLane, BitVec.getLsbD_shiftLeft]
  by_cases h : j = l
  · subst h; simp [hj]
  · by_cases g : j < l
    · simp [g, h]
    · have : j - l ≠ 0 := by omega
      simp [hj, h, g, this]

theorem oneLane_get (l j : Nat) (hj : j < 64) : (oneLane l)[j] = decide (j = l) := by
  rw [← BitVec.getLsbD_eq_getElem]; exact oneLane_bit l j hj

/-- What a thread's predicate reads after a write. -/
theorem setP_p (w : Weft) (l k j n : Nat) (b : Bool) (hl : l < 64) :
    (w.setP l k b).p j n = if j = l ∧ n = k ∧ k ≠ 7 then b else w.p j n := by
  unfold Weft.setP Weft.p
  by_cases h7 : k = 7
  · simp [h7]
  · rw [if_neg h7]
    simp only [Cells.get_set]
    by_cases hn : n = k
    · subst hn
      by_cases hj : j = l
      · subst hj
        cases b <;> simp [oneLane_get, hl, h7]
      · by_cases hj64 : j < 64
        · cases b <;> simp [oneLane_get, hj64, hj]
        · have e (x : BitVec 64) : x.getLsbD j = false := BitVec.getLsbD_of_ge x j (by omega)
          simp [e, hj]
    · simp [hn]

/-- What a uniform predicate reads after a write. -/
theorem setQ_q (w : Weft) (h k j n : Nat) (b : Bool) (hk : k < 8) :
    (w.setQ h k b).q j n = if j = h ∧ n = k ∧ k ≠ 7 then b else w.q j n := by
  unfold Weft.setQ Weft.q
  by_cases h7 : k = 7
  · simp [h7]
  · rw [if_neg h7]
    simp only [Cells.get_set]
    by_cases hj : j = h
    · subst hj
      by_cases hn : n = k
      · subst hn
        cases b <;> simp [hk, h7]
      · by_cases hn8 : n < 8
        · have g : (decide (n < k) || !decide (n - k = 0)) = true := by
            by_cases g : n < k
            · simp [g]
            · have : n - k ≠ 0 := by omega
              simp [this]
          have g' : (!decide (n < k) && decide (n - k = 0)) = false := by
            by_cases g : n < k
            · simp [g]
            · have : n - k ≠ 0 := by omega
              simp [this]
          cases b <;> simp [hn, hn8, g', -Bool.or_eq_true, -Bool.and_eq_false_imp]
        · have e (x : BitVec 8) : x.getLsbD n = false := BitVec.getLsbD_of_ge x n (by omega)
          simp [e, hn]
    · simp [hj]

theorem write_holds (w : Weft) (u : Nat × Nat) (d : Operand) (wide : Bool) (e : Ext) (v : Nat) (hl : u.2 < 64) :
    DestHolds (w.write u.1 u.2 d wide e v) u d wide e v := by
  cases d with
  | vec n => cases wide <;> simp [DestHolds, Weft.write, v_eq, vecKey]
  | scal n =>
    simp only [DestHolds, Weft.write, s_eq, setS_sregs]
    rw [sIdx_congr (w' := w.setS u.1 n.val (e.apply v)) (w := w) rfl, Cells.get_set, if_pos rfl]
  | p n =>
    simp only [DestHolds, Weft.write]
    rw [setP_p _ _ _ _ _ _ hl]
    by_cases h : n = 7
    · subst h; simp [Weft.p, show ((7 : Fin 8) : Nat) = 7 from rfl]
    · have : n.val ≠ 7 := fun e => h (Fin.ext e)
      simp [h, this]
  | q n =>
    simp only [DestHolds, Weft.write]
    rw [setQ_q _ _ _ _ _ _ n.isLt]
    by_cases h : n = 7
    · subst h; simp [Weft.q, show ((7 : Fin 8) : Nat) = 7 from rfl]
    · have : n.val ≠ 7 := fun e => h (Fin.ext e)
      simp [h, this]
  | _ => trivial

theorem onlyDest_refl (w : Weft) (d : Operand) (wide : Bool) : OnlyDest w w [] d wide :=
  ⟨fun _ _ => rfl, fun _ _ => rfl, fun _ _ _ => rfl, fun _ _ _ => rfl, fun _ h => h, rfl⟩

theorem onlyDest_hdr {w w' : Weft} {us : List (Nat × Nat)} {d : Operand} {wide : Bool} (h : OnlyDest w w' us d wide) : w'.hdr = w.hdr := by
  have := congrArg Weft.hdr h.rest; simpa using this

theorem onlyDest_trans {w w1 w2 : Weft} {us vs : List (Nat × Nat)} {d : Operand} {wide : Bool} (h1 : OnlyDest w w1 us d wide)
    (h2 : OnlyDest w1 w2 vs d wide) : OnlyDest w w2 (us ++ vs) d wide where
  vec k h := (h2.vec k fun u hu => h u (by simp [hu])).trans (h1.vec k fun u hu => h u (by simp [hu]))
  scal k h := (h2.scal k fun u hu n e => by rw [sIdx_congr (onlyDest_hdr h1)]; exact h u (by simp [hu]) n e).trans
    (h1.scal k fun u hu => h u (by simp [hu]))
  pred l k h := (h2.pred l k fun u hu => h u (by simp [hu])).trans (h1.pred l k fun u hu => h u (by simp [hu]))
  uni l k h := (h2.uni l k fun u hu => h u (by simp [hu])).trans (h1.uni l k fun u hu => h u (by simp [hu]))
  bad k hk := h1.bad k (h2.bad k hk)
  rest := by
    have a := h1.rest
    have b := h2.rest
    rw [← b] at a
    simpa using a

theorem write_only (w : Weft) (u : Nat × Nat) (d : Operand) (wide : Bool) (e : Ext) (v : Nat) (hl : u.2 < 64) :
    OnlyDest w (w.write u.1 u.2 d wide e v) [u] d wide := by
  cases d with
  | vec n =>
    refine ⟨fun k h => ?_, fun _ _ => ?_, fun _ _ _ => ?_, fun _ _ _ => ?_, fun k h => ?_, ?_⟩
    · cases wide <;> simp_all [Weft.write, vecCells]
    · cases wide <;> simp [Weft.write]
    · cases wide <;> simp [Weft.write, Weft.p]
    · cases wide <;> simp [Weft.write, Weft.q]
    · cases wide <;> simp [Weft.write, Weft.setV, Weft.mend, List.mem_filter] at h <;> simp [h]
    · cases wide <;> simp [Weft.write, Weft.setV, Weft.mend]
  | scal n =>
    refine ⟨fun k h => rfl, fun k h => ?_, fun _ _ _ => rfl, fun _ _ _ => rfl, fun k h => ?_, rfl⟩
    · simp only [Weft.write, setS_sregs, Cells.get_set]
      rw [if_neg (h u (by simp) n rfl)]
    · simp [Weft.write, Weft.setS, Weft.mend, List.mem_filter] at h; exact h.1
  | p n =>
    refine ⟨fun k h => ?_, fun k h => ?_, fun l k h => ?_, fun h k _ => ?_, fun k h => ?_, ?_⟩
    all_goals try simp only [Weft.write]
    · unfold Weft.setP; split <;> rfl
    · unfold Weft.setP; split <;> rfl
    · rw [setP_p _ _ _ _ _ _ hl, if_neg]
      rintro ⟨rfl, rfl, -⟩
      exact h u (by simp) n rfl ⟨rfl, rfl⟩
    · unfold Weft.setP; split <;> rfl
    · unfold Weft.write Weft.setP at h; dsimp only at h; split at h <;> exact h
    · unfold Weft.setP; split <;> rfl
  | q n =>
    refine ⟨fun k h => ?_, fun k h => ?_, fun l k _ => ?_, fun j k h => ?_, fun k h => ?_, ?_⟩
    all_goals try simp only [Weft.write]
    · unfold Weft.setQ; split <;> rfl
    · unfold Weft.setQ; split <;> rfl
    · unfold Weft.setQ; split <;> rfl
    · rw [setQ_q _ _ _ _ _ _ n.isLt, if_neg]
      rintro ⟨rfl, rfl, -⟩
      exact h u (by simp) n rfl ⟨rfl, rfl⟩
    · unfold Weft.write Weft.setQ at h; dsimp only at h; split at h <;> exact h
    · unfold Weft.setQ; split <;> rfl
  | _ => exact ⟨fun _ _ => rfl, fun _ _ => rfl, fun _ _ _ => rfl, fun _ _ _ => rfl, fun _ h => h, rfl⟩

/-! ### Writes of all units -/

/-- Whether two units of a word write apart from each other. -/
def Apart (w : Weft) (d : Operand) (u v : Nat × Nat) : Prop :=
  match d with
  | .vec _ | .p _ => u.2 ≠ v.2
  | .scal _ => w.sIdx u.1 0 ≠ w.sIdx v.1 0
  | .q _ => u.1 ≠ v.1
  | _ => True

theorem holds_of_only {w w' : Weft} {u v : Nat × Nat} {d : Operand} {wide : Bool} {e : Ext} {x : Nat} (a : Apart w d v u)
    (h : OnlyDest w w' [u] d wide) (hv : DestHolds w v d wide e x) : DestHolds w' v d wide e x := by
  cases d with
  | vec n =>
    obtain ⟨h1, h2⟩ := hv
    have key (j : Nat) (hj : j < 1024) : Cells.get w'.vregs (vecKey (v.2, j)) = Cells.get w.vregs (vecKey (v.2, j)) := by
      apply h.vec
      intro u' hu'
      simp only [List.mem_singleton] at hu'
      subst hu'
      simp only [Apart] at a
      have hn := n.isLt
      have : v.2 * 1024 + j ≠ u'.2 * 1024 + n.val := fun _ => a (by omega)
      have : v.2 * 1024 + j ≠ u'.2 * 1024 + (n.val + 1) := fun _ => a (by omega)
      cases wide <;> simp [vecCells, vecKey, *]
    have hn := n.isLt
    exact ⟨(key n.val (by omega)).trans h1, fun g => (key (n.val + 1) (by omega)).trans (h2 g)⟩
  | scal n =>
    simp only [DestHolds, s_eq] at hv ⊢
    rw [sIdx_congr (onlyDest_hdr h), h.scal _ ?_, hv]
    intro u' hu' m hm
    simp only [List.mem_singleton] at hu'
    subst hu'
    injection hm with hm
    subst hm
    simp only [Apart, Weft.sIdx] at a ⊢
    split <;> simp_all
  | p n =>
    simp only [DestHolds] at hv ⊢
    rw [h.pred _ _ ?_, hv]
    intro u' hu' m hm
    simp only [List.mem_singleton] at hu'
    subst hu'
    intro g
    exact a g.1.symm
  | q n =>
    simp only [DestHolds] at hv ⊢
    rw [h.uni _ _ ?_, hv]
    intro u' hu' m hm
    simp only [List.mem_singleton] at hu'
    subst hu'
    intro g
    exact a g.1.symm
  | _ => trivial

theorem writes_step {w w' : Weft} {ds : List (Nat × Nat)} {u : Nat × Nat} {d : Operand} {wide : Bool} {e : Ext} {val : Nat × Nat → Nat}
    (h : Writes w w' ds d wide e val) (hu : u.2 < 64) (ha : ∀ x ∈ ds, Apart w d x u) :
    Writes w (w'.write u.1 u.2 d wide e (val u)) (ds ++ [u]) d wide e val := by
  obtain ⟨h1, h2⟩ := h
  have o := write_only w' u d wide e (val u) hu
  refine ⟨fun x hx => ?_, onlyDest_trans h2 o⟩
  rw [List.mem_append, List.mem_singleton] at hx
  rcases hx with hx | rfl
  · refine holds_of_only ?_ o (h1 x hx)
    have := ha x hx
    cases d <;> simp only [Apart] at this ⊢ <;> try exact this
    rwa [sIdx_congr (onlyDest_hdr h2), sIdx_congr (onlyDest_hdr h2)]
  · exact write_holds _ _ _ _ _ _ hu

theorem writes_more {w w' : Weft} {ds us : List (Nat × Nat)} {d : Operand} {wide : Bool} {e : Ext} {val : Nat × Nat → Nat}
    (h : Writes w w' ds d wide e val) (hl : ∀ u ∈ us, u.2 < 64) (ha : (ds ++ us).Pairwise (Apart w d)) :
    Writes w (us.foldl (fun w u => w.write u.1 u.2 d wide e (val u)) w') (ds ++ us) d wide e val := by
  induction us generalizing ds w' with
  | nil => simpa using h
  | cons u us ih =>
    have hx : ∀ x ∈ ds, Apart w d x u := fun x hx => (List.pairwise_append.mp ha).2.2 x hx u (by simp)
    have := ih (writes_step h (hl u (by simp)) hx) (fun x hx => hl x (by simp [hx])) (by simpa using ha)
    simpa using this

/-- Writes of a list of units that stand apart. -/
theorem writes_foldl (w : Weft) (us : List (Nat × Nat)) (d : Operand) (wide : Bool) (e : Ext) (val : Nat × Nat → Nat)
    (hl : ∀ u ∈ us, u.2 < 64) (ha : us.Pairwise (Apart w d)) :
    Writes w (us.foldl (fun w u => w.write u.1 u.2 d wide e (val u)) w) us d wide e val :=
  writes_more (ds := []) ⟨fun _ h => absurd h (by simp), onlyDest_refl w d wide⟩ hl ha

/-! ### The units of a word -/

theorem mem_lanesOf {m : Lanes} {l : Nat} (h : l ∈ lanesOf m) : l < 64 := by
  simp [lanesOf, lanesBelow] at h; exact h.1

theorem units_lane {c : Ctx} {d : Operand} {u : Nat × Nat} (h : u ∈ units c d) : u.2 < 64 := by
  unfold units at h
  split at h
  · simp at h; obtain ⟨_, _, rfl⟩ := h; exact Nat.succ_pos 63
  · simp only [List.mem_map] at h
    obtain ⟨l, hl, rfl⟩ := h
    simp only [Ctx.on, Weft.guarded, List.mem_filter] at hl
    exact mem_lanesOf hl.1

theorem lanesBelow_pairwise (n : Nat) (m : Lanes) : (lanesBelow n m).Pairwise (· ≠ ·) :=
  List.Pairwise.filter _ (List.nodup_range)

theorem units_apart (c : Ctx) (d : Operand) : (units c d).Pairwise (Apart c.w d) := by
  unfold units
  split
  · next h =>
    rw [List.pairwise_map]
    unfold Ctx.onHalves Weft.halves
    by_cases e : c.w.hdr.c16 = true
    · simp only [e, if_true]
      refine List.Pairwise.filter _ (List.Pairwise.filter _ ?_)
      simp
      cases d <;> simp [Apart, Weft.sIdx, e] <;> simp [Operand.makesUniform] at h
    · simp only [e, if_false, Bool.false_eq_true]
      exact List.Pairwise.filter _ (by simp)
  · next h =>
    rw [List.pairwise_map]
    refine List.Pairwise.filter _ ?_
    refine List.Pairwise.imp ?_ (lanesBelow_pairwise 64 _)
    intro a b hab
    cases d <;> simp_all [Apart, Operand.makesUniform]

/-! ### Words that compute and write at once -/

/-- What a weft holds apart from its sticky exceptions. -/
def setFpst (w : Weft) (f : Cells 5) : Weft := { w with fpst := f }

theorem write_setFpst (w : Weft) (f : Cells 5) (h l : Nat) (d : Operand) (wide : Bool) (e : Ext) (v : Nat) :
    (setFpst w f).write h l d wide e v = setFpst (w.write h l d wide e v) f := by
  cases d with
  | vec n => cases wide <;> rfl
  | p n => unfold Weft.write Weft.setP; dsimp only; split <;> rfl
  | q n => unfold Weft.write Weft.setQ; dsimp only; split <;> rfl
  | _ => rfl

/-- $fpst after the exceptions of some units. -/
def accrue (p : Cells 5) (us : List (Nat × Nat)) (f : Nat × Nat → Nat × Exc) : Cells 5 :=
  us.foldl (fun p u => if (f u).2 = 0 then p else Cells.set p u.1 (Cells.get p u.1 ||| (f u).2)) p

theorem accrue_get (p : Cells 5) (us : List (Nat × Nat)) (f : Nat × Nat → Nat × Exc) (h : Nat) :
    Cells.get (accrue p us f) h = us.foldl (fun x u => if u.1 = h then x ||| (f u).2 else x) (Cells.get p h) := by
  induction us generalizing p with
  | nil => rfl
  | cons u us ih =>
    simp only [accrue, List.foldl_cons] at ih ⊢
    rw [ih]
    congr 1
    by_cases e : (f u).2 = 0
    · simp [e]
    · rw [if_neg e, Cells.get_set]
      by_cases g : h = u.1
      · subst g; simp
      · rw [if_neg g, if_neg (Ne.symm g)]

/-- The fold of a word with exceptions, as writes and the accrual of $fpst. -/
theorem alu_fold (c : Ctx) (d : Operand) (wide : Bool) (e : Ext) (f : Nat × Nat → Nat × Exc) (us : List (Nat × Nat)) (w : Weft) (p : Cells 5) :
    us.foldl (fun w u =>
      let w := if (f u).2 = 0 then w else w.orFpst u.1 (f u).2
      if (c.w.excCause (f u).2).isSome then w else w.write u.1 u.2 d wide e (f u).1) (setFpst w p) =
    setFpst ((untrapped c us f).foldl (fun w u => w.write u.1 u.2 d wide e (f u).1) w) (accrue p us f) := by
  induction us generalizing w p with
  | nil => rfl
  | cons u us ih =>
    have a : (if (f u).2 = 0 then setFpst w p else (setFpst w p).orFpst u.1 (f u).2) = setFpst w (accrue p [u] f) := by
      simp only [accrue, List.foldl_cons, List.foldl_nil]
      split <;> rfl
    have b : accrue p (u :: us) f = accrue (accrue p [u] f) us f := rfl
    rw [List.foldl_cons]
    simp only [a, b]
    unfold untrapped at ih ⊢
    rw [List.filter_cons]
    cases hc : c.w.excCause (f u).2 with
    | some k => simpa using ih w (accrue p [u] f)
    | none =>
      simp only [Option.isSome_none, Bool.false_eq_true, if_false, Option.isNone_none, if_true, write_setFpst, List.foldl_cons]
      exact ih _ _

/-- A word with exceptions that issues: what it leaves and who traps. -/
theorem aluWord_issues {s : State} {i : Instr} {c : Ctx} (h : Issues s i c) (d : Operand) (wide : Bool) (e : Ext) (cyc : Ctx → Nat)
    (g : Ctx → Nat → Nat → Nat × Exc) :
    ∃ w', Computes c w' (units c d) d wide e (fun u => g c u.1 u.2) ∧
      aluWord i s d.makesUniform cyc (fun c k l => (fun w => w.write k l d wide e (g c k l).1, (g c k l).2)) =
        .next (settleWord i s c (.done (s.dev.putW c.run.ref w') (cyc c) (excTraps c (units c d) (unitLanes c d) fun u => g c u.1 u.2) [])) := by
  let f : Nat × Nat → Nat × Exc := fun u => g c u.1 u.2
  have hs := alu_fold c d wide e f (units c d) c.w c.w.fpst
  refine ⟨setFpst ((untrapped c (units c d) f).foldl (fun w u => w.write u.1 u.2 d wide e (f u).1) c.w) (accrue c.w.fpst (units c d) f), ⟨?_, ?_⟩, ?_⟩
  · have k := writes_foldl (setFpst c.w (accrue c.w.fpst (units c d) f)) (untrapped c (units c d) f) d wide e (fun u => (f u).1)
      (fun u hu => units_lane (List.mem_filter.mp hu).1)
      (List.Pairwise.filter _ (by
        have := units_apart c d
        exact this.imp fun {a b} hab => by cases d <;> exact hab))
    have q : ∀ us : List (Nat × Nat), ∀ w : Weft, us.foldl (fun w u => w.write u.1 u.2 d wide e (f u).1) (setFpst w (accrue c.w.fpst (units c d) f)) =
        setFpst (us.foldl (fun w u => w.write u.1 u.2 d wide e (f u).1) w) (accrue c.w.fpst (units c d) f) := by
      intro us
      induction us with
      | nil => intro w; rfl
      | cons u us ih => intro w; rw [List.foldl_cons, write_setFpst, ih]; rfl
    rw [q] at k
    exact k
  · intro x
    exact accrue_get _ _ _ _
  · unfold aluWord
    rw [runWord_issues h, ← hs]
    rfl

/-- An integer word that issues: what it leaves, with no trap. -/
theorem intWord_issues {s : State} {i : Instr} {c : Ctx} (h : Issues s i c) (t : IntTy) (d : Operand) (cyc : Ctx → Nat)
    (f : (Operand → Nat) → Nat) :
    ∃ w', Writes c.w w' (units c d) d t.wide (intExt t) (fun u => f (c.rd u.1 u.2 (intReader t))) ∧
      intWord i s t d cyc f = .next (settleWord i s c (.done (s.dev.putW c.run.ref w') (cyc c) [] [])) := by
  refine ⟨_, writes_foldl c.w (units c d) d t.wide (intExt t) _ (fun _ => units_lane) (units_apart c d), ?_⟩
  unfold intWord aluWord
  rw [runWord_issues h]
  have e0 : c.w.excCause 0#5 = none := by simp [Weft.excCause]
  have fm (l : List (Nat × Nat)) : l.flatMap (fun _ => ([] : List Trap)) = [] := by induction l <;> simp [*]
  simp [units, e0, fm]

end Sys2Proof.Laws
end

