-- ==== Sys2Proof/Tests/Slice0.lean ====
section
/-! SUPPORT. Tests: ill-formed words that each check refuses; words written field by field from the spec's tables, with what they decode to;
worked examples of the spec, one step each; and, for every statement, states and operands that meet its hypotheses. -/

namespace Sys2Proof.Tests

set_option Elab.async false

open Sys2Proof.Machine Sys2Proof.Safety

/-! ### Headers and states -/

/-- Unguarded per-thread and unguarded uniform words (R101). -/
def h7 : Hdr := { last := false, guard := { uni := false, neg := false, num := 7 }, lit := none }
def q7 : Hdr := { last := false, guard := { uni := true, neg := false, num := 7 }, lit := none }
/-- The same as the last word of a pick, and a per-thread guard p0. -/
def h7e : Hdr := { h7 with last := true }
def q7e : Hdr := { q7 with last := true }
def g0 : Hdr := { h7 with guard := { uni := false, neg := false, num := 0 } }
def g0e : Hdr := { g0 with last := true }
/-- A uniform guard that is false while q0 reads 0. -/
def u0 : Hdr := { q7 with guard := { uni := true, neg := false, num := 0 } }
def u0e : Hdr := { u0 with last := true }

/-- A user weft of 16 lanes in slot 0 of shuttle 0 of core 0, of bolt 1 and context 5, with every kind of register allocated. -/
def userHdr : KHdr := { KHdr.none with w := 16, vregs := 200, sregs := 128, acc := 128, depth := 2, scratch := 4096, threads := 16 }
def uref : WRef := { core := 0, shuttle := 0, slot := 0 }
def userWeft : Weft := { Weft.start userHdr 0 0 5 7 [] 0 with bolt := 1 }

def userBolt : Bolt := { (default : Bolt) with id := 1, serial := 1, st := .resident, left := 1 }

/-- A pick in progress at its word `i`, FA f0 and FB f1, which the threads of `act` issue. -/
def runAt (ref : WRef) (i : Instr) (act : Lanes) (depth : Nat) : PickRun :=
  { ref := ref, pc := 0x20, depth := depth, header := 0x4000020000000000,
    words := encode i ++ (if i.last then [] else [lastNop]), idx := 0, start := 0, act0 := act, act := act, handler := false, dests := [],
    traps := [] }

/-- A device with weft `w` in its place and `bs` its bolts, which issues `i`. -/
def devAt (w : Weft) (bs : List Bolt) (run : PickRun) : Dev :=
  { (Dev.reset.putW run.ref w).modSh 0 fun x => { x with run := some run } with bolts := bs }

def stAt (d : Dev) : State := { State.reset with dev := d }

def cxAt (w : Weft) (i : Instr) (run : PickRun) : Ctx :=
  { regs := Regs.reset, sh := 0, run := run, w := w, guard := i.guard?.getD { uni := true, neg := false, num := 7 }, lit := i.hdr?.bind (·.lit) }

/-- Whether nothing keeps the word from issuing. -/
def issuesAt (w : Weft) (i : Instr) (run : PickRun) : Bool :=
  let c := cxAt w i run
  c.issueTrap i == none && !c.w.sbWaits i && c.consumers i == 0

/-- A word that passes the tests of its place issues, whatever else the device holds. -/
theorem issues_of (d : Dev) (w : Weft) (i : Instr) (run : PickRun) (hr : (d.sh 0).run = some run) (hw : d.weft? run.ref = some w)
    (h : issuesAt w i run = true) : Issues (stAt d) i (cxAt w i run) := by
  simp only [issuesAt, Bool.and_eq_true, beq_iff_eq, Bool.not_eq_true'] at h
  exact ⟨by
    unfold State.ctx? State.ctxOf?
    simp only [stAt, State.reset, hr, hw]
    rfl, h.1.1, h.1.2, h.2⟩

theorem issues_at (w : Weft) (bs : List Bolt) (i : Instr) (run : PickRun) (h : issuesAt w i run = true) :
    Issues (stAt (devAt w bs run)) i (cxAt w i run) :=
  issues_of _ w i run (by simp [devAt, Dev.modSh, Dev.sh, Tab.getD_upd]) (by simp [devAt, Dev.modSh, Dev.weft?, Dev.putW, Tab.find?_put]) h

/-- A word of a user weft in bolt 1, and of the supervisor weft. -/
def ui (i : Instr) (act : Lanes := 0xFFFF) (depth : Nat := 1) : PickRun := runAt uref i act depth
def si (i : Instr) : PickRun := runAt (supRef 0) i 0xFFFF 1

/-- The state after a step, and a vector register of the weft that issued. -/
def after (o : Host.Outcome State Fault Refusal) : State :=
  match o with
  | .next s => s
  | _ => State.reset

def vAfter (w : Weft) (i : Instr) (l n : Nat) : Option Nat :=
  ((after (exec i (stAt (devAt w [userBolt] (ui i))))).dev.weft? uref).map fun w' => (w'.v l n).toNat

/-- The user weft with `x` in vector register `n` of lane `l`. -/
def withV (w : Weft) (l n : Nat) (x : BitVec 32) : Weft := w.setV l n x

/-! ### Ill-formed words -/

/-- Each check refuses a word: a reserved modifier (1), an operand of the wrong kind (2), a field the encoding has no room for (3), an odd
register of a pair (7), a pair word's bank or guard (8), the guard !p7 and p7 as destination (9), a uniform word with a per-thread source or
guard (0xB), and a literal that no operand names or that is not there. -/
theorem test_ill_formed :
    WellFormed (.fence h7 { ord := .relaxed, scope := .dev, fb := false }) = false ∧
    WellFormed (.redux h7 .and .f32 (.vec 1) (.vec 2)) = false ∧
    WellFormed (.movs h7 27 (.vec 1) none) = false ∧
    WellFormed (.iadd h7 { ty := .s32, sat := false } (.imm 0) (.vec 1) (.vec 2)) = false ∧
    WellFormed (.iadd h7 { ty := .s32, sat := false } (.vec 0) (.p 1) (.vec 2)) = false ∧
    WellFormed (.mma q7 { fmt := .c8, chunks := 0, ra := false } 0 (.vec 8) (.scal 1) none) = false ∧
    WellFormed (.ldc h7 .b128 false (.scal 1) (.scal 2) (.imm 0)) = false ∧
    WellFormed (.ecwait q7e { sync := false, scope := .weft, remote := false, fb := true } (.scal 1) (.imm 33)) = false ∧
    WellFormed (.imul h7 { ty := .s64, sat := false } (.vec 3) (.vec 4) (.vec 6)) = false ∧
    WellFormed (.mma q7 { fmt := .c16b, chunks := 0, ra := false } 0 (.vec 4) (.scal 1) none) = false := by decide

theorem test_ill_formed_more :
    WellFormed (.pairWord false h7.guard (some (.mov 1 (.reg 2))) none) = false ∧
    WellFormed (.pairWord false q7.guard none (some { op := .mov, vd := 4, vs := .vec 8 })) = false ∧
    WellFormed (.nop { h7 with guard := { uni := false, neg := true, num := 7 } }) = false ∧
    WellFormed (.isetp h7 .s32 .eq (.p 7) (.vec 1) (.vec 2)) = false ∧
    WellFormed (.iadd q7 { ty := .s32, sat := false } (.scal 1) (.vec 1) (.scal 2)) = false ∧
    WellFormed (.iadd h7 { ty := .s32, sat := false } (.scal 1) (.scal 1) (.scal 2)) = false ∧
    WellFormed (.accz h7 0) = false ∧
    WellFormed (.vacs2 q7 { uns := false, sat := false } 0 (.scal 1) (.scal 2) (.scal 3) (.scal 4)) = false ∧
    WellFormed (.iadd h7 { ty := .s32, sat := false } (.vec 1) (.vec 2) .lit) = false ∧
    WellFormed (.iadd { h7 with lit := some 5 } { ty := .s32, sat := false } (.vec 1) (.vec 2) (.vec 3)) = false ∧
    WellFormed (.iadd { h7 with lit := some 5 } { ty := .s32, sat := false } (.vec 1) (.vec 2) .lit) = true := by decide

/-- Encodings that R124 and R122 refuse: a reserved opcode, a reserved operand code, a reserved bit, E on a word before its literal. -/
theorem test_refused_words :
    decodeWords [0x00E3800000000000] = none ∧ decodeWords [0x0403803B80000000] = none ∧ decodeWords [0x0003800000000001] = none ∧
    decodeWords [0x8403808017FE0000, 0x6000000012345678] = none ∧ decodeWords [0x0403808017FE0000] = none ∧
    decodeWords [0x4001FE0000000000] = none := by decide

/-! ### Words of the spec's tables -/


/-- Words written field by field from R113 and the control entries. -/
theorem test_decode_control_1 :
    decodeWords [0x0003800000000000] = some (.nop h7) ∧
    decodeWords [0x8010FFFFFFF60000] = some (.bra { last := true, guard := { uni := false, neg := false, num := 1 }, lit := none } (-5)) ∧
    decodeWords [0x8023800048000000] = some (.brx { last := true, guard := { uni := false, neg := false, num := 7 }, lit := none } (.vec 9)) ∧
    decodeWords [0x8033800000180000] = some (.call { last := true, guard := { uni := false, neg := false, num := 7 }, lit := none } 12) ∧
    decodeWords [0x8043801428000000] = some (.callx { last := true, guard := { uni := false, neg := false, num := 7 }, lit := none } (.scal 5)) ∧
    decodeWords [0x8053800000000000] = some (.ret { last := true, guard := { uni := false, neg := false, num := 7 }, lit := none }) ∧
    decodeWords [0x8063800000000000] = some (.exit { last := true, guard := { uni := false, neg := false, num := 7 }, lit := none }) ∧
    decodeWords [0x8061000000000000] = some (.exit { last := true, guard := { uni := false, neg := false, num := 2 }, lit := none }) ∧
    decodeWords [0x8073800000000000] = some (.yield { last := true, guard := { uni := false, neg := false, num := 7 }, lit := none }) ∧
    decodeWords [0x8083F05428000000] = some (.waitl { last := true, guard := { uni := false, neg := false, num := 7 }, lit := none } (.p 2) (.scal 5)) ∧
    decodeWords [0x8093801906400000] = some (.bar { last := true, guard := { uni := false, neg := false, num := 7 }, lit := none } .sync (.imm 32) (.imm 32)) ∧
    decodeWords [0x809380191D0E0002] = some (.bar { last := true, guard := { uni := false, neg := false, num := 7 }, lit := none } .wait (.imm 35) (.scal 7)) := by decide

/-- Words written field by field from R113 and the control entries. -/
theorem test_decode_control_2 :
    decodeWords [0x00A3801A50000000] = some (.trap h7 (.imm 74)) ∧
    decodeWords [0x80B3801938000000] = some (.syscall { last := true, guard := { uni := false, neg := false, num := 7 }, lit := none } (.imm 39)) ∧
    decodeWords [0x00C3801908000000] = some (.brk h7 (.imm 33)) ∧
    decodeWords [0x00DBD074464A0000] = some (.launch q7 (.scal 3) (.scal 8) (.imm 37)) := by decide

/-- Words written field by field from R106 to R109, R114 and the class 1 entries. -/
theorem test_decode_integer_1 :
    decodeWords [0x0403808017FE0000, 0x6000000012345678] = some (.iadd { last := false, guard := { uni := false, neg := false, num := 7 }, lit := some 0x12345678 } { ty := .s32, sat := false } (.vec 4) (.vec 2) .lit) ∧
    decodeWords [0x04138079280C0030] = some (.isub h7 { ty := .z32, sat := true } (.vec 3) (.imm 37) (.vec 6)) ∧
    decodeWords [0x0423808030100040] = some (.imul h7 { ty := .s64, sat := false } (.vec 4) (.vec 6) (.vec 8)) ∧
    decodeWords [0x0433802010060020] = some (.imulh h7 .z32 (.vec 1) (.vec 2) (.vec 3)) ∧
    decodeWords [0x044BD03415074260] = some (.imad q7 { ty := .z64, sat := false } (.scal 1) (.scal 2) (.scal 3) (.scal 4)) ∧
    decodeWords [0x0453802010060000] = some (.imin h7 .s32 (.vec 1) (.vec 2) (.vec 3)) ∧
    decodeWords [0x0463802010060020] = some (.imax h7 .z32 (.vec 1) (.vec 2) (.vec 3)) ∧
    decodeWords [0x0473802010000010] = some (.iabs h7 { ty := .s32, sat := true } (.vec 1) (.vec 2)) ∧
    decodeWords [0x0483802010060000] = some (.and h7 .s32 (.vec 1) (.vec 2) (.vec 3)) ∧
    decodeWords [0x0493802010060020] = some (.or h7 .z32 (.vec 1) (.vec 2) (.vec 3)) ∧
    decodeWords [0x04ABD034163E0040] = some (.xor q7 .s64 (.scal 1) (.scal 2) (.imm 31)) ∧
    decodeWords [0x04B3802010000000] = some (.not h7 .s32 (.vec 1) (.vec 2)) := by decide

/-- Words written field by field from R106 to R109, R114 and the class 1 entries. -/
theorem test_decode_integer_2 :
    decodeWords [0x04C3802016480002] = some (.shl h7 { ty := .s32, clamp := true } (.vec 1) (.vec 2) (.imm 36)) ∧
    decodeWords [0x04D380400E820020] = some (.shr h7 { ty := .z32, clamp := false } (.vec 2) (.vec 1) (.imm 65)) ∧
    decodeWords [0x04E380400E3E0000] = some (.sar h7 { ty := .s32, clamp := false } (.vec 2) (.vec 1) (.imm 31)) ∧
    decodeWords [0x04F380600E519220] = some (.bfx h7 .z32 (.vec 3) (.vec 1) (.imm 40) (.imm 36)) ∧
    decodeWords [0x0503806008040280] = some (.bfi h7 .s32 (.vec 3) (.vec 1) (.vec 2) (.vec 5)) ∧
    decodeWords [0x0513804020000040] = some (.popc h7 .s64 (.vec 2) (.vec 4)) ∧
    decodeWords [0x0523802018000020] = some (.clz h7 .z32 (.vec 1) (.vec 3)) ∧
    decodeWords [0x0533802018000020] = some (.brev h7 .z32 (.vec 1) (.vec 3)) ∧
    decodeWords [0x0543F020050A000A] = some (.isetp h7 .s32 .ge (.p 1) (.vec 0) (.scal 5)) ∧
    decodeWords [0x055380201007C200] = some (.sel h7 .s32 (.vec 1) (.vec 2) (.vec 3) (.p 4)) ∧
    decodeWords [0x056BD05938000040] = some (.mov q7 .s64 (.scal 2) (.imm 39)) ∧
    decodeWords [0x0573802010060026] = some (.lea h7 { ty := .z32, sat := false } 3 (.vec 1) (.vec 2) (.vec 3)) := by decide

/-- Words written field by field from R106 to R109, R114 and the class 1 entries. -/
theorem test_decode_integer_3 :
    decodeWords [0x05838300A02A0B00] = some (.swizb h7 false (.vec 24) (.vec 20) (.vec 21) (.vec 22)) ∧
    decodeWords [0x0593F03C170E6000] = some (.plop h7 0xC0 (.p 1) (.p 2) (.p 7)) ∧
    decodeWords [0x05A380A000000000] = some (.p2v h7 (.vec 5)) ∧
    decodeWords [0x05B380002E460000] = some (.v2p h7 (.vec 5) (.imm 35)) ∧
    decodeWords [0x3700183A12040480] = some (.pairWord false { uni := true, neg := false, num := 7 } (some (.bin .add 3 3 (.imm 33))) (some { op := .fadd { rnd := .rn, sat := false, neg := false, abs := false }, vd := 8, vs := .vec 9 })) := by decide

/-- Words written field by field from R115 and the class 2 entries. -/
theorem test_decode_float_1 :
    decodeWords [0x08038080280C0000] = some (.fadd h7 { rnd := .rn, sat := false, neg := false, abs := false } (.vec 4) (.vec 5) (.vec 6)) ∧
    decodeWords [0x08138080280C001A] = some (.fsub h7 { rnd := .ru, sat := false, neg := true, abs := false } (.vec 4) (.vec 5) (.vec 6)) ∧
    decodeWords [0x082380802EC60005] = some (.fmul h7 { rnd := .rn, sat := true, neg := false, abs := true } (.vec 4) (.vec 5) (.fimm 3)) ∧
    decodeWords [0x08338080280C0388] = some (.ffma h7 { rnd := .rz, sat := false, neg := false, abs := false } (.vec 4) (.vec 5) (.vec 6) (.vec 7)) ∧
    decodeWords [0x0843802010060002] = some (.fmin h7 true false (.vec 1) (.vec 2) (.vec 3)) ∧
    decodeWords [0x0853802010060001] = some (.fmax h7 false true (.vec 1) (.vec 2) (.vec 3)) ∧
    decodeWords [0x0863F00010060006] = some (.fsetp h7 .num (.p 0) (.vec 2) (.vec 3)) ∧
    decodeWords [0x0873802010000012] = some (.frcp h7 .rd false true (.vec 1) (.vec 2)) ∧
    decodeWords [0x0883802010000012] = some (.frsq h7 .rd false true (.vec 1) (.vec 2)) ∧
    decodeWords [0x0893802010000012] = some (.fex2 h7 .rd false true (.vec 1) (.vec 2)) ∧
    decodeWords [0x08A3802010000012] = some (.flg2 h7 .rd false true (.vec 1) (.vec 2)) ∧
    decodeWords [0x08B3802010000012] = some (.fsin h7 .rd false true (.vec 1) (.vec 2)) := by decide

/-- Words written field by field from R115 and the class 2 entries. -/
theorem test_decode_float_2 :
    decodeWords [0x08C3802010000012] = some (.fcos h7 .rd false true (.vec 1) (.vec 2)) ∧
    decodeWords [0x08D3802010000012] = some (.frnd h7 .rd false true (.vec 1) (.vec 2)) ∧
    decodeWords [0x08E3802010000000] = some (.fclass h7 (.vec 1) (.vec 2)) ∧
    decodeWords [0x08F3802016460004] = some (.fscale h7 .rn true false (.vec 1) (.vec 2) (.imm 35)) := by decide

/-- Words written field by field from R116 and the class 3 entries. -/
theorem test_decode_packed :
    decodeWords [0x0C03802010060060] = some (.vadd2 h7 { uns := true, sat := true } (.vec 1) (.vec 2) (.vec 3)) ∧
    decodeWords [0x0C13802010060000] = some (.vsub2 h7 { uns := false, sat := false } (.vec 1) (.vec 2) (.vec 3)) ∧
    decodeWords [0x0C23802010060000] = some (.vmin2 h7 { uns := false, sat := false } (.vec 1) (.vec 2) (.vec 3)) ∧
    decodeWords [0x0C33802010060000] = some (.vmax2 h7 { uns := false, sat := false } (.vec 1) (.vec 2) (.vec 3)) ∧
    decodeWords [0x0C4380C010060240] = some (.vacs2 h7 { uns := true, sat := false } 0 (.vec 6) (.vec 2) (.vec 3) (.vec 4)) ∧
    decodeWords [0x0C53802010060040] = some (.hadd2 h7 { f16 := true, rnd := .rn, sat := false } (.vec 1) (.vec 2) (.vec 3)) ∧
    decodeWords [0x0C6380201006000C] = some (.hmul2 h7 { f16 := false, rnd := .rz, sat := true } (.vec 1) (.vec 2) (.vec 3)) ∧
    decodeWords [0x0C73802010060200] = some (.hfma2 h7 { f16 := false, rnd := .rn, sat := false } (.vec 1) (.vec 2) (.vec 3) (.vec 4)) ∧
    decodeWords [0x0C83802010013405] = some (.cvt h7 { dty := .b8 3, sty := .f32, rnd := .rn, sat := true, uns := false, ext := true } (.vec 1) (.vec 2)) := by decide

/-- Words written field by field from R117 and the class 4 entries. -/
theorem test_decode_cross :
    decodeWords [0x100380A026459001] = some (.shfl h7 .up (.vec 5) (.vec 4) (.imm 34) (.imm 32)) ∧
    decodeWords [0x1013815C00000002] = some (.vote h7 .ballot (.vec 10) (.p 0)) ∧
    decodeWords [0x1023802010000012] = some (.redux h7 .max .f32 (.vec 1) (.vec 2)) ∧
    decodeWords [0x1033804008000000] = some (.mates h7 false none (.vec 2) (.vec 1)) ∧
    decodeWords [0x10338040250C0003] = some (.mates h7 true (some (.scal 6)) (.vec 2) (.vec 4)) ∧
    decodeWords [0x1043804020000000] = some (.rdfl h7 (.vec 2) (.vec 4)) ∧
    decodeWords [0x1053814000180000] = some (.movs h7 12 (.vec 10) none) ∧
    decodeWords [0x105BD039181A0000] = some (.movs q7 13 (.scal 1) (some (.imm 35))) ∧
    decodeWords [0x106B81F900000000] = some (.sets q7 15 (.imm 32)) := by decide

/-- Words written field by field from R118, R119 and the class 5 entries. -/
theorem test_decode_memory_1 :
    decodeWords [0x140380D450040011] = some (.ld h7 { size := .b32, ord := .plain, scope := .weft, remote := false, ef := false, fb := true } (.vec 6) (.scal 10) (.imm 2)) ∧
    decodeWords [0x140381142004E01A] = some (.ld h7 { size := .b64, ord := .sync, scope := .dev, remote := true, ef := false, fb := false } (.vec 8) (.scal 4) (.imm 2)) ∧
    decodeWords [0x1413803420008012] = some (.st h7 { size := .b32, ord := .sync, scope := .pair, remote := false, ef := false, fb := false } (.vec 1) (.scal 4) (.imm 0)) ∧
    decodeWords [0x142380C03E420074] = some (.lds h7 { size := .s16, ord := .vol, scope := .weft, remote := false, ef := false, fb := false } (.vec 6) (.vec 7) (.idx (.imm 33))) ∧
    decodeWords [0x1431815428000018] = some (.sts { last := false, guard := { uni := false, neg := false, num := 3 }, lit := none } { size := .b64, ord := .plain, scope := .weft, remote := false, ef := false, fb := false } (.vec 10) (.scal 5) (.imm 0)) ∧
    decodeWords [0x1443809417FE0011] = some (.ldc h7 .b32 true (.vec 4) (.scal 2) (.imm (-1))) ∧
    decodeWords [0x14538094100CE84F] = some (.atom h7 { op := .cas, w64 := true, ord := .ar, scope := .dev, remote := true, ef := false, fb := true } (.vec 4) (.scal 2) (.vec 6)) ∧
    decodeWords [0x14638080100C1051] = some (.atoms h7 { op := .incwrap, w64 := false, ord := .acq, scope := .weft, remote := false, ef := true, fb := false } (.vec 4) (.vec 2) (.vec 6)) ∧
    decodeWords [0x147380141002C002] = some (.red h7 { op := .add, w64 := false, ord := .rel, scope := .dev, remote := false, ef := false, fb := false } (.scal 2) (.vec 1)) ∧
    decodeWords [0x1483800000010007] = some (.fence h7 { ord := .ar, scope := .sys, fb := true }) ∧
    decodeWords [0x14938014180A1000] = some (.pref h7 true (.scal 3) (.imm 5)) ∧
    decodeWords [0x14A380141D120051] = some (.cctl h7 .wbinv true (.scal 3) (.idx (.scal 9))) := by decide

/-- Words written field by field from R118, R119 and the class 5 entries. -/
theorem test_decode_memory_2 :
    decodeWords [0x14BBD03415074210] = some (.gather q7 .b32 (.scal 1) (.scal 2) (.scal 3) (.scal 4)) ∧
    decodeWords [0x14CBD03415074218] = some (.scatter q7 .b64 (.scal 1) (.scal 2) (.scal 3) (.scal 4)) ∧
    decodeWords [0x14DB801438000000] = some (.slop q7 (.scal 7)) := by decide

/-- Words written field by field from R120 and the class 6 entries. -/
theorem test_decode_matrix_1 :
    decodeWords [0x180B8042050C0006] = some (.mma q7 { fmt := .c16b, chunks := 3, ra := false } 2 (.vec 64) (.scal 6) none) ∧
    decodeWords [0x180B80A0850C147F] = some (.mma q7 { fmt := .c4, chunks := 15, ra := true } 5 (.vec 16) (.scal 6) (some (.vec 40))) ∧
    decodeWords [0x181B8FE000000000] = some (.accz q7 127) ∧
    decodeWords [0x182B806005080000] = some (.accld q7 3 (.scal 4)) ∧
    decodeWords [0x183B80001D080000] = some (.accst q7 3 (.scal 4)) ∧
    decodeWords [0x184B810018000000] = some (.accmvToRegs q7 (.vec 8) 3) ∧
    decodeWords [0x184B806040000001] = some (.accmvToTile q7 3 (.vec 8)) ∧
    decodeWords [0x185BF14018000000] = some (.accq q7 (.q 2) 3) ∧
    decodeWords [0x188BD13440000000] = some (.tcopy q7 (.scal 9) (.scal 8)) ∧
    decodeWords [0x189BD03448000000] = some (.tcstat q7 (.scal 1) (.scal 9)) ∧
    decodeWords [0x18AB801448000000] = some (.tcabort q7 (.scal 9)) ∧
    decodeWords [0x18CB80143642C004] = some (.ecadd q7 { sync := true, scope := .dev, remote := false, fb := false } (.scal 6) (.imm 33)) := by decide

/-- Words written field by field from R120 and the class 6 entries. -/
theorem test_decode_matrix_2 :
    decodeWords [0x98DB80143642C002] = some (.ecwait { last := true, guard := { uni := true, neg := false, num := 7 }, lit := none } { sync := true, scope := .dev, remote := false, fb := false } (.scal 6) (.imm 33)) ∧
    decodeWords [0x18EBD03430012003] = some (.ecrd q7 { sync := true, scope := .sys, remote := true, fb := true } (.scal 1) (.scal 6)) ∧
    decodeWords [0x18FB8014350E0001] = some (.ectrig q7 true (.scal 6) (.scal 7)) ∧
    decodeWords [0x190BD13440000000] = some (.coll q7 (.scal 9) (.scal 8)) ∧
    decodeWords [0x191B801440000000] = some (.cabort q7 (.scal 8)) ∧
    decodeWords [0x192BD03980000000] = some (.viewq q7 (.scal 1) (.imm 48)) ∧
    decodeWords [0x193B801918000000] = some (.viewack q7 (.imm 35)) ∧
    decodeWords [0x194B801910000000] = some (.vjoin q7 (.imm 34)) := by decide

/-- Words written field by field from R121 and the class 7 entries. -/
theorem test_decode_system :
    decodeWords [0x1C0B800000000000] = some (.tret q7) ∧
    decodeWords [0x1C1380201001C280] = some (.lxrd h7 (.vec 1) (.vec 2) 901) ∧
    decodeWords [0x1C23800010060600] = some (.lxwr h7 (.vec 2) (.vec 3) 12) ∧
    decodeWords [0x1C3B801420000000] = some (.park q7 (.scal 4)) ∧
    decodeWords [0x1C4B801420000000] = some (.resume q7 (.scal 4)) ∧
    decodeWords [0x1C5B8014250A0000] = some (.tlbinvPage q7 (.scal 4) (.scal 5)) ∧
    decodeWords [0x1C5B8014250A0001] = some (.tlbinvAsid q7 (.scal 4) (.scal 5)) ∧
    decodeWords [0x1C5B8014250A0002] = some (.tlbinvAll q7 (.scal 4) (.scal 5)) ∧
    decodeWords [0x1C6B800000000000] = some (.tlbsync q7) ∧
    decodeWords [0x1C7B8014250A0000] = some (.signal q7 (.scal 4) (.scal 5)) ∧
    decodeWords [0x1C8B801948000000] = some (.tmark q7 (.imm 41)) := by decide

/-! ### Words that issue -/

/-- Words that pass a test and issue, each in its own state. -/
theorem all_issue (w : Weft) (bs : List Bolt) (is : List Instr) (run : Instr → PickRun) (p : Instr → Bool)
    (h : (is.all fun i => p i && issuesAt w i (run i)) = true) :
    ∀ i ∈ is, p i = true ∧ Issues (stAt (devAt w bs (run i))) i (cxAt w i (run i)) := fun i hi => by
  have := List.all_eq_true.mp h i hi
  simp only [Bool.and_eq_true] at this
  exact ⟨this.1, issues_at w bs i (run i) this.2⟩

def s32 : IntMod := { ty := .s32, sat := false }
def rn : FltMod := { rnd := .rn, sat := false, neg := false, abs := false }
def pm : PMod := { uns := false, sat := false }
def hm : HMod := { f16 := false, rnd := .rn, sat := false }

def arithWords : List Instr :=
  [.iadd h7 s32 (.vec 1) (.vec 2) (.imm 95), .isub h7 s32 (.vec 1) (.vec 2) (.vec 199), .imul h7 { ty := .s64, sat := false } (.vec 2) (.vec 4) (.vec 6),
   .imulh h7 .z32 (.vec 1) (.vec 2) (.vec 3), .imad q7 { ty := .z64, sat := true } (.scal 127) (.scal 0) (.scal 1) (.imm 0),
   .imin h7 .s32 (.vec 1) (.vec 2) (.vec 3), .imax h7 .s32 (.vec 1) (.vec 2) (.vec 3), .iabs h7 s32 (.vec 1) (.vec 2), .mov h7 .s32 (.vec 1) (.vec 2),
   .lea h7 s32 7 (.vec 1) (.vec 2) (.vec 3)]

theorem witness_IntegerArithmetic : ∀ i ∈ arithWords, (arithShape i).isSome = true ∧
    Issues (stAt (devAt userWeft [] (ui i))) i (cxAt userWeft i (ui i)) := all_issue _ _ _ _ _ (by decide)

def bitWords : List Instr :=
  [.and h7 .s32 (.vec 1) (.vec 2) (.vec 3), .or h7 .s32 (.vec 1) (.vec 2) (.vec 3), .xor h7 .s32 (.vec 1) (.vec 2) (.vec 3), .not h7 .s32 (.vec 1) (.vec 2),
   .shl h7 { ty := .s32, clamp := true } (.vec 1) (.vec 2) (.vec 3), .shr h7 { ty := .z64, clamp := true } (.vec 2) (.vec 4) (.vec 6),
   .sar h7 { ty := .s32, clamp := false } (.vec 1) (.vec 2) (.vec 3), .bfx h7 .s32 (.vec 1) (.vec 2) (.vec 3) (.vec 4),
   .bfi h7 .s32 (.vec 1) (.vec 2) (.vec 3) (.vec 4), .popc h7 .s32 (.vec 1) (.vec 2), .clz h7 .s32 (.vec 1) (.vec 2), .brev h7 .s32 (.vec 1) (.vec 2)]

theorem witness_IntegerBits : ∀ i ∈ bitWords, (bitShape i).isSome = true ∧
    Issues (stAt (devAt userWeft [] (ui i))) i (cxAt userWeft i (ui i)) := all_issue _ _ _ _ _ (by decide)

def floatWords : List Instr :=
  [.fadd h7 rn (.vec 1) (.vec 2) (.vec 3), .fsub h7 rn (.vec 1) (.vec 2) (.vec 3), .fmul h7 rn (.vec 1) (.vec 2) (.fimm 15),
   .ffma h7 rn (.vec 1) (.vec 2) (.vec 3) (.vec 4), .fmin h7 false false (.vec 1) (.vec 2) (.vec 3), .fmax h7 true true (.vec 1) (.vec 2) (.vec 3),
   .fsetp h7 .nan (.p 6) (.vec 2) (.vec 3), .frcp h7 .rn false false (.vec 1) (.vec 2), .frsq h7 .rn false false (.vec 1) (.vec 2),
   .fex2 h7 .rn false false (.vec 1) (.vec 2), .flg2 h7 .rn false false (.vec 1) (.vec 2), .fsin h7 .rn false false (.vec 1) (.vec 2),
   .fcos h7 .rn false false (.vec 1) (.vec 2), .frnd h7 .ru false false (.vec 1) (.vec 2), .fclass h7 (.vec 1) (.vec 2),
   .fscale q7 .rn false false (.scal 1) (.scal 2) (.imm 0), .vadd2 h7 pm (.vec 1) (.vec 2) (.vec 3), .vsub2 h7 pm (.vec 1) (.vec 2) (.vec 3),
   .vmin2 h7 pm (.vec 1) (.vec 2) (.vec 3), .vmax2 h7 pm (.vec 1) (.vec 2) (.vec 3), .hadd2 h7 hm (.vec 1) (.vec 2) (.vec 3),
   .hmul2 h7 hm (.vec 1) (.vec 2) (.vec 3), .hfma2 h7 hm (.vec 1) (.vec 2) (.vec 3) (.vec 4),
   .cvt h7 { dty := .s64, sty := .f32, rnd := .rz, sat := false, uns := false, ext := false } (.vec 2) (.vec 4)]

theorem witness_FloatAndPackedWords : ∀ i ∈ floatWords, (floatShape i).isSome = true ∧
    Issues (stAt (devAt userWeft [] (ui i))) i (cxAt userWeft i (ui i)) := all_issue _ _ _ _ _ (by decide)

/-- ISETP, SEL, SWIZB, PLOP, P2V, V2P; VACS2; a pair word; SHFL, VOTE, REDUX, MATES, RDFL; MOVS; the control words. -/
def plainWords : List Instr :=
  [.isetp h7 .s32 .ge (.p 6) (.vec 1) (.vec 2), .sel h7 .s64 (.vec 2) (.vec 4) (.vec 6) (.p 7), .swizb h7 false (.vec 1) (.vec 2) (.vec 3) (.vec 4),
   .plop q7 0xC0 (.q 6) (.q 0) (.q 7), .p2v h7 (.vec 1), .v2p h7 (.vec 1) (.imm 95), .vacs2 h7 pm 3 (.vec 1) (.vec 2) (.vec 3) (.vec 4),
   .pairWord false q7.guard (some (.lea 7 127 0 (.reg 5))) (some { op := .fmul rn, vd := 127, vs := .vec 0 }),
   .pairWord false h7.guard none (some { op := .mov, vd := 1, vs := .imm 63 }), .pairWord false q7.guard (some (.setp false .ne 6 1 (.imm 0))) none,
   .shfl h7 .down (.vec 1) (.vec 2) (.imm 34) (.imm 32), .vote h7 .ballot (.vec 1) (.p 0), .vote h7 .all (.p 6) (.q 7),
   .redux h7 .max .z32 (.vec 1) (.vec 2), .redux h7 .add .f32 (.vec 1) (.vec 2), .mates h7 true (some (.scal 1)) (.vec 1) (.vec 2), .rdfl h7 (.vec 1) (.vec 2),
   .movs h7 1 (.vec 1) none, .movs q7 13 (.scal 1) (some (.imm 47)), .sets q7 15 (.imm 63), .nop h7, .bra h7e (-4), .brx h7e (.vec 1), .exit h7e,
   .yield h7e, .waitl h7e (.p 6) (.vec 1), .bar h7e .sync (.imm 47) (.imm 32), .bar h7e .arrive (.imm 32) (.imm 33), .bar h7e .wait (.imm 32) (.imm 32),
   .call h7e 3, .callx h7e (.vec 1), .ret h7e, .trap h7 (.imm 74), .brk h7 (.imm 32), .fence h7 { ord := .ar, scope := .weft, fb := false },
   .tmark q7 (.imm 33), .launch q7 (.scal 1) (.scal 2) (.imm 33), .syscall h7e (.imm 39)]

/-- The words of PredicateWords, PackedHalves, PairWords, CrossThreadWords, SpecialRegisterWords and ControlWords, and others, issue. -/
theorem witness_words_issue : ∀ i ∈ plainWords, i.isWord = true ∧
    Issues (stAt (devAt userWeft [] (ui i))) i (cxAt userWeft i (ui i)) := all_issue _ _ _ _ _ (by decide)

/-- SETS of $pidx in a handler, and of $tgtw by the supervisor, in half 0. -/
theorem witness_SpecialRegisterWords :
    Issues (stAt (devAt probeWeft [] (si (.sets q7 56 (.imm 32))))) (.sets q7 56 (.imm 32)) (cxAt probeWeft (.sets q7 56 (.imm 32)) (si (.sets q7 56 (.imm 32)))) ∧
    (cxAt probeWeft (.sets q7 56 (.imm 32)) (si (.sets q7 56 (.imm 32)))).onHalves = [0] ∧
    Issues (stAt (devAt userWeft [] { ui (.sets q7 11 (.imm 32)) with handler := true })) (.sets q7 11 (.imm 32))
      (cxAt userWeft (.sets q7 11 (.imm 32)) { ui (.sets q7 11 (.imm 32)) with handler := true }) ∧
    Issues (stAt (devAt userWeft [] (ui (.sets u0 15 (.imm 32))))) (.sets u0 15 (.imm 32)) (cxAt userWeft (.sets u0 15 (.imm 32)) (ui (.sets u0 15 (.imm 32)))) ∧
    (cxAt userWeft (.sets u0 15 (.imm 32)) (ui (.sets u0 15 (.imm 32)))).onHalves = [] :=
  ⟨issues_at _ _ _ _ (by decide), by decide, issues_at _ _ _ _ (by decide), issues_at _ _ _ _ (by decide), by decide⟩

/-- CALL below its depth bound of 2 and at it, RET above depth 0 and at it. -/
theorem witness_CallAndReturn :
    Issues (stAt (devAt userWeft [] (ui (.call h7e 3) 0xFFFF 1))) (.call h7e 3) (cxAt userWeft (.call h7e 3) (ui (.call h7e 3) 0xFFFF 1)) ∧
    1 < userWeft.hdr.depth ∧
    Issues (stAt (devAt userWeft [] (ui (.call h7e 3) 0xFFFF 2))) (.call h7e 3) (cxAt userWeft (.call h7e 3) (ui (.call h7e 3) 0xFFFF 2)) ∧
    userWeft.hdr.depth ≤ 2 ∧
    Issues (stAt (devAt userWeft [] (ui (.ret h7e) 0xFFFF 1))) (.ret h7e) (cxAt userWeft (.ret h7e) (ui (.ret h7e) 0xFFFF 1)) ∧
    Issues (stAt (devAt userWeft [] (ui (.ret h7e) 0xFFFF 0))) (.ret h7e) (cxAt userWeft (.ret h7e) (ui (.ret h7e) 0xFFFF 0)) :=
  ⟨issues_at _ _ _ _ (by decide), by decide, issues_at _ _ _ _ (by decide), by decide, issues_at _ _ _ _ (by decide), issues_at _ _ _ _ (by decide)⟩

/-- SYSCALL with every thread guarded and with none. -/
theorem witness_SoftwareTraps :
    Issues (stAt (devAt userWeft [userBolt] (ui (.syscall h7e (.imm 39))))) (.syscall h7e (.imm 39)) (cxAt userWeft (.syscall h7e (.imm 39)) (ui (.syscall h7e (.imm 39)))) ∧
    Single (stAt (devAt userWeft [userBolt] (ui (.syscall h7e (.imm 39))))) (cxAt userWeft (.syscall h7e (.imm 39)) (ui (.syscall h7e (.imm 39)))) ∧
    (cxAt userWeft (.syscall h7e (.imm 39)) (ui (.syscall h7e (.imm 39)))).on ≠ [] ∧
    Issues (stAt (devAt userWeft [userBolt] (ui (.syscall g0e (.imm 39))))) (.syscall g0e (.imm 39)) (cxAt userWeft (.syscall g0e (.imm 39)) (ui (.syscall g0e (.imm 39)))) ∧
    (cxAt userWeft (.syscall g0e (.imm 39)) (ui (.syscall g0e (.imm 39)))).on = [] :=
  ⟨issues_at _ _ _ _ (by decide), ⟨by decide, by decide⟩, by decide, issues_at _ _ _ _ (by decide), by decide⟩


/-! ### Words with further hypotheses -/

/-- A translation of virtual page 0 of ASID 7 to frame 0 of HBM, in a region, writable and executable. -/
def page0 (region : BitVec 2) : TlbEntry :=
  { asid := 7, vpn := 0, pages := 1, x := { page := 0, target := 0, region := region, rt := false, write := true, exec := true, dirty := true, sup := false } }

def withTlb (d : Dev) (region : BitVec 2) : Dev := { d with mem := { d.mem with tlb := [(0, [page0 region])] } }

/-- Page tables: entry 0 of each level leads to the next frame, the last maps page 1 to frame 5, and pages 0x800 on to frame 7. -/
def mapped : Cells 8 :=
  Cells.putBytes (Cells.putBytes (Cells.putBytes (Cells.putBytes (Cells.putBytes (Cells.putBytes (Cells.putBytes [] 0 8 0x1001) 0x1000 8 0x2001)
    0x2000 8 0x3001) 0x3000 8 0x4001) 0x4008 8 0x5003) 0x3020 8 0x6001) 0x6000 8 0x7003

/-- The pages 1 and 0x800 while a migration holds them frozen. -/
def frozen (d : Dev) : Dev :=
  let g (at_ : Nat) : Mig := { (default : Mig) with leafAt := at_, stage := .frozen }
  { d with mem := { d.mem with cells := Cells.putBytes (Cells.putBytes mapped 0x4008 8 0x5803) 0x6000 8 0x7803, tlb := [],
                               migs := [g 0x4008, g 0x6000] } }

/-- The cause of a read that ends in an error; 0 is the wait for a freeze. -/
def errOf {α β : Type} (x : Except (Nat × Nat × Nat) α × β) : Option Nat :=
  match x with
  | (.error (k, _, _), _) => some k
  | _ => none

/-- Whether an answer of a read is its value. -/
def isOk {α β : Type} (x : Except α β) : Bool :=
  match x with
  | .ok _ => true
  | .error _ => false

theorem ok_of {α β γ : Type} (x : Except α β × γ) (h : isOk x.1 = true) : ∃ v d, x = (.ok v, d) := by
  obtain ⟨_ | v, d⟩ := x
  · cases h
  · exact ⟨v, d, rfl⟩

theorem error_of {α β γ : Type} (x : Except α β × γ) (h : isOk x.1 = false) : ∃ v d, x = (.error v, d) := by
  obtain ⟨v | _, d⟩ := x
  · exact ⟨v, d, rfl⟩
  · cases h

/-- Special operands, and where they meet (R399, R404, R407). -/
theorem witness_FloatPatterns :
    (isNaN32 0x7F800001#32 ∧ ¬isNaN32 0x7F800000#32 ∧ isInf32 0xFF800000#32 ∧ isInf32 0x7F800000#32 ∧ isZero32 0x80000000#32 ∧ isZero32 0#32) ∧
    (0xFF800000#32).msb ≠ (0x7F800000#32).msb ∧ (1#32 = 0x80000001#32 ^^^ 0x80000000#32 ∧ ¬isNaN32 1#32 ∧ ¬isInf32 1#32 ∧ ¬isZero32 1#32) := by decide

def launchI : Instr := .launch q7 (.scal 1) (.scal 2) (.imm 33)
def devQueue : Queue := { Queue.reset with owner := 5, dev := true }
def pend : Launch := { (default : Launch) with queue := 1, stage := .pending }
def launchDev (ls : List Launch) : Dev :=
  let d := withTlb (devAt userWeft [userBolt] (ui launchI)) 0
  { d with disp := { d.disp with queues := [(1, devQueue)], launches := ls } }
def launchCx : Ctx := cxAt userWeft launchI (ui launchI)

/-- LAUNCH with a misaligned record address. -/
theorem witness_LaunchWord_misaligned :
    let w : Weft := { userWeft with sregs := [(2, 8)] }
    Issues (stAt (devAt w [userBolt] (ui launchI))) launchI (cxAt w launchI (ui launchI)) ∧ (cxAt w launchI (ui launchI)).uget 0 .i64 (.scal 2) % 64 ≠ 0 :=
  ⟨issues_at _ _ _ _ (by decide), by decide⟩

/-- LAUNCH to an absent queue, to a full one, and to one that takes the record. -/
theorem witness_LaunchWord :
    (Issues (stAt (devAt userWeft [userBolt] (ui launchI))) launchI launchCx ∧
      Tab.find? (devAt userWeft [userBolt] (ui launchI)).disp.queues 1 = none) ∧
    (∀ ls, Issues (stAt (launchDev ls)) launchI launchCx) ∧ Single (stAt (launchDev [])) launchCx ∧ (launchDev []).weftBusy uref = false ∧
    launchCx.onHalves = [0] ∧ launchCx.uget 0 .i64 (.scal 2) % 64 = 0 ∧ launchCx.uget 0 .i32 (.imm 33) % 2048 = 1 := by
  refine ⟨⟨issues_at _ _ _ _ (by decide), by decide⟩, fun ls => ?_, ⟨by decide, by decide⟩, by decide, by decide, by decide, by decide⟩
  exact issues_of _ _ _ _ (by rfl) (by rfl) (by decide)

theorem witness_LaunchWord_full :
    256 ≤ ((launchDev (List.replicate 256 pend)).disp.launches.filter fun l => l.queue == 1 && l.stage == .pending).length := by
  decide +kernel

theorem witness_LaunchWord_taken : ∃ rec d, (launchDev []).readWords launchCx.regs launchCx.core launchCx.w.space true 0 16 = (.ok rec, d) :=
  ok_of _ (by decide +kernel)

/-! ### Twins and memory words -/

def twinHdr : KHdr := { userHdr with twin := true }
def twinWeft : Weft := { userWeft with hdr := twinHdr }
def addI : Instr := .ecadd q7 { sync := false, scope := .weft, remote := false, fb := false } (.imm 32) (.imm 33)
def sysI : Instr := .syscall h7e (.imm 39)

/-- A device whose bolt 1 runs as twins with bolt 2. -/
def twinDev (i : Instr) : Dev := devAt twinWeft [userBolt, { userBolt with id := 2, copy := 1 }] (ui i)

def isTwinAt (i : Instr) : Bool := (twinDev i).isTwin twinWeft && twinWeft.twinAt.isNone

/-- The tests of TwinWordsWait for a memory word. -/
def twinMem (i : Instr) : Bool :=
  let c := cxAt twinWeft i (ui i)
  let d := twinDev i
  match memWord i c with
  | some (m, fs) => !fs.isEmpty && (m.kind == .ecadd || m.kind == .atomic && m.space == .generic) && !d.fencing uref &&
      !c.w.flagsFull (memKeys (stAt d) c m fs) && (m.dst == .none || decide (c.w.sb.length < 32)) &&
      (c.testAll d m fs).walks.isEmpty
  | none => false

/-- SYSCALL, LAUNCH and ECADD in a copy of a twin. -/
theorem witness_TwinWordsWait :
    (∀ i ∈ [sysI, launchI, addI], isTwinAt i = true ∧ Issues (stAt (twinDev i)) i (cxAt twinWeft i (ui i))) ∧
    (cxAt twinWeft sysI (ui sysI)).on ≠ [] ∧ (cxAt twinWeft launchI (ui launchI)).onHalves ≠ [] ∧ (twinDev launchI).weftBusy uref = false ∧
    twinMem addI = true := by
  refine ⟨fun i hi => ⟨?_, issues_at _ _ _ _ ?_⟩, by decide, by decide, by decide, by decide⟩
  · revert i; decide
  · revert i; decide

def ldm : MemMod := { size := .b32, ord := .plain, scope := .weft, remote := false, ef := false, fb := true }
def atm : AtomMod := { op := .add, w64 := false, ord := .relaxed, scope := .dev, remote := false, ef := false, fb := false }

/-- Memory words: their accesses hit page 0, scratch, the constant pages, and counter 0 of the weft's context. -/
def memWords : List Instr :=
  [.ld h7 ldm (.vec 6) (.scal 10) (.imm 2), .ld q7 ldm (.scal 6) (.scal 10) (.imm 2), .st h7 ldm (.vec 6) (.vec 8) (.idx (.vec 9)),
   .lds h7 { ldm with size := .b128 } (.vec 8) (.vec 9) (.imm 0), .sts h7 ldm (.vec 8) (.vec 9) (.imm 63), .ldc h7 .b64 true (.vec 6) (.vec 8) (.imm 0),
   .atom h7 atm (.vec 4) (.scal 2) (.vec 6), .atoms h7 { atm with op := .cas, w64 := true } (.vec 4) (.vec 2) (.vec 6), .red h7 atm (.scal 2) (.vec 6),
   .cctl h7 .wbinv false (.scal 2) (.imm 0), addI, .ecrd q7 { sync := true, scope := .dev, remote := false, fb := false } (.scal 4) (.imm 32),
   .ectrig q7 false (.imm 32) (.scal 3)]

def memDev (i : Instr) : Dev :=
  let d := withTlb (devAt userWeft [userBolt] (ui i)) 0
  { d with counters := [(0, { Counter.reset with ctx := some 5 })], mem := { d.mem with tlb := [(0, [page0 0]), (1024, [page0 0])] } }

/-- The tests of MemoryWordsPlaceAnOperation, with an access to place. -/
def memOk (i : Instr) : Bool :=
  let c := cxAt userWeft i (ui i)
  let d := memDev i
  match memWord i c with
  | some (m, fs) => !fs.isEmpty && !d.fencing uref && !c.w.flagsFull (memKeys (stAt d) c m fs) &&
      (m.dst == .none || decide (c.w.sb.length < 32)) && (c.testAll d m fs).walks.isEmpty && !(c.testAll d m fs).accs.isEmpty &&
      (match c.memGate d m (c.testAll d m fs).accs with | .go => true | _ => false) && !d.isTwin userWeft
  | none => false

theorem witness_MemoryWords : ∀ i ∈ memWords, memOk i = true ∧ Issues (stAt (memDev i)) i (cxAt userWeft i (ui i)) := fun i hi =>
  ⟨by revert i; decide +kernel, issues_of _ _ _ _ (by rfl) (by rfl) (by revert i; decide)⟩

/-- A misaligned LD, and a word whose guard is false for every thread. -/
theorem witness_MemoryWords_traps :
    let w : Weft := { userWeft with sregs := [(10, 1)] }
    let i : Instr := .ld h7 ldm (.vec 6) (.scal 10) (.imm 2)
    let c := cxAt w i (ui i)
    let j : Instr := .red g0 atm (.scal 2) (.vec 6)
    Issues (stAt (devAt w [] (ui i))) i c ∧ ((memWord i c).map fun x => (x.1.space, x.1.size, x.2.map (·.addr % 4))) =
      some (.generic, 4, List.replicate 16 1) ∧ c.w.twinAt = none ∧
    Issues (stAt (memDev j)) j (cxAt userWeft j (ui j)) ∧ (memWord j (cxAt userWeft j (ui j))).map (fun x => x.2.isEmpty) = some true :=
  ⟨issues_at _ _ _ _ (by decide), by decide, by decide, issues_of _ _ _ _ (by rfl) (by rfl) (by decide), by decide⟩

/-- Accesses at the edges of their tests: the last scratch word and the byte past it, below 0, a counter of another context, a fenced one. -/
theorem witness_AccessTests :
    userWeft.hdr.scratch = 4096 ∧ (4092 : Int) + 4 ≤ userWeft.hdr.scratch ∧ (userWeft.hdr.scratch : Int) < 4096 + 4 ∧ ((-4 : Int) < 0 ∧ (-4 : Int) % 4 = 0) ∧
    Dev.reset.mem.owned = [] ∧ (userWeft.sup = false ∧ (Dev.reset.counter 4095).ctx ≠ some userWeft.ctx) ∧
    (let d : Dev := { Dev.reset with counters := [(3, { Counter.reset with ctx := some 5, fences := [2] })] }
     (d.counter 3).ctx = some userWeft.ctx ∧ (d.counter 3).fences ≠ []) ∧
    (match (withTlb Dev.reset 0).lookup Regs.reset 0 7 4092 .rd with | .ok w => w.pa == 4092 | _ => false) = true := by
  decide

def fenceI (s : Scope) : Instr := .fence h7 { ord := .ar, scope := s, fb := false }

/-- FENCE at each scope. -/
theorem witness_FenceWord : ∀ s ∈ [Scope.weft, .bolt, .dev, .sys], Issues (stAt (devAt userWeft [userBolt] (ui (fenceI s)))) (fenceI s)
      (cxAt userWeft (fenceI s) (ui (fenceI s))) ∧ (cxAt userWeft (fenceI s) (ui (fenceI s))).on ≠ [] ∧
    (devAt userWeft [userBolt] (ui (fenceI s))).fencing uref = false ∧ userWeft.flagsFull [0] = false := fun s hs =>
  ⟨issues_at _ _ _ _ (by revert s; decide), by revert s; decide, by revert s; decide, by decide⟩

/-! ### Matrix class -/

def tiled (i : Instr) : Bool :=
  let c := cxAt userWeft i (ui i)
  let d := devAt userWeft [userBolt] (ui i)
  issuesAt userWeft i (ui i) && c.onHalves == [0] && !d.tileOwned uref (tileNo 0 2) && !c.w.flagsFull (c.flagKeys false c.onHalves) &&
    !d.matrixBusy uref none && !d.matrixBusy uref (some (tileNo 0 2)) && !c.w.badTiles.contains (tileNo 0 2) && d.tileValid uref c.w (tileNo 0 2) &&
    (c.startIdx 0 == 0) && !(d.sh 0).selfTest && d.mem.owned.isEmpty && decide (c.w.sb.length + 1 ≤ 32)

def mmaI (ra : Bool) (b : Operand) : Instr := .mma q7 { fmt := .c16b, chunks := 3, ra := ra } 2 (.vec 64) b none

def matrixWords : List Instr :=
  [.accz q7 2, .accq q7 (.q 3) 2, .accld q7 2 (.imm 32), .accst q7 2 (.imm 32), .accmvToRegs q7 (.vec 8) 2, .accmvToTile q7 2 (.vec 8),
   mmaI true (.scal 6), mmaI false (.scal 6)]

theorem witness_MatrixWords : ∀ i ∈ matrixWords, tiled i = true := by decide +kernel

/-- The same words with a false guard; a block at a misaligned offset and one past the scratch's end; an invalid tile. -/
theorem witness_MatrixWords_traps :
    (∀ i ∈ [Instr.accz u0 2, .accq u0 (.q 3) 2, .accld u0 2 (.imm 32)], issuesAt userWeft i (ui i) = true ∧ (cxAt userWeft i (ui i)).onHalves = []) ∧
    (let w : Weft := { userWeft with sregs := [(6, 8), (7, 3136)], badTiles := [2] }
     ∀ i ∈ [Instr.accld q7 2 (.scal 6), .accld q7 2 (.scal 7), .accst q7 2 (.imm 32), mmaI true (.scal 6)],
       issuesAt w i (ui i) = true ∧ (cxAt w i (ui i)).onHalves = [0] ∧ (cxAt w i (ui i)).uget 0 .i64 (.scal 6) % 64 ≠ 0 ∧
       (cxAt w i (ui i)).uget 0 .i64 (.scal 7) % 64 = 0 ∧ w.hdr.scratch < (cxAt w i (ui i)).uget 0 .i64 (.scal 7) + 1024 ∧
       (devAt w [userBolt] (ui i)).tileValid uref w (tileNo 0 2) = false) := by decide +kernel

/-- MMA without .ra on an invalid tile, and on a valid one with a misaligned block. -/
theorem witness_MatrixWords_order :
    (let w : Weft := { userWeft with badTiles := [2] }
     issuesAt w (mmaI false (.scal 6)) (ui (mmaI false (.scal 6))) = true ∧
       (devAt w [userBolt] (ui (mmaI false (.scal 6)))).tileValid uref w (tileNo 0 2) = false) ∧
    (let w : Weft := { userWeft with sregs := [(6, 8)] }
     let c := cxAt w (mmaI false (.scal 6)) (ui (mmaI false (.scal 6)))
     issuesAt w (mmaI false (.scal 6)) (ui (mmaI false (.scal 6))) = true ∧ c.uget 0 .i64 (.scal 6) % 64 ≠ 0 ∧
       (devAt w [userBolt] (ui (mmaI false (.scal 6)))).tileValid uref w (tileNo 0 2) = true) := by decide +kernel

/-- An operation of a matrix word in flight in the user weft. -/
def matOp (m : MatOp) : MemOp := { (default : MemOp) with id := 0, ref := uref, kind := .matrix m, rel := 0, eng := none }
def matDev (m : MatOp) : Dev := { (devAt userWeft [userBolt] (ui (.nop h7))) with ops := [matOp m] }

def matOps : List MatOp :=
  [.mma { fmt := .c16b, chunks := 3, ra := true } 2 0 0 0 4 [] [], .accld 2 0 3072, .accst 2 0 3072, .toRegs 639 2 0, .toTile 2 0 []]

def matDueAt (m : MatOp) : Bool :=
  let d := matDev m
  (d.ops.find? (·.id == 0)) == some (matOp m) && d.matReady userWeft (matOp m) && !d.matBad userWeft (matOp m) m

theorem matDue_of (m : MatOp) (h : matDueAt m = true) : MatDue (stAt (matDev m)) (matOp m) m userWeft := by
  simp only [matDueAt, Bool.and_eq_true, beq_iff_eq, Bool.not_eq_true'] at h
  exact ⟨h.1.1, rfl, by simp [stAt, matDev, matOp, devAt, Dev.modSh, Dev.weft?, Dev.putW, Tab.find?_put, ui, runAt, State.reset], h.1.2, h.2,
    by simp [matOp], by simp [matOp]⟩

theorem witness_MatrixCompletions : (∀ m ∈ matOps, MatDue (stAt (matDev m)) (matOp m) m userWeft) ∧
    userWeft.sup = false ∧ ((matDev (.accst 2 0 3072)).bolt? userWeft.bolt).isSome = true ∧ 3072 + 1024 ≤ userWeft.hdr.scratch ∧
    userWeft.hdr.scratch % 8 = 0 :=
  ⟨fun m hm => matDue_of m (by revert m; decide), by decide, by decide, by decide, by decide⟩

/-- Self-tests due: with none of two subarrays fenced, and with two and a third to fence. -/
theorem witness_MatrixSelfTest :
    let x : Shuttle := { Shuttle.reset with selfTest := true, fencedSub := [0, 1] }
    let d : Dev := Dev.reset.modSh 4095 fun _ => x
    (d.sh 4095).selfTest = true ∧ (d.sh 4095).fencedSub.length ≤ 2 ∧ 2 < (d.sh 4095).fencedSub.length + [15].length := by decide

/-- Sums of a chunk with zeros, a NaN and both infinities. -/
theorem witness_MatrixChunkSums :
    ([Machine.Num.fin true 0 5 false] : List Machine.Num).Perm [Machine.Num.fin true 0 5 false] ∧ isNaN32 (BitVec.ofNat 32 0x7FFFFFFF) = true ∧
    isZero32 (BitVec.ofNat 32 0x80000000) = true ∧ isNaN32 (BitVec.ofNat 32 0x7F800000) = false ∧
    Machine.Num.inf true ∈ [Machine.Num.inf true] := by
  exact ⟨List.Perm.refl _, by decide, by decide, by decide, by simp⟩

/-! ### Engines -/

def tcI (a : Operand) : Instr := .tcopy q7 (.scal 4) a
def tstI : Instr := .tcstat q7 (.scal 4) (.imm 32)
def tabI : Instr := .tcabort q7 (.imm 32)

/-- A raw copy of 16 rows of 64 bytes within scratch, from offset 0 to 2048. -/
def rawDesc : List DWord :=
  [0, 2048, (1 * 4 + 1 * 16 : Nat), (16 + 64 * 65536 : Nat), (64 + 64 * 2 ^ 32 : Nat), 0, 0, 0]

def cmd0 : Cmd :=
  { (default : Cmd) with core := 0, handle := 0, ref := uref, bolt := 1, widx := 0, ctx := 5, asid := 7, status := .queued }

def cmdDev (x : Cmd) : Dev :=
  let d := withTlb (devAt userWeft [userBolt] (ui (.nop h7))) 0
  { d with cmds := [x] }

/-- TCOPY with every handle free, with handle 0 taken, and with all taken; TCSTAT and TCABORT of a queued command, and of none. -/
theorem witness_TensorCopyWords :
    (∀ i ∈ [tcI (.scal 2), tstI, tabI], issuesAt userWeft i (ui i) = true ∧ (cxAt userWeft i (ui i)).onHalves = [0] ∧
      (cmdDev cmd0).fencing uref = false ∧ userWeft.flagsFull ((cxAt userWeft i (ui i)).flagKeys true [0]) = false ∧
      (cxAt userWeft i (ui i)).uget 0 .i64 (.scal 2) % 64 = 0) ∧
    (cmdDev cmd0).cmd? 0 0 = some cmd0 ∧ (cmdDev cmd0).cmd? 0 1 = none ∧ cmd0.bolt = userWeft.bolt ∧ cmd0.widx = userWeft.widx ∧
    (∀ j, j < 64 → ∃ x, ({ cmdDev cmd0 with cmds := (List.range 64).map fun h => { cmd0 with handle := h } } : Dev).cmd? 0 j = some x ∧
      x.status.final = false) := by
  refine ⟨by decide, by decide, by decide, by decide, by decide, fun j hj => ?_⟩
  exact ⟨{ cmd0 with handle := j }, by revert j; decide +kernel, rfl⟩

/-- TCOPY with a misaligned address; TCABORT of a command at its end, of one that failed its checks, and of another weft's. -/
theorem witness_TensorCopyWords_more :
    (let w : Weft := { userWeft with sregs := [(2, 8)] }
     issuesAt w (tcI (.scal 2)) (ui (tcI (.scal 2))) = true ∧ (cxAt w (tcI (.scal 2)) (ui (tcI (.scal 2)))).uget 0 .i64 (.scal 2) % 64 ≠ 0) ∧
    (∀ x ∈ [{ cmd0 with status := .active }, { cmd0 with status := .baddesc }, { cmd0 with bolt := 2 }], (cmdDev x).cmd? 0 0 = some x) ∧
    ({ cmd0 with status := .active } : Cmd).off = ({ cmd0 with status := .active } : Cmd).total ∧ issuesAt probeWeft tabI (si tabI) = true ∧
    probeWeft.sup = true ∧ ({ cmd0 with bolt := 2 } : Cmd).bolt ≠ userWeft.bolt := by decide

/-- A queued command whose descriptor is to be read at address 0 (all zeros: BADDESC), and at an address that misses; one that starts; one
at its first granule; one at its end. -/
theorem witness_TensorCopySteps :
    let act : Cmd := { cmd0 with desc := some rawDesc, status := .active, started := true }
    (isOk ((cmdDev cmd0).readWords Regs.reset 0 userWeft.space true 0 8).1 = true ∧ ((cmdDev cmd0).engWeft 0 1 0).isSome = true ∧
      (cmdDev cmd0).descWaits cmd0 = false ∧
      errOf (((cmdDev cmd0).modMem fun m => { m with poison := [0] }).readWords Regs.reset 0 userWeft.space true 0 8) = some 0x13 ∧
      errOf ((devAt userWeft [userBolt] (ui (.nop h7))).readWords Regs.reset 0 userWeft.space true 0 8) = some 0x10 ∧
      (let old : MemOp := { (default : MemOp) with ref := uref, kind := .store, accs := [default] }
       ({ cmdDev { cmd0 with seq := 1 } with ops := [old] } : Dev).descWaits { cmd0 with seq := 1 } = true)) ∧
    (act.check userWeft false = none ∧ ({ act with desc := some [] } : Cmd).check userWeft false ≠ none) ∧
    ((cmdDev { act with status := .queued }).queueHalted 0 = false ∧
      ((cmdDev { act with status := .queued }).cmds.filter fun y => y.core == 0 && y.status == .active).length < 8) ∧
    (act.gcm = false ∧ act.target = 0 ∧ act.mx = 0 ∧ act.srck = 1 ∧ act.dstk = 1 ∧ act.race.on = false ∧ (cmdDev act).isTwin userWeft = false ∧
      (cmdDev act).cmd? 0 0 = some act ∧ ((cmdDev act).engWeft 0 1 0).isSome = true ∧ userBolt.badScratch = [] ∧ userWeft.hdr.scratch % 128 = 0 ∧
      act.row % 64 = 0 ∧ act.off % 64 = 0 ∧ act.off < act.total ∧ act.srcOf act.off % 64 = 0 ∧ act.rawDst act.off % 64 = 0 ∧
      (cmdDev act).mem.owned = [] ∧ act.unowned = [] ∧ ({ act with off := 1024 } : Cmd).off = act.total) := by
  decide +kernel

/-- Two commands with a granule to serve, of which the engine's turn picks the second in issue order, and then the first. -/
theorem witness_TensorCopySteps_turn :
    let act (h : Nat) : Cmd := { cmd0 with handle := h, seq := h, desc := some rawDesc, status := .active, started := true }
    let d (turn : Nat) : Dev := { cmdDev (act 0) with cmds := [act 0, act 1] }.modCore 0 fun c => { c with turn := turn }
    (∀ t, t < 2 → (d t).hasGrain 0 (act 0) = true ∧ (d t).hasGrain 0 (act 1) = true ∧ ((d t).core 0).turn = t) ∧
    (0 < (act 1).seq ∧ (act 0).seq ≤ 0) ∧ ((act 0).seq ≤ 1 ∧ (act 1).seq ≤ 1 ∧ (act 0).seq < (act 1).seq) := by decide +kernel

/-- A GCM command at its start, whose counter is above the slot's last, and at it. -/
theorem witness_TensorCopySteps_gcm :
    let x : Cmd := { cmd0 with desc := some [0, 0, (2 ^ 43 : Nat), 0, 0, 0, 0, 9], status := .queued }
    let d (last : DWord) : Dev := { cmdDev x with keys := [(keyAt 5 0, { key := 0, last := last })] }
    x.gcm = true ∧ x.started = false ∧ x.failed = none ∧ (d 8).cmd? 0 0 = some x ∧
    (match Tab.find? (d 9).keys (keyAt x.ctx x.kslot) with | some k => decide (x.gctr ≤ k.last.toNat) | none => false) = true ∧
    (match Tab.find? (d 8).keys (keyAt x.ctx x.kslot) with | some k => decide (k.last.toNat < x.gctr) | none => false) = true := by
  decide +kernel

def gatI (cnt : Operand) : Instr := .gather q7 .b32 (.scal 10) (.scal 2) (.scal 3) cnt
def scaI (cnt : Operand) : Instr := .scatter q7 .b32 (.scal 10) (.scal 2) (.scal 3) cnt

/-- GATHER and SCATTER of 0, 1 and 1025 elements of a scratch of 4,096 bytes; and of a misaligned base. -/
theorem witness_GatherAndScatter_issue :
    (∀ n ∈ [0, 1, 1024, 1025], let w : Weft := { userWeft with sregs := [(4, BitVec.ofNat 64 n)] }
      ∀ i ∈ [gatI (.scal 4), scaI (.scal 4)], issuesAt w i (ui i) = true ∧ (cxAt w i (ui i)).onHalves = [0] ∧
        (cxAt w i (ui i)).uget 0 .i32 (.scal 4) = n ∧ w.flagsFull ((cxAt w i (ui i)).flagKeys true [0]) = false) ∧
    (let w : Weft := { userWeft with sregs := [(2, 2), (3, 1), (10, 3)] }
     ∀ i ∈ [gatI (.scal 4), scaI (.scal 4)], issuesAt w i (ui i) = true ∧ (cxAt w i (ui i)).uget 0 .i64 (.scal 2) % 4 ≠ 0 ∧
       (cxAt w i (ui i)).uget 0 .i32 (.scal 10) % 4 ≠ 0 ∧ (cxAt w i (ui i)).uget 0 .i32 (.scal 3) % 4 ≠ 0) := by decide

def gath0 (scatter : Bool) (n : Nat) : Gath :=
  { (default : Gath) with id := 3, scatter := scatter, ref := uref, bolt := 1, widx := 0, asid := 7, list := 256, scr := 512, count := n, size := 4 }
def gathDev (g : Gath) : Dev := { withTlb (devAt userWeft [userBolt] (ui (.nop h7))) 0 with gathers := [g] }

/-- An element with more to follow, and the last one. -/
theorem witness_GatherAndScatter_steps : ∀ g ∈ [gath0 false 1, gath0 false 2, gath0 true 2],
    (gathDev g).gath? g.id = some g ∧ g.parked = false ∧ ((gathDev g).engWeft 0 1 0).isSome = true ∧ (gathDev g).isTwin userWeft = false ∧
    userBolt.badScratch = [] ∧ userBolt.held = [] ∧ g.race.on = false ∧
    (match (gathDev g).lookup Regs.reset 0 7 0 (if g.scatter then .wr else .rd) with
      | .ok p => p.region != 3 && !(gathDev g).poisoned p.pa && ((gathDev g).l1? 0 (lineOf p.pa)).isNone &&
          ((gathDev g).l1? (partnerOf 0) (lineOf p.pa)).isNone && !Regs.reset.tracked (lineOf p.pa) && decide (p.pa % 64 + g.size ≤ 64)
      | _ => false) = true ∧
    (gathDev g).mem.marks = [] ∧ (gathDev g).mem.l2peer = [] ∧ (gathDev g).beforeOpen g.ref g.id = false ∧ (gathDev g).captureWaits 1 0 = none ∧ (gathDev g).mem.owned = [] := by decide +kernel

def slopI (a : Operand) : Instr := .slop q7 a
def slopDev (xs : List Slop) : Dev := { withTlb (devAt userWeft [userBolt] (ui (slopI (.scal 2)))) 0 with slops := xs }
def slop0 : Slop := { (default : Slop) with id := 4, bolt := 1, asid := 7, desc := [0, 0, 5, 2, 64], lines := 2 }

/-- SLOP with a free slot, with a misaligned address, and with all slots taken; a bad descriptor and a good one; a line. -/
theorem witness_SliceOperations :
    (issuesAt userWeft (slopI (.scal 2)) (ui (slopI (.scal 2))) = true ∧ (cxAt userWeft (slopI (.scal 2)) (ui (slopI (.scal 2)))).onHalves = [0] ∧
      Single (stAt (slopDev [])) (cxAt userWeft (slopI (.scal 2)) (ui (slopI (.scal 2)))) ∧
      (slopDev []).fencing uref = false ∧ (slopDev []).beforeOpen uref (slopDev []).nextOp = false ∧
      isOk ((slopDev []).readWords Regs.reset 0 userWeft.space true 0 8).1 = true) ∧
    (let w : Weft := { userWeft with sregs := [(2, 32)] }
     issuesAt w (slopI (.scal 2)) (ui (slopI (.scal 2))) = true ∧ (cxAt w (slopI (.scal 2)) (ui (slopI (.scal 2)))).uget 0 .i64 (.scal 2) % 64 ≠ 0) ∧
    (∀ u, u < 16 → ∃ x ∈ (List.range 16).map fun k => ({ slop0 with unit := k } : Slop), x.core = 0 ∧ x.unit = u) ∧
    slopCheck [0, 0, 0, 0, 0, 0, 0, 0] = some 0x13 ∧ slopCheck [64, 128, 0, 1, 0, 0, 0, 0] = none ∧
    ((slopDev [slop0]).slops.find? fun y => y.core == slop0.core && y.unit == slop0.unit) = some slop0 ∧ slop0.next + 1 < slop0.lines ∧
    slop0.race.on = false ∧ nbit (slop0.word 4) 6 = true ∧
    (match (slopDev [slop0]).lookup Regs.reset 0 7 (slop0.dst + 64 * slop0.next) .wr with
      | .ok p => p.region != 3 && p.target == 0 && p.pa % 64 == 0 && !(slopDev [slop0]).poisoned p.pa && ((slopDev [slop0]).l1? 0 (lineOf p.pa)).isNone
      | _ => false) = true := by
  refine ⟨⟨by decide, by decide, ⟨by decide, by decide⟩, by decide, by decide, by decide +kernel⟩, ⟨by decide, by decide⟩, by decide, by decide, by decide,
    by decide,
    by decide, by decide, by decide, by decide +kernel⟩

/-! ### Collectives and views -/

/-- A live view of members 0 to 2, this device 0 and its tag 4, acknowledged. -/
def view0 : View := { View.reset with self := 0, t := 4, ta := 4, members := [0, 1, 2], state := .live }
def member1 : View := { view0 with self := 1 }

def withView (d : Dev) (v : View) : Dev := { d with fabric := { d.fabric with views := [(0, v)] } }

def collI : Instr := .coll q7 (.scal 4) (.scal 2)
def collCx : Ctx := cxAt userWeft collI (ui collI)

/-- A device whose descriptor at address 0 reads zeros: counter 0, view slot 0, shrinking not allowed. -/
def collDev (v : View) (ctr : Counter) (ks : List Coll) : Dev :=
  let d := withView (withTlb (devAt userWeft [userBolt] (ui collI)) 0) v
  { d with counters := [(0, ctr)], fabric := { d.fabric with colls := ks } }
def ours : Counter := { Counter.reset with ctx := some 5 }
def coll0 : Coll :=
  { (default : Coll) with handle := 0, core := 0, ref := uref, bolt := 1, ctx := 5, asid := 7, stage := .exchange, members0 := [0, 1, 2], n0 := 3 }

/-- A translation of the supervisor's area and the pages below it to themselves. -/
def area0 : TlbEntry := { page0 0 with asid := 0, pages := 4096 }

def spanOk {α : Type} (x : Span α) : Bool :=
  match x with
  | .ok _ => true
  | _ => false

/-- COLL: every case of its issue, each on the counter's owner and the state of the view. -/
theorem witness_CollectiveWords :
    (∀ v ∈ [view0, { view0 with state := .agree }, { view0 with state := .lost }, View.reset, { view0 with ta := 3 }],
      ∀ k ∈ [ours, Counter.reset], Issues (stAt (collDev v k [])) collI collCx) ∧
    collCx.onHalves = [0] ∧ collCx.uget 0 .i64 (.scal 2) % 64 = 0 ∧ Single (stAt (collDev view0 ours [])) collCx ∧
    (collDev view0 ours []).fencing uref = false ∧ userWeft.flagsFull (collCx.flagKeys true [0]) = false ∧
    isOk ((collDev view0 ours []).readWords Regs.reset 0 userWeft.space true 0 8).1 = true ∧
    ((collDev view0 ours []).counter 0).ctx = some userWeft.ctx ∧ ((collDev view0 Counter.reset []).counter 0).ctx ≠ some userWeft.ctx ∧
    8 ≤ ((collDev view0 ours (List.replicate 8 coll0)).fabric.colls.filter (·.slot == 0)).length := by
  refine ⟨fun v hv k hk => issues_of _ _ _ _ (by rfl) (by rfl) (by decide), by decide, by decide, ⟨by decide, by decide⟩, by decide, by decide, ?_, by decide,
    by decide, by decide⟩
  decide +kernel

/-- What a COLL meets: whether the counter is the weft's, the view's state, whether shrinking is allowed, whether the view is acknowledged, and
the instances of its slot. -/
def collMeets (d : Dev) : Option (Bool × VState × Bool × Bool × Nat) :=
  match d.readWords collCx.regs collCx.core collCx.w.space true 0 8 with
  | (.ok desc, d) =>
    let v := d.view ((desc.getD 4 0).toNat % 16)
    some (decide ((d.counter ((desc.getD 5 0).toNat % 4096)).ctx = some userWeft.ctx), v.state, (desc.getD 4 0).getLsbD 10, v.t == v.ta,
      (d.fabric.colls.filter (·.slot == (desc.getD 4 0).toNat % 16)).length)
  | _ => none

/-- The same device with a descriptor that allows shrinking. -/
def shrinking (d : Dev) : Dev := d.modMem fun m => { m with cells := [(0x21, 4)] }

/-- Each row of R326's table, the descriptor's read that faults and that waits, and a core whose handles are all taken. -/
theorem witness_CollectiveWords_start :
    (∀ st ∈ [VState.live, .agree, .lost, .empty, .joining, .excluded],
      collMeets (collDev { view0 with state := st } ours []) = some (true, st, false, true, 0)) ∧
    (∀ st ∈ [VState.live, .agree], collMeets (collDev { view0 with state := st, ta := 3 } ours []) = some (true, st, false, false, 0)) ∧
    (∀ st ∈ [VState.live, .agree], collMeets (shrinking (collDev { view0 with state := st, ta := 3 } ours [])) = some (true, st, true, false, 0)) ∧
    collMeets (collDev view0 Counter.reset []) = some (false, .live, false, true, 0) ∧
    collMeets (collDev view0 ours (List.replicate 8 coll0)) = some (true, .live, false, true, 8) ∧
    errOf ((devAt userWeft [userBolt] (ui collI)).readWords Regs.reset 0 userWeft.space true 0 8) = some 0x10 ∧
    errOf ((frozen (collDev view0 ours [])).readWords Regs.reset 0 userWeft.space true 0x1000 8) = some 0 ∧
    (∀ j, j < 64 → (collDev view0 ours ((List.range 64).map fun h => { coll0 with handle := h, slot := h % 16 })).coll? 0 j ≠ none) ∧
    (∀ j, j < 64 → (collDev view0 ours []).coll? 0 j = none) := by
  refine ⟨by decide +kernel, by decide +kernel, by decide +kernel, by decide +kernel, by decide +kernel, by decide +kernel, by decide +kernel,
    by decide +kernel, by decide +kernel⟩

/-- COLL behind a fence, behind an older store of its weft, and with its flag full; and with a misaligned address. -/
theorem witness_CollectiveWords_waits :
    (collDev view0 ours []).beforeOpen uref (collDev view0 ours []).nextOp = false ∧
    (let f : MemOp := { (default : MemOp) with ref := uref, kind := .fence }
     ({ collDev view0 ours [] with ops := [f] } : Dev).fencing uref = true) ∧
    (let o : MemOp := { (default : MemOp) with ref := uref, kind := .store, accs := [default] }
     ({ collDev view0 ours [] with ops := [o], nextOp := 1 } : Dev).beforeOpen uref 1 = true) ∧
    ({ userWeft with flags := [(0, 255)] } : Weft).flagsFull [0] = true ∧
    (let w : Weft := { userWeft with sregs := [(2, 8)] }
     issuesAt w collI (ui collI) = true ∧ (cxAt w collI (ui collI)).onHalves = [0] ∧ (cxAt w collI (ui collI)).uget 0 .i64 (.scal 2) % 64 ≠ 0) := by
  decide +kernel

/-- A weft of 32 threads in two halves that both execute a COLL: the first starts, and then the second. -/
def halvesWeft : Weft := { userWeft with hdr := { userHdr with w := 32, threads := 32, c16 := true } }
def halvesCx (i : Instr) : Ctx := cxAt halvesWeft i (ui i 0xFFFFFFFF)
def halvesDev : Dev :=
  let d := withView (withTlb (devAt halvesWeft [userBolt] (ui collI 0xFFFFFFFF)) 0) view0
  { d with counters := [(0, ours)] }

theorem witness_CollectiveWords_halves :
    issuesAt halvesWeft collI (ui collI 0xFFFFFFFF) = true ∧ (halvesCx collI).onHalves = [0, 1] ∧
    (match (halvesCx collI).collStart halvesDev 0 0 with
     | .started x d => (match (halvesCx collI).collStart ((d.modW uref fun w => w.write 0 0 (.scal 4) true .full x.handle).launchColl Regs.reset x) 1 0 with
       | .started y _ => x.slot == 0 && y.slot == 0
       | _ => false)
     | _ => false) = true := by
  decide +kernel

def cabI : Instr := .cabort q7 (.imm 32)

/-- CABORT of no instance, of its own, of another weft's, and of one that ends. -/
theorem witness_CollectiveWords_abort :
    issuesAt userWeft cabI (ui cabI) = true ∧ (cxAt userWeft cabI (ui cabI)).onHalves = [0] ∧ (collDev view0 ours []).coll? 0 0 = none ∧
    (collDev view0 ours [coll0]).coll? 0 0 = some coll0 ∧ coll0.bolt = userWeft.bolt ∧ coll0.widx = userWeft.widx ∧
    ({ coll0 with stage := .ending } : Coll).stage = .ending ∧ ({ coll0 with bolt := 2 } : Coll).bolt ≠ userWeft.bolt := by decide

/-- Instances past step 3 and before it: at its end, certain of step 3, with every survivor ready, and with one of them not. -/
theorem witness_CollectiveWords_past :
    (∀ k ∈ [coll0, { coll0 with stage := .ending }, { coll0 with stage := .ready, sure := true }, { coll0 with stage := .ready, ready := [0, 1, 2] },
        { coll0 with stage := .ready, ready := [0, 1] }], (collDev view0 ours [k]).coll? 0 0 = some k) ∧
    (∀ m ∈ coll0.members0, m ∈ view0.members → m ∈ [0, 1, 2]) ∧ ¬(∀ m ∈ coll0.members0, m ∈ view0.members → m ∈ [0, 1]) := by decide

/-- An instance of one s32 element at address 0 that stages it, and one whose partials arrive. -/
theorem witness_CollectiveSteps :
    let k : Coll := { coll0 with stage := .staging, desc := [0, 64, 128, 1, 128] }
    let d := collDev view0 ours [k]
    d.coll? k.core k.handle = some k ∧ spanOk (d.ownSpan Regs.reset k.by_ 0 (cutsOf k.dst k.outBytes)).1 = true ∧
    (let d1 := (d.ownSpan Regs.reset k.by_ 0 (cutsOf k.dst k.outBytes)).2
     match d1.readSpan Regs.reset k.by_ (cutsOf k.src (k.inBytes 0)) with
     | (.ok bs, d2) => spanOk (d2.writeSpan Regs.reset k.by_ k.stageAt bs).1
     | _ => false) = true := by
  decide +kernel

theorem witness_CollectiveSteps_messages :
    let k : Coll := { coll0 with desc := [0, 64, 128, 1, 128] }
    let data : List Byte := k.params ++ [1, 0, 0, 0]
    (collDev view0 ours [k]).collOf 0 0 = some k ∧ k.stage ≠ .ending ∧ k.stage ≠ .ready ∧ (4 : BitVec 32) = ((collDev view0 ours [k]).view 0).t ∧
    (3 : BitVec 32) ≠ ((collDev view0 ours [k]).view 0).t ∧ data.take 16 = k.params ∧ (data.drop 16).length = k.inBytes 1 ∧
    (data.drop 16).length ≠ k.inBytes 1 + 1 := by
  decide +kernel

/-- Reductions of s32 elements: three survivors of six members. -/
theorem witness_CollectiveSteps_sums : 0 < 3 ∧ ([1, 0xFFFFFFFF, 5] : List Nat) ≠ [] ∧ (∀ x ∈ [1, 0xFFFFFFFF, 5], x < 2 ^ 32) ∧ 6 = 3 * (2 : Int).toNat := by
  decide

def vq : Instr := .viewq q7 (.scal 4) (.imm 48)
def vack : Instr := .viewack q7 (.imm 32)
def vjoin : Instr := .vjoin q7 (.imm 32)

/-- The supervisor in VJOIN, with a record whose BOOT bit is clear, and with one whose members stand at address 0. -/
def joinDev (cells : Cells 8) : Dev :=
  let d := devAt probeWeft [] (si vjoin)
  { d with mem := { d.mem with cells := cells, tlb := [(0, [area0])] } }

def boots (d : Dev) : Option Bool :=
  match d.readWords Regs.reset 0 d.space0 false 0x800000 8 with
  | (.ok r, _) => some ((r.getD 0 0).getLsbD 50)
  | _ => none

/-- VIEWQ of both words; VIEWACK and VJOIN in the supervisor. -/
theorem witness_ViewWords :
    (∀ i ∈ [vq, .viewq q7 (.scal 4) (.imm 32)], issuesAt userWeft i (ui i) = true) ∧
    (∀ i ∈ [vack, vjoin], issuesAt probeWeft i (si i) = true ∧ (cxAt probeWeft i (si i)).onHalves = [0] ∧ (cxAt probeWeft i (si i)).uget 0 .i32 (.imm 32) % 16 = 0) ∧
    boots (joinDev []) = some false ∧ boots (joinDev [(0x800006, 4)]) = some true := by
  refine ⟨by decide, by decide, by decide +kernel, by decide +kernel⟩

/-- VIEWACK in each state of its view; VJOIN in each, with its record unmapped and its page frozen; and each in a supervisor of two halves. -/
theorem witness_ViewWords_states :
    (∀ st ∈ [VState.live, .agree, .lost, .empty, .joining, .excluded], ∀ i ∈ [vack, vjoin],
      let d := withView (devAt probeWeft [] (si i)) { view0 with state := st }
      Issues (stAt d) i (cxAt probeWeft i (si i)) ∧ (d.view 0).state = st) ∧
    errOf ((devAt probeWeft [] (si vjoin)).readWords Regs.reset 0 Dev.reset.space0 false 0x800000 8) = some 0x10 ∧
    errOf ((frozen Dev.reset).readWords Regs.reset 0 (frozen Dev.reset).space0 false 0x800000 8) = some 0 ∧
    (Dev.reset.view 0).state = .empty := by
  refine ⟨fun st hs i hi => ⟨issues_of _ _ _ _ (by rfl) (by rfl) (by revert i; decide), ?_⟩, by decide +kernel, by decide +kernel, by decide⟩
  revert st
  revert i
  decide

theorem witness_ViewWords_halves :
    let w : Weft := { probeWeft with hdr := { probeWeft.hdr with w := 32, threads := 32, c16 := true } }
    (∀ i ∈ [vack, vjoin], issuesAt w i { si i with act := 0xFFFFFFFF } = true ∧ (cxAt w i { si i with act := 0xFFFFFFFF }).onHalves = [0, 1]) ∧
    (match (joinDev []).vjoin Regs.reset 0 0 with
     | (.ok d, _) => (match d.vjoin Regs.reset 0 0 with | (.ok _, _) => true | _ => false)
     | _ => false) = true := by
  refine ⟨by decide, by decide +kernel⟩

theorem area_hits (cells : Cells 8) (va : Nat) (h : va < 2 ^ 24) :
    (joinDev cells).lookup Regs.reset 0 0 va .rd = .ok (whereOf Regs.reset 0 area0.x (area0.addr va) va) := by
  have ha : area0.addr va = va := by simp [TlbEntry.addr, area0, page0]; omega
  have h2 : area0.covers 0 va = true := by simp [TlbEntry.covers, area0, page0]; omega
  have h3 : physOk Regs.reset 0 va = true := by
    simp only [physOk, if_pos, Bool.and_eq_true, decide_eq_true_eq, Bool.not_eq_true']
    exact ⟨Nat.lt_trans h (by decide), by simp only [Regs.inCarve, show Regs.reset.wsize = 0 from rfl]; simp⟩
  have h4 : xlateFault Regs.reset 0 area0.x (area0.addr va) .rd = none := by
    rw [ha]
    exact (by simp [xlateFault, area0, page0, h3] : xlateFault Regs.reset 0#16 area0.x va .rd = none)
  have h5 : ((joinDev cells).tlbOf 0).find? (·.covers 0 va) = some area0 := List.find?_cons_of_pos h2
  unfold Dev.lookup
  rw [if_neg (by omega), h5]
  simp only [h4]
  rfl

theorem witness_ViewWords_members :
    ∃ m d, (joinDev [(0x800006, 4)]).readWords Regs.reset 0 (joinDev [(0x800006, 4)]).space0 false 0 4096 = (.ok m, d) :=
  ⟨_, _, Laws.readWords_hits _ _ _ _ (fun va => whereOf Regs.reset 0 area0.x (area0.addr va) va) _ _ fun _ hj =>
    ⟨area_hits _ _ (by omega), rfl, by simp [Where.kind, whereOf, area0, page0]⟩⟩

/-- The states of a view in which its messages act. -/
theorem witness_ViewMessages :
    ((withView Dev.reset view0).view 0).state = .live ∧ ((withView Dev.reset { view0 with state := .agree }).view 0).state = .agree ∧ (Dev.reset.view 0).state = .empty ∧
    (view0.members.filter fun m => !(view0.suspects ++ [2]).contains m).min? = some 0 ∧
    (member1.members.filter fun m => !(member1.suspects ++ [2]).contains m).min? = some 0 ∧ (0 : Nat) ≠ member1.self ∧ (0 : Nat) = view0.self ∧
    ([2].filter fun m => view0.members.contains m && m != view0.self && !view0.suspects.contains m) = [2] ∧
    ([0].filter fun m => view0.members.contains m && m != view0.self && !view0.suspects.contains m) = [] ∧
    view0.members.length < 2 * (view0.members.filter fun m => !(view0.suspects ++ [2]).contains m).length ∧
    2 * (view0.members.filter fun m => !(view0.suspects ++ [1, 2]).contains m).length ≤ view0.members.length ∧
    (5 : BitVec 32).toNat > view0.t.toNat ∧ (4 : BitVec 32).toNat ≤ view0.t.toNat ∧ view0.acked < (5 : BitVec 32).toNat ∧
    (let v : View := { view0 with proposal := some [0, 1], acks := [{ member := 0, seq := none }] }
     v.proposal = some [0, 1] ∧ (1 : Nat) ∈ [0, 1] ∧ (∀ m ∈ [0, 1], ∃ a ∈ ({ member := 1, seq := none } : VAck) :: v.acks, a.member = m) ∧
     (∃ m ∈ [0, 1, 2], ∀ a ∈ ({ member := 1, seq := none } : VAck) :: v.acks, a.member ≠ m)) ∧
    view0.self ∈ [0, 1] ∧ view0.self ∉ [1, 2] ∧ (3 : Nat) ∉ view0.members ∧ view0.coordinator = some 0 ∧ member1.coordinator = some 0 ∧
    ({ view0 with state := .joining } : View).state = .joining := by
  refine ⟨by decide, by decide, by decide, by decide, by decide, by decide, by decide, by decide, by decide, by decide, by decide, by decide, by decide, by decide,
    ⟨rfl, by decide, by decide, by decide⟩, by decide, by decide, by decide, by decide, by decide, rfl⟩

/-- A message that waits for its acknowledgement, sent 7 and 8 times. -/
theorem witness_ViewMessages_resend : ∀ n ∈ [7, 8],
    let u : Unacked := { (default : Unacked) with id := 3, attempts := n }
    (({ Dev.reset with fabric := { Dev.reset.fabric with unacked := [u] } } : Dev).fabric.unacked.find? (·.id == 3)) = some u := by decide

/-! ### The supervisor -/

/-- The supervisor weft of core 0 issues `i` with $tgtw naming slot 0 of shuttle 0, which holds `w`; without one when it is none. -/
def supWeft : Weft := { probeWeft with sregs := [(3, 9), (4, 0xFFFF), (5, 3)] }

def supDev (i : Instr) (w : Option Weft) : Dev :=
  let d := (devAt supWeft [] (si i)).modCore 0 fun c => { c with tgtw := 0x40 }
  match w with
  | some w => d.putW uref w
  | none => d

def supCx (i : Instr) : Ctx := cxAt supWeft i (si i)

theorem sup_issues (i : Instr) (w : Option Weft) (h : issuesAt supWeft i (si i) = true) : Issues (stAt (supDev i w)) i (supCx i) :=
  issues_of _ _ _ _ (by cases w <;> rfl) (by cases w <;> rfl) h

/-- The user weft at a pick of 16 threads, parked there, in its handler, and with a pending write of v3. -/
def running : Weft := { userWeft with entries := [{ depth := 1, pc := 0x80, resume := 0, mask := 0xFFFF, state := .run, aux := 0 }] }
def parked : Weft := { userWeft with entries := [{ depth := 1, pc := 0x80, resume := 2, mask := 0xFFFF, state := .park, aux := 0 }] }
def handling : Weft :=
  { running with handler := some { lane := 3, entry := { (default : Entry) with mask := 8, state := .run },
                                   restarts := [{ (default : Restart) with lane := 3, depth := 1, pc := 0x80 }] } }
def writing : Weft := { userWeft with sb := [{ ops := [0], first := 3, count := 1, pc := 0x28 }] }

def lxr (reg : BitVec 10) : Instr := .lxrd q7 (.scal 4) (.scal 5) reg
def lxw (reg : BitVec 10) : Instr := .lxwr q7 (.scal 5) (.scal 4) reg

/-- LXRD and LXWR with no target, of a register at the end of the range, of a predicate, of none, and of one with a pending write. -/
theorem witness_RegisterAccessWords :
    (∀ i ∈ [lxr 3, lxr 201, lxr 902, lxr 202, lxw 3, lxw 201, lxw 902], issuesAt supWeft i (si i) = true ∧
      (units (supCx i) (.scal 4) = [(0, 0)])) ∧
    lxTarget (stAt (supDev (lxr 3) none)) (supCx (lxr 3)) = none ∧ (target (stAt (supDev (lxr 3) (some parked))) (supCx (lxr 3))).map (·.1) = some uref ∧
    (201 < userWeft.hdr.vregs + userWeft.hdr.depth ∧ 201 < 640) ∧ ¬(202 < userWeft.hdr.vregs + userWeft.hdr.depth) ∧ (896 ≤ 902 ∧ 902 ≤ 902) ∧
    3 < parked.hdr.w ∧ writing.pendingReg (3, 1) = true ∧ parked.pendingReg (201, 1) = false ∧ parked.parked.getLsbD 3 = true ∧ (supCx (lxw 3)).on ≠ [] := by
  decide

def tretI : Instr := .tret q7
def parkI : Instr := .park q7 (.scal 4)
def resumeI : Instr := .resume q7 (.scal 4)
def signalI : Instr := .signal q7 (.scal 3) (.scal 4)

/-- TRET, PARK, RESUME and SIGNAL with a target and without; a target in its handler and one outside; parked lanes and running ones. -/
theorem witness_TargetWords :
    (∀ i ∈ [tretI, parkI, resumeI, signalI], ∀ w ∈ [none, some running, some parked, some handling], Issues (stAt (supDev i w)) i (supCx i)) ∧
    (∀ i ∈ [tretI, parkI, resumeI, signalI], (supCx i).onHalves ≠ [] ∧ (target (stAt (supDev i none)) (supCx i)).isNone = true ∧
      ∀ w ∈ [running, parked, handling], (target (stAt (supDev i (some w))) (supCx i)).map (·.1) = some uref) ∧
    running.handler = none ∧ handling.handler ≠ none ∧ handling.divert = [] ∧ running.divert = [] ∧
    (let m := running.full &&& (running.alive ||| (supDev parkI (some running)).pickLanes uref) &&& ~~~ running.parked
     m ≠ 0 ∧ parked.full &&& (parked.alive ||| (supDev parkI (some parked)).pickLanes uref) &&& ~~~ parked.parked = 0) := by
  refine ⟨fun i hi w _ => sup_issues i w (by revert i; decide), by decide, by decide, by decide, by decide, by decide, by decide⟩

def invI (k : Nat) : Instr :=
  if k = 0 then .tlbinvPage q7 (.scal 4) (.scal 5) else if k = 1 then .tlbinvAsid q7 (.scal 4) (.scal 5) else .tlbinvAll q7 (.scal 4) (.scal 5)
def syncI : Instr := .tlbsync q7
def inv0 (reply : Option (Nat × DWord)) : Inv := { id := 2, ref := some (supRef 0), scope := .all, va := 0, asid := 0, reply := reply }

/-- TLBINV in its scopes, TLBSYNC with an invalidation open and without; an invalidation that completes; a walk that ends. -/
theorem witness_TranslationSteps :
    (∀ i ∈ [invI 0, invI 1, invI 2, syncI], issuesAt supWeft i (si i) = true ∧ (supCx i).onHalves ≠ [] ∧ (supDev i none).weftBusy (supRef 0) = false) ∧
    (let d := supDev syncI none
     let e : Dev := { d with mem := { d.mem with invs := [inv0 none] } }
     (∃ v ∈ e.mem.invs, v.ref = some (supRef 0)) ∧ (∀ v ∈ d.mem.invs, v.ref ≠ some (supRef 0)) ∧ e.mem.invs.find? (·.id == 2) = some (inv0 none) ∧
       e.invWaits (inv0 none) = false ∧ (inv0 none).reply = none) ∧
    (let e : Dev := { supDev syncI none with ops := [{ (default : MemOp) with ref := supRef 0, space := .generic, accs := [default] }] }
     e.weftBusy (supRef 0) = true ∧ e.invWaits (inv0 none) = true) ∧
    (let w : Weft := { userWeft with walks := [{ va := 0x1000, write := false, done := false, cause := 0 }] }
     (match (frozen (devAt w [] (ui (.nop h7)))).walkFill Regs.reset 0 w.space 0x1000 .rd true with | (.hold, _) => true | _ => false) = true ∧
     (w.walks.find? fun k => !k.done && k.va == 0x1000).isSome = true ∧
     (match (devAt w [] (ui (.nop h7))).walkFill Regs.reset 0 w.space 0x1000 .rd true with | (.fault _, _) => true | _ => false) = true ∧
     (match ({ devAt w [] (ui (.nop h7)) with mem := { Dev.reset.mem with cells := mapped } } : Dev).walkFill Regs.reset 0 w.space 0x1000 .rd true with
      | (.ok _ _ _ _, _) => true | _ => false) = true) := by
  decide +kernel


/-! ### The host interface -/

/-- The drivers of PF0 and of virtual function 2 are accepted. -/
def onDev : Dev := { Dev.reset with host := { Dev.reset.host with features := [(0, true), (2, true)] } }
def on : State := stAt onDev

theorem on_serves (fn : Nat) (h : fn = 0 ∨ fn = 2) : Serves on fn := by
  refine ⟨⟨?_, fun t ht => by cases ht⟩, rfl, fun v hv => by cases hv⟩
  rcases h with rfl | rfl <;> rfl

theorem on_noTdi : NoTdiRuns on := fun p hp => by cases hp

/-- A function that is served and one that is not; a switch in progress; a session's context of another function. -/
theorem witness_CommandsInTurn :
    FnOn on 0 ∧ ¬FnOn on 1 ∧ ({ on with sec := { on.sec with switching := true } } : State).sec.switching = true ∧
    ctrlOf (.regrd 2 9 1) = some (2, 9) ∧ pf0Only (.regrd 2 9 1) = true ∧ Serves on 2 ∧ sessionOf (.token 2 9 5 0) = some (2, 9, 5, false) ∧
    sessionOf (.obsrd 2 9 65536 0 0) = some (2, 9, 65536, true) ∧ fnOfCtx on 5 ≠ 2 ∧ fnOfCtx { on with sec := { on.sec with ctxFn := [(5, 2)] } } 5 = 2 ∧
    (∀ g, Tab.find? on.dev.debug 5 = some g → g.unlocked = false) :=
  ⟨(on_serves 0 (.inl rfl)).on, fun h => (by cases h.1), rfl, rfl, rfl, on_serves 2 (.inr rfl), rfl, rfl, by decide, by decide, fun g h => by cases h⟩

/-- Carves at the edges of R15 and just past them; windows of R204. -/
theorem witness_ControlRegisterWrites :
    Serves on 0 ∧ NoTdiRuns on ∧ on.regs.carveNew = none ∧ carveFits 0x00400100 = true ∧ carveFits 0x00410100 = false ∧ carveFits 0x00200000 = true ∧
    carveFits 0x001F0000 = false ∧ ({ on.regs with carveNew := some 0x00400100 } : Regs).carveNew ≠ none ∧ on.regs.racewinNew = none ∧
    (windowFits 0x0000000000000000 ∧ windowFits 0x0000020000100000 ∧ ¬windowFits 0x0000000000010000) :=
  ⟨on_serves 0 (.inl rfl), on_noTdi, rfl, by decide, by decide, by decide, by decide, by decide, rfl,
    by simp [windowFits], by simp [windowFits], by simp [windowFits]⟩

/-- The registers that no write may reach while a TDI runs, and writes with bolts on the device and without. -/
theorem witness_SupervisorRegisters :
    Serves on 0 ∧ NoTdiRuns on ∧ ¬NoTdiRuns (withTdi on 3 .run) ∧ on.regs.sventryNew = none ∧ on.regs.svbaseNew = none ∧
    on.regs.ctxtabNew = none ∧ on.dev.bolts = [] ∧ ({ onDev with bolts := [userBolt] } : Dev).bolts ≠ [] ∧ (∀ p ∈ on.dev.cores, p.2.frozen = false) ∧
    ¬(∀ p ∈ (onDev.modCore 0 fun c => { c with frozen := true }).cores, p.2.frozen = false) ∧
    ({ on.regs with sventryNew := some 64 } : Regs).sventryNew ≠ none :=
  ⟨on_serves 0 (.inl rfl), on_noTdi, fun h => h (3, .run) (by decide) rfl, rfl, rfl, rfl, rfl, by simp, by decide, by decide, by decide⟩

/-- Queues 1 and 1,024; counters 4,095 and 4,096; a key for a TDI in RUN; slots of PF0 and of another function. -/
theorem witness_QueuesCountersAndKeys :
    Serves on 0 ∧ Serves on 2 ∧ NoTdiRuns on ∧ (4032 % 64 = 0 ∧ 4032 + 64 * 1 ≤ 4096) ∧ ¬(4032 + 64 * 2 ≤ 4096) ∧
    Shows on 0 4095 ∧ ¬Shows on 0 4096 ∧ ¬Shows on 2 0 ∧
    Shows { on with dev := { onDev with counters := [(9, { Counter.reset with fn := 2 })] } } 2 9 ∧
    (let s : State := { withTdi on 2 .run with sec := { on.sec with ctxFn := [(5, 2)] } }
     Tab.find? s.dev.host.tdi 2 = some .run ∧ fnOfCtx s 5 = 2) ∧
    ((0xC000000000000000 : DWord).getLsbD 63 = true ∧ (0xC000000000000000 : DWord).extractLsb' 58 2 ≠ 3) := by
  refine ⟨on_serves 0 (.inl rfl), on_serves 2 (.inr rfl), on_noTdi, by decide, by decide, ⟨by decide, by decide, .inl rfl, fun t h => (by cases h)⟩,
    fun h => absurd h.1 (by decide), fun h => ?_, ⟨by decide, by decide, .inr rfl, fun t h => (by cases h)⟩, by decide, by decide⟩
  obtain h | h := h.2.2.1
  · cases h
  · cases h

/-- Counters of a function whose TDI runs, of one whose TDI is locked, and of one that is none; offsets of a slot. -/
theorem witness_QueuesCountersAndKeys_tdi :
    let s (t : Tdi) : State := withTdi { on with dev := { onDev with counters := [(9, { Counter.reset with fn := 2 })] } } 2 t
    CounterOn on.dev 9 ∧ CounterOn (s .run).dev 9 ∧ ¬CounterOn (s .locked).dev 9 ∧ ¬Shows (s .locked) 2 9 ∧ Shows (s .run) 2 9 ∧ (0x18 < 64 ∧ (8 : Nat) = 8) :=
  ⟨fun _ h => (by cases h), fun t h => (by cases h; rfl), fun h => absurd (h .locked rfl) (by decide), fun h => absurd (h.2.2.2 .locked rfl) (by decide),
    ⟨by decide, by decide, .inr rfl, fun t h => (by cases h; rfl)⟩, by decide⟩

/-- Vectors open and closed, and a gated queue of a function whose TDI is locked. -/
theorem witness_CounterTriggers_vectors :
    let h : HostIf := { onDev.host with msixOpen := [(0, 5)] }
    ((0, 5) ∈ h.msixOpen ∧ 0 ∉ h.msixOff) ∧ (0, 6) ∉ h.msixOpen ∧ 0 ∈ ({ h with msixOff := [0] } : HostIf).msixOff ∧
    Tab.find? (withTdi on 2 .locked).dev.host.tdi 2 = some .locked ∧ Tdi.locked ≠ .run := by decide

/-- An armed trigger that fires, with each action, at its threshold and one below it; a weft that waits. -/
theorem witness_CounterTriggers :
    (∀ a ∈ [(0 : BitVec 2), 1, 2], let c : Counter := { Counter.reset with arm := true, value := 5, tthr := 5, action := a }
      c.arm = true ∧ (c.value - c.tthr).msb = false) ∧ ((4 : DWord) - 5).msb = true ∧ (2047 : BitVec 12).toNat < 2048 ∧
    NoWaitEnds Dev.reset 0 ∧ (Tab.find? [(2, { Queue.reset with gate := true })] 2).map (·.gate) = some true ∧
    (let w : Weft := { userWeft with entries := [{ depth := 0, pc := 0x40, resume := 0, mask := 1, state := .ecw, aux := 3 }] }
     ∃ x ∈ w.entries, x.state = .ecw ∧ x.aux = BitVec.ofNat 32 3) :=
  ⟨by decide, by decide, by decide, ⟨fun p h => (by cases h), fun b h => (by cases h)⟩, by decide, by decide⟩

/-- A parked system call of 2 lanes of the user weft, posted, with its token and without. -/
def callWeft (token : Option Nat) : Weft :=
  { userWeft with
    entries := [{ depth := 1, pc := 0x80, resume := 0, mask := 3, state := .park, aux := 6 }]
    parks := [{ (default : Park) with num := 6, posted := true, cause := 0x1A, lanes := 3, token := token }] }
def callOf : Call := { (default : Call) with token := 0, core := 0, ref := uref, park := 6, lanes := 3 }
def callState (token : Option Nat) (switching : Bool) : State :=
  let d := onDev.putW uref (callWeft token)
  { stAt { d with host := { d.host with calls := if token.isSome then [callOf] else [], nextToken := 1 } } with
    sec := { State.reset.sec with switching := switching } }

theorem witness_HostCommands :
    (fnOfCtx on 5 = 0 ∧ 5 < 65536 ∧ fnOfCtx on 5 ≠ 2) ∧
    (∀ p ∈ on.dev.wefts, p.2.sup = true ∨ p.2.ctx ≠ BitVec.ofNat 16 5) ∧
    ((callState none false).dev.wefts.map fun p => (p.2.sup, p.2.ctx)) = [(false, 5)] ∧
    ((callWeft none).parks.find? (·.num == 6)).map (fun p => (p.posted, p.token, p.cause)) = some (true, none, 0x1A) ∧
    (callWeft none).lanesUnder 6 = 3 ∧ (lanesOf callOf.lanes).length = 2 ∧ (callState (some 0) false).dev.host.calls.find? (·.token == 1) = none ∧
    (2 ^ 52 < 2 ^ 52 + 1 ∧ 0x1000 + 4096 ≤ 2 ^ 52 ∧ on.dev.mem.poison = []) ∧ on.sec.staged = none ∧
    (callState none true).sec.switching = true ∧ (callState none true).dev.host.waiting.length < 256 ∧
    ({ onDev.host with dropped := 1 } : HostIf).dropped ≠ 0 := by
  decide +kernel

theorem witness_HostCommands_call (token : Option Nat) (b : Bool) : (callState token b).dev.weft? uref = some (callWeft token) ∧
    (callState (some 0) b).dev.host.calls.find? (·.token == 0) = some callOf := ⟨rfl, rfl⟩

/-! ### Debug, security and resets -/

/-- A session of context 5 of PF0, unlocked, with shuttle 0 holding its weft. -/
def dbg : Debug := { Debug.reset with token := some 7, unlocked := true }
def dbgState (g : Debug) (stopped : Bool) : State :=
  let d := (onDev.putW uref userWeft).modSh 0 fun x => { x with stopped := stopped }
  stAt { d with debug := [(5, g)] }

theorem dbg_session (g : Debug) (b : Bool) : Session (dbgState g b) 0 5 g :=
  ⟨⟨rfl, fun t h => by cases h⟩, rfl, by decide, rfl, rfl⟩

theorem witness_DebugCommands :
    (∀ b, Session (dbgState dbg b) 0 5 dbg ∧ HoldsOnly (dbgState dbg b) 0 5 ∧ ((dbgState dbg b).dev.sh (0 * 4 + 0)).stopped = b) ∧
    Session (dbgState Debug.reset false) 0 5 Debug.reset ∧ Debug.reset.token = none ∧ Debug.reset.launched = false ∧ ¬HoldsOnly on 0 5 ∧
    (4 ≤ 20 ∧ 0x1000 % 64 = 0 ∧ 0x1000 < 2 ^ 57) ∧
    (let g : Debug := { dbg with due := [3], areaLen := 4095 }
     let s : State := dbgState g false
     Tab.find? s.dev.debug 5 = some g ∧ (3 : Nat) ∈ g.due ∧ s.dev.fabric.colls = [] ∧ g.areaLen < g.areaUsed + 4096 ∧ 0 + 4096 ≤ 4096) ∧
    ({ on.sec with spdm := .session } : Sec).spdm = .session := by
  refine ⟨fun b => ⟨dbg_session _ _, ⟨⟨(refKey uref, userWeft), by cases b <;> decide, by decide, by decide⟩, fun p hp _ => ?_⟩, by cases b <;> decide⟩,
    dbg_session _ _, rfl, rfl, fun h => ?_, by decide, by decide, rfl⟩
  · have : (dbgState dbg b).dev.wefts = [(refKey uref, userWeft)] := by cases b <;> decide
    rw [this] at hp
    rw [List.mem_singleton.mp hp]
    decide
  · obtain ⟨p, hp, _⟩ := h.1
    cases hp

/-- A command block that reads OP, ARG, BUF and LEN. -/
def blockState (cells : Cells 8) : State := stAt { Dev.reset with mem := { Dev.reset.mem with cells := cells, tlb := [(0, [area0])] } }

def blockOf (cells : Cells 8) : Option (List DWord) :=
  match (blockState cells).dev.readWords Regs.reset 0 (blockState cells).dev.space0 false (Regs.reset.area 0 + 0x40) 4 with
  | (.ok ws, _) => some ws
  | _ => none

/-- OP 0 and 1 to 4; an argument past its range; a dump of 63 bytes and one of 64. -/
theorem witness_CommandBlock :
    blockOf [] = some [0, 0, 0, 0] ∧ blockOf [(0x40, 1)] = some [1, 0, 0, 0] ∧ blockOf [(0x40, 2), (0x48, 3)] = some [2, 3, 0, 0] ∧
    blockOf [(0x40, 4), (0x48, 5)] = some [4, 5, 0, 0] ∧ blockOf [(0x40, 1), (0x48, 4)] = some [1, 4, 0, 0] ∧
    blockOf [(0x40, 3), (0x58, 63)] = some [3, 0, 0, 63] ∧ blockOf [(0x40, 3), (0x58, 64)] = some [3, 0, 0, 64] ∧
    (let d := (blockState []).dev
     let at_ := Regs.reset.area 0 + 0x40
     (d.writeVa Regs.reset 0 d.space0 (at_ + 0x20) 1 2).1 = none ∧
       (let e := (d.writeVa Regs.reset 0 d.space0 (at_ + 0x20) 1 2).2; (e.writeVa Regs.reset 0 e.space0 at_ 8 0).1 = none)) := by
  decide +kernel

/-- Requests in their place and out of it. -/
theorem witness_SpdmRequests :
    spdmOpen .spdmGetVersion SpdmState.start = true ∧ spdmOpen .spdmEndSession SpdmState.start = false ∧ spdmOpen .spdmEndSession .session = true ∧
    spdmOpen (.spdmGetMeasurements 4 0) .session = true ∧ spdmOpen (.spdmGetMeasurements 5 0) .session = false ∧ State.reset.regs.sventry.toNat % 2 ^ 57 = 0 ∧
    (Config.finishValue 0 = Config.finishValue 0 ∧ ({ on.sec with spdm := .keyed } : Sec).spdm = .keyed) := by
  refine ⟨by decide, by decide, by decide, by decide, by decide, by decide, rfl, rfl⟩

/-- The states of a TDI, a function that is one and functions that cannot be, with a context of its own and with none. -/
theorem witness_TdiStatesAndResets :
    Tab.find? on.dev.host.tdi 2 = none ∧ (∀ t ∈ [Tdi.unlocked, .locked, .run, .error], Tab.find? [(2, t)] 2 = some t) ∧ (0 = 0 ∨ 16 < 0) ∧ (16 : Nat) < 17 ∧
    (0x1 : DWord).getLsbD 0 = true ∧ Tab.find? (withTdi on 2 .locked).dev.host.tdi 2 ≠ none ∧
    (5, 2) ∈ [(5, 2)] ∧ (5 : Nat) < 65536 ∧ on.dev.contexts = [] ∧ (∀ p ∈ on.sec.ctxFn, p.2 ≠ 2) := by
  decide

/-! ### Accesses in flight -/

/-- An operation of one access in flight in the user weft, whose bolt stands on a device with page 0 of its ASID. -/
def op0 (k : OpKind) (sp : Space) (z : Nat) (dst : DstReg) (pa : Nat) : MemOp :=
  { (default : MemOp) with kind := k, space := sp, size := z, dst := dst, ref := uref, lanes := 1, order := .relaxed, rel := 0,
                           accs := [{ (default : Access) with lane := 0, pa := pa }] }
def acc0 (pa : Nat) : Access := { (default : Access) with lane := 0, pa := pa }
def opDev (o : MemOp) : Dev := { withTlb (devAt userWeft [userBolt] (ui (.nop h7))) 0 with ops := [o] }

def dueAt (o : MemOp) (a : Access) : Bool :=
  let d := opDev o
  d.ready userWeft o a && decide (o.rel = 0) && !o.acquires && !a.perf && (!a.seen && decide (a.lane < 64)) && o.ref == uref &&
    (match a.loc userWeft.bolt o.space with | some l => !d.ownedParked l | none => true) && (d.captureWaits userWeft.bolt a.va.toNat).isNone &&
    !d.isTwin userWeft

theorem due_of (o : MemOp) (a : Access) (ha : o.accs = [a]) (h : dueAt o a = true) : AccessDue (stAt (opDev o)) o a userWeft := by
  simp only [dueAt, Bool.and_eq_true, decide_eq_true_eq, Bool.not_eq_true', beq_iff_eq] at h
  obtain ⟨⟨⟨⟨⟨⟨⟨⟨h1, h2⟩, h3⟩, h4⟩, h5⟩, h6⟩, h7⟩, h8⟩, h9⟩ := h
  refine ⟨by simp [stAt, opDev], ha, ⟨h4, h5⟩, by rw [h6]; rfl, h1, fun l hl => ?_, ⟨rfl, rfl, h2, h3⟩, Option.isNone_iff_eq_none.mp h8, h9, fun b hb => ?_⟩
  · rw [hl] at h7
    exact (Bool.not_eq_true' _).mp h7
  · have : some userBolt = some b := hb
    cases this
    rfl

/-- Loads, stores and atomics in each space, at the ends of a line. -/
def dueOps : List (MemOp × Access) :=
  [(op0 .load .generic 4 (.vec 6 1) 60, acc0 60), (op0 .load .generic 16 (.vec 8 4) 48, acc0 48), (op0 .load .scratch 1 (.vec 6 1) 4095, acc0 4095),
   (op0 .load .const 8 (.vec 6 2) 8, acc0 8), (op0 .ecrd .counter 8 (.scal 6) 4095, acc0 4095), (op0 .store .generic 16 .none 48, acc0 48),
   (op0 .store .generic 1 .none 63, acc0 63), (op0 .store .scratch 4 .none 4092, acc0 4092), (op0 .ecadd .counter 8 .none 0, acc0 0),
   (op0 .ectrig .counter 8 .none 0, acc0 0), (op0 (.cctl .wb) .generic 1 .none 63, acc0 63), (op0 .atomic .generic 4 (.vec 6 1) 60, acc0 60),
   (op0 .atomic .generic 8 .none 56, acc0 56), (op0 .atomic .scratch 8 (.vec 6 2) 4088, acc0 4088)]

theorem witness_LoadsStoresAtomics : ∀ x ∈ dueOps, AccessDue (stAt (opDev x.1)) x.1 x.2 userWeft := fun x hx =>
  due_of x.1 x.2 (by revert x; simp [dueOps, op0, acc0]) (by revert x; decide +kernel)

theorem witness_LoadsStoresAtomics_places :
    let d := opDev (op0 .load .generic 4 (.vec 6 1) 60)
    d.poisoned 60 = false ∧ (d.l1? 0 (lineOf 60)).isNone = true ∧ (d.l1? (partnerOf 0) (lineOf 60)).isNone = true ∧ d.mem.marks = [] ∧
    d.mem.l2peer = [] ∧ (d.counter 4095).fn = 0 ∧ d.host.tdi = [] ∧ (acc0 8).va.toNat % 64 = 0 ∧ ((acc0 60).whereAt userWeft.asid).kind = 0 ∧ userWeft.sup = false ∧ d.owned (.line (lineOf 63)) = false ∧ d.mem.ccache = [] := by
  decide

/-- The line holds a copy whose last word is dirty. -/
theorem witness_LoadsComplete_copy :
    let l : L1Line := { (default : L1Line) with line := 0, valid := 0x80, dirty := 0x80 }
    let d := (opDev (op0 .load .generic 4 (.vec 6 1) 60)).modMem fun m => { m with l1 := [(0, [l])] }
    l.under ((acc0 60).whereAt 0) = true ∧ d.l1Words 0 + 8 ≤ l1Cap ∧ (opDev (op0 .load .const 8 (.vec 6 2) 8)).l1Words 0 + 8 ≤ l1Cap ∧
    d.l1? 0 (lineOf 60) = some l ∧ l.valid.getLsbD (60 % 64 / 8) = true ∧ l.dirty ≠ 0 ∧ ((d.l1 0).map fun x => x.line) = [0] := by
  decide

/-- A performed atomic whose value waits. -/
theorem witness_AtomicsPerformed_ends :
    let o : MemOp := { op0 .atomic .generic 4 (.vec 6 1) 60 with accs := [{ acc0 60 with perf := true }] }
    ((opDev o).ops.find? (·.id == o.id)).isSome = true ∧ o.accs = [{ acc0 60 with perf := true }] ∧ userWeft.ending = none ∧
    (opDev o).isTwin userWeft = false ∧ ((opDev { o with kind := .load }).ops.find? (·.id == 0)).map (·.kind) = some .load := by
  refine ⟨by decide, rfl, rfl, by decide, by decide⟩

/-- A fence with nothing before it, and one with an older access and a command that has not taken its lines. -/
theorem witness_FenceCompletes :
    let f : MemOp := { op0 .fence .generic 0 .none 0 with id := 5, accs := [], order := .ar, scope := .dev }
    (opDev f).ops.find? (·.id == 5) = some f ∧ (∀ p ∈ (opDev f).ops, p.id < 5 → p.accs = []) ∧ (opDev f).cmds = [] ∧
    (let d : Dev := { opDev f with ops := [op0 .store .generic 4 .none 0, f], cmds := [cmd0] }
     (∃ p ∈ d.ops, p.ref = f.ref ∧ p.id < f.id ∧ ∃ a ∈ p.accs, a.perf = false) ∧ ∃ x ∈ d.cmds, x.ref = f.ref ∧ x.seq < f.id ∧ x.desc = none ∧ x.status = .queued) := by
  refine ⟨rfl, by decide, rfl, ⟨op0 .store .generic 4 .none 0, by simp, rfl, by decide, acc0 0, by simp [op0, acc0], rfl⟩,
    cmd0, by simp, rfl, by decide, rfl, rfl⟩

/-- A launch checked in trap mode: its weft stores to a line that another weft of the launch wrote, unordered. -/
def raceHdr : KHdr := { userHdr with race := 1, handler := 0x100 }
def raceWeft : Weft :=
  { Weft.start raceHdr 0 0 5 7 [] 0 with
    bolt := 1, entries := [{ depth := 0, pc := 0x40, resume := 0, mask := 1, state := .ecw, aux := 0 }] }
def raceRun : PickRun := { ui (.nop h7) with ref := { uref with slot := 1 } }
def raceOp : MemOp := { op0 .store .generic 4 .none 0 with accs := [{ acc0 0 with rt := true }] }
def raceDev : Dev :=
  let d := (withTlb Dev.reset 0).putW uref raceWeft
  { d with
    ops := [raceOp], bolts := [userBolt],
    disp := { d.disp with launches := [{ (default : Launch) with serial := 1, ktag := 1 }], tags := { d.disp.tags with live := [1] } }
    mem := { d.mem with rmeta := [(0, BitVec.ofNat 64 (1 * 2 ^ 56 + 1 * 2 ^ 36 + 9 * 2 ^ 14))] } }
def raceRegs : Regs := { Regs.reset with racewin := 0x0000010000010000 }

theorem witness_RaceChecks :
    (raceDev.raceHit raceRegs raceWeft raceOp { acc0 0 with rt := true } (raceDev.raceIdOf raceWeft 0)).isSome = true ∧
    (raceDev.raceIdOf raceWeft 0).mode = 1 ∧ (raceWeft.crec.getD 2 0).toNat % 2 ^ 57 = 0 ∧ raceWeft.hdr.handler ≠ 0 ∧
    (∀ p ∈ raceDev.ops, p.ref = raceOp.ref → p.pick = raceOp.pick → p.id ≤ raceOp.id) ∧ (acc0 0).seen = false ∧
    raceDev.ready raceWeft raceOp { acc0 0 with rt := true } = true ∧ raceDev.captureWaits 1 0 = none ∧ raceDev.mem.owned = [] ∧
    (∀ j, j < 4 → (raceDev.sh (0 * 4 + j)).run = none) ∧ (∃ e ∈ raceWeft.entries, e.mask.getLsbD 0 = true) ∧ raceDev.twinOf userBolt = none ∧
    raceDev.rmetaOf raceRegs 0 < 2 ^ 64 := by
  decide +kernel

theorem test_race_unordered : ¬WriteOrdered (fun _ => true) { (default : RaceId) with ktag := 2, nwefts := 4 } 1 0 9 0 := by
  simp [WriteOrdered]
  decide

theorem test_race_same_weft : WriteOrdered (fun _ => true) { (default : RaceId) with ktag := 1, wser := 3, nwefts := 4 } 1 3 9 0 :=
  .inr (.inl ⟨rfl, rfl⟩)

/-! ### Hints, waits on counters, launches -/

def prefI : Instr := .pref { g0 with guard := { uni := false, neg := false, num := 7 } } false (.scal 2) (.imm 0)
def ecwI : Instr := .ecwait q7e { sync := true, scope := .dev, remote := false, fb := false } (.imm 32) (.scal 2)

/-- PREF whose page the translation buffer has, whose page is of a device, and whose address is beyond the space; ECWAIT met, not met, fenced,
and of another context. -/
theorem witness_CounterAndHintWords :
    let lane : PickRun := ui prefI 1
    issuesAt userWeft prefI lane = true ∧ (cxAt userWeft prefI lane).on = [0] ∧
    (match (withTlb (devAt userWeft [userBolt] lane) 0).lookup Regs.reset 0 7 0 .rd with | .ok p => p.kind == 0 | _ => false) = true ∧
    (match (withTlb (devAt userWeft [userBolt] lane) 3).lookup Regs.reset 0 7 0 .rd with | .ok p => p.kind == 3 | _ => false) = true ∧
    (match (withTlb (devAt userWeft [userBolt] lane) 0).lookup Regs.reset 0 7 0 .rd with
      | .ok p => !(withTlb (devAt userWeft [userBolt] lane) 0).l1Own 0 p &&
          ((withTlb (devAt userWeft [userBolt] lane) 0).modMem fun m => { m with
            l1 := [(0, [{ (default : L1Line) with asid := 7, valid := 1 }])] }).l1Own 0 p
      | _ => false) = true ∧
    (withTlb (devAt userWeft [userBolt] lane) 0).l1Words 0 + 8 ≤ l1Cap ∧
    (match Dev.reset.lookup Regs.reset 0 7 (2 ^ 57) .rd with | .fault _ => true | _ => false) = true ∧
    issuesAt userWeft ecwI (ui ecwI) = true ∧ (cxAt userWeft ecwI (ui ecwI)).onHalves = [0] ∧
    (let d (c : Counter) : Dev := { devAt userWeft [userBolt] (ui ecwI) with counters := [(0, c)] }
     (d ours).fencing uref = false ∧ ((d ours).counter 0).ctx = some userWeft.ctx ∧ (((d ours).counter 0).value - 0).msb = false ∧
       (((d ours).counter 0).value - 1).msb = true ∧ ((d Counter.reset).counter 0).ctx ≠ some userWeft.ctx ∧
       ((d { ours with fences := [1] }).counter 0).fences ≠ []) := by
  decide +kernel

/-- A record of 16 words from queue 1 of PF0, pending. -/
def record0 : List DWord := [0x40, 0x100000001, 0x1000000001, 0, 0, 0, 0, 0, 0, 0, 0, 0, 0, 0, 0, 0]
def launch0 : Launch := { (default : Launch) with serial := 1, queue := 1, record := record0, stage := .pending, fromHost := true, ctx := 5 }
def queueDev (q : Queue) (ls : List Launch) : Dev :=
  { onDev with disp := { onDev.disp with queues := [(1, q)], launches := ls } }

theorem witness_LaunchSteps :
    FnOn (stAt (queueDev Queue.reset [])) 0 ∧ ¬FnOn (stAt (queueDev Queue.reset [])) 1 ∧ Tab.find? (queueDev Queue.reset []).disp.queues 1 = some Queue.reset ∧
    Queue.reset.fn = 0 ∧ record0.length = 16 ∧ Queue.reset.dev = false ∧
    (queueDev Queue.reset [launch0]).nextRecord 1 = some launch0 ∧ (queueDev Queue.reset []).nextRecord 1 = none ∧
    (queueDev Queue.reset [launch0]).disp.launches.filter (·.queue == 1) = [] ++ launch0 :: [] ∧ State.reset.plat.scans = [] ∧
    (∀ q : Queue, q.gate = true ∧ q.credits = 0 → q.gate = true) :=
  ⟨⟨rfl, fun t h => (by cases h)⟩, fun h => (by cases h.1), rfl, rfl, rfl, rfl, rfl, rfl, rfl, rfl, fun _ h => h.1⟩

/-- Chains of the other queues: too short on 0, readable on 1,025 and 1,026, and a queue that is none; a queue that no QCONF has set; a record
from the host and one from a device; a waiting launch of a function whose TDI is locked. -/
theorem witness_LaunchSteps_queues :
    (([] : List DWord).length < 2 ∧ record0 ≠ [] ∧ 16 < 32 ∧ 1027 < 1028) ∧ Tab.getD Queue.reset onDev.disp.queues 7 = Queue.reset ∧ Queue.reset.fn = 0 ∧
    launch0.fromHost = true ∧ ({ launch0 with fromHost := false } : Launch).fromHost = false ∧ launch0.fn = 0 ∧ Tab.find? on.dev.host.tdi launch0.fn = none ∧
    Tab.find? (withTdi on 2 .locked).dev.host.tdi ({ launch0 with fn := 2 } : Launch).fn = some .locked := by
  exact ⟨by decide, rfl, rfl, rfl, rfl, rfl, rfl, by decide⟩

/-- Records whose predecessor runs with its overlap bit, and without. -/
theorem witness_LaunchSteps_overlap :
    let p : Launch := { launch0 with record := record0.set 10 8, stage := .running, serial := 2 }
    ([p].getLast? = some p ∧ (p.record.getD 10 0).getLsbD 3 = true ∧ p.stage = .running) ∧ (launch0.record.getD 10 0).getLsbD 3 = false := by
  exact ⟨⟨rfl, by decide, rfl⟩, by decide⟩

/-- A context record that reads valid and one that does not; a queue that waits. -/
def ctxDev (v : BitVec 8) (x : Tab (List TlbEntry)) : Dev :=
  { queueDev Queue.reset [launch0] with mem := { Dev.reset.mem with cells := Cells.set [] (64 * 5) v, tlb := x } }
def ctxRead (d : Dev) : Option Bool :=
  match d.readCtx Regs.reset 5 with
  | (.ok ws, _) => some ((ws.getD 0 0).getLsbD 0)
  | _ => none

theorem witness_LaunchSteps_context :
    ctxRead (ctxDev 1 [(dispCore, [area0])]) = some true ∧ ctxRead (ctxDev 0 [(dispCore, [area0])]) = some false ∧ ctxRead (ctxDev 0 []) = none ∧
    launch0.badRec = false ∧ ({ launch0 with record := record0.set 13 1 } : Launch).badRec = true := by
  decide +kernel

theorem witness_LaunchSteps_wait :
    let d (st : LStage) : Dev := queueDev Queue.reset [{ launch0 with stage := st }]
    ((d .waiting).disp.launches.find? fun l => l.queue == 1 && l.stage == .waiting).isSome = true ∧
    ((d .pending).disp.launches.find? fun l => l.queue == 1 && l.stage == .waiting).isNone = true ∧
    (let l : Launch := { launch0 with record := record0.set 4 0x8000000000000000 |>.set 5 1 }
     (l.record.getD 4 0).getLsbD 63 = true ∧ (((d .pending).counter ((l.record.getD 4 0).toNat % 4096)).value - l.record.getD 5 0).msb = true ∧
       (((d .pending).counter 0).value - 0).msb = false) := by
  decide

/-- Kernel headers: one good and small, one that no core holds, and one with a reserved word. -/
def hdrWords (vregs scratch : Nat) : List DWord :=
  [BitVec.ofNat 64 (0x7A3B * 2 ^ 48 + 1 * 2 ^ 44 + vregs * 2 ^ 19), BitVec.ofNat 64 (0x40 + scratch * 2 ^ 44 + 16 * 2 ^ 32), 0]
def headerOf (ws : List DWord) : KHdr := KHdr.ofWords (ws.getD 0 0) (ws.getD 1 0) (ws.getD 2 0)

theorem witness_LaunchSteps_header :
    badHdr ((hdrWords 8 0).getD 0 0) ((hdrWords 8 0).getD 1 0) 0 0 = false ∧ (headerOf (hdrWords 8 0)).noFit = false ∧
    badHdr ((hdrWords 0 0).getD 0 0) ((hdrWords 0 0).getD 1 0) 0 0 = true ∧ badHdr ((hdrWords 8 0).getD 0 0) ((hdrWords 8 0).getD 1 0) 0 1 = true ∧
    ({ launch0 with hdr := headerOf (hdrWords 8 0) } : Launch).badShape = false ∧
    ({ launch0 with hdr := headerOf (hdrWords 8 0), record := record0.set 1 0 } : Launch).badShape = true := by
  decide

/-- Tags: the first free one, and none free. -/
theorem witness_LaunchSteps_tags :
    State.reset.dev.disp.tags.next = some 1 ∧ ({ State.reset.dev.disp.tags with live := (List.range 255).map (· + 1) } : Tags).next = none ∧
    condHolds 0 true 5 5 = true ∧ (∀ l ∈ State.reset.dev.disp.launches, l.stage ≠ .tagwait) := by
  decide +kernel

/-! ### Picks and wefts -/

def fetched (pc : BitVec 32) : Fetched := { pc := pc, header := 0x4000020000000000, words := [lastNop] }
/-- A weft whose head pick has been fetched. -/
def ready0 : Weft :=
  { userWeft with
    entries := [{ depth := 0, pc := 0x40, resume := 0, mask := 0xFFFF, state := .run, aux := 0 }]
    fetch := some (fetched 0x40) }
def pickDev (ws : List (WRef × Weft)) : Dev := { ws.foldl (fun d p => d.putW p.1 p.2) Dev.reset with bolts := [userBolt] }
def slot1 : WRef := { uref with slot := 1 }
def young : Weft := { ready0 with age := 1, widx := 1 }

/-- A pick in progress; no weft eligible; two eligible of which the older wins; and the supervisor's. -/
theorem witness_PickArbitration :
    ((devAt userWeft [] (ui (.nop h7))).sh 0).run ≠ none ∧ (Dev.reset.sh 0).run = none ∧
    (∀ p ∈ Dev.reset.residents 0, Dev.reset.eligible p.1 p.2 = false) ∧
    (let d := pickDev [(uref, ready0), (slot1, young)]
     (d.sh 0).run = none ∧ (d.wefts.map fun p => p.1).Nodup ∧ d.eligible uref ready0 = true ∧ d.eligible slot1 young = true ∧
       ready0.prio ≤ 23 ∧ (d.residents 0).map (·.1) = [uref, slot1] ∧ young.starve < 256 ∧ ready0.prio = young.prio ∧ ready0.older young = true) ∧
    (let w : Weft := { ready0 with sup := true, bolt := 0 }
     (pickDev [(supRef 0, w)]).eligible (supRef 0) w = true) ∧
    (4095 < 4096 ∧ 4096 ≤ 4096) ∧ ready0.trapPend = [] ∧ ({ ready0 with trapFor := 1 } : Weft).trapFor ≠ 0 ∧ ready0.signalDue = 0 ∧ ready0.ending = none ∧
    ready0.serve = none ∧ ready0.head?.isSome = true ∧ ∃ x ∈ ready0.entries, x.state = .run := by
  refine ⟨by decide, by decide, by decide, ⟨by decide, by decide, by decide, by decide, by decide, by decide, by decide, by decide, by decide⟩, by decide,
    by decide, by decide, by decide, by decide, by decide, by decide, by decide, by decide⟩

/-- A head pick that has not been fetched: at a key whose page is absent, at a misaligned key, and at one whose words stand. -/
def fetchDev (cells : Cells 8) (pc : BitVec 32) : Dev × Weft :=
  let w : Weft := { ready0 with entries := [{ depth := 0, pc := pc, resume := 0, mask := 0xFFFF, state := .run, aux := 0 }], fetch := none }
  let d := withTlb (pickDev [(uref, w)]) 0
  ({ d with mem := { d.mem with cells := cells } }, w)

def fetchAnswer (x : Dev × Weft) (pc : BitVec 32) : Nat :=
  match x.1.fetchAt Regs.reset 0 x.2 pc with
  | (.ok _, _) => 0
  | (.trap _ sub _, _) => 1 + sub
  | (.hold, _) => 100

theorem witness_PickFetch :
    let good := fetchDev (Cells.putBytes (Cells.putBytes [] 0x40 8 0x4000000000000000) 0x48 8 lastNop.toNat) 0x40
    (good.2.ending = none ∧ good.1.isRunning uref = false ∧ good.2.trapPend = [] ∧ good.2.stopped = false ∧ good.2.headNow.isSome = true ∧
      good.2.fetch = none) ∧
    fetchAnswer good 0x40 = 0 ∧ fetchAnswer good 0x44 = 6 ∧ fetchAnswer good 0x18 = 6 ∧ fetchAnswer good 0x80 = 6 ∧ Dev.reset.weft? uref = none := by
  decide +kernel

/-- A weft with traps of two causes to deliver, one with a signal, and one with a WAITL that is due. -/
def trapped (h : Nat) : Weft :=
  { userWeft with
    hdr := { userHdr with handler := BitVec.ofNat 32 h }
    trapPend := [{ (default : LaneTrap) with lane := 3, cause := 0x19 }, { (default : LaneTrap) with lane := 5, cause := 0x18 }] }
def signalled (num : BitVec 8) : Weft := { ready0 with signals := [(2, num)], hdr := { userHdr with handler := 0x100 } }
def timed : Weft :=
  { userWeft with entries := [{ depth := 0, pc := 0x40, resume := 0, mask := 3, state := .wtl, aux := 0 }], waitPd := [(0, 2)] }

theorem witness_WeftSteps :
    (Dev.reset.coreWeight 0 ≤ Dev.reset.disp.budget ∧
      (let d : Dev := { pickDev [(uref, ready0), (slot1, young)] with disp := { Dev.reset.disp with budget := 0 } }
       d.disp.budget < d.coreWeight 0)) ∧
    ((pickDev [(uref, timed)]).weft? uref).map (·.stopped) = some false ∧ (∃ e ∈ timed.entries, e.state = .wtl ∧ e.aux = 0) ∧ timed.divert = [] ∧
    (∀ h ∈ [0, 0x100], (pickDev [(uref, trapped h)]).isRunning uref = false ∧ (trapped h).handler = none ∧ (trapped h).ending = none ∧
      (trapped h).trapFor = 0 ∧ (trapped h).stopped = false ∧
      (pickDev [(uref, trapped h)]).openChecks uref (trapped h) = false ∧ (pickDev [(uref, trapped h)]).boltHolds (trapped h) = false ∧
      (trapped h).trapPend ≠ []) ∧
    ((signalled 0).signalDue ≠ 0 ∧ (signalled 9).signalDue ≠ 0 ∧ (signalled 9).stopped = false ∧ (signalled 9).ending = none ∧ (signalled 9).trapPend = [] ∧ (signalled 9).hdr.handler ≠ 0) ∧
    (trapped 0x100).hdr.handler ≠ 0 ∧ (trapped 0).hdr.handler = 0 := by
  decide

/-- The supervisor weft may start: its core is not frozen, its slot is empty, and the ring holds a record or none. -/
theorem witness_WeftSteps_supervisor :
    Dev.reset.weft? (supRef 0) = none ∧ (Dev.reset.core 0).frozen = false ∧
    (match (blockState []).dev.readVa Regs.reset 0 (blockState []).dev.space0 (Regs.reset.area 0 + 8) 8 false with | (.ok c, d) => c == 0 && (d.core 0).nextSeq == 0 | _ => false) = true ∧
    State.reset.regs.sventry.toNat % 2 ^ 57 = 0 ∧ ({ Regs.reset with sventry := 0x40 } : Regs).sventry.toNat % 2 ^ 57 ≠ 0 ∧
    (match (blockState []).dev.readWords Regs.reset 0 (blockState []).dev.space0 false 0x40 3 with | (.ok _, _) => true | _ => false) = true := by
  decide +kernel

/-- A weft with no live thread: of a bolt with another left, of the last bolt of its launch and of one before it; and one with a live thread. -/
def ended : Weft := { userWeft with entries := [] }
def endDev (left : Nat) (l : Launch) : Dev :=
  let d := (pickDev [(uref, ended)])
  { d with bolts := [{ userBolt with left := left }], disp := { d.disp with launches := [l] } }

theorem witness_WeftSteps_finish :
    (endDev 2 launch0).finishes uref ended = true ∧ (endDev 1 launch0).finishes uref ended = true ∧ (pickDev [(uref, ready0)]).finishes uref ready0 = false ∧
    ((endDev 1 launch0).disp.launches.find? (·.serial == 1)).isSome = true ∧ ({ launch0 with total := 1 } : Launch).retired + 1 = 1 ∧
    ({ launch0 with total := 2 } : Launch).retired + 1 ≠ 2 ∧ launch0.fromHost = true ∧ (launch0.record.getD 6 0).getLsbD 63 = false ∧ launch0.ktag = 0 := by
  decide

/-! ### Placement, the platform, the bus -/

/-- A launch of one bolt of a small kernel, in dispatch. -/
def smallLaunch : Launch := { launch0 with stage := .dispatch, total := 1, hdr := headerOf (hdrWords 8 0), order := 3 }
def placeState (bs : List Bolt) : State :=
  stAt { queueDev { Queue.reset with level := 2 } [smallLaunch] with bolts := bs }

theorem witness_PlacementSteps :
    let s := placeState []
    s.dev.disp.holds = [] ∧ (s.dev.batches 2).length = 1 ∧ ((s.dev.batches 2).all fun u => (s.findAll [] u.items s.dev.disp.lastPair []).isSome) = true ∧
    ((s.dev.batches 2).all fun u => !s.dev.recHeld s.regs u) = true ∧ ((s.dev.batches 0).isEmpty && (s.dev.batches 1).isEmpty) = true ∧ smallLaunch.twin = false ∧ smallLaunch.cor = false := by
  decide +kernel

/-- A pair that takes the kernel, and fresh and saved bolts that are placed. -/
theorem witness_PlacementSteps_place :
    (admitPair (fun _ => Load.empty 0) smallLaunch.hdr 128 0 fun _ => true).isSome = true ∧ smallLaunch.hdr.nwefts ≤ 64 ∧ 0 < smallLaunch.hdr.w ∧
    smallLaunch.hdr.w ≤ 64 ∧ (placeState []).dev.wefts = [] ∧ (3 : Nat) < 4 ∧
    (let b : Bolt := { userBolt with st := .swapped, saved := [userWeft] }
     b.id ≠ 0 ∧ (placeState [b]).dev.bolt? b.id = some b ∧ (∀ x ∈ b.saved, x.widx < 1) ∧ (b.saved.map fun w => w.widx).Nodup ∧ b.saved.length = 1) := by
  refine ⟨by decide +kernel, by decide, by decide, by decide, by decide, by decide, by decide, rfl, by decide, by decide, rfl⟩

/-- A bolt that can leave, with a word of its weft in flight and without. -/
theorem witness_PlacementSteps_swap :
    let b : Bolt := { userBolt with st := .swapping }
    let d : Dev := { pickDev [(uref, ready0)] with bolts := [b] }
    d.leaving b = [b] ∧ d.bolt? 1 = some b ∧ d.quiet b = true ∧ d.boltParked b = false ∧ ({ d with ops := [op0 .load .generic 4 .none 0] } : Dev).quiet b = false := by
  exact ⟨rfl, rfl, by decide, by decide, by decide⟩

/-- Bolts of one cooperative launch leave together; and a launch that has no place, with a bolt that leaves for it. -/
theorem witness_PlacementSteps_hold :
    (let b : Bolt := { userBolt with st := .swapping }
     let c : Bolt := { b with id := 2, idx := 1 }
     let l : Launch := { launch0 with record := record0.set 10 1 }
     ({ pickDev [(uref, ready0)] with bolts := [b, c], disp := { Dev.reset.disp with launches := [l] } } : Dev).leaving b = [b, c]) ∧
    (let s := placeState [{ userBolt with id := 9, st := .swapping }]
     let t : State := { s with dev := { s.dev with disp := { s.dev.disp with removed := List.range 512, victims := [(1, 9)] } } }
     t.unplaceable 1 = true ∧ t.holdLasts 1 = true ∧ (1 : Nat) ∉ t.dev.disp.holds ∧ s.unplaceable 1 = false) := by
  refine ⟨by decide, by decide +kernel⟩

/-- Two and three copies whose interval is over. -/
def atBank (id copy : Nat) (sig : BitVec 64) : Bolt :=
  { userBolt with id := id, copy := copy, sig := sig, atEnd := true, st := .resident, left := 0, bank := some default }
def copyDev (bs : List Bolt) : Dev := { Dev.reset with bolts := bs, disp := { Dev.reset.disp with launches := [{ launch0 with ctx := 5 }] } }

theorem witness_PlacementSteps_twins :
    let a := atBank 1 0 7
    let b := atBank 2 1 7
    let c := atBank 3 2 9
    let e := atBank 2 1 8
    (copyDev [a, b]).copiesOf a = [a, b] ∧ (copyDev [a, b, c]).copiesOf a = [a, b, c] ∧ a.sig = b.sig ∧ a.sig ≠ e.sig ∧ e.sig ≠ c.sig ∧ a.sig ≠ c.sig ∧
    (copyDev [a, b]).mem.l2peer = [] ∧ (copyDev [a, b]).intervalOver [a, b] = true ∧ (copyDev [a, b, c]).intervalOver [a, b, c] = true ∧ a.bank.isSome = true ∧
    ((copyDev [a]).launchOf? 1).isSome = true ∧ (Dev.reset.copiesOf a).length < 2 := by
  exact ⟨rfl, rfl, by decide, by decide, by decide, by decide, rfl, by decide, by decide, rfl, by decide, by decide⟩

/-- A bank that is due, and the power controller with its setpoint on and off. -/
theorem witness_PlacementSteps_bank :
    let b : Bolt := { userBolt with bankDue := true, barDue := false }
    let d : Dev := { pickDev [(uref, ready0)] with bolts := [b] }
    d.bolt? 1 = some b ∧ b.st = .resident ∧ d.twinOf b = none ∧ d.quiet b = true ∧ d.enginesBusy b = false ∧
    (∀ p ∈ d.boltWefts 1, p.2.flags = []) ∧ (∀ p ∈ d.wefts, p.2.ending = none) ∧
    (let r : Regs := { Regs.reset with power := 0x80000000 + 1000 }
     r.power.getLsbD 31 = true ∧ min 11500 (r.power.extractLsb' 0 16).toNat = 1000 ∧ 1000 * 985 ≤ 1015 * 1000 ∧ 1015 * 1000 < 1000 * 1016) ∧
    Regs.reset.power.getLsbD 31 = false ∧ d.boltLevel b = 23 := by
  exact ⟨rfl, rfl, by decide, by decide, by decide, by decide, by decide, by decide, by decide, by decide⟩

/-- Temperatures at each limit of the thermal evaluation, in eighths of a degree. -/
theorem witness_PlatformSteps :
    (∀ t ∈ [(784 : Int), 800, 847, 848, 863, 864, 943, 944], [t].foldl max t = t) ∧ State.reset.plat.tripped = false ∧ State.reset.plat.warned = false ∧
    State.reset.dev.host.waiting.length < 256 ∧ State.reset.plat.duty = 16 ∧ (0 : Nat) ∉ State.reset.dev.disp.scanQueue ∧
    (let d : Dev := { pickDev [(uref, ready0)] with disp := { Dev.reset.disp with scanQueue := [0] } }
     (0 : Nat) ∈ d.disp.scanQueue ∧ d.pairIdle 0 = false) ∧ State.reset.dev.pairIdle 0 = true ∧ State.reset.plat.scans.length < 8 ∧
    (∃ x ∈ [({ pair := 3, queued := true } : Scan)], x.pair = 3) ∧ State.reset.plat.spares = 512 :: (List.range 31).map (· + 513) := by
  refine ⟨by decide, rfl, rfl, by decide, by decide, by decide, by decide, by decide, by decide, by decide, by decide⟩

theorem witness_PlatformSteps_scan : State.reset.scanNext 0 = true := by decide +kernel

/-- A patrol read with nothing wrong, with 4 symbols wrong, and with 5. -/
theorem witness_PlatformSteps_patrol :
    ([1, 2, 3, 4] : List Nat).Nodup ∧ (∀ e ∈ [1, 2, 3, 4], e < 72) ∧ 2 * [1, 2, 3, 4].length + 0 ≤ 8 ∧ 8 < 2 * [1, 2, 3, 4, 5].length + 0 ∧ 11 < 12 ∧
    64 * (hbmBytes / 64 - 1) < hbmBytes ∧ hbmBytes ≤ 64 * (hbmBytes / 64) ∧ (bloomBits 0 5) ≠ [] ∧ State.reset.plat.threshold > 1 := by
  decide

/-- Bus accesses that end at the top of HBM and one byte past it; lines held and not. -/
theorem witness_BusAndMigrationSteps :
    (hbmBytes - 4 + 4 ≤ hbmBytes ∧ hbmBytes < hbmBytes - 4 + 5) ∧ State.reset.dev.mem.marks = [] ∧ (∀ l ∈ linesOf 0 4, State.reset.regs.inCarve (64 * l) = false) ∧
    (let l : L1Line := { (default : L1Line) with line := 9, valid := 1, dirty := 1 }
     let d := Dev.reset.modMem fun m => { m with l1 := [(0, [l])] }
     d.l1? 0 9 = some l ∧ ((d.l1 0).map fun x => x.line).Nodup) ∧ Dev.reset.l1? 0 9 = none ∧ (3 * 2 ^ 58) / 2 ^ 58 = 3 ∧ Dev.reset.mem.poison = [] := by
  refine ⟨by decide, rfl, by decide, ⟨rfl, by decide⟩, rfl, by decide, rfl⟩

/-- A migration of page 1 of the supervisor's address space, waiting; to a frame that it may have, and to one in use by no HBM. -/
def mig0 (stage : MigStage) (bits : List Nat) : Mig :=
  { (default : Mig) with id := 1, record := pkey 1 0, va := 0x1000, asid := 0, newTarget := 0, newFrame := 64, stage := stage, leafAt := 0x4008, leaf := 0x5003,
                         size := 4096, oldPa := 0x5000, newPa := 64 * 4096, rounds := 1, bits := bits }
def migState (g : Mig) : State := stAt (Dev.reset.modMem fun m => { m with cells := mapped, migs := [g] })

theorem witness_BusAndMigrationSteps_migrate :
    (migState (mig0 .waiting [])).dev.mem.migs.find? (fun g => g.stage == .waiting) = some (mig0 .waiting []) ∧
    (match (migState (mig0 .waiting [])).dev.walk Regs.reset (Dev.reset.spaceOf 0) 0x1000 false with
      | .ok x vpn pages leafAt => leafAt == 0x4008 && !migBad Regs.reset (mig0 .waiting []) x vpn pages &&
          migBad Regs.reset { mig0 .waiting [] with newTarget := 1 } x vpn pages
      | _ => false) = true ∧
    (let g := mig0 .round [0, 1, 2, 3, 63]
     4 < g.bits.length ∧ g.rounds < 8 ∧ g.oldPa + g.size ≤ g.newPa ∧ (∀ k ∈ g.bits, 64 * k + 64 ≤ g.size) ∧ g.newPa % 64 = 0) ∧
    (let g := mig0 .round []
     g.bits.length ≤ 4 ∧ pkey 1 0 ≤ g.record ∧ g.leafAt + 8 ≤ hbmBytes ∧ (migState g).dev.mem.l1 = [] ∧
       BitVec.ofNat 64 (Cells.bytes (migState g).dev.mem.cells g.leafAt 8) = g.leaf ∧
       (migState g).dev.mem.migs.find? (fun g => g.id == 1 && g.stage != .waiting) = some g) ∧
    (let g := mig0 .frozen [0, 63]
     (migState g).dev.mem.migs.find? (fun g => g.id == 1 && g.stage != .waiting) = some g ∧ (migState g).dev.fabric.colls = [] ∧
       (migState g).dev.disp.launches.length = 0 ∧ (∀ k ∈ g.bits, 64 * k + 64 ≤ g.size) ∧ g.oldPa + g.size ≤ g.newPa ∧ g.leafAt + 8 ≤ g.newPa ∧
       g.newPa + g.size ≤ g.record) := by
  decide +kernel

/-- The source's leaf with a reserved target, absent, and frozen by another migration. -/
theorem witness_BusAndMigrationSteps_source :
    let d (e : Nat) : Dev := (migState (mig0 .waiting [])).dev.modMem fun m => { m with cells := Cells.putBytes mapped 0x4008 8 e }
    (rawLeaf Regs.reset (d 0x0050000000005003) 0x1000 5 0).map pteTarget = some 5 ∧ rawLeaf Regs.reset (d 0) 0x1000 5 0 = none ∧
    (match (d 0x0050000000005003).walk Regs.reset (Dev.reset.spaceOf 0) 0x1000 false with | .fault _ => true | _ => false) = true ∧
    (match (d 0).walk Regs.reset (Dev.reset.spaceOf 0) 0x1000 false with | .fault _ => true | _ => false) = true ∧
    (match (frozen (d 0)).walk Regs.reset (Dev.reset.spaceOf 0) 0x1000 false with | .hold => true | _ => false) = true := by
  decide +kernel

/-! ### The step, reset -/

/-- An agenda with a shuttle's word that decodes, one that does not, and a literal; a withheld cycle; and an empty agenda. -/
theorem witness_StepRunsDecodedWord :
    (match decodeWord lastNop none with | .ok _ => true | .error _ => false) = true ∧ (match decodeWord 0x1FF0000000000000 none with | .ok _ => true | .error _ => false) = false ∧
    (let r : PickRun := { ui (.nop h7) with words := encode (.iadd { h7 with lit := some 5 } s32 (.vec 1) (.vec 2) .lit) ++ [lastNop], idx := 1 }
     r.atLiteral = true ∧ (ui (.nop h7)).atLiteral = false) ∧ State.reset.plat.tripped = false ∧ (0 : Nat) % 16 < State.reset.plat.duty ∧
    State.reset.agenda = [] := by
  decide

theorem witness_StepKeepsRegisterLimits : regsOk State.reset.regs = true ∧ goesOn (step State.reset) = true := by
  decide +kernel

/-- Well-formed words of every family. -/
theorem witness_EncodingRoundTrip :
    (∀ i ∈ arithWords ++ bitWords ++ floatWords, i.isWord = true ∧ WellFormed i = true) ∧
    (∀ i ∈ plainWords ++ memWords ++ matrixWords, i.isWord = true ∧ WellFormed i = true) := by decide +kernel

/-! ### Worked examples of the spec, one step each -/

/-- Vector register `n` of lane `l` after the user weft, of 16 threads or of 32, with the registers `rs` of lanes, has issued `i`. -/
def wide32 : Weft := { userWeft with hdr := { userHdr with w := 32, threads := 32 } }
def runOn (w : Weft) (i : Instr) (rs : List (Nat × Nat × BitVec 32)) : Weft :=
  let w := rs.foldl (fun w r => w.setV r.1 r.2.1 r.2.2) w
  ((after (exec i (stAt (devAt w [userBolt] (ui i (lanesMask w)))))).dev.weft? uref).getD w
where
  lanesMask (w : Weft) : Lanes := w.full

def gives (i : Instr) (rs : List (Nat × BitVec 32)) (n : Nat) : Nat := ((runOn userWeft i (rs.map fun r => (0, r.1, r.2))).v 0 n).toNat

def z32 (sat : Bool) : IntMod := { ty := .z32, sat := sat }

/-- IADD, ISUB and IMULH (the example after R414). -/
theorem test_arith_examples :
    gives (.iadd h7e (z32 true) (.vec 2) (.vec 1) (.imm 64)) [(1, 0xFFFFFFF0)] 2 = 0xFFFFFFFF ∧
    gives (.iadd h7e (z32 false) (.vec 2) (.vec 1) (.imm 64)) [(1, 0xFFFFFFF0)] 2 = 0x10 ∧
    gives (.isub h7e (z32 true) (.vec 2) (.imm 37) (.vec 3)) [(3, 9)] 2 = 0 ∧
    gives (.imulh h7e .s32 (.vec 2) (.vec 1) (.vec 3)) [(1, 0x80000000), (3, 2)] 2 = 0xFFFFFFFF ∧
    gives (.imulh h7e .z32 (.vec 2) (.vec 1) (.vec 3)) [(1, 0x80000000), (3, 2)] 2 = 1 := by decide +kernel

/-- BFX (the example after R381) and the shifts (the example after R430). -/
theorem test_bit_examples :
    gives (.bfx h7e .z32 (.vec 3) (.vec 1) (.imm 40) (.imm 36)) [(1, 0xA700)] 3 = 7 ∧
    gives (.bfx h7e .s32 (.vec 3) (.vec 1) (.imm 40) (.imm 36)) [(1, 0x0A00)] 3 = 0xFFFFFFFA ∧
    gives (.shr h7e { ty := .z32, clamp := false } (.vec 2) (.vec 1) (.imm 65)) [(1, 0x80000000)] 2 = 0x40000000 ∧
    gives (.shr h7e { ty := .z32, clamp := true } (.vec 2) (.vec 1) (.imm 65)) [(1, 0x80000000)] 2 = 0 ∧
    gives (.sar h7e { ty := .s32, clamp := true } (.vec 2) (.vec 1) (.imm 31)) [(1, 0x80000000)] 2 = 0xFFFFFFFF ∧
    gives (.sar h7e { ty := .s32, clamp := false } (.vec 2) (.vec 1) (.imm 31)) [(1, 0x80000000)] 2 = 0xFFFFFFFF := by decide +kernel

/-- PLOP's tables, with a = p1, b = p2 and d = p0 (the example after R431). -/
def plopGives (table : BitVec 8) (a b d : Bool) : Bool :=
  let w := ((userWeft.setP 0 1 a).setP 0 2 b).setP 0 0 d
  let i : Instr := .plop h7e table (.p 0) (.p 1) (.p 2)
  (((after (exec i (stAt (devAt w [userBolt] (ui i 1))))).dev.weft? uref).getD w).p 0 0

theorem test_plop_examples :
    ([true, false].all fun a => [true, false].all fun b => [true, false].all fun d => plopGives 0xC0 a b d == (a && b) &&
      plopGives 0xFC a b d == (a || b) && plopGives 0x5A a b d == (d ^^ a)) = true := by
  decide +kernel

/-- SWIZB (the example after R433) and VACS2 (the example after R435). -/
theorem test_swizb_examples :
    let f (sel : BitVec 32) : Nat := gives (.swizb h7e false (.vec 4) (.vec 1) (.vec 2) (.vec 3)) [(1, 0x44332211), (2, 0x88776655), (3, sel)] 4
    f 0x3210 = 0x44332211 ∧ f 0x4567 = 0x55667788 ∧ f 0xAA70 = 0xFFFF8811 ∧ f 0x9870 = 0xFF008811 := by decide +kernel

theorem test_vacs2_example :
    let w := runOn userWeft (.vacs2 h7e { uns := true, sat := false } 0 (.vec 6) (.vec 2) (.vec 3) (.vec 4))
      [(0, 2, 0x0014000A), (0, 3, 0x000C000F), (0, 4, 0x00010002)]
    w.v 0 6 = 0x000D000C ∧ w.p 0 0 = false ∧ w.p 0 1 = true := by decide +kernel

/-- SHFL.up over all 32 lanes and in segments of 16 (the example after R437). -/
theorem test_shfl_example :
    let rs := (List.range 32).map fun l => (l, 4, BitVec.ofNat 32 (l + 1))
    let w := runOn wide32 (.shfl h7e .up (.vec 5) (.vec 4) (.imm 34) (.imm 32)) rs
    let x := runOn wide32 (.shfl h7e .up (.vec 5) (.vec 4) (.imm 34) (.imm 48)) rs
    w.v 0 5 = 1 ∧ w.v 1 5 = 2 ∧ w.v 2 5 = 1 ∧ w.v 31 5 = 30 ∧ x.v 16 5 = 17 ∧ x.v 17 5 = 18 ∧ x.v 18 5 = 17 := by decide +kernel

/-- MATES over groups of lanes by lane mod 3 (the example after R424). -/
theorem test_mates_example :
    let rs := (List.range 32).map fun l => (l, 1, BitVec.ofNat 32 (l % 3))
    let w := runOn wide32 (.mates h7e false none (.vec 2) (.vec 1)) rs
    w.v 0 2 = 0x003802C0 ∧ w.v 4 2 = 0x003022C1 ∧ w.v 29 2 = 0x00312282 := by decide +kernel

/-- FFMA (the example after R401) and CVT (the example after R391). -/
theorem test_float_examples :
    gives (.ffma h7e { rnd := .rz, sat := false, neg := false, abs := false } (.vec 4) (.vec 5) (.vec 6) (.vec 7))
      [(5, 0x3F800800), (6, 0x3F800800), (7, 0xBF800000)] 4 = 0x3A000400 ∧
    (let w := runOn userWeft (.cvt h7e { dty := .b8 2, sty := .f32, rnd := .rn, sat := false, uns := false, ext := true } (.vec 4) (.vec 5))
       [(0, 5, 0x447A0000)]
     w.v 0 4 = 0x68 ∧ Cells.get w.fpst 0 = 1) ∧
    gives (.cvt h7e { dty := .s8, sty := .f32, rnd := .rz, sat := false, uns := false, ext := false } (.vec 4) (.vec 5)) [(5, 0x43965999)] 4 = 0x7F := by
  decide +kernel

/-- A chunk of MMA that two FFMA would round away (the example after R155). -/
theorem test_chunk_example :
    chunkSum 0x3F800000 (List.replicate 2 (mulNum (fmtBf16.dec 0x3980) (fmtBf16.dec 0x3980)).1) = 0x3F800001 := by
  decide +kernel

/-- The sum of 1, 2 and 4 reweighted from four members to three (the example after R336). -/
theorem test_reweight_example : collElem 0 0 3 4 true (fun _ => 0) [0x3F800000, 0x40000000, 0x40800000] = 0x41155555 := by decide +kernel

/-- The kernel header of the example after R90, and its charge (the example after R36). -/
theorem test_header_example :
    let h := KHdr.ofWords 0x7A3B24AC4300C080 0x00A0040000000020 0x300
    h.w = 32 ∧ h.c16 = false ∧ h.race = 1 ∧ h.twin = false ∧ h.bank = true ∧ h.eclass = 3 ∧ h.depth = 2 ∧ h.vregs = 96 ∧ h.sregs = 12 ∧ h.acc = 8 ∧
    h.scratch = 163840 ∧ h.threads = 1024 ∧ h.entry = 0x20 ∧ h.handler = 0x300 ∧ h.regCharge = 3328 ∧ h.scratchKiB = 160 ∧ h.nwefts = 32 ∧
    badHdr 0x7A3B24AC4300C080 0x00A0040000000020 0x300 0 = false := by decide

/-- The trigger of the example after R310: armed at 100 for 8 more, not met at 105, fired at 109. -/
def trig : State := { on with dev := { onDev with counters := [(17, { Counter.reset with value := 100 })] } }
theorem test_trigger_example :
    let s := after (exec (.triggerControlWrite 0 17 0x8802800100000008) trig)
    let t := after (exec (.counterAddWrite 0 17 5) s)
    let u := after (exec (.counterAddWrite 0 17 4) t)
    (s.dev.counter 17).tthr = 108 ∧ (t.dev.counter 17).value = 105 ∧ (t.dev.counter 17).arm = true ∧ (u.dev.counter 17).value = 109 ∧
    (u.dev.counter 17).arm = false ∧ (u.dev.counter 17).fired = true ∧ (u.dev.counter 40).value = 1 := by decide +kernel

/-- AES-256 on the block of FIPS 197, appendix C.3. -/
theorem test_aes256 :
    aes256 0x000102030405060708090A0B0C0D0E0F101112131415161718191A1B1C1D1E1F 0x00112233445566778899AABBCCDDEEFF = 0x8EA2B7CA516745BFEAFC49904B496089 := by
  decide +kernel

/-- SHA-256 of "abc" (FIPS 180-4's own example). -/
theorem test_sha256 :
    (sha256 [0x61, 0x62, 0x63]).foldl (fun n b => 256 * n + b) 0 = 0xBA7816BF8F01CFEA414140DE5DAE2223B00361A396177A9CB410FF61F20015AD := by
  decide +kernel

/-- A trigger whose vector is masked leaves it pending, and the write that opens the vector sends it (R309). -/
theorem test_masked_vector :
    let c : Counter := { Counter.reset with arm := true, value := 5, tthr := 5, target := 7 }
    let s : State := { on with dev := { onDev with counters := [(3, c)] } }
    let t := after (exec (.counterAddWrite 0 3 0) s)
    let u := after (exec (.registerWrite 0 (.msixVector 7) 4 0) t)
    t.dev.host.out = [] ∧ t.dev.host.msixPend = [(0, 7)] ∧ u.dev.host.out = [.msix 0 7] ∧ u.dev.host.msixPend = [] := by decide +kernel

/-- A host reads VALUE and TTHR of a slot, and zero at ADD and by a read of another size (R4, R307). -/
theorem test_slot_reads :
    let s : State := { on with dev := { onDev with counters := [(3, { Counter.reset with value := 5, tthr := 9 })] } }
    s.hostRead 0 192 8 = 5 ∧ s.hostRead 0 208 8 = 9 ∧ s.hostRead 0 200 8 = 0 ∧ s.hostRead 0 192 4 = 0 := by decide

/-- TRAP 42 raises TRAPI with subcode 42 for each thread (the example after R459): without a handler they park at the next pick. -/
theorem test_trap_example :
    let w := runOn userWeft (.trap h7e (.imm 74)) []
    (w.parks.map fun p => (p.cause, p.sub, p.lanes)) = [(0x19, 42, 0xFFFF)] ∧
    (w.entries.map fun e => (e.pc, e.state)) = [(0x30, .park)] := by decide +kernel

/-- A scratch byte 0x80 loads sign-extended and zero-extended (R161). -/
theorem test_load_extends :
    let v (sgn : Bool) : Option (BitVec 32) :=
      let d := opDev { op0 .load .scratch 1 (.vec 6 1) 5 with sgn := sgn }
      ((after (exec (.loadComplete 0 1) (stAt { d with bolts := [{ userBolt with scratch := [(5, 0x80)] }] }))).dev.weft? uref).map fun w => w.v 0 6
    v true = some 0xFFFFFF80 ∧ v false = some 0x80 := by decide +kernel

/-- A user weft that enters its handler: lane 3 runs it at the handler's entry, and $trapcause and $trapmask say why (R265). -/
theorem test_handler_entry :
    let s := after (exec (.userTrapDelivery uref) (stAt (pickDev [(uref, trapped 0x100)])))
    (s.dev.weft? uref).map (fun w => (w.trapcause, w.trapmask, w.handler.map fun h => (h.lane, h.entry.pc))) = some (0x19, 8, some (3, 0x100)) := by
  decide +kernel

end Sys2Proof.Tests
end

section
/-! Proofs of the family of issue order and divergence (spec/03): the subroutine words. -/

namespace Sys2Proof.Proofs.Subroutines

open Sys2Proof.Machine Sys2Proof.Safety Sys2Proof.Laws

/-! ### Offsets in the kernel -/

theorem wordPc_eq_wordOffset (c : Ctx) : c.wordPc = wordOffset c := by
  simp [Ctx.wordPc, wordOffset, BitVec.ofNat_add]

theorem nextPc_eq_nextOffset (c : Ctx) : c.nextPc = nextOffset c := by
  simp [Ctx.nextPc, nextOffset, BitVec.ofNat_add]

/-- The sum of 32-bit offsets is that of the integers, reduced once. -/
theorem branchTo_eq_branchOffset (c : Ctx) (off : BitVec 30) : c.branchTo off = branchOffset c off := by
  rw [Ctx.branchTo, wordPc_eq_wordOffset, branchOffset, BitVec.ofInt_add, BitVec.ofInt_mul, BitVec.ofInt_natCast, BitVec.ofNat_toNat,
    BitVec.setWidth_eq, BitVec.mul_comm]
  rfl

theorem goto_eq_goesTo (c : Ctx) (l : Nat) (pc : BitVec 32) : c.goto l pc = goesTo c l pc := rfl

/-! ### One vector register written alike for some lanes -/

/-- The weft after `x` is written to register `n` of each lane of `ls`. -/
def setLanes (w : Weft) (ls : List Nat) (n : Nat) (x : BitVec 32) : Weft := ls.foldl (fun w l => w.setV l n x) w

@[simp] theorem setLanes_cons (w : Weft) (l : Nat) (ls : List Nat) (n : Nat) (x : BitVec 32) :
    setLanes w (l :: ls) n x = setLanes (w.setV l n x) ls n x := rfl

theorem setLanes_get (w : Weft) (ls : List Nat) (n : Nat) (x : BitVec 32) (k : Nat) :
    Cells.get (setLanes w ls n x).vregs k = if ∃ l ∈ ls, k = vecKey (l, n) then x else Cells.get w.vregs k := by
  induction ls generalizing w with
  | nil => simp [setLanes]
  | cons l ls ih =>
    rw [setLanes_cons, ih, setV_vregs, Cells.get_set]
    by_cases hk : k = vecKey (l, n) <;> simp [hk]

theorem setLanes_v {w : Weft} {ls : List Nat} {l : Nat} (h : l ∈ ls) (n : Nat) (x : BitVec 32) : (setLanes w ls n x).v l n = x := by
  rw [v_eq, setLanes_get, if_pos ⟨l, h, rfl⟩]

theorem setLanes_get_other {w : Weft} {ls : List Nat} {n k : Nat} (h : ∀ l ∈ ls, k ≠ vecKey (l, n)) (x : BitVec 32) :
    Cells.get (setLanes w ls n x).vregs k = Cells.get w.vregs k := by
  rw [setLanes_get, if_neg]
  rintro ⟨l, hl, hk⟩
  exact h l hl hk

theorem setLanes_badWords {w : Weft} {ls : List Nat} {n k : Nat} {x : BitVec 32} (h : k ∈ (setLanes w ls n x).badWords) : k ∈ w.badWords := by
  induction ls generalizing w with
  | nil => exact h
  | cons l ls ih => exact (List.mem_filter.mp (ih h)).1

theorem setLanes_rest (w : Weft) (ls : List Nat) (n : Nat) (x : BitVec 32) :
    ({ setLanes w ls n x with vregs := w.vregs, badWords := w.badWords } : Weft) = w := by
  induction ls generalizing w with
  | nil => rfl
  | cons l ls ih =>
    exact congrArg (fun v : Weft => { v with vregs := w.vregs, badWords := w.badWords }) (ih (w.setV l n x))

/-! ### The words that issue -/

/-- A call below the header's depth: the return offset stands above the lanes' registers, and the lanes go one deeper (R60). -/
theorem callWord_below {s : State} {i : Instr} {c : Ctx} (h : Issues s i c) (hd : c.run.depth < c.w.hdr.depth)
    (target : Ctx → Nat → BitVec 32) :
    callWord i s target = .next (settleWord i s c
      (.done (s.dev.putW c.run.ref (setLanes c.w c.on (c.w.hdr.vregs + c.run.depth) (nextOffset c))) 1 []
        (c.on.map fun l => { goesTo c l (target c l) with depth := c.run.depth + 1 }))) := by
  rw [callWord, runWord_issues h, if_neg (Nat.not_le.mpr hd), nextPc_eq_nextOffset]
  rfl

/-- A call at the header's depth traps STACK and leaves the device as it is (R60). -/
theorem callWord_at_depth {s : State} {i : Instr} {c : Ctx} (h : Issues s i c) (hd : c.w.hdr.depth ≤ c.run.depth)
    (target : Ctx → Nat → BitVec 32) :
    callWord i s target = .next (settleWord i s c (.done s.dev 1 (trapsAt c.on 0x04 0 0 .here) [])) := by
  rw [callWord, runWord_issues h, if_pos hd]

theorem execRet_below {s : State} {h : Hdr} {c : Ctx} (hi : Issues s (.ret h) c) (hd : 0 < c.run.depth) :
    execRet h s = .next (settleWord (.ret h) s c (.done s.dev 1 []
      (c.on.map fun l => { goesTo c l (c.w.v l (c.w.hdr.vregs + (c.run.depth - 1))) with depth := c.run.depth - 1 }))) := by
  rw [execRet, runWord_issues hi, if_neg (Nat.ne_of_gt hd), Nat.add_sub_assoc hd]
  rfl

theorem execRet_at_zero {s : State} {h : Hdr} {c : Ctx} (hi : Issues s (.ret h) c) (hd : c.run.depth = 0) :
    execRet h s = .next (settleWord (.ret h) s c (.done s.dev 1 (trapsAt c.on 0x04 0 0 .here) [])) := by
  rw [execRet, runWord_issues hi, if_pos hd]

/-- CALL and CALLX are one word but for how a lane's target is found: the word's own offset and count, or its operand (R105, R383). -/
theorem exec_call_or_callx {i : Instr} {c : Ctx} {target : Nat → BitVec 32}
    (h : (∃ h off, i = .call h off ∧ ∀ l, target l = branchOffset c off) ∨
      (∃ h a, i = .callx h a ∧ ∀ l, target l = BitVec.ofNat 32 (c.get l .i32 a))) (s : State) :
    ∃ f : Ctx → Nat → BitVec 32, f c = target ∧ exec i s = callWord i s f := by
  rcases h with ⟨h, off, rfl, ht⟩ | ⟨h, a, rfl, ht⟩
  · exact ⟨fun c _ => c.branchTo off, funext fun l => (branchTo_eq_branchOffset c off).trans (ht l).symm, rfl⟩
  · exact ⟨fun c l => c.target a l, funext fun l => (ht l).symm, rfl⟩

/-- Settles O11: a call is one fold of equal writes over the guarded lanes, and RET reads the cell that the call one level up wrote. -/
theorem callAndReturn : Obligations.CallAndReturn := by
  refine ⟨fun s i c target hw h => ?_, fun s h c hi => ⟨execRet_below hi, execRet_at_zero hi⟩, fun c dev h l slot => rfl⟩
  obtain ⟨f, rfl, hexec⟩ := exec_call_or_callx hw s
  rw [hexec]
  refine ⟨fun hd => ?_, fun hd => callWord_at_depth h hd f⟩
  exact ⟨setLanes c.w c.on (c.w.hdr.vregs + c.run.depth) (nextOffset c), fun l hl => setLanes_v hl _ _,
    fun k hk => setLanes_get_other hk _, fun k hk => setLanes_badWords hk, setLanes_rest _ _ _ _, callWord_below h hd f⟩

end Sys2Proof.Proofs.Subroutines
end

section
/-! Proofs of the family of the reference from ACCLD to EXIT (spec/18): the words on bits. -/

namespace Sys2Proof.Proofs.IntegerBits

open Sys2Proof.Machine Sys2Proof.Safety Sys2Proof.Laws

/-! ### Sources of n bits -/

theorem truncI_eq_toNat (x : Int) (n : Nat) : truncI x n = (BitVec.ofInt n x).toNat := (BitVec.toNat_ofInt x).symm

theorem truncI_lt (x : Int) (n : Nat) : truncI x n < 2 ^ n := truncI_eq_toNat x n ▸ BitVec.isLt _

theorem inlineFloat_lt : ∀ n : Fin 16, inlineFloat n.val < 2 ^ 32 := by decide

theorem readLit_lt (r : Reader) (x : BitVec 58) : readLit r x < 2 ^ (if r.wide then 64 else 32) := by
  cases h : r.wide
  · simpa [readLit, h] using Nat.mod_lt _ (Nat.two_pow_pos 32)
  · simpa [readLit, h] using (x.signExtend 64).isLt

theorem intReader_wide (t : IntTy) : (intReader t).wide = t.wide := by cases t <;> rfl

/-- An operand that a class 1 word of width n reads has no bit at or above n (R95 to R98). -/
theorem rd_lt (c : Ctx) (h l : Nat) (t : IntTy) (o : Operand) : c.rd h l (intReader t) o < 2 ^ t.bits := by
  have fits : 2 ^ 32 ≤ 2 ^ t.bits := Nat.pow_le_pow_right Nat.two_pos (by cases t <;> decide)
  cases o with
  | vec n =>
    have lo := (c.w.v l n.val).isLt
    have hi := (c.w.v l (n.val + 1)).isLt
    simp only [Ctx.rd, Weft.opnd, intReader_wide, IntTy.bits]
    split <;> omega
  | scal n =>
    have full := (c.w.s h n.val).isLt
    simp only [Ctx.rd, Weft.opnd, intReader_wide, IntTy.bits]
    split <;> omega
  | imm n => cases t <;> exact truncI_lt _ _
  | fimm n => cases t <;> exact Nat.lt_of_lt_of_le (inlineFloat_lt n) fits
  | p n => exact Nat.lt_of_lt_of_le (Bool.toNat_lt _) (Nat.le_trans (by decide) fits)
  | q n => exact Nat.lt_of_lt_of_le (Bool.toNat_lt _) (Nat.le_trans (by decide) fits)
  | lit =>
    unfold Ctx.rd Weft.opnd
    cases c.lit with
    | none => exact Nat.two_pow_pos _
    | some x => simpa only [intReader_wide, IntTy.bits] using readLit_lt (intReader t) x

/-! ### Bits of truncated integers -/

theorem nbit_eq_testBit (n k : Nat) : nbit n k = n.testBit k := by
  rw [Nat.testBit_eq_decide_div_mod_eq, nbit, Bool.beq_eq_decide_eq]

theorem testBit_eq_false_of_le {n x k : Nat} (hx : x < 2 ^ n) (hk : n ≤ k) : x.testBit k = false :=
  Nat.testBit_lt_two_pow (Nat.lt_of_lt_of_le hx (Nat.pow_le_pow_right Nat.two_pos hk))

/-- The complement of an n-bit number within n bits. -/
theorem testBit_complement {n x k : Nat} (hx : x < 2 ^ n) (hk : k < n) : (2 ^ n - 1 - x).testBit k = !x.testBit k := by
  rw [Nat.sub_sub, Nat.add_comm, Nat.testBit_two_pow_sub_succ hx]
  simp [hk]

/-- A narrower truncation keeps the bits below its width. -/
theorem testBit_truncI_of_le (x : Int) {m n k : Nat} (hm : m ≤ n) (hk : k < m) : (truncI x m).testBit k = (truncI x n).testBit k := by
  have h : truncI x m = truncI x n % 2 ^ m := by
    have e : x % (2 ^ n : Nat) % (2 ^ m : Nat) = x % (2 ^ m : Nat) :=
      Int.emod_emod_of_dvd x (Int.natCast_dvd_natCast.mpr (Nat.pow_dvd_pow 2 hm))
    have nonneg : 0 ≤ x % (2 ^ n : Nat) := Int.emod_nonneg x (Int.natCast_ne_zero.mpr (Nat.ne_of_gt (Nat.two_pow_pos n)))
    rw [truncI, truncI, ← e, Int.toNat_emod nonneg (Int.natCast_nonneg _), Int.toNat_natCast]
  rw [h, Nat.testBit_mod_two_pow]
  simp [hk]

/-- The floor of a signed n-bit number divided by a power of two repeats the sign above the top. -/
theorem testBit_truncI_sxN_div (a : Nat) {n k : Nat} (c : Nat) (hk : k < n) :
    (truncI (sxN a n / (2 ^ c : Nat)) n).testBit k = a.testBit (min (k + c) (n - 1)) := by
  rw [sxN, ← Int.shiftRight_eq_div_pow, ← BitVec.toInt_sshiftRight, truncI_eq_toNat, BitVec.ofInt_toInt, BitVec.testBit_toNat,
    BitVec.getLsbD_sshiftRight, BitVec.msb_eq_getLsbD_last, BitVec.getLsbD_ofNat, BitVec.getLsbD_ofNat, Nat.add_comm c]
  by_cases h : k + c < n
  · simp [h, hk, show min (k + c) (n - 1) = k + c by omega]
  · simp [h, Nat.not_le.mpr hk, show min (k + c) (n - 1) = n - 1 by omega, Nat.sub_lt (Nat.zero_lt_of_lt hk)]

/-- A signed field of m bits widened repeats its top bit. -/
theorem testBit_truncI_sxN (f : Nat) {m n k : Nat} (hm : 0 < m) (hk : k < n) :
    (truncI (sxN f m) n).testBit k = f.testBit (min k (m - 1)) := by
  rw [sxN, truncI_eq_toNat, ← BitVec.signExtend, BitVec.testBit_toNat, BitVec.getLsbD_signExtend, BitVec.msb_eq_getLsbD_last,
    BitVec.getLsbD_ofNat, BitVec.getLsbD_ofNat]
  by_cases h : k < m
  · simp [h, hk, show min k (m - 1) = k by omega]
  · simp [h, hk, show min k (m - 1) = m - 1 by omega, Nat.sub_lt hm]

theorem wideBit_of_signed {t : IntTy} (h : t.signed = true) (a j : Nat) : wideBit t a j = a.testBit (min j (t.bits - 1)) := by
  by_cases hj : j < t.bits
  · simp [wideBit, hj, show min j (t.bits - 1) = j by omega]
  · simp [wideBit, hj, h, show min j (t.bits - 1) = t.bits - 1 by omega]

theorem wideBit_of_unsigned {t : IntTy} (h : t.signed = false) {a : Nat} (ha : a < 2 ^ t.bits) (j : Nat) : wideBit t a j = a.testBit j := by
  by_cases hj : j < t.bits
  · simp [wideBit, hj]
  · simp [wideBit, hj, h, testBit_eq_false_of_le ha (Nat.le_of_not_lt hj)]

/-- Bits of the floor of a source divided by a power of two, as its type reads it (R382). -/
theorem testBit_truncI_intVal_div {t : IntTy} {a k : Nat} (c : Nat) (ha : a < 2 ^ t.bits) (hk : k < t.bits) :
    (truncI (intVal t a / (2 ^ c : Nat)) t.bits).testBit k = wideBit t a (k + c) := by
  cases hs : t.signed with
  | true => rw [wideBit_of_signed hs, intVal, if_pos hs, testBit_truncI_sxN_div a c hk]
  | false =>
    rw [wideBit_of_unsigned hs ha, intVal, hs, if_neg Bool.false_ne_true, ← Int.natCast_ediv, truncI_eq_toNat, BitVec.ofInt_natCast,
      BitVec.testBit_toNat, BitVec.getLsbD_ofNat, Nat.testBit_div_two_pow]
    simp [hk]

/-! ### Shifts (R430) -/

theorem shiftCount_eq_countOf (m : ShMod) (b : Nat) : shiftCount m.clamp m.ty.bits b = countOf m b := rfl

theorem shlVal_bits (m : ShMod) (a b : Nat) : BitsAre m.ty.bits (shlVal m.clamp m.ty.bits a b) fun k =>
    decide (countOf m b ≤ k) && a.testBit (k - countOf m b) := fun k hk => by
  rw [shlVal, shiftCount_eq_countOf, Nat.testBit_mod_two_pow, Nat.testBit_mul_two_pow]
  simp [hk]

theorem shrVal_bits (m : ShMod) {a : Nat} (b : Nat) (ha : a < 2 ^ m.ty.bits) : BitsAre m.ty.bits (shrVal m.clamp m.ty.bits a b) fun k =>
    decide (k + countOf m b < m.ty.bits) && a.testBit (k + countOf m b) := fun k _ => by
  rw [shrVal, shiftCount_eq_countOf, Nat.testBit_div_two_pow]
  by_cases h : k + countOf m b < m.ty.bits
  · simp [h]
  · simp [h, testBit_eq_false_of_le ha (Nat.le_of_not_lt h)]

theorem sarVal_bits (m : ShMod) (a b : Nat) : BitsAre m.ty.bits (sarVal m.clamp m.ty.bits a b) fun k =>
    a.testBit (min (k + countOf m b) (m.ty.bits - 1)) := fun k hk => by
  rw [sarVal, shiftCount_eq_countOf, testBit_truncI_sxN_div a _ hk]

/-! ### Fields (R381, R382) -/

/-- The field that BFX cuts out, before it is widened: below its length it shows the source, continued above its top. -/
theorem bfxField_bits {t : IntTy} {a len k : Nat} (pos : Nat) (ha : a < 2 ^ t.bits) (hl : len ≤ t.bits) (hk : k < len) :
    (truncI (intVal t a / (2 ^ pos : Nat)) len).testBit k = wideBit t a (pos + k) := by
  rw [testBit_truncI_of_le _ hl hk, testBit_truncI_intVal_div pos ha (Nat.lt_of_lt_of_le hk hl), Nat.add_comm]

theorem bfxVal_bits (t : IntTy) {a : Nat} (b c : Nat) (ha : a < 2 ^ t.bits) : BitsAre t.bits (bfxVal t a b c) fun k =>
    if k < min (c % 256) t.bits then wideBit t a (b % 256 + k)
    else t.signed && decide (min (c % 256) t.bits ≠ 0) && wideBit t a (b % 256 + min (c % 256) t.bits - 1) := fun k hk => by
  have hl : min (c % 256) t.bits ≤ t.bits := Nat.min_le_right _ _
  simp only [bfxVal]
  generalize min (c % 256) t.bits = len at hl ⊢
  have field {j : Nat} (hj : j < len) := bfxField_bits (b % 256) ha hl hj
  by_cases h0 : len = 0
  · simp [h0]
  rw [if_neg h0]
  cases hs : t.signed with
  | true =>
    rw [if_pos rfl, testBit_truncI_sxN _ (Nat.pos_of_ne_zero h0) hk, field (by omega)]
    by_cases h : k < len
    · simp [h, show min k (len - 1) = k by omega]
    · simp [h, h0, show min k (len - 1) = len - 1 by omega, Nat.add_sub_assoc (Nat.pos_of_ne_zero h0)]
  | false =>
    by_cases h : k < len
    · rw [if_neg Bool.false_ne_true, if_pos h, field h]
    · simpa [h] using testBit_eq_false_of_le (truncI_lt _ len) (Nat.le_of_not_lt h)

theorem bfiVal_bits (n a b c : Nat) : BitsAre n (bfiVal n a b c) fun k =>
    if c % 256 ≤ k ∧ k < c % 256 + c / 256 % 256 then a.testBit (k - c % 256) else b.testBit k := fun k hk => by
  simp only [bfiVal]
  generalize c % 256 = pos
  generalize c / 256 % 256 = len
  have mask : ((2 ^ len - 1) * 2 ^ pos % 2 ^ n).testBit k = decide (pos ≤ k ∧ k < pos + len) := by
    rw [Nat.testBit_mod_two_pow, Nat.testBit_mul_two_pow, Nat.testBit_two_pow_sub_one, Bool.eq_iff_iff]
    simp only [Bool.and_eq_true, decide_eq_true_eq]
    omega
  rw [Nat.testBit_or, Nat.testBit_and, Nat.testBit_and, testBit_complement (Nat.mod_lt _ (Nat.two_pow_pos n)) hk, mask,
    Nat.testBit_mod_two_pow, Nat.testBit_mul_two_pow]
  by_cases h : pos ≤ k ∧ k < pos + len
  · simp [h, hk]
  · simp [h]

/-! ### Counts and reversal (R385, R388, R430) -/

theorem popcVal_eq_countP (n a : Nat) : popcVal n a = (List.range n).countP fun k => a.testBit k := by
  simp only [popcVal, nbit_eq_testBit, List.countP_eq_length_filter]

/-- The leading zeros of an n-bit number: as many as n at most, all of them zeros, and a one below them. -/
theorem clzVal_counts {n a : Nat} (ha : a < 2 ^ n) : clzVal n a ≤ n ∧ (∀ k, k < n → n - clzVal n a ≤ k → a.testBit k = false) ∧
    (clzVal n a < n → a.testBit (n - 1 - clzVal n a) = true) := by
  by_cases h0 : a = 0
  · simp [clzVal, h0]
  have hlog : a.log2 < n := (Nat.log2_lt h0).mpr ha
  rw [clzVal, if_neg h0]
  refine ⟨by omega, fun k _ hk => ?_, fun _ => ?_⟩
  · exact Nat.testBit_lt_two_pow ((Nat.log2_lt h0).mp (by omega))
  · rw [show n - 1 - (n - 1 - a.log2) = a.log2 by omega]
    exact Nat.testBit_log2 h0

/-- The sum that BREV has formed after the lowest j bits of its source. -/
def brevSum (n a j : Nat) : Nat := (List.range j).foldl (fun r k => r + if nbit a k then 2 ^ (n - 1 - k) else 0) 0

theorem brevVal_eq_brevSum (n a : Nat) : brevVal n a = brevSum n a n := rfl

theorem brevSum_succ (n a j : Nat) : brevSum n a (j + 1) = brevSum n a j + if a.testBit j then 2 ^ (n - 1 - j) else 0 := by
  rw [brevSum, List.range_succ, List.foldl_append, List.foldl_cons, List.foldl_nil, nbit_eq_testBit, brevSum]

/-- Nothing stands below the place of the last bit added. -/
theorem brevSum_dvd (n a j : Nat) : 2 ^ (n - j) ∣ brevSum n a j := by
  induction j with
  | zero => exact Nat.dvd_zero _
  | succ j ih =>
    rw [brevSum_succ]
    refine Nat.dvd_add (Nat.dvd_trans (Nat.pow_dvd_pow 2 (by omega)) ih) ?_
    split
    · exact Nat.pow_dvd_pow 2 (by omega)
    · exact Nat.dvd_zero _

/-- A multiple of a power of two and a number below that power share no bit, so that their sum carries nowhere. -/
theorem add_eq_or_of_dvd {x y i : Nat} (hx : 2 ^ i ∣ x) (hy : y < 2 ^ i) : x + y = x ||| y := by
  obtain ⟨q, rfl⟩ := hx
  exact Nat.two_pow_add_eq_or_of_lt hy q

theorem brevSum_bits (n a : Nat) {j : Nat} (hj : j ≤ n) :
    BitsAre n (brevSum n a j) fun k => decide (n - j ≤ k) && a.testBit (n - 1 - k) := by
  induction j with
  | zero => exact fun k hk => by simp [brevSum, Nat.not_le.mpr hk]
  | succ j ih =>
    intro k hk
    have below : (if a.testBit j then 2 ^ (n - 1 - j) else 0) < 2 ^ (n - j) := by
      split
      · exact Nat.pow_lt_pow_right (by decide) (by omega)
      · exact Nat.two_pow_pos _
    have added : (if a.testBit j then 2 ^ (n - 1 - j) else 0).testBit k = (decide (n - 1 - j = k) && a.testBit j) := by
      split <;> simp [*, Nat.testBit_two_pow]
    rw [brevSum_succ, add_eq_or_of_dvd (brevSum_dvd n a j) below, Nat.testBit_or, ih (Nat.le_of_succ_le hj) k hk, added]
    by_cases h : n - 1 - j = k
    · simp [h, show n - (j + 1) ≤ k by omega, show ¬n - j ≤ k by omega, show n - 1 - k = j by omega]
    · simp [h, show n - (j + 1) ≤ k ↔ n - j ≤ k by omega]

theorem brevVal_bits (n a : Nat) : BitsAre n (brevVal n a) fun k => a.testBit (n - 1 - k) := fun k hk => by
  rw [brevVal_eq_brevSum, brevSum_bits n a (Nat.le_refl n) k hk]
  simp

/-! ### The words -/

/-- Every word on bits is a class 1 word whose value has the bits that its entry gives. -/
theorem exec_bitWord {i : Instr} {t : IntTy} {d : Operand} (h : bitShape i = some (t, d)) :
    ∃ f : (Operand → Nat) → Nat, (∀ s, exec i s = intWord i s t d (plainCycles d) f) ∧
      ∀ g : Operand → Nat, (∀ o, g o < 2 ^ t.bits) → BitResult i g (f g) := by
  cases i with
  | and _ _ _ a b =>
    cases h
    exact ⟨fun g => g a &&& g b, fun _ => rfl, fun g _ k _ => Nat.testBit_and ..⟩
  | or _ _ _ a b =>
    cases h
    exact ⟨fun g => g a ||| g b, fun _ => rfl, fun g _ k _ => Nat.testBit_or ..⟩
  | xor _ _ _ a b =>
    cases h
    exact ⟨fun g => g a ^^^ g b, fun _ => rfl, fun g _ k _ => Nat.testBit_xor ..⟩
  | not _ t _ a =>
    cases h
    exact ⟨fun g => 2 ^ t.bits - 1 - g a, fun _ => rfl, fun g hg k hk => testBit_complement (hg _) hk⟩
  | shl _ m _ a b =>
    cases h
    exact ⟨fun g => shlVal m.clamp m.ty.bits (g a) (g b), fun _ => rfl, fun g _ => shlVal_bits _ _ _⟩
  | shr _ m _ a b =>
    cases h
    exact ⟨fun g => shrVal m.clamp m.ty.bits (g a) (g b), fun _ => rfl, fun g hg => shrVal_bits _ _ (hg _)⟩
  | sar _ m _ a b =>
    cases h
    exact ⟨fun g => sarVal m.clamp m.ty.bits (g a) (g b), fun _ => rfl, fun g _ => sarVal_bits _ _ _⟩
  | bfx _ t _ a b c =>
    cases h
    exact ⟨fun g => bfxVal t (g a) (g b) (g c), fun _ => rfl, fun g hg => bfxVal_bits _ _ _ (hg _)⟩
  | bfi _ t _ a b c =>
    cases h
    exact ⟨fun g => bfiVal t.bits (g a) (g b) (g c), fun _ => rfl, fun g _ => bfiVal_bits _ _ _ _⟩
  | popc _ t _ a =>
    cases h
    exact ⟨fun g => popcVal t.bits (g a), fun _ => rfl, fun g _ => popcVal_eq_countP _ _⟩
  | clz _ t _ a =>
    cases h
    exact ⟨fun g => clzVal t.bits (g a), fun _ => rfl, fun g hg => clzVal_counts (hg _)⟩
  | brev _ t _ a =>
    cases h
    exact ⟨fun g => brevVal t.bits (g a), fun _ => rfl, fun g _ => brevVal_bits _ _⟩
  | _ => cases h

/-- Settles O2: each word's value has the bits of its entry because its sources have no bit above the width; the writes, the cycles and
the frame are those of every class 1 word. -/
theorem integerBits : Obligations.IntegerBits := by
  intro s i c t d hs h
  obtain ⟨f, hexec, hbits⟩ := exec_bitWord hs
  obtain ⟨w', hw, hword⟩ := intWord_issues h t d (plainCycles d) f
  exact ⟨w', _, fun u _ => hbits _ (rd_lt c u.1 u.2 t), hw, (hexec s).trans hword⟩

end Sys2Proof.Proofs.IntegerBits
end
